-- ==== Sys2Proof/Word.lean ====
section
/-! DEFINITION. The word types of the block (R8): every width the spec fixes, and nothing else. -/

namespace Sys2Proof

/-- One symbol, one byte of a buffer (SYM_W = 8). -/
abbrev Byte := BitVec 8

/-- One host-visible register, one count, one weight, one command word (REG_W, CNT_W, W_W, CMD_W = 32). -/
abbrev Word := BitVec 32

/-- A node handle (H_W = 9, R45). -/
abbrev Handle := BitVec 9

/-- The code field of one symbol (CODE_W = 255, R49). -/
abbrev CodeBits := BitVec 255

end Sys2Proof
end

