-- ==== Sys2Proof/Syntax.lean ====
section
/-! DEFINITION. The command set (R87): one constructor per row of the opcode table. -/

namespace Sys2Proof

/-- A command. The three commands with an operand carry their 8-bit IMM field as it stands in the word (R85, R86):
a symbol for FACCB and PSYM, a bit in IMM[0] for PBIT. -/
inductive Instr where
  | nop
  | fclr
  | faccb (imm : Byte)
  | facc
  | tbld
  | cgen
  | pinit
  | pbit (imm : Byte)
  | psym (imm : Byte)
  | pack
  | pflush
  | uinit
  | usym
  | unpk
  | hput
  | hget
  | comp
  | decomp
  | eclr
  | srst
  deriving DecidableEq, Repr

end Sys2Proof
end

