-- ==== Sys2Proof/WellFormed.lean ====
section
/-! DEFINITION. Which terms of `Instr` are commands of the block: the one operand restriction the encoding has. -/

namespace Sys2Proof

/-- R86: every IMM is a symbol for FACCB and PSYM; for PBIT, IMM[7:1] must be 0. -/
def WellFormed : Instr → Bool
  | .pbit imm => imm.extractLsb' 1 7 == 0#7
  | .nop | .fclr | .faccb _ | .facc | .tbld | .cgen | .pinit | .psym _ | .pack | .pflush | .uinit | .usym | .unpk
  | .hput | .hget | .comp | .decomp | .eclr | .srst => true

end Sys2Proof
end

