-- ==== Sys2Proof/Decode.lean ====
section
/-! DEFINITION. The command decoder, total on all words (R88), rejecting by name (R89), and the encoder (R85 to R87). -/

namespace Sys2Proof

/-- Why a word is illegal (R89). -/
inductive DecodeError where
  | zeroFieldSet
  | reservedOpcode
  | immNotZero
  | bitOperandTooWide
  deriving DecidableEq, Repr

/-- OP, bits 7:0 (R85). -/
def opField (c : Word) : Byte := c.extractLsb' 0 8

/-- IMM, bits 15:8 (R85). -/
def immField (c : Word) : Byte := c.extractLsb' 8 8

/-- ZERO, bits 31:16 (R85). -/
def zeroField (c : Word) : BitVec 16 := c.extractLsb' 16 16

/-- A command without an operand needs IMM = 0 (R85, R88). -/
def noOperand (imm : Byte) (i : Instr) : Except DecodeError Instr :=
  if imm = 0#8 then .ok i else .error .immNotZero

/-- The opcode map (R87) with the operand checks of R88. -/
def decodeFields (op imm : Byte) : Except DecodeError Instr :=
  match op.toNat with
  | 0x00 => noOperand imm .nop
  | 0x01 => noOperand imm .fclr
  | 0x02 => .ok (.faccb imm)
  | 0x03 => noOperand imm .facc
  | 0x04 => noOperand imm .tbld
  | 0x05 => noOperand imm .cgen
  | 0x06 => noOperand imm .pinit
  | 0x07 => if imm.extractLsb' 1 7 = 0#7 then .ok (.pbit imm) else .error .bitOperandTooWide
  | 0x08 => .ok (.psym imm)
  | 0x09 => noOperand imm .pack
  | 0x0A => noOperand imm .pflush
  | 0x0B => noOperand imm .uinit
  | 0x0C => noOperand imm .usym
  | 0x0D => noOperand imm .unpk
  | 0x0E => noOperand imm .hput
  | 0x0F => noOperand imm .hget
  | 0x10 => noOperand imm .comp
  | 0x11 => noOperand imm .decomp
  | 0x12 => noOperand imm .eclr
  | 0x13 => noOperand imm .srst
  | _ => .error .reservedOpcode

/-- Decode(c) of R88; an error is its ILLEGAL. -/
def decode (c : Word) : Except DecodeError Instr :=
  if zeroField c = 0#16 then decodeFields (opField c) (immField c) else .error .zeroFieldSet

/-- A word written from a table entry: the low `nbits` bits of `w`, every bit above them 0. -/
def tableWord (nbits w : Nat) : Word := BitVec.ofNat 32 (w % 2 ^ nbits)

/-- The instruction the decoder reads from a word numbered as the opcode table numbers its bits. -/
def decodeTableWord (nbits w : Nat) : Option Instr := (decode (tableWord nbits w)).toOption

/-- The OP column of R87. -/
def opcode : Instr → Byte
  | .nop => 0x00
  | .fclr => 0x01
  | .faccb _ => 0x02
  | .facc => 0x03
  | .tbld => 0x04
  | .cgen => 0x05
  | .pinit => 0x06
  | .pbit _ => 0x07
  | .psym _ => 0x08
  | .pack => 0x09
  | .pflush => 0x0A
  | .uinit => 0x0B
  | .usym => 0x0C
  | .unpk => 0x0D
  | .hput => 0x0E
  | .hget => 0x0F
  | .comp => 0x10
  | .decomp => 0x11
  | .eclr => 0x12
  | .srst => 0x13

/-- The IMM field of a command: its operand, or 0 (R85). -/
def operand : Instr → Byte
  | .faccb imm | .pbit imm | .psym imm => imm
  | .nop | .fclr | .facc | .tbld | .cgen | .pinit | .pack | .pflush | .uinit | .usym | .unpk | .hput | .hget | .comp
  | .decomp | .eclr | .srst => 0

/-- The command word: ZERO ++ IMM ++ OP (R85, R99). -/
def encode (i : Instr) : Word := (0#16 ++ operand i) ++ opcode i

end Sys2Proof
end

