-- ==== Sys2Proof/Config.lean ====
section
/-! DEFINITION. What an implementation fixes (R8, R9, R31) and the free values: constants without a body that stand
for what the spec calls unspecified. -/

namespace Sys2Proof.Config

/-- The two OPEN parameters (R9, D4): the capacities of the buffers in bytes. Thirty-two bits hold the upper bound
2^32 − 1; `Params.wf` is the lower bound. DESIGN CHOICE (log 2): they ride in State, which no step changes. -/
structure Params where
  ibufSize : Word
  obufSize : Word
  deriving DecidableEq, Repr

/-- 1 ≤ size for both buffers (R9). -/
def Params.wf (p : Params) : Bool :=
  decide (1 ≤ p.ibufSize) && decide (1 ≤ p.obufSize)

/-- The capacities the reset state carries: those of 95_test_vectors.md. DESIGN CHOICE (log 2). -/
def defaultParams : Params := ⟨4096, 4096⟩

/-- MAGIC, the four marker bytes in buffer order (R8, D7). -/
def magic : List Byte := [0x48, 0x55, 0x46, 0x31]

/-- The read-only ID register (R1, R31). -/
def idWord : Word := 0x48464131

/-- The read-only MAGICR register (R31). -/
def magicWord : Word := 0x48554631

/-- MAXLEN = 2^32 − 1 (R8, R119), as a number. -/
def maxLen : Nat := 2 ^ 32 - 1

/-- What byte `a` of IBUF holds while nothing has written it (R54, U12: any value); the first argument is the
buffer's epoch. Free value, log 3. -/
opaque freeIbuf : Nat → Nat → Byte

/-- What byte `a` of OBUF holds while nothing has written it (R54, U12) or after an error (R262, U13). Free value,
logs 3 and 4. -/
opaque freeObuf : Nat → Nat → Byte

/-- What the n-th host read of an unspecified register returns (R32, R33, R300). Free value, log 6. -/
opaque freeWord : Nat → Word

/-- What the n-th host read of a buffer byte returns while BUSY = 1 (R300). Free value, log 8. -/
opaque freeByte : Nat → Byte

end Sys2Proof.Config
end

