-- ==== Sys2Proof/Machine/State.lean ====
section
/-! DEFINITION. The state of the block as plain data (R20), the reasons a step can stop, and the state after reset
(R54, R290). -/

namespace Sys2Proof.Machine

open Sys2Proof

/-- STATUS (R27): the six flags; bits 31:6 have no storage. -/
structure Status where
  busy      : Bool
  done      : Bool
  err       : Bool
  drop      : Bool
  treeValid : Bool
  codeValid : Bool
  deriving DecidableEq, Repr

/-- CTRL (R30): the two interrupt enables; bits 31:2 have no storage. -/
structure Ctrl where
  ieDone : Bool
  ieErr  : Bool
  deriving DecidableEq, Repr

/-- The frequency accumulator (R21, R40): the 256 counters with their sum and the number of non-zero ones. -/
structure FreqTable where
  freq  : Vector Word 256
  total : Word
  nsym  : Word
  deriving DecidableEq, Repr

/-- One entry of the internal-node store (R46). -/
structure INode where
  weight : Word
  left   : Handle
  right  : Handle
  lsym   : Byte
  deriving DecidableEq, Repr

/-- The tree (R46, R47): the internal-node store, NINT, and ROOT as NONEMPTY with a handle. -/
structure Tree where
  inode    : Vector INode 255
  nint     : Byte
  nonempty : Bool
  root     : Handle
  deriving DecidableEq, Repr

/-- The code table (R49). -/
structure CodeTable where
  clen  : Vector Byte 256
  cbits : Vector CodeBits 256
  deriving DecidableEq, Repr

/-- The bit packer (R51). -/
structure Packer where
  acc : Byte
  nb  : BitVec 3
  deriving DecidableEq, Repr

/-- The bit unpacker (R21, R52). -/
structure Unpacker where
  bidx : BitVec 3
  cur  : Handle
  rem  : Word
  deriving DecidableEq, Repr

/-- Memory as plain data: the bytes something has written, addresses strictly rising (`Memory.wf`). An address that
is not listed has no value of its own (`Memory.read` answers none). -/
abbrev Memory := List Host.Cell

/-- IBUF or OBUF (R60): the bytes written so far. The epoch names the free contents the unlisted addresses have
(the model's own field, logs 3 and 4). -/
structure Buffer where
  cells : Memory
  epoch : Nat
  deriving DecidableEq, Repr

/-- One move of the host (R60, R73), or the assertion of the reset input (R290). A command is a `regWrite` of its
word at offset 0 (R26). -/
inductive HostMove where
  | regWrite (off : Nat) (v : Word)
  | regRead (off : Nat)
  | ibufWrite (a : Nat) (b : Byte)
  | ibufRead (a : Nat)
  | obufWrite (a : Nat) (b : Byte)
  | obufRead (a : Nat)
  | rst
  deriving DecidableEq, Repr

/-- All the state of the block (R20), with the parameters (R9) and the model's own fields `inbox`, `hostData`,
`freeCtr` (logs 1, 2, 6). -/
structure State where
  params   : Config.Params
  status   : Status
  errCode  : Word
  errInfo  : Word
  ctrl     : Ctrl
  inLen    : Word
  inPtr    : Word
  outLen   : Word
  table    : FreqTable
  tree     : Tree
  code     : CodeTable
  packer   : Packer
  unpacker : Unpacker
  csel     : Byte
  nsel     : Byte
  ibuf     : Buffer
  obuf     : Buffer
  inbox    : List HostMove
  hostData : Word
  freeCtr  : Nat
  deriving DecidableEq, Repr

/-- What stops the machine for good. The spec's own errors (R255) are states, not faults. -/
inductive Fault where
  /-- Raised by CGEN (and by COMP through it) when its walk is deeper than any tree of 256 leaves: the node store is
  no tree. No run builds such a store (R46, R311). Safe: the model stops where the spec says nothing. Log 11. -/
  | walkTooDeep
  deriving DecidableEq, Repr

/-- Why a step has no meaning. -/
inductive Refusal where
  /-- Raised by an arm of `exec` that has no meaning yet. Safe. -/
  | notModelled (mnemonic : String)
  /-- Raised by a host move at an address or offset the interface does not have (R65, R73). Safe: the spec gives such
  a move no meaning. Log 10. -/
  | hostAccessOutside
  /-- Raised by a host write to IBUF or OBUF while BUSY = 1 (R300, U16 `refuse`), a state no run reaches. Safe.
  Log 8. -/
  | bufferWriteWhileBusy
  deriving DecidableEq, Repr

/-- The clear frequency table (R41, R116). -/
def FreqTable.zero : FreqTable := ⟨Vector.replicate 256 0#32, 0#32, 0#32⟩

/-- The tree fields at reset. DESIGN CHOICE (log 5): the spec leaves them unspecified, TREE_VALID = 0 marks them so. -/
def Tree.zero : Tree := ⟨Vector.replicate 255 ⟨0#32, 0#9, 0#9, 0#8⟩, 0#8, false, 0#9⟩

/-- The code-table fields at reset (log 5), and the table CGEN starts from (R152). -/
def CodeTable.zero : CodeTable := ⟨Vector.replicate 256 0#8, Vector.replicate 256 0#255⟩

/-- The machine right after hardware reset (R54, R290), with nothing placed in the inbox. -/
def State.reset : State where
  params   := Config.defaultParams
  status   := ⟨false, false, false, false, false, false⟩
  errCode  := 0#32
  errInfo  := 0#32
  ctrl     := ⟨false, false⟩
  inLen    := 0#32
  inPtr    := 0#32
  outLen   := 0#32
  table    := FreqTable.zero
  tree     := Tree.zero
  code     := CodeTable.zero
  packer   := ⟨0#8, 0#3⟩
  unpacker := ⟨0#3, 0#9, 0#32⟩
  csel     := 0#8
  nsel     := 0#8
  ibuf     := ⟨[], 0⟩
  obuf     := ⟨[], 0⟩
  inbox    := []
  hostData := 0#32
  freeCtr  := 0

end Sys2Proof.Machine
end

