-- ==== Sys2Proof/Machine/Ops.lean ====
section
/-! DEFINITION. The named operations over the state: field updates, the two buffers (R60, R69 to R71), the errors and
error entry (R255 to R262), and the way a command body ends. -/

namespace Sys2Proof.Machine

open Sys2Proof

/-! ### Field updates -/

def State.setStatus (s : State) (v : Status) : State := { s with status := v }
def State.setError (s : State) (code info : Word) : State := { s with errCode := code, errInfo := info }
def State.setCtrl (s : State) (v : Ctrl) : State := { s with ctrl := v }
def State.setInLen (s : State) (v : Word) : State := { s with inLen := v }
def State.setInPtr (s : State) (v : Word) : State := { s with inPtr := v }
def State.setOutLen (s : State) (v : Word) : State := { s with outLen := v }
def State.setTable (s : State) (v : FreqTable) : State := { s with table := v }
def State.setTree (s : State) (v : Tree) : State := { s with tree := v }
def State.setCode (s : State) (v : CodeTable) : State := { s with code := v }
def State.setPacker (s : State) (v : Packer) : State := { s with packer := v }
def State.setUnpacker (s : State) (v : Unpacker) : State := { s with unpacker := v }
def State.setCsel (s : State) (v : Byte) : State := { s with csel := v }
def State.setNsel (s : State) (v : Byte) : State := { s with nsel := v }
def State.setIbuf (s : State) (v : Buffer) : State := { s with ibuf := v }
def State.setObuf (s : State) (v : Buffer) : State := { s with obuf := v }
def State.setInbox (s : State) (v : List HostMove) : State := { s with inbox := v }

/-! ### Memory -/

/-- The canonical form: addresses strictly rising. An unlisted address has no value, so no entry can equal what an
unlisted address reads as. -/
abbrev Memory.wf (m : Memory) : Prop := m.Pairwise fun x y => x.1 < y.1

/-- The byte listed at an address; none where nothing has written it. -/
def Memory.read : Memory → Nat → Option Byte
  | [], _ => none
  | (x, c) :: m, a => if a = x then some c else Memory.read m a

/-- List byte `b` at address `a`, keeping the addresses rising. -/
def Memory.write : Memory → Nat → Byte → Memory
  | [], a, b => [(a, b)]
  | (x, c) :: m, a, b =>
    if a < x then (a, b) :: (x, c) :: m
    else if a = x then (a, b) :: m
    else (x, c) :: Memory.write m a b

/-- The byte a buffer holds at an address: the listed one, else the free byte of the buffer's epoch. -/
def Buffer.byte (free : Nat → Nat → Byte) (b : Buffer) (a : Nat) : Byte :=
  (Memory.read b.cells a).getD (free b.epoch a)

def Buffer.store (b : Buffer) (a : Nat) (v : Byte) : Buffer := { b with cells := Memory.write b.cells a v }

/-- Every byte of the buffer becomes unspecified (R54 for reset, R262 for OBUF after an error). -/
def Buffer.forget (b : Buffer) : Buffer := ⟨[], b.epoch + 1⟩

/-- IBUF[a]. -/
def State.ibufByte (s : State) (a : Nat) : Byte := s.ibuf.byte Config.freeIbuf a

/-- OBUF[a]. -/
def State.obufByte (s : State) (a : Nat) : Byte := s.obuf.byte Config.freeObuf a

/-! ### Errors -/

/-- The errors of R256 to R261, one constructor per SUB. -/
inductive ErrorKind where
  | formatShort | formatMagic | formatSymcount | formatOrder | formatZerocount | formatSum
  | corruptExhausted | corruptBadbit
  | illegalCommand
  | seqNotree | seqNocodetable | seqEmptytree | seqRemzero
  | capCount | capObuf | capInlen
  | noCode
  deriving DecidableEq, Repr

/-- CAUSE (R255 to R261). -/
def ErrorKind.cause : ErrorKind → BitVec 4
  | .formatShort | .formatMagic | .formatSymcount | .formatOrder | .formatZerocount | .formatSum => 1
  | .corruptExhausted | .corruptBadbit => 2
  | .illegalCommand => 3
  | .seqNotree | .seqNocodetable | .seqEmptytree | .seqRemzero => 4
  | .capCount | .capObuf | .capInlen => 5
  | .noCode => 6

/-- SUB (R256 to R261). -/
def ErrorKind.sub : ErrorKind → BitVec 4
  | .illegalCommand | .noCode => 0
  | .formatShort | .corruptExhausted | .seqNotree | .capCount => 1
  | .formatMagic | .corruptBadbit | .seqNocodetable | .capObuf => 2
  | .formatSymcount | .seqEmptytree | .capInlen => 3
  | .formatOrder | .seqRemzero => 4
  | .formatZerocount => 5
  | .formatSum => 6

/-- ERRCODE: zext_32(cause) | (zext_32(sub) << 8) (R262). -/
def ErrorKind.code (k : ErrorKind) : Word := k.cause.setWidth 32 ||| (k.sub.setWidth 32 <<< 8)

/-- What a `raise` carries: the error and its `info` (R15). -/
structure Raise where
  kind : ErrorKind
  info : Word
  deriving DecidableEq, Repr

/-- How the body of a command ends: at its end, at a `raise` with the writes made before it (R15, R263), or stuck
(log 11). -/
inductive Ran where
  | done (s : State)
  | raised (r : Raise) (s : State)
  | stuck (f : Fault)

/-- Run `f` after a part of a body that came to its end; a raise ends the whole body (R230). -/
def Ran.andThen (r : Ran) (f : State → Ran) : Ran :=
  match r with
  | .done s => f s
  | .raised e s => .raised e s
  | .stuck e => .stuck e

/-- Raise when the condition holds, else go on. -/
def guardRaise (bad : Bool) (k : ErrorKind) (info : Word) (s : State) : Ran :=
  if bad then .raised ⟨k, info⟩ s else .done s

/-! ### The buffer primitives -/

/-- CheckIn() (R69). -/
def checkIn (s : State) : Ran := guardRaise (decide (s.params.ibufSize < s.inLen)) .capInlen s.inLen s

/-- The byte InByte() returns: IBUF[IN_PTR] (R70). -/
def inByte (s : State) : Byte := s.ibufByte s.inPtr.toNat

/-- The state InByte() leaves: IN_PTR one further (R70). -/
def pastByte (s : State) : State := s.setInPtr (s.inPtr + 1#32)

/-- OBUF[OUT_LEN] <- v; OUT_LEN <- OUT_LEN + 1. -/
def appendByte (v : Byte) (s : State) : State :=
  (s.setObuf (s.obuf.store s.outLen.toNat v)).setOutLen (s.outLen + 1#32)

/-- OutByte(v) (R71). -/
def outByte (v : Byte) (s : State) : Ran :=
  if s.params.obufSize ≤ s.outLen then .raised ⟨.capObuf, s.outLen⟩ s else .done (appendByte v s)

/-- OutByte for each byte of a list, in order. -/
def outBytes : List Byte → State → Ran
  | [], s => .done s
  | v :: vs, s => (outByte v s).andThen (outBytes vs)

/-- All symbols in ascending order: the loop `for s in 0..255`. -/
def symbols : List Byte := (List.range 256).map (BitVec.ofNat 8)

end Sys2Proof.Machine
end

