-- ==== Sys2Proof/Machine/Flags.lean ====
section
/-! DEFINITION. The flags: the STATUS and CTRL words (R27, R30), what sets and clears each flag, the precondition
tests (R259), the interrupt line (R270), error entry (R262) and the command envelope (R230). -/

namespace Sys2Proof.Machine

open Sys2Proof

/-- One flag at its bit position. -/
def flagBit (b : Bool) (n : Nat) : Word := if b then 1#32 <<< n else 0#32

/-- The value STATUS reads as (R27). -/
def Status.word (f : Status) : Word :=
  flagBit f.busy 0 ||| flagBit f.done 1 ||| flagBit f.err 2 ||| flagBit f.drop 3 ||| flagBit f.treeValid 4
    ||| flagBit f.codeValid 5

/-- The value CTRL reads as (R30). -/
def Ctrl.word (c : Ctrl) : Word := flagBit c.ieDone 0 ||| flagBit c.ieErr 1

/-- What a write of `v` to CTRL stores (R30). -/
def Ctrl.ofWord (v : Word) : Ctrl := ⟨v.getLsbD 0, v.getLsbD 1⟩

/-- A host write of `v` to STATUS: write 1 to clear DONE and DROP, nothing else (R27). -/
def Status.clearBy (f : Status) (v : Word) : Status :=
  { f with done := f.done && !v.getLsbD 1, drop := f.drop && !v.getLsbD 3 }

/-- The interrupt line (R270). -/
def State.irq (s : State) : Bool := (s.status.done && s.ctrl.ieDone) || (s.status.err && s.ctrl.ieErr)

/-- STATUS.DROP <- 1 (R26, R36, R230, R266). -/
def markDrop (s : State) : State := s.setStatus { s.status with drop := true }

/-- TREE_VALID and CODE_VALID <- 0: FREQ may have changed, or TBLD starts (R27, R115, R137). -/
def clearValid (s : State) : State := s.setStatus { s.status with treeValid := false, codeValid := false }

/-- CODE_VALID <- 0: CGEN starts (R152). -/
def clearCodeValid (s : State) : State := s.setStatus { s.status with codeValid := false }

/-- TREE_VALID <- 1: TBLD ends (R137). -/
def markTreeValid (s : State) : State := s.setStatus { s.status with treeValid := true }

/-- CODE_VALID <- 1: CGEN ends (R152). -/
def markCodeValid (s : State) : State := s.setStatus { s.status with codeValid := true }

/-- `if STATUS.TREE_VALID = 0: raise SequenceError(NOTREE)` (R259). -/
def needTree (s : State) : Ran := guardRaise (!s.status.treeValid) .seqNotree 0#32 s

/-- `if STATUS.CODE_VALID = 0: raise SequenceError(NOCODETABLE)` (R259). -/
def needCode (s : State) : Ran := guardRaise (!s.status.codeValid) .seqNocodetable 0#32 s

/-- Error entry, HFA's way of taking an exception (R262): ERRCODE and ERRINFO record the cause, OUT_LEN <- 0, ERR <- 1,
BUSY <- 0, DONE stays as acceptance left it, and the contents of OBUF become unspecified (U13, log 4). -/
def errorEntry (r : Raise) (s : State) : State :=
  (((s.setError r.kind.code r.info).setOutLen 0#32).setObuf s.obuf.forget).setStatus
    { s.status with err := true, busy := false }

/-- The return from an error, the body of ECLR (R241, R267). -/
def errorReturn (s : State) : State := (s.setError 0#32 0#32).setStatus { s.status with err := false, drop := false }

/-- Acceptance of a command: BUSY <- 1, DONE <- 0 (R230). -/
def accept (s : State) : State := s.setStatus { s.status with busy := true, done := false }

/-- The normal end of every command but SRST: BUSY <- 0, DONE <- 1 (R230). -/
def finishDone (s : State) : State := s.setStatus { s.status with busy := false, done := true }

/-- The normal end of SRST: BUSY <- 0, DONE not set (R230, R242). -/
def finishQuiet (s : State) : State := s.setStatus { s.status with busy := false }

/-- The outcome of an accepted command, from the way its body ended (R230, R262). -/
def concludeWith (finish : State → State) : Ran → Host.Outcome State Fault Refusal
  | .done s => .next (finish s)
  | .raised r s => .next (errorEntry r s)
  | .stuck f => .fault f

/-- Issue (R230) of a command other than ECLR and SRST: dropped while BUSY or ERR is 1, else run. -/
def runCommand (body : State → Ran) (s : State) : Host.Outcome State Fault Refusal :=
  if s.status.busy || s.status.err then .next (markDrop s) else concludeWith finishDone (body (accept s))

/-- Issue (R230) of ECLR or SRST: accepted while ERR is 1 too (R266). -/
def runAlways (body : State → Ran) (finish : State → State) (s : State) : Host.Outcome State Fault Refusal :=
  if s.status.busy then .next (markDrop s) else concludeWith finish (body (accept s))

/-- Issue (R230) of an illegal word: IllegalCommand with the word in ERRINFO (R89, R258). -/
def execIllegal (c : Word) (s : State) : Host.Outcome State Fault Refusal :=
  runCommand (.raised ⟨.illegalCommand, c⟩) s

end Sys2Proof.Machine
end

