-- ==== Sys2Proof/Machine/Operands.lean ====
section
/-! DEFINITION. The operand forms: the immediate as a bit (R86), node handles (R131), the arrays indexed by a symbol
or a handle (R40, R46, R49), the bit cursor (R187) and the big-endian integers (R206, R207). -/

namespace Sys2Proof.Machine

open Sys2Proof

/-- PBIT's operand: IMM[0] (R86). -/
def immBit (imm : Byte) : Bool := imm.getLsbD 0

/-! ### The arrays -/

/-- FREQ[s] (R40). -/
def FreqTable.count (ft : FreqTable) (s : Byte) : Word := ft.freq[s.toNat]

/-- DOC0's FrequencyTable (R17, R40): the symbols with a non-zero count, each with its count, in ascending symbol
order. It is the loop `for s in 0..255: if FREQ[s] ≠ 0` of R137 and R210. -/
def FreqTable.entries (ft : FreqTable) : List (Byte × Word) :=
  (symbols.zip ft.freq.toList).filter fun e => e.2 != 0#32

/-- CLEN[s] (R49). -/
def CodeTable.len (ct : CodeTable) (s : Byte) : Byte := ct.clen[s.toNat]

/-- CBITS[s] (R49). -/
def CodeTable.bits (ct : CodeTable) (s : Byte) : CodeBits := ct.cbits[s.toNat]

/-- CLEN[s] <- len; CBITS[s] <- bits. -/
def CodeTable.assign (ct : CodeTable) (s : Byte) (len : Nat) (bits : CodeBits) : CodeTable :=
  ⟨ct.clen.set s.toNat (BitVec.ofNat 8 len), ct.cbits.set s.toNat bits⟩

/-! ### Node handles -/

/-- isleaf(h) (R131). -/
def isLeaf (h : Handle) : Bool := !h.getLsbD 8

/-- sym(h) of a leaf, and idx(h) of an internal node: h[7:0] (R131). -/
def lowByte (h : Handle) : Byte := h.setWidth 8

/-- The handle of the leaf of a symbol (R45). -/
def leafHandle (s : Byte) : Handle := 0#1 ++ s

/-- The handle 256 + k of internal node k (R45). -/
def nodeHandle (k : Byte) : Handle := 1#1 ++ k

/-- INODE[k]; index 255 names no entry (R45) and reads as zeros, which no run observes (log 14). -/
def Tree.entry (t : Tree) (k : Byte) : INode := (t.inode[k.toNat]?).getD ⟨0#32, 0#9, 0#9, 0#8⟩

/-- left(h) (R131). -/
def Tree.left (t : Tree) (h : Handle) : Handle := (t.entry (lowByte h)).left

/-- right(h) (R131). -/
def Tree.right (t : Tree) (h : Handle) : Handle := (t.entry (lowByte h)).right

/-- w(h) (R132). -/
def nodeWeight (ft : FreqTable) (t : Tree) (h : Handle) : Word :=
  if isLeaf h then ft.count (lowByte h) else (t.entry (lowByte h)).weight

/-- lsym(h) (R133). -/
def nodeLsym (t : Tree) (h : Handle) : Byte := if isLeaf h then lowByte h else (t.entry (lowByte h)).lsym

/-! ### The bit cursor -/

/-- The bit under the cursor: IBUF[IN_PTR][7 − BIDX], MSB-first (R64, R187). -/
def cursorBit (s : State) : Bool := (inByte s).getLsbD (7 - s.unpacker.bidx.toNat)

/-- The cursor one bit further (R187). -/
def pastBit (s : State) : State :=
  if s.unpacker.bidx = 7#3 then pastByte (s.setUnpacker { s.unpacker with bidx := 0#3 })
  else s.setUnpacker { s.unpacker with bidx := s.unpacker.bidx + 1#3 }

/-- GetBit() (R187): give the bit to the rest of the body, or raise when the bytes have run out. -/
def getBit (s : State) (rest : Bool → State → Ran) : Ran :=
  if s.inLen ≤ s.inPtr then .raised ⟨.corruptExhausted, s.unpacker.rem⟩ s else rest (cursorBit s) (pastBit s)

/-- How many bits stand between the cursor and IN_LEN: how often GetBit can succeed. -/
def bitsLeft (s : State) : Nat := 8 * (s.inLen.toNat - s.inPtr.toNat) - s.unpacker.bidx.toNat

/-! ### Big-endian integers -/

/-- The k low bytes of a value, most significant first: what PutInt(k, v) writes (R94, R206). -/
def bigEndian : Nat → Word → List Byte
  | 0, _ => []
  | k + 1, v => (v >>> (8 * k)).setWidth 8 :: bigEndian k v

/-- PutInt(k, v) (R206). -/
def putInt (k : Nat) (v : Word) (s : State) : Ran := outBytes (bigEndian k v) s

/-- The value GetInt(k) returns after `v` has been read so far, and the state it leaves (R207). -/
def getIntFrom : Nat → Nat → State → Nat × State
  | 0, v, s => (v, s)
  | k + 1, v, s => getIntFrom k (256 * v + (inByte s).toNat) (pastByte s)

/-- GetInt(k) (R207). -/
def getInt (k : Nat) (s : State) : Nat × State := getIntFrom k 0 s

end Sys2Proof.Machine
end

