-- ==== Sys2Proof/Machine/Codebook.lean ====
section
/-! DEFINITION. The code-table generator command CGEN (42_codebook.md). -/

namespace Sys2Proof.Machine

open Sys2Proof

/-- Appending bit `b` to a code held as the numeral of its bits: 2·bits + b (R151). -/
def appendBit (bits : CodeBits) (b : Bool) : CodeBits := (bits <<< 1) ||| (BitVec.ofBool b).setWidth 255

/-- Walk(h, len, bits) (R152), at most `fuel` nodes deep; none where the node store is deeper than that (log 11). -/
def walk (t : Tree) : Nat → Handle → Nat → CodeBits → CodeTable → Option CodeTable
  | 0, _, _, _, _ => none
  | fuel + 1, h, len, bits, ct =>
    if isLeaf h then some (ct.assign (lowByte h) len bits)
    else
      (walk t fuel (t.left h) (len + 1) (appendBit bits false) ct).bind fun ct =>
        walk t fuel (t.right h) (len + 1) (appendBit bits true) ct

/-- A path from the root of a tree with at most 255 internal nodes has at most 256 nodes (R7, R152). -/
def walkFuel : Nat := 256

/-- The code table of a tree (R152): no code for the empty tree, the one-bit code "0" for a single leaf, else the
walk from the root. -/
def codesOf (t : Tree) : Option CodeTable :=
  if t.nonempty then
    if isLeaf t.root then some (CodeTable.zero.assign (lowByte t.root) 1 0#255)
    else walk t walkFuel t.root 0 0#255 CodeTable.zero
  else some CodeTable.zero

/-- The body of CGEN (R152). -/
def bodyCgen (s : State) : Ran :=
  (needTree (clearCodeValid s)).andThen fun s =>
    match codesOf s.tree with
    | some ct => .done (markCodeValid (s.setCode ct))
    | none => .stuck .walkTooDeep

/-- CGEN (R152). -/
def execCgen (s : State) : Host.Outcome State Fault Refusal := runCommand bodyCgen s

end Sys2Proof.Machine
end

