-- ==== Sys2Proof/Machine/Frequency.lean ====
section
/-! DEFINITION. The frequency accumulator commands FCLR, FACCB, FACC (40_frequency.md). -/

namespace Sys2Proof.Machine

open Sys2Proof

/-- Count one symbol: the last three lines of R117 and of R118's loop. -/
def FreqTable.add (ft : FreqTable) (s : Byte) : FreqTable where
  freq  := ft.freq.set s.toNat (ft.count s + 1#32)
  total := ft.total + 1#32
  nsym  := if ft.count s = 0#32 then ft.nsym + 1#32 else ft.nsym

/-- The body of FCLR (R116). -/
def bodyFclr (s : State) : Ran := .done (clearValid (s.setTable FreqTable.zero))

/-- The body of FACCB (R117). -/
def bodyFaccb (sym : Byte) (s : State) : Ran :=
  (guardRaise (s.table.total.toNat == Config.maxLen) .capCount s.table.total s).andThen fun s =>
    .done ((clearValid s).setTable (s.table.add sym))

/-- One pass of FACC's loop: count the next input byte (R118). -/
def countByte (s : State) : State := pastByte (s.setTable (s.table.add (inByte s)))

/-- FACC's loop (R118): from IN_PTR = 0, `while IN_PTR < IN_LEN` runs IN_LEN times. -/
def countBytes : Nat → State → State
  | 0, s => s
  | n + 1, s => countBytes n (countByte s)

/-- The body of FACC (R118). -/
def bodyFacc (s : State) : Ran :=
  (checkIn s).andThen fun s =>
    (guardRaise (decide (Config.maxLen < s.table.total.toNat + s.inLen.toNat)) .capCount s.table.total s).andThen
      fun s => .done (countBytes s.inLen.toNat ((clearValid s).setInPtr 0#32))

/-- FCLR (R116). -/
def execFclr (s : State) : Host.Outcome State Fault Refusal := runCommand bodyFclr s

/-- FACCB (R117). -/
def execFaccb (imm : Byte) (s : State) : Host.Outcome State Fault Refusal := runCommand (bodyFaccb imm) s

/-- FACC (R118). -/
def execFacc (s : State) : Host.Outcome State Fault Refusal := runCommand bodyFacc s

end Sys2Proof.Machine
end

