-- ==== Sys2Proof/Machine/Packer.lean ====
section
/-! DEFINITION. The bit-serial packer commands PINIT, PBIT, PSYM, PACK, PFLUSH (43_bitwriter.md). -/

namespace Sys2Proof.Machine

open Sys2Proof

/-- zext_8(b). -/
def bitByte (b : Bool) : Byte := (BitVec.ofBool b).setWidth 8

/-- ACC <- 0; NB <- 0. -/
def emptyPacker (s : State) : State := s.setPacker ⟨0#8, 0#3⟩

/-- PushBit(b) (R167). -/
def pushBit (b : Bool) (s : State) : Ran :=
  if s.packer.nb = 7#3 then (outByte (s.packer.acc ||| bitByte b) s).andThen fun s => .done (emptyPacker s)
  else .done (s.setPacker ⟨s.packer.acc ||| (bitByte b <<< (7 - s.packer.nb.toNat)), s.packer.nb + 1#3⟩)

/-- PushBit of bits L−1 down to 0 of a code: `for i in 0..L−1: PushBit(CBITS[s][L−1−i])`, root edge first (R170). -/
def pushCodeBits (bits : CodeBits) : Nat → State → Ran
  | 0, s => .done s
  | l + 1, s => (pushBit (bits.getLsbD l) s).andThen (pushCodeBits bits l)

/-- PushCode(s) (R170). -/
def pushCode (sym : Byte) (s : State) : Ran :=
  if s.code.len sym = 0#8 then .raised ⟨.noCode, sym.setWidth 32⟩ s
  else pushCodeBits (s.code.bits sym) (s.code.len sym).toNat s

/-- PACK's loop (R171): from IN_PTR = 0, `while IN_PTR < IN_LEN` runs IN_LEN times. -/
def packBytes : Nat → State → Ran
  | 0, s => .done s
  | n + 1, s => (pushCode (inByte s) (pastByte s)).andThen (packBytes n)

/-- The body of PINIT (R168). -/
def bodyPinit (s : State) : Ran := .done (emptyPacker s)

/-- The body of PBIT (R169). -/
def bodyPbit (imm : Byte) (s : State) : Ran := pushBit (immBit imm) s

/-- The body of PSYM (R170). -/
def bodyPsym (sym : Byte) (s : State) : Ran := (needCode s).andThen (pushCode sym)

/-- The body of PACK (R171). -/
def bodyPack (s : State) : Ran :=
  (checkIn s).andThen fun s => (needCode s).andThen fun s => packBytes s.inLen.toNat (s.setInPtr 0#32)

/-- The body of PFLUSH (R172). -/
def bodyPflush (s : State) : Ran :=
  if s.packer.nb = 0#3 then .done s else (outByte s.packer.acc s).andThen fun s => .done (emptyPacker s)

/-- PINIT (R168). -/
def execPinit (s : State) : Host.Outcome State Fault Refusal := runCommand bodyPinit s

/-- PBIT (R169). -/
def execPbit (imm : Byte) (s : State) : Host.Outcome State Fault Refusal := runCommand (bodyPbit imm) s

/-- PSYM (R170). -/
def execPsym (imm : Byte) (s : State) : Host.Outcome State Fault Refusal := runCommand (bodyPsym imm) s

/-- PACK (R171). -/
def execPack (s : State) : Host.Outcome State Fault Refusal := runCommand bodyPack s

/-- PFLUSH (R172). -/
def execPflush (s : State) : Host.Outcome State Fault Refusal := runCommand bodyPflush s

end Sys2Proof.Machine
end

