-- ==== Sys2Proof/Machine/Container.lean ====
section
/-! DEFINITION. The container header commands HPUT, HGET (45_container.md). -/

namespace Sys2Proof.Machine

open Sys2Proof

/-- HPUT's loop (R210) over the non-zero entries: the symbol, then its count. -/
def putEntries : List (Byte × Word) → State → Ran
  | [], s => .done s
  | e :: rest, s => (outByte e.1 s).andThen fun s => (putInt 4 e.2 s).andThen (putEntries rest)

/-- The body of HPUT (R210). -/
def bodyHput (s : State) : Ran :=
  (outBytes Config.magic (emptyPacker (s.setOutLen 0#32))).andThen fun s =>
    (putInt 4 s.table.total s).andThen fun s =>
      (putInt 2 s.table.nsym s).andThen fun s => putEntries s.table.entries s

/-- The magic test of HGET (R212): `j` is the index of the byte at the head of the list. -/
def checkMagic : List Byte → Nat → State → Ran
  | [], _, s => .done s
  | m :: ms, j, s =>
    if inByte s = m then checkMagic ms (j + 1) (pastByte s)
    else .raised ⟨.formatMagic, BitVec.ofNat 32 j⟩ (pastByte s)

/-- `if IN_LEN < n: raise FormatError(SHORT, IN_LEN)` (R212). -/
def needLength (n : Nat) (s : State) : Ran := guardRaise (decide (s.inLen.toNat < n)) .formatShort s.inLen s

/-- HGET's locals (R212): the table read so far, the sum of its counts, the last symbol. -/
structure HeaderLocals where
  freq : Vector Word 256
  sum  : Nat
  prev : Option Byte
  deriving DecidableEq, Repr

/-- `prev ≠ none and s ≤ prev` (R212). -/
def HeaderLocals.disordered (l : HeaderLocals) (sym : Byte) : Bool :=
  match l.prev with
  | none => false
  | some p => decide (sym ≤ p)

/-- `f[s] <- c; sum <- sum + c; prev <- s` (R212). -/
def HeaderLocals.put (l : HeaderLocals) (sym : Byte) (c : Nat) : HeaderLocals :=
  ⟨l.freq.set sym.toNat (BitVec.ofNat 32 c), l.sum + c, some sym⟩

/-- HGET's loop over the entries i, i+1, … (R212), `n` of them still to read; the locals go to the rest. -/
def getEntries : Nat → Nat → HeaderLocals → State → (HeaderLocals → State → Ran) → Ran
  | 0, _, l, s, rest => rest l s
  | n + 1, i, l, s, rest =>
    let sym := inByte s
    let c := getInt 4 (pastByte s)
    (guardRaise (l.disordered sym) .formatOrder (BitVec.ofNat 32 (10 + 5 * i)) c.2).andThen fun s =>
      (guardRaise (c.1 == 0) .formatZerocount (BitVec.ofNat 32 (10 + 5 * i)) s).andThen fun s =>
        getEntries n (i + 1) (l.put sym c.1) s rest

/-- The SUM test and the commit (R212). -/
def commitHeader (olen n : Nat) (l : HeaderLocals) (s : State) : Ran :=
  (guardRaise (l.sum != olen) .formatSum (BitVec.ofNat 32 olen) s).andThen fun s =>
    .done (s.setTable ⟨l.freq, BitVec.ofNat 32 olen, BitVec.ofNat 32 n⟩)

/-- The header after the magic (R212): the two length fields, then the entries. -/
def parseFields (s : State) : Ran :=
  let olen := getInt 4 s
  let n := getInt 2 olen.2
  (guardRaise (decide (256 < n.1)) .formatSymcount (BitVec.ofNat 32 n.1) n.2).andThen fun s =>
    (needLength (10 + 5 * n.1) s).andThen fun s =>
      getEntries n.1 0 ⟨FreqTable.zero.freq, 0, none⟩ s (commitHeader olen.1 n.1)

/-- HGET's writes before its first format test (R212): a clear table, no valid flag, the cursor at bit 0 of byte 0. -/
def startHeader (s : State) : State :=
  let t := (clearValid (s.setTable FreqTable.zero)).setInPtr 0#32
  t.setUnpacker { t.unpacker with bidx := 0#3 }

/-- The body of HGET (R212). The valid flags are cleared before CheckIn: R27 has HGET clear them on success or error,
and so do R212's "Flags written" and D19; R212's pseudocode alone has the line after CheckIn (DEDUCED, log 9). -/
def bodyHget (s : State) : Ran :=
  (checkIn (clearValid s)).andThen fun s =>
    (needLength 4 (startHeader s)).andThen fun s =>
      (checkMagic Config.magic 0 s).andThen fun s => (needLength 10 s).andThen parseFields

/-- HPUT (R210). -/
def execHput (s : State) : Host.Outcome State Fault Refusal := runCommand bodyHput s

/-- HGET (R212). -/
def execHget (s : State) : Host.Outcome State Fault Refusal := runCommand bodyHget s

end Sys2Proof.Machine
end

