-- ==== Sys2Proof/Machine/Tree.lean ====
section
/-! DEFINITION. The tree builder command TBLD (41_tree.md). -/

namespace Sys2Proof.Machine

open Sys2Proof

/-- key(a) < key(b) for key(h) = (w(h), lsym(h), h), compared lexicographically as unsigned numbers (R134). -/
def keyBelow (ft : FreqTable) (t : Tree) (a b : Handle) : Bool :=
  decide (nodeWeight ft t a < nodeWeight ft t b) ||
    (nodeWeight ft t a == nodeWeight ft t b &&
      (decide (nodeLsym t a < nodeLsym t b) || (nodeLsym t a == nodeLsym t b && decide (a < b))))

/-- The member with the smallest key among `m` and a list (R135). -/
def minFrom (ft : FreqTable) (t : Tree) : Handle → List Handle → Handle
  | m, [] => m
  | m, h :: hs => minFrom ft t (if keyBelow ft t h m then h else m) hs

/-- `a <- min(LIVE); LIVE <- LIVE \ {a}` (R137); none when LIVE is empty. The live set is a list without repeats, its
order is not observable (R135, log 12). -/
def takeMin (ft : FreqTable) (t : Tree) : List Handle → Option (Handle × List Handle)
  | [] => none
  | h :: hs => some (minFrom ft t h hs, (h :: hs).erase (minFrom ft t h hs))

/-- `LIVE <- { h in 0..255 : FREQ[h] ≠ 0 }` (R137). -/
def liveLeaves (ft : FreqTable) : List Handle := ft.entries.map fun e => leafHandle e.1

/-- Make INODE[NINT] from the first-removed `a` and the second-removed `b`, and count it (R137). -/
def Tree.merge (ft : FreqTable) (t : Tree) (a b : Handle) : Tree where
  inode    := t.inode.setIfInBounds t.nint.toNat ⟨nodeWeight ft t a + nodeWeight ft t b, a, b, nodeLsym t a⟩
  nint     := t.nint + 1#8
  nonempty := t.nonempty
  root     := t.root

/-- The merge loop (R137), at most `fuel` passes: take the two lowest, merge them, put the new node back, until one
member is left. Each pass shrinks LIVE by one, so |LIVE| passes are enough (R311). -/
def mergeLoop (ft : FreqTable) : Nat → List Handle → Tree → List Handle × Tree
  | 0, live, t => (live, t)
  | fuel + 1, live, t =>
    match takeMin ft t live with
    | none => (live, t)
    | some (a, live₁) =>
      match takeMin ft t live₁ with
      | none => (live, t)
      | some (b, live₂) => mergeLoop ft fuel (nodeHandle t.nint :: live₂) (t.merge ft a b)

/-- ROOT from what the loop left: the empty tree, or the one member of LIVE (R137, R47). -/
def Tree.setRoot (t : Tree) : List Handle → Tree
  | [] => { t with nonempty := false, root := 0#9 }
  | h :: _ => { t with nonempty := true, root := h }

/-- The tree TBLD builds from a frequency table (R137, R140). Entries it does not make keep what they held. -/
def buildTree (ft : FreqTable) (t : Tree) : Tree :=
  let r := mergeLoop ft (liveLeaves ft).length (liveLeaves ft) { t with nint := 0#8 }
  r.2.setRoot r.1

/-- The body of TBLD (R137). -/
def bodyTbld (s : State) : Ran := .done (markTreeValid ((clearValid s).setTree (buildTree s.table s.tree)))

/-- TBLD (R137). -/
def execTbld (s : State) : Host.Outcome State Fault Refusal := runCommand bodyTbld s

end Sys2Proof.Machine
end

