-- ==== Sys2Proof/Machine/Unpacker.lean ====
section
/-! DEFINITION. The bit-serial unpacker commands UINIT, USYM, UNPK (44_bitreader.md). -/

namespace Sys2Proof.Machine

open Sys2Proof

/-- CUR <- h. -/
def setCur (h : Handle) (s : State) : State := s.setUnpacker { s.unpacker with cur := h }

/-- One edge of the walk: 0 to the left, 1 to the right (R190). -/
def descend (b : Bool) (s : State) : State :=
  setCur (if b then s.tree.right s.unpacker.cur else s.tree.left s.unpacker.cur) s

/-- `while not isleaf(CUR)` (R190) with at most `fuel` bits to come: with `bitsLeft` of them the loop runs as it
stands in every state, and at 0 the bit it needs is the one that is not there (R187). -/
def walkToLeaf : Nat → State → Ran
  | 0, s => if isLeaf s.unpacker.cur then .done s else .raised ⟨.corruptExhausted, s.unpacker.rem⟩ s
  | fuel + 1, s =>
    if isLeaf s.unpacker.cur then .done s else getBit s fun b s => walkToLeaf fuel (descend b s)

/-- The one bit of a symbol of a single-leaf tree (R189): a 1 is BADBIT. -/
def singleLeafBit (s : State) : Ran :=
  getBit s fun b s => guardRaise b .corruptBadbit s.unpacker.rem s

/-- `OutByte(sym(CUR)); REM <- REM − 1; CUR <- ROOT.handle` (R190). -/
def emitSymbol (s : State) : Ran :=
  (outByte (lowByte s.unpacker.cur) s).andThen fun s =>
    .done (s.setUnpacker { s.unpacker with rem := s.unpacker.rem - 1#32, cur := s.tree.root })

/-- The walk of one symbol from the root: the bits it costs, CUR at the leaf (R190). -/
def walkSymbol (s : State) : Ran :=
  if isLeaf s.tree.root then singleLeafBit (setCur s.tree.root s)
  else walkToLeaf (bitsLeft s) (setCur s.tree.root s)

/-- DecodeOne() (R190). -/
def decodeOne (s : State) : Ran :=
  (guardRaise (!s.tree.nonempty) .seqEmptytree s.unpacker.rem s).andThen fun s => (walkSymbol s).andThen emitSymbol

/-- UNPK's loop (R191): each DecodeOne that ends lowers REM by one, so `while REM > 0` runs REM times. -/
def decodeMany : Nat → State → Ran
  | 0, s => .done s
  | n + 1, s => (decodeOne s).andThen (decodeMany n)

/-- The body of UINIT (R188). -/
def bodyUinit (s : State) : Ran :=
  (needTree s).andThen fun s => .done (s.setUnpacker ⟨0#3, s.tree.root, s.table.total⟩)

/-- The body of USYM (R190). -/
def bodyUsym (s : State) : Ran :=
  (checkIn s).andThen fun s => (needTree s).andThen fun s =>
    (guardRaise (s.unpacker.rem == 0#32) .seqRemzero 0#32 s).andThen decodeOne

/-- The body of UNPK (R191). With symbols due the last DecodeOne leaves CUR = ROOT.handle (R52); with REM = 0 UNPK does
nothing, as its pseudocode and D31 have it, so CUR stays as it was (log 21). -/
def bodyUnpk (s : State) : Ran :=
  (checkIn s).andThen fun s => (needTree s).andThen fun s => decodeMany s.unpacker.rem.toNat s

/-- UINIT (R188). -/
def execUinit (s : State) : Host.Outcome State Fault Refusal := runCommand bodyUinit s

/-- USYM (R190). -/
def execUsym (s : State) : Host.Outcome State Fault Refusal := runCommand bodyUsym s

/-- UNPK (R191). -/
def execUnpk (s : State) : Host.Outcome State Fault Refusal := runCommand bodyUnpk s

end Sys2Proof.Machine
end

