-- ==== Sys2Proof/Machine/Sequencer.lean ====
section
/-! DEFINITION. The macro commands COMP, DECOMP and the system commands NOP, ECLR, SRST (46_orchestration.md). -/

namespace Sys2Proof.Machine

open Sys2Proof

/-- The bodies COMP runs on a non-empty input after counting it (R231). -/
def compressCounted (s : State) : Ran :=
  (bodyTbld s).andThen fun s => (bodyCgen s).andThen fun s => (bodyHput s).andThen fun s =>
    (bodyPack s).andThen bodyPflush

/-- The body of COMP (R231). -/
def bodyComp (s : State) : Ran :=
  (checkIn s).andThen fun s => (bodyFclr s).andThen fun s => (bodyFacc s).andThen fun s =>
    if s.table.total = 0#32 then bodyHput s else compressCounted s

/-- The bodies DECOMP runs on a non-empty artifact after reading its header (R233). -/
def decompressRead (s : State) : Ran :=
  (bodyTbld s).andThen fun s => (bodyUinit s).andThen bodyUnpk

/-- The body of DECOMP (R233). -/
def bodyDecomp (s : State) : Ran :=
  (bodyHget (s.setOutLen 0#32)).andThen fun s =>
    if s.table.total = 0#32 then .done (s.setUnpacker { s.unpacker with rem := 0#32 }) else decompressRead s

/-- The body of NOP (R240). -/
def bodyNop (s : State) : Ran := .done s

/-- The body of ECLR (R241). -/
def bodyEclr (s : State) : Ran := .done (errorReturn s)

/-- The reset table (R54) over a state: every element of the block but the buffers, which are given; the parameters
and the model's own fields stay (log 13). -/
def resetTable (ibuf obuf : Buffer) (s : State) : State :=
  { State.reset with
    params := s.params, ibuf := ibuf, obuf := obuf, inbox := s.inbox, hostData := s.hostData, freeCtr := s.freeCtr }

/-- The body of SRST (R242, R292): the reset table, the buffers unchanged. -/
def bodySrst (s : State) : Ran := .done (resetTable s.ibuf s.obuf s)

/-- COMP (R231). -/
def execComp (s : State) : Host.Outcome State Fault Refusal := runCommand bodyComp s

/-- DECOMP (R233). -/
def execDecomp (s : State) : Host.Outcome State Fault Refusal := runCommand bodyDecomp s

/-- NOP (R240). -/
def execNop (s : State) : Host.Outcome State Fault Refusal := runCommand bodyNop s

/-- ECLR (R241). -/
def execEclr (s : State) : Host.Outcome State Fault Refusal := runAlways bodyEclr finishDone s

/-- SRST (R242). -/
def execSrst (s : State) : Host.Outcome State Fault Refusal := runAlways bodySrst finishQuiet s

end Sys2Proof.Machine
end

