-- ==== Sys2Proof/Machine/Dispatch.lean ====
section
/-! DEFINITION. One arm per command: its meaning, the whole of Issue (R230) for that command. -/

namespace Sys2Proof.Machine

open Sys2Proof

def exec (i : Instr) (s : State) : Host.Outcome State Fault Refusal :=
  match i with
  | .nop => Sys2Proof.Machine.execNop s
  | .fclr => Sys2Proof.Machine.execFclr s
  | .faccb imm => Sys2Proof.Machine.execFaccb imm s
  | .facc => Sys2Proof.Machine.execFacc s
  | .tbld => Sys2Proof.Machine.execTbld s
  | .cgen => Sys2Proof.Machine.execCgen s
  | .pinit => Sys2Proof.Machine.execPinit s
  | .pbit imm => Sys2Proof.Machine.execPbit imm s
  | .psym imm => Sys2Proof.Machine.execPsym imm s
  | .pack => Sys2Proof.Machine.execPack s
  | .pflush => Sys2Proof.Machine.execPflush s
  | .uinit => Sys2Proof.Machine.execUinit s
  | .usym => Sys2Proof.Machine.execUsym s
  | .unpk => Sys2Proof.Machine.execUnpk s
  | .hput => Sys2Proof.Machine.execHput s
  | .hget => Sys2Proof.Machine.execHget s
  | .comp => Sys2Proof.Machine.execComp s
  | .decomp => Sys2Proof.Machine.execDecomp s
  | .eclr => Sys2Proof.Machine.execEclr s
  | .srst => Sys2Proof.Machine.execSrst s

end Sys2Proof.Machine
end

