-- ==== Sys2Proof/Machine/HostPort.lean ====
section
/-! DEFINITION. The host's side: issuing a command word (R26, R230), the register window (R26 to R36), the buffer
accesses (R73), the reset input (R290). -/

namespace Sys2Proof.Machine

open Sys2Proof

/-- Issue(c) (R230): decode the word and run it, or take IllegalCommand. -/
def issueWord (c : Word) (s : State) : Host.Outcome State Fault Refusal :=
  match decode c with
  | .ok i => exec i s
  | .error _ => execIllegal c s

/-- The registers of the map R35; `reserved` is any reserved offset. -/
inductive Reg where
  | cmd | status | errcode | errinfo | ctrl | inLen | inPtr | outLen | total | nsym | root | bwst | brst | rem
  | id | magicr | csel | clenr | cbitsr (j : Fin 8) | nsel | nweight | nlink | nlsym | nintr
  | freq (s : Byte) | reserved
  deriving DecidableEq, Repr

/-- The registers at the offsets 0x00 to 0x44, in order (R35). -/
def lowRegs : List Reg :=
  [.cmd, .status, .errcode, .errinfo, .ctrl, .inLen, .inPtr, .outLen, .total, .nsym, .root, .bwst, .brst, .rem, .id,
    .magicr, .csel, .clenr, .cbitsr 0, .cbitsr 1, .cbitsr 2, .cbitsr 3, .cbitsr 4, .cbitsr 5, .cbitsr 6, .cbitsr 7,
    .nsel, .nweight, .nlink, .nlsym, .nintr]

/-- The register at an offset (R35); none outside the register space or off a word boundary (R65, R73). -/
def Reg.at (off : Nat) : Option Reg :=
  if off % 4 ≠ 0 ∨ 0x800 ≤ off then none
  else if 0x400 ≤ off then some (.freq (BitVec.ofNat 8 ((off - 0x400) / 4)))
  else some ((lowRegs[off / 4]?).getD .reserved)

/-- What NWEIGHT, NLINK and NLSYM read from: INODE[NSEL] where it is specified (R33). -/
def State.selectedNode (s : State) : Option INode :=
  if s.status.treeValid && decide (s.nsel < s.tree.nint) then some (s.tree.entry s.nsel) else none

/-- A value that is specified only while a flag is 1. -/
def whenSet (b : Bool) (v : Word) : Option Word := if b then some v else none

/-- What a host read of a register returns while BUSY = 0 (R26 to R36); none where the spec leaves it unspecified. -/
def Reg.value (s : State) : Reg → Option Word
  | .cmd => some 0#32
  | .status => some s.status.word
  | .errcode => some s.errCode
  | .errinfo => some s.errInfo
  | .ctrl => some s.ctrl.word
  | .inLen => some s.inLen
  | .inPtr => some s.inPtr
  | .outLen => some s.outLen
  | .total => some s.table.total
  | .nsym => some s.table.nsym
  | .root => whenSet s.status.treeValid (s.tree.root.setWidth 32 ||| flagBit s.tree.nonempty 31)
  | .bwst => some (s.packer.acc.setWidth 32 ||| (s.packer.nb.setWidth 32 <<< 8))
  | .brst => some (s.unpacker.cur.setWidth 32 ||| (s.unpacker.bidx.setWidth 32 <<< 16))
  | .rem => some s.unpacker.rem
  | .id => some Config.idWord
  | .magicr => some Config.magicWord
  | .csel => some (s.csel.setWidth 32)
  | .clenr => whenSet s.status.codeValid ((s.code.len s.csel).setWidth 32)
  | .cbitsr j => whenSet s.status.codeValid (((s.code.bits s.csel).setWidth 256).extractLsb' (32 * j.val) 32)
  | .nsel => some (s.nsel.setWidth 32)
  | .nweight => s.selectedNode.map INode.weight
  | .nlink => s.selectedNode.map fun n => (n.left.setWidth 32 : Word) ||| ((n.right.setWidth 32 : Word) <<< 16)
  | .nlsym => s.selectedNode.map fun n => n.lsym.setWidth 32
  | .nintr => whenSet s.status.treeValid (s.tree.nint.setWidth 32)
  | .freq sym => some (s.table.count sym)
  | .reserved => some 0#32

/-- What a host read of a register returns in any state: while BUSY = 1 only STATUS is specified (R300). -/
def Reg.valueNow (s : State) (r : Reg) : Option Word :=
  if s.status.busy && r != .status then none else r.value s

/-- A host write to a writable register other than CMD, while BUSY = 0 (R23, R27, R30, R32, R33); every other
register ignores it (R31, R36). -/
def Reg.store (s : State) (v : Word) : Reg → State
  | .status => s.setStatus (s.status.clearBy v)
  | .ctrl => s.setCtrl (Ctrl.ofWord v)
  | .inLen => s.setInLen v
  | .inPtr => s.setInPtr v
  | .outLen => s.setOutLen v
  | .csel => s.setCsel (v.setWidth 8)
  | .nsel => s.setNsel (v.setWidth 8)
  | .cmd | .errcode | .errinfo | .total | .nsym | .root | .bwst | .brst | .rem | .id | .magicr | .clenr | .cbitsr _
  | .nweight | .nlink | .nlsym | .nintr | .freq _ | .reserved => s

/-- The writable registers, whose writes are dropped while BUSY = 1 (R36). -/
def Reg.writable : Reg → Bool
  | .status | .ctrl | .inLen | .inPtr | .outLen | .csel | .nsel => true
  | .cmd | .errcode | .errinfo | .total | .nsym | .root | .bwst | .brst | .rem | .id | .magicr | .clenr | .cbitsr _
  | .nweight | .nlink | .nlsym | .nintr | .freq _ | .reserved => false

/-- RegWrite(off, v) on the register of that offset: a command at CMD, else a store, dropped while BUSY = 1. -/
def writeReg (r : Reg) (v : Word) (s : State) : Host.Outcome State Fault Refusal :=
  match r with
  | .cmd => issueWord v s
  | r => if s.status.busy && r.writable then .next (markDrop s) else .next (r.store s v)

/-- The model's record of what a host read returned; an unspecified value is the next free one (log 6). The block
itself is not changed by a read (R36, R67). -/
def State.answer (s : State) : Option Word → State
  | some v => { s with hostData := v }
  | none => { s with hostData := Config.freeWord s.freeCtr, freeCtr := s.freeCtr + 1 }

/-- A host read of a buffer byte: unspecified while BUSY = 1 (R300, log 8). -/
def readByte (v : Byte) (s : State) : State :=
  if s.status.busy then { s with hostData := (Config.freeByte s.freeCtr).setWidth 32, freeCtr := s.freeCtr + 1 }
  else s.answer (some (v.setWidth 32))

/-- A buffer access inside the buffer's size (R73); outside it the move is refused (log 10). -/
def inside (a : Nat) (size : Word) (r : Host.Outcome State Fault Refusal) : Host.Outcome State Fault Refusal :=
  if a < size.toNat then r else .refused .hostAccessOutside

/-- A host write to a buffer: no meaning while BUSY = 1 (R300, log 8). -/
def writeIdle (s t : State) : Host.Outcome State Fault Refusal :=
  if s.status.busy then .refused .bufferWriteWhileBusy else .next t

/-- The reset input (R290, R291): the reset table, both buffers unspecified, whatever was running abandoned. -/
def hardReset (s : State) : State := resetTable s.ibuf.forget s.obuf.forget s

/-- One move of the host. -/
def hostMove (m : HostMove) (s : State) : Host.Outcome State Fault Refusal :=
  match m with
  | .regWrite off v =>
    match Reg.at off with
    | some r => writeReg r v s
    | none => .refused .hostAccessOutside
  | .regRead off =>
    match Reg.at off with
    | some r => .next (s.answer (r.valueNow s))
    | none => .refused .hostAccessOutside
  | .ibufWrite a b => inside a s.params.ibufSize (writeIdle s (s.setIbuf (s.ibuf.store a b)))
  | .ibufRead a => inside a s.params.ibufSize (.next (readByte (s.ibufByte a) s))
  | .obufWrite a b => inside a s.params.obufSize (writeIdle s (s.setObuf (s.obuf.store a b)))
  | .obufRead a => inside a s.params.obufSize (.next (readByte (s.obufByte a) s))
  | .rst => .next (hardReset s)

/-- The host's next move, taken from the front of the inbox (log 1). -/
def takeMove (s : State) : Option (HostMove × State) :=
  match s.inbox with
  | [] => none
  | m :: rest => some (m, s.setInbox rest)

/-- The inbox with the CMD write of a word in front (R26). -/
def placeCommand (c : Word) (s : State) : State := s.setInbox (.regWrite 0x000 c :: s.inbox)

end Sys2Proof.Machine
end

