-- ==== Sys2Proof/Machine/Step.lean ====
section
/-! DEFINITION. One step: the host's next move, or nothing where the host makes none (R10, R291, R300). -/

namespace Sys2Proof.Machine

open Sys2Proof

/-- One step. With an empty inbox the block stays idle (R280, R291). -/
def step (s : State) : Host.Outcome State Fault Refusal :=
  match takeMove s with
  | none => .next s
  | some (m, t) => hostMove m t

/-- The state whose next step runs the table word `w`: the host's next move is the write of that word to CMD (R26,
log 1). -/
def State.withFetchWord (s : State) (nbits w : Nat) : State := placeCommand (tableWord nbits w) s

end Sys2Proof.Machine
end

