-- ==== Sys2Proof/Safety.lean ====
section
/-! DEFINITION. The terms the claims use: a ready machine, the input and output as lists, bit streams, the artifact
(R92 to R97), the invariant of the machine and what a safe step is. -/

namespace Sys2Proof.Safety

open Sys2Proof Sys2Proof.Machine

/-- Idle with no error recorded: the state in which any command is accepted (R12, R26, R230). -/
def Ready (s : State) : Prop := s.status.busy = false ∧ s.status.err = false

/-! ### Input and output as lists -/

/-- IBUF[start..stop−1]. -/
def ibufSlice (s : State) (start stop : Nat) : List Byte :=
  (List.range (stop - start)).map fun i => s.ibufByte (start + i)

/-- IBUF[0..IN_LEN−1]. -/
def inputBytes (s : State) : List Byte := ibufSlice s 0 s.inLen.toNat

/-- OBUF[start..stop−1]. -/
def obufSlice (s : State) (start stop : Nat) : List Byte :=
  (List.range (stop - start)).map fun i => s.obufByte (start + i)

/-- OBUF[0..OUT_LEN−1]. -/
def outputBytes (s : State) : List Byte := obufSlice s 0 s.outLen.toNat

/-! ### Bit streams -/

/-- The bits of a byte, MSB-first (R14, R64). -/
def byteBits (b : Byte) : List Bool := (List.range 8).map fun i => b.getLsbD (7 - i)

/-- The code of a symbol in emission order: c_i = CBITS[s][L−1−i], L = CLEN[s] (R49). -/
def codeBits (ct : CodeTable) (sym : Byte) : List Bool :=
  (List.range (ct.len sym).toNat).map fun i => (ct.bits sym).getLsbD ((ct.len sym).toNat - 1 - i)

/-- The payload bit stream of a byte sequence (R96). -/
def payloadBits (ct : CodeTable) (bs : List Byte) : List Bool := bs.flatMap (codeBits ct)

/-- The bits pending in ACC, first-pushed first (R51). -/
def pendingBits (p : Packer) : List Bool := (byteBits p.acc).take p.nb.toNat

/-- The bits put out since OBUF address `start`: those of the bytes written from there on, then the pending ones
(R173). -/
def streamFrom (start : Nat) (s : State) : List Bool :=
  (obufSlice s start s.outLen.toNat).flatMap byteBits ++ pendingBits s.packer

/-- How many bits of IBUF stand before the cursor (IN_PTR, BIDX) (R185). -/
def cursorPos (s : State) : Nat := 8 * s.inPtr.toNat + s.unpacker.bidx.toNat

/-- The bits from the cursor (IN_PTR, BIDX) up to byte IN_LEN (R185). -/
def cursorBits (s : State) : List Bool :=
  ((ibufSlice s s.inPtr.toNat s.inLen.toNat).flatMap byteBits).drop s.unpacker.bidx.toNat

/-- There is room in OBUF for the bytes that `n` more bits complete (R71, R167). -/
def RoomForBits (n : Nat) (s : State) : Prop :=
  8 ≤ s.packer.nb.toNat + n → s.outLen.toNat + (s.packer.nb.toNat + n) / 8 ≤ s.params.obufSize.toNat

/-- OUT_LEN at the first byte write that finds OBUF full (R71, R260). -/
def fullAt (s : State) : Word := if s.params.obufSize ≤ s.outLen then s.outLen else s.params.obufSize

/-! ### The artifact -/

/-- The symbols with a non-zero count, ascending (R17). -/
def presentSymbols (ft : FreqTable) : List Byte := ft.entries.map Prod.fst

/-- HLEN(n) (R93). -/
def headerLen (n : Nat) : Nat := 10 + 5 * n

/-- The header of a frequency table (R92, R94, R95). -/
def headerBytes (ft : FreqTable) : List Byte :=
  Config.magic ++ bigEndian 4 ft.total ++ bigEndian 2 ft.nsym ++
    ft.entries.flatMap fun e => e.1 :: bigEndian 4 e.2

/-- The four bytes of IBUF from an address on as one big-endian number (R63, R94, R207). -/
def ibufWord (s : State) (a : Nat) : Word :=
  s.ibufByte a ++ s.ibufByte (a + 1) ++ s.ibufByte (a + 2) ++ s.ibufByte (a + 3)

/-- The OriginalLength field of the header in IBUF (R92). -/
def headerOriginal (s : State) : Word := ibufWord s 4

/-- The SymbolCount field of the header in IBUF (R92). -/
def headerCount (s : State) : BitVec 16 := s.ibufByte 8 ++ s.ibufByte 9

/-- The symbol of entry `i` of the header in IBUF (R92). -/
def entrySymbol (s : State) (i : Nat) : Byte := s.ibufByte (10 + 5 * i)

/-- The count of entry `i` of the header in IBUF (R92). -/
def entryCount (s : State) (i : Nat) : Word := ibufWord s (11 + 5 * i)

/-- Entry `i` comes after the entry before it and has a count (R95). -/
def EntryGood (s : State) (i : Nat) : Prop :=
  (∀ j, j + 1 = i → entrySymbol s j < entrySymbol s i) ∧ entryCount s i ≠ 0#32

/-- IBUF starts with the magic bytes (R92). -/
def HasMagic (s : State) : Prop := ibufSlice s 0 4 = Config.magic

/-- The table counts exactly the bytes of a sequence (R17, R120). -/
def Counts (ft : FreqTable) (bs : List Byte) : Prop :=
  (∀ sym, (ft.count sym).toNat = bs.count sym) ∧ ft.total.toNat = bs.length ∧ ft.nsym.toNat = bs.dedup.length

/-- `payload` is the bit stream packed MSB-first and padded with zero bits to a byte boundary (R96). -/
def PacksTo (bits : List Bool) (payload : List Byte) : Prop :=
  ∃ pad, pad < 8 ∧ payload.flatMap byteBits = bits ++ List.replicate pad false

/-- `out` is artifact(B) (R232): the header of B's counts, then B packed with the codes of the tree of those counts. -/
def IsArtifact (bs out : List Byte) : Prop :=
  ∃ ft ct payload, Counts ft bs ∧ codesOf (buildTree ft Tree.zero) = some ct ∧ PacksTo (payloadBits ct bs) payload ∧
    out = headerBytes ft ++ payload

/-! ### The tree -/

/-- The symbols of the leaves under a node, left to right, down to a depth. -/
def leavesUnder (t : Tree) : Nat → Handle → List Byte
  | 0, _ => []
  | n + 1, h => if isLeaf h then [lowByte h] else leavesUnder t n (t.left h) ++ leavesUnder t n (t.right h)

/-- The internal nodes under and including a node, down to a depth. -/
def nodesUnder (t : Tree) : Nat → Handle → List Byte
  | 0, _ => []
  | n + 1, h => if isLeaf h then [] else lowByte h :: (nodesUnder t n (t.left h) ++ nodesUnder t n (t.right h))

/-- A handle that names a node while `k` internal nodes exist (R45). -/
def Names (ft : FreqTable) (k : Nat) (h : Handle) : Prop :=
  if isLeaf h then ft.count (lowByte h) ≠ 0#32 else (lowByte h).toNat < k

/-- What R46 says of each entry k < NINT: its children exist and are older, they differ, its weight is the sum of
theirs, its lsym is its left child's. -/
def EntryOk (ft : FreqTable) (t : Tree) (k : Byte) : Prop :=
  Names ft k.toNat (t.entry k).left ∧ Names ft k.toNat (t.entry k).right ∧ (t.entry k).left ≠ (t.entry k).right ∧
    (t.entry k).weight.toNat = (nodeWeight ft t (t.entry k).left).toNat + (nodeWeight ft t (t.entry k).right).toNat ∧
    (t.entry k).lsym = nodeLsym t (t.entry k).left

/-- What R47 says of ROOT and NINT. -/
def RootOk (ft : FreqTable) (t : Tree) : Prop :=
  if presentSymbols ft = [] then t.nonempty = false ∧ t.nint = 0#8 ∧ t.root = 0#9
  else t.nonempty = true ∧ t.nint.toNat + 1 = (presentSymbols ft).length ∧
    if t.nint = 0#8 then ∃ sym, t.root = leafHandle sym ∧ presentSymbols ft = [sym] else t.root = nodeHandle (t.nint - 1#8)

/-- The nodes under ROOT are the leaves of the present symbols and the NINT internal nodes, each exactly once (R138):
every node has one parent, nothing is shared, nothing is left over. -/
def ShapeOk (ft : FreqTable) (t : Tree) : Prop :=
  t.nonempty = true →
    (leavesUnder t 256 t.root).Perm (presentSymbols ft) ∧
      (nodesUnder t 256 t.root).Perm ((List.range t.nint.toNat).map (BitVec.ofNat 8))

/-- A tree as TBLD leaves it for a frequency table (R46, R47, R138, R139). -/
structure TreeOk (ft : FreqTable) (t : Tree) : Prop where
  entries : ∀ k : Byte, k < t.nint → EntryOk ft t k
  root : RootOk ft t
  shape : ShapeOk ft t

/-! ### The greedy rule -/

/-- key(a) < key(b), lexicographically in weight, symbol of the left-most leaf, handle (R134). -/
def KeyLess (ft : FreqTable) (t : Tree) (a b : Handle) : Prop :=
  nodeWeight ft t a < nodeWeight ft t b ∨
    (nodeWeight ft t a = nodeWeight ft t b ∧
      (nodeLsym t a < nodeLsym t b ∨ (nodeLsym t a = nodeLsym t b ∧ a < b)))

/-- Node `h` is in LIVE when merge `k` starts (R137): it is a present leaf or a node made by an earlier merge, and no
earlier merge removed it. -/
def LiveAt (ft : FreqTable) (t : Tree) (k : Nat) (h : Handle) : Prop :=
  Names ft k h ∧ ∀ j : Byte, j.toNat < k → (t.entry j).left ≠ h ∧ (t.entry j).right ≠ h

/-- Merge `k` removed the node with the lowest key and then the one with the next lowest (R135, R137). -/
def MergesLowest (ft : FreqTable) (t : Tree) (k : Byte) : Prop :=
  LiveAt ft t k.toNat (t.entry k).left ∧ LiveAt ft t k.toNat (t.entry k).right ∧
    (∀ h, LiveAt ft t k.toNat h → h ≠ (t.entry k).left → KeyLess ft t (t.entry k).left h) ∧
    ∀ h, LiveAt ft t k.toNat h → h ≠ (t.entry k).left → h ≠ (t.entry k).right → KeyLess ft t (t.entry k).right h

/-! ### Paths -/

/-- The node a bit string leads to: 0 to the left, 1 to the right (R97, R190). -/
def followPath (t : Tree) (h : Handle) (bits : List Bool) : Handle :=
  bits.foldl (fun h b => if b then t.right h else t.left h) h

/-- The bits are the path from the root to the leaf of a symbol (R97): they end there, and no earlier node on the way
is a leaf. -/
def IsPath (t : Tree) (bits : List Bool) (sym : Byte) : Prop :=
  followPath t t.root bits = leafHandle sym ∧ ∀ p, p <+: bits → p ≠ bits → isLeaf (followPath t t.root p) = false

/-- The code table holds the codes of a tree (R49, R97, R152): a present symbol has its path, or "0" as the only leaf,
held right-aligned with zeros above it; an absent symbol has no code. -/
def CodesOk (ft : FreqTable) (t : Tree) (ct : CodeTable) : Prop :=
  ∀ sym, (∀ i, (ct.len sym).toNat ≤ i → (ct.bits sym).getLsbD i = false) ∧
    if ft.count sym = 0#32 then ct.len sym = 0#8
    else if isLeaf t.root then codeBits ct sym = [false] else IsPath t (codeBits ct sym) sym

/-! ### Ends of a command -/

/-- STATUS at the normal end of a command other than SRST (R230). -/
def ended (f : Status) : Status := { f with busy := false, done := true }

/-- The state a command ends in when it raises before it has written anything (R262, R230): the error recorded, OUT_LEN
zero, DONE cleared by acceptance, OBUF unspecified (U13, log 4). -/
def failed (s : State) (code info : Word) : State :=
  { s with
    status := { s.status with busy := false, done := false, err := true }, errCode := code, errInfo := info,
    outLen := 0#32, obuf := s.obuf.forget }

/-- The state HGET ends in when a format test fails after `stop` bytes (R212, R256, R262): a clear table, no valid
flag, IN_PTR where the parse stopped, BIDX zero. -/
def headerFailed (s : State) (code info : Word) (stop : Nat) : State :=
  { failed s code info with
    status := ⟨false, false, true, s.status.drop, false, false⟩, inPtr := BitVec.ofNat 32 stop,
    table := FreqTable.zero, unpacker := { s.unpacker with bidx := 0#3 } }

/-- A command that ended in error entry with this code and this info (R262). -/
structure ErrorEnd (t : State) (code info : Word) : Prop where
  err : t.status.err = true
  busy : t.status.busy = false
  done : t.status.done = false
  errCode : t.errCode = code
  errInfo : t.errInfo = info
  outLen : t.outLen = 0#32

/-- The errors each command can raise: the columns 'raised by' of R256 to R261, with R231 and R233 for COMP and DECOMP. -/
def errorsOf : Instr → List Word
  | .nop | .fclr | .tbld | .pinit | .eclr | .srst => []
  | .faccb _ => [0x0105]
  | .facc => [0x0305, 0x0105]
  | .cgen | .uinit => [0x0104]
  | .pbit _ | .pflush | .hput => [0x0205]
  | .psym _ => [0x0204, 0x0006, 0x0205]
  | .pack => [0x0305, 0x0204, 0x0006, 0x0205]
  | .usym => [0x0305, 0x0104, 0x0404, 0x0304, 0x0102, 0x0202, 0x0205]
  | .unpk => [0x0305, 0x0104, 0x0304, 0x0102, 0x0202, 0x0205]
  | .hget => [0x0305, 0x0101, 0x0201, 0x0301, 0x0401, 0x0501, 0x0601]
  | .comp => [0x0305, 0x0205]
  | .decomp => [0x0305, 0x0101, 0x0201, 0x0301, 0x0401, 0x0501, 0x0601, 0x0102, 0x0202, 0x0205]

/-- The rows of R54's table that give a value. -/
structure AtReset (t : State) : Prop where
  status : t.status.word = 0#32
  errCode : t.errCode = 0#32
  errInfo : t.errInfo = 0#32
  ctrl : t.ctrl.word = 0#32
  inLen : t.inLen = 0#32
  inPtr : t.inPtr = 0#32
  outLen : t.outLen = 0#32
  total : t.table.total = 0#32
  nsym : t.table.nsym = 0#32
  freq : ∀ sym, t.table.count sym = 0#32
  acc : t.packer.acc = 0#8
  nb : t.packer.nb = 0#3
  bidx : t.unpacker.bidx = 0#3
  cur : t.unpacker.cur = 0#9
  rem : t.unpacker.rem = 0#32
  csel : t.csel = 0#8
  nsel : t.nsel = 0#8

/-! ### Sequences of commands -/

/-- Commands issued one after the other; a fault or refusal ends the sequence. -/
def execAll : List Instr → State → Host.Outcome State Fault Refusal
  | [], s => .next s
  | i :: is, s =>
    match exec i s with
    | .next t => execAll is t
    | .fault f => .fault f
    | .refused r => .refused r

/-- The bits a packing command pushes (R169 to R171). -/
def bitsOf (s : State) : Instr → List Bool
  | .pbit imm => [imm.getLsbD 0]
  | .psym sym => codeBits s.code sym
  | .pack => payloadBits s.code (inputBytes s)
  | .nop | .fclr | .faccb _ | .facc | .tbld | .cgen | .pinit | .pflush | .uinit | .usym | .unpk | .hput | .hget | .comp
  | .decomp | .eclr | .srst => []

/-- A packing command that no test but the room in OBUF can stop (R169 to R171). -/
def CanPack (s : State) : Instr → Prop
  | .pbit _ => True
  | .psym sym => s.status.codeValid = true ∧ s.code.len sym ≠ 0#8
  | .pack => s.inLen ≤ s.params.ibufSize ∧ s.status.codeValid = true ∧ ∀ b ∈ inputBytes s, s.code.len b ≠ 0#8
  | .nop | .fclr | .faccb _ | .facc | .tbld | .cgen | .pinit | .pflush | .uinit | .usym | .unpk | .hput | .hget | .comp
  | .decomp | .eclr | .srst => False

/-! ### Frames -/

/-- The commands that write FREQ, TOTAL, NSYM (R21, R40). -/
def writesTable : Instr → Bool
  | .fclr | .faccb _ | .facc | .hget | .comp | .decomp | .srst => true
  | .nop | .tbld | .cgen | .pinit | .pbit _ | .psym _ | .pack | .pflush | .uinit | .usym | .unpk | .hput | .eclr => false

/-- The commands that write INODE, NINT, ROOT (R130, R231, R233, R242). -/
def writesTree : Instr → Bool
  | .tbld | .comp | .decomp | .srst => true
  | .nop | .fclr | .faccb _ | .facc | .cgen | .pinit | .pbit _ | .psym _ | .pack | .pflush | .uinit | .usym | .unpk
  | .hput | .hget | .eclr => false

/-- The commands that write CLEN and CBITS (R49, R231, R242). -/
def writesCode : Instr → Bool
  | .cgen | .comp | .srst => true
  | .nop | .fclr | .faccb _ | .facc | .tbld | .pinit | .pbit _ | .psym _ | .pack | .pflush | .uinit | .usym | .unpk
  | .hput | .hget | .decomp | .eclr => false

/-- The commands that write ACC and NB (R51). -/
def writesPacker : Instr → Bool
  | .pinit | .pbit _ | .psym _ | .pack | .pflush | .hput | .comp | .srst => true
  | .nop | .fclr | .faccb _ | .facc | .tbld | .cgen | .uinit | .usym | .unpk | .hget | .decomp | .eclr => false

/-- The commands that write BIDX (R52). -/
def writesBidx : Instr → Bool
  | .uinit | .usym | .unpk | .hget | .decomp | .srst => true
  | .nop | .fclr | .faccb _ | .facc | .tbld | .cgen | .pinit | .pbit _ | .psym _ | .pack | .pflush | .hput | .comp
  | .eclr => false

/-- The commands that write CUR and REM (R21, R52). -/
def writesWalk : Instr → Bool
  | .uinit | .usym | .unpk | .decomp | .srst => true
  | .nop | .fclr | .faccb _ | .facc | .tbld | .cgen | .pinit | .pbit _ | .psym _ | .pack | .pflush | .hput | .hget
  | .comp | .eclr => false

/-- The commands that write IN_PTR (R21). -/
def writesInPtr : Instr → Bool
  | .facc | .pack | .hget | .usym | .unpk | .comp | .decomp | .srst => true
  | .nop | .fclr | .faccb _ | .tbld | .cgen | .pinit | .pbit _ | .psym _ | .pflush | .uinit | .hput | .eclr => false

/-- The commands that write OBUF (R61). -/
def writesObuf : Instr → Bool
  | .pbit _ | .psym _ | .pack | .pflush | .hput | .usym | .unpk | .comp | .decomp => true
  | .nop | .fclr | .faccb _ | .facc | .tbld | .cgen | .pinit | .uinit | .hget | .eclr | .srst => false

/-- The commands that put their output at OBUF[0] (R210, R231, R233); the other writers of OBUF append at OUT_LEN. -/
def startsObuf : Instr → Bool
  | .hput | .comp | .decomp => true
  | .nop | .fclr | .faccb _ | .facc | .tbld | .cgen | .pinit | .pbit _ | .psym _ | .pack | .pflush | .uinit | .usym
  | .unpk | .hget | .eclr | .srst => false

/-- What no command but SRST changes: the parameters, CTRL, IN_LEN, CSEL, NSEL, IBUF (R21, R30, R32, R33, R61) and the
model's own fields. -/
structure SameSetup (s t : State) : Prop where
  params : t.params = s.params
  ctrl : t.ctrl = s.ctrl
  inLen : t.inLen = s.inLen
  csel : t.csel = s.csel
  nsel : t.nsel = s.nsel
  ibuf : t.ibuf = s.ibuf
  inbox : t.inbox = s.inbox
  hostData : t.hostData = s.hostData
  freeCtr : t.freeCtr = s.freeCtr

/-- FREQ, TOTAL, NSYM, the tree and the code table are as they were, with their valid flags. -/
structure SameModel (s t : State) : Prop where
  table : t.table = s.table
  tree : t.tree = s.tree
  code : t.code = s.code
  treeValid : t.status.treeValid = s.status.treeValid
  codeValid : t.status.codeValid = s.status.codeValid

/-- OBUF and OUT_LEN are as they were, every byte of OBUF reads as before. -/
structure SameOutput (s t : State) : Prop where
  outLen : t.outLen = s.outLen
  bytes : ∀ a, t.obufByte a = s.obufByte a

/-- Every byte of OBUF outside the ones appended, those from the old OUT_LEN up to the new one, reads as before. -/
def OnlyAppended (s t : State) : Prop :=
  s.outLen.toNat ≤ t.outLen.toNat ∧ ∀ a, a < s.outLen.toNat ∨ t.outLen.toNat ≤ a → t.obufByte a = s.obufByte a

/-! ### The invariant -/

/-- R22: TOTAL is the sum of the counts, NSYM the number of non-zero ones. -/
def TableOk (ft : FreqTable) : Prop :=
  ft.total.toNat = (ft.freq.toList.map BitVec.toNat).sum ∧ ft.nsym.toNat = ft.entries.length

/-- R51: ACC[7−NB:0] = 0. -/
def PackerOk (p : Packer) : Prop := p.acc.toNat % 2 ^ (8 - p.nb.toNat) = 0

/-- The canonical form of a buffer, and every listed byte inside it (R60). -/
def BufferOk (b : Buffer) (size : Word) : Prop := Memory.wf b.cells ∧ ∀ c ∈ b.cells, c.1 < size.toNat

/-- What holds inside a command as well as between commands. -/
structure CoreInv (s : State) : Prop where
  params : s.params.wf = true
  table : TableOk s.table
  tree : s.status.treeValid = true → TreeOk s.table s.tree
  code : s.status.codeValid = true → s.status.treeValid = true ∧ codesOf s.tree = some s.code
  packer : PackerOk s.packer
  ibuf : BufferOk s.ibuf s.params.ibufSize
  obuf : BufferOk s.obuf s.params.obufSize

/-- The invariant of the machine between steps: idle (R10), DONE and ERR not both set (R27), no error code without an
error (R28, R29), and `CoreInv`. -/
structure Inv (s : State) : Prop where
  idle : s.status.busy = false
  oneFlag : ¬(s.status.done = true ∧ s.status.err = true)
  noCode : s.status.err = false → s.errCode = 0#32 ∧ s.errInfo = 0#32
  core : CoreInv s

/-! ### What no run can tell -/

/-- Two trees that agree on all the spec gives a valid tree: NINT, ROOT and the entries below NINT (R33, R46, R47). -/
structure SameTree (t u : Tree) : Prop where
  nint : u.nint = t.nint
  nonempty : u.nonempty = t.nonempty
  root : u.root = t.root
  entries : ∀ k : Byte, k < t.nint → u.entry k = t.entry k

/-- Two states that differ only where R54 and the valid flags leave the tree and the code table unspecified. -/
structure SameSpecified (s u : State) : Prop where
  rest : u = { s with tree := u.tree, code := u.code }
  tree : s.status.treeValid = true → SameTree s.tree u.tree
  code : s.status.codeValid = true → u.code = s.code

/-- A step that does not stop with a fault. -/
def SafeStep (s : State) : Prop := ∀ f, step s ≠ .fault f

end Sys2Proof.Safety
end

