-- ==== Sys2Proof/Certificates/Slice0/Obligations.lean ====
section
/-! DEFINITION. The statements for the provers. A statement about an instruction that ends in a next state says its
whole result as one record: every field that is not named in it is unchanged. Where the result is `failed` or
`headerFailed`, the bytes of OBUF are log 4's free values (R262 calls them unspecified) and the fields not named are
those of log 7's precise reading of R263. -/

open Sys2Proof Sys2Proof.Machine Sys2Proof.Safety

/-! ### Encoding -/

/-- No bit of an encoding is dropped: the word of every well-formed command decodes to that command (R85, R87, R88). -/
def Obligations.DecodeOfEncode : Prop :=
  ∀ i : Instr, WellFormed i = true → decode (encode i) = .ok i

/-- R88, total on all words: which words are ILLEGAL, and what a legal word decodes to. -/
def Obligations.DecodeTotal : Prop :=
  ∀ c : Word,
    ((∃ e, decode c = .error e) ↔
      c.extractLsb' 16 16 ≠ 0#16 ∨ 0x13#8 < c.extractLsb' 0 8 ∨
        (c.extractLsb' 0 8 = 0x07#8 ∧ c.extractLsb' 9 7 ≠ 0#7) ∨
        (c.extractLsb' 0 8 ≠ 0x02#8 ∧ c.extractLsb' 0 8 ≠ 0x07#8 ∧ c.extractLsb' 0 8 ≠ 0x08#8 ∧
          c.extractLsb' 8 8 ≠ 0#8)) ∧
      ∀ i, decode c = .ok i → opcode i = c.extractLsb' 0 8 ∧ operand i = c.extractLsb' 8 8 ∧ WellFormed i = true

/-- The words of R87's table, written out, decode to the commands they stand for. -/
def Obligations.SpecWordsDecode : Prop :=
  decode 0x00000000#32 = .ok .nop ∧ decode 0x00000001#32 = .ok .fclr ∧ decode 0x00004102#32 = .ok (.faccb 0x41#8) ∧
    decode 0x00000003#32 = .ok .facc ∧ decode 0x00000004#32 = .ok .tbld ∧ decode 0x00000005#32 = .ok .cgen ∧
    decode 0x00000006#32 = .ok .pinit ∧ decode 0x00000107#32 = .ok (.pbit 1#8) ∧
    decode 0x0000FF08#32 = .ok (.psym 0xFF#8) ∧ decode 0x00000009#32 = .ok .pack ∧
    decode 0x0000000A#32 = .ok .pflush ∧ decode 0x0000000B#32 = .ok .uinit ∧ decode 0x0000000C#32 = .ok .usym ∧
    decode 0x0000000D#32 = .ok .unpk ∧ decode 0x0000000E#32 = .ok .hput ∧ decode 0x0000000F#32 = .ok .hget ∧
    decode 0x00000010#32 = .ok .comp ∧ decode 0x00000011#32 = .ok .decomp ∧ decode 0x00000012#32 = .ok .eclr ∧
    decode 0x00000013#32 = .ok .srst

/-! ### The step, acceptance and drops -/

/-- A step in which the host writes a legal word to CMD is `exec` of the command that the word decodes to, at the state
with that move taken from the inbox (R26, R230; the inbox is log 1's). -/
def Obligations.StepRunsDecodedCommand : Prop :=
  ∀ (s : State) (c : Word) (i : Instr) (rest : List HostMove),
    s.inbox = .regWrite 0 c :: rest → decode c = .ok i → step s = exec i { s with inbox := rest }

/-- R258: a word that Decode finds illegal, written to CMD of a ready machine, raises IllegalCommand with the word in
ERRINFO. That DONE is cleared is the model's reading of R230 over R89 (log 17), and OBUF becomes free values (log 4). -/
def Obligations.IllegalCommandResult : Prop :=
  ∀ (s : State) (c : Word) (e : DecodeError), Ready s → decode c = .error e →
    issueWord c s = .next (failed s 0x0003#32 c)

/-- A step is the host's next move, and nothing where the host makes none (R10, R280, R291; the inbox is log 1's); a
write to CMD issues the word (R26); the state with a placed table word runs exactly the command of that word. -/
def Obligations.StepTakesOneHostMove : Prop :=
  (∀ s : State, s.inbox = [] → step s = .next s) ∧
    (∀ (s : State) (m : HostMove) (rest : List HostMove),
      s.inbox = m :: rest → step s = hostMove m { s with inbox := rest }) ∧
    (∀ (s : State) (c : Word), hostMove (.regWrite 0 c) s = issueWord c s) ∧
    ∀ (s : State) (nbits w : Nat) (i : Instr),
      decodeTableWord nbits w = some i → step (s.withFetchWord nbits w) = exec i s

/-- R266: while ERR is 1 only ECLR and SRST are accepted, any other word is dropped and changes DROP only. -/
def Obligations.ErrorDropsCommands : Prop :=
  ∀ s : State, s.status.err = true →
    (∀ c : Word, c ≠ 0x00000012#32 → c ≠ 0x00000013#32 →
      issueWord c s = .next { s with status := { s.status with drop := true } }) ∧
    (s.status.busy = false →
      (∃ t, issueWord 0x00000012#32 s = .next t ∧ t.status.err = false ∧ t.status.drop = false) ∧
        ∃ t, issueWord 0x00000013#32 s = .next t ∧ t.status.err = false ∧ t.status.drop = false)

/-- While BUSY is 1, a state no run reaches (log 8), a write to CMD or to a writable register is dropped and sets DROP
(R26, R36, R300). -/
def Obligations.BusyDropsWrites : Prop :=
  ∀ (s : State) (v : Word) (off : Nat), s.status.busy = true →
    off ∈ [0x000, 0x004, 0x010, 0x014, 0x018, 0x01C, 0x040, 0x068] →
      hostMove (.regWrite off v) s = .next { s with status := { s.status with drop := true } }

/-! ### System commands -/

/-- R240: NOP leaves everything but DONE as it was, and is dropped while ERR is 1. -/
def Obligations.NopResult : Prop :=
  decode 0x00000000#32 = .ok .nop ∧
    ∀ s : State,
      (Ready s → exec .nop s = .next { s with status := ended s.status }) ∧
        (s.status.err = true → exec .nop s = .next { s with status := { s.status with drop := true } })

/-- R241: ECLR clears ERR, DROP, ERRCODE and ERRINFO, accepted whether or not ERR is 1. -/
def Obligations.EclrResult : Prop :=
  decode 0x00000012#32 = .ok .eclr ∧ ∀ s : State, s.status.busy = false →
    exec .eclr s =
      .next { s with
        status := { ended s.status with err := false, drop := false }, errCode := 0#32, errInfo := 0#32 }

/-- R242: after SRST every element of R54's table has its reset value, the buffers are unchanged, DONE is not set;
accepted whether or not ERR is 1. -/
def Obligations.SrstResult : Prop :=
  decode 0x00000013#32 = .ok .srst ∧ ∀ s : State, s.status.busy = false →
    ∃ t, exec .srst s = .next t ∧ AtReset t ∧ t.ibuf = s.ibuf ∧ t.obuf = s.obuf

/-! ### The frequency accumulator -/

/-- R116: FCLR leaves an all-zero table and no valid flag. -/
def Obligations.FclrResult : Prop :=
  decode 0x00000001#32 = .ok .fclr ∧ ∀ s : State, Ready s →
    ∃ t, exec .fclr s = .next t ∧ (∀ sym, t.table.count sym = 0#32) ∧ t.table.total = 0#32 ∧ t.table.nsym = 0#32 ∧
      t = { s with status := { ended s.status with treeValid := false, codeValid := false }, table := t.table }

/-- R117: FACCB counts one symbol, or raises CapacityError(COUNT) where TOTAL is MAXLEN and changes nothing else. -/
def Obligations.FaccbResult : Prop :=
  ∀ (s : State) (sym : Byte), Ready s →
    decode (0x00000002#32 ||| (sym.setWidth 32 <<< 8)) = .ok (.faccb sym) ∧
    (s.table.total ≠ 0xFFFFFFFF#32 →
      ∃ t, exec (.faccb sym) s = .next t ∧ t.table.count sym = s.table.count sym + 1#32 ∧
        (∀ sym', sym' ≠ sym → t.table.count sym' = s.table.count sym') ∧ t.table.total = s.table.total + 1#32 ∧
        t.table.nsym = (if s.table.count sym = 0#32 then s.table.nsym + 1#32 else s.table.nsym) ∧
        t = { s with status := { ended s.status with treeValid := false, codeValid := false }, table := t.table }) ∧
    (s.table.total = 0xFFFFFFFF#32 → exec (.faccb sym) s = .next (failed s 0x0105#32 s.table.total))

/-- R118: FACC adds the occurrences of every symbol in IBUF[0..IN_LEN−1] to the table it finds, NSYM counts the
non-zero counters, IN_PTR ends at IN_LEN; the two errors leave everything else as it was. -/
def Obligations.FaccResult : Prop :=
  decode 0x00000003#32 = .ok .facc ∧ ∀ s : State, Ready s →
    (s.params.ibufSize < s.inLen → exec .facc s = .next (failed s 0x0305#32 s.inLen)) ∧
    (s.inLen ≤ s.params.ibufSize → 2 ^ 32 - 1 < s.table.total.toNat + s.inLen.toNat →
      exec .facc s = .next (failed s 0x0105#32 s.table.total)) ∧
    (s.inLen ≤ s.params.ibufSize → s.table.total.toNat + s.inLen.toNat ≤ 2 ^ 32 - 1 → TableOk s.table →
      ∃ t, exec .facc s = .next t ∧
        (∀ sym, (t.table.count sym).toNat = (s.table.count sym).toNat + (inputBytes s).count sym) ∧
        t.table.total.toNat = s.table.total.toNat + s.inLen.toNat ∧
        t.table.nsym.toNat = (presentSymbols t.table).length ∧
        t = { s with
          status := { ended s.status with treeValid := false, codeValid := false }, inPtr := s.inLen,
          table := t.table })

/-- R120: from a clear table FACC computes the counts of the input bytes, and FCLR followed by FACCB of those bytes in
any order computes the same table. -/
def Obligations.CountingInAnyOrder : Prop :=
  ∀ (s u : State) (bs : List Byte), Ready s → Ready u → s.inLen ≤ s.params.ibufSize → s.table.total = 0#32 →
    s.table.nsym = 0#32 → (∀ sym, s.table.count sym = 0#32) → bs.Perm (inputBytes s) →
      ∃ t v, exec .facc s = .next t ∧ execAll (.fclr :: bs.map .faccb) u = .next v ∧ Counts t.table (inputBytes s) ∧
        v.table = t.table

/-! ### The tree -/

/-- R138, R139 with the frame of TBLD: it ends with a tree of the required shape (`TreeOk` says R46's, R47's and R138's
clauses), in which the weight of every internal node is the sum of the counts of the leaves under it and the weight of
the root is TOTAL; it changes only the tree and the valid flags. -/
def Obligations.TbldResult : Prop :=
  ∀ s : State, Ready s → TableOk s.table →
    ∃ t, exec .tbld s = .next t ∧ TreeOk s.table t.tree ∧
      (∀ k : Byte, k < t.tree.nint →
        (t.tree.entry k).weight.toNat =
          ((leavesUnder t.tree 256 (nodeHandle k)).map fun sym => (s.table.count sym).toNat).sum) ∧
      (t.tree.nonempty = true → nodeWeight s.table t.tree t.tree.root = s.table.total) ∧
      t = { s with status := { ended s.status with treeValid := true, codeValid := false }, tree := t.tree }

/-- R134, R135, R137: TBLD is the greedy merge. Node k is made from the node with the lowest key of LIVE and the one with
the next lowest, in this order as left and right child, with their weights added and the left one's lsym; LIVE is the
present leaves and the nodes made so far without the removed ones; what is left at the end is ROOT. -/
def Obligations.TbldMergesTheTwoLowest : Prop :=
  decode 0x00000004#32 = .ok .tbld ∧ ∀ s : State, Ready s → TableOk s.table →
    ∃ t, exec .tbld s = .next t ∧
      (∀ k : Byte, k < t.tree.nint →
        MergesLowest s.table t.tree k ∧ (t.tree.entry k).left ≠ (t.tree.entry k).right ∧
          (t.tree.entry k).weight = nodeWeight s.table t.tree (t.tree.entry k).left +
            nodeWeight s.table t.tree (t.tree.entry k).right ∧
          (t.tree.entry k).lsym = nodeLsym t.tree (t.tree.entry k).left) ∧
      (∀ h, LiveAt s.table t.tree t.tree.nint.toNat h ↔ t.tree.nonempty = true ∧ h = t.tree.root) ∧
      (t.tree.nonempty = false → t.tree.root = 0#9 ∧ t.tree.nint = 0#8) ∧
      t = { s with status := { ended s.status with treeValid := true, codeValid := false }, tree := t.tree }

/-- R140: TBLD is a function of FREQ alone, and so is the code table that CGEN makes after it (the artifact bytes:
ArtifactOfBytes). -/
def Obligations.TbldFunctionOfFreq : Prop :=
  ∀ s u : State, Ready s → Ready u → TableOk s.table → s.table.freq = u.table.freq →
    ∃ t v, exec .tbld s = .next t ∧ exec .tbld u = .next v ∧ t.tree.nint = v.tree.nint ∧
      t.tree.nonempty = v.tree.nonempty ∧ t.tree.root = v.tree.root ∧
      (∀ k : Byte, k < t.tree.nint → t.tree.entry k = v.tree.entry k) ∧
      ∃ t' v', exec .cgen t = .next t' ∧ exec .cgen v = .next v' ∧ t'.code = v'.code

/-- R141's table: the symbol of the left-most leaf decides the tie, so 0x07 becomes the root's left child; the codes are
the ones R141 lists. -/
def Obligations.TieBreakExample : Prop :=
  ∀ s : State, Ready s →
    (∀ sym, s.table.count sym =
      if sym = 0x09#8 then 1#32 else if sym = 0x05#8 then 2#32 else if sym = 0x07#8 then 3#32 else 0#32) →
      ∃ t u, exec .tbld s = .next t ∧ exec .cgen t = .next u ∧
        t.tree.entry 0#8 = ⟨3#32, 0x009#9, 0x005#9, 0x09#8⟩ ∧ (t.tree.entry 1#8).left = 0x007#9 ∧
        (t.tree.entry 1#8).right = 0x100#9 ∧ codeBits u.code 0x07#8 = [false] ∧
        codeBits u.code 0x09#8 = [true, false] ∧ codeBits u.code 0x05#8 = [true, true]

/-! ### The code table -/

/-- R152 with R49 and R97: CGEN on a valid tree fills the code table with the paths of the leaves, changes nothing else
but CODE_VALID, and without a valid tree raises SequenceError(NOTREE) with CODE_VALID cleared. After NOTREE R152 leaves
the code table unspecified: that it keeps what it held is the model's choice (log 5). -/
def Obligations.CgenResult : Prop :=
  decode 0x00000005#32 = .ok .cgen ∧ ∀ s : State, Ready s →
    (s.status.treeValid = true → TreeOk s.table s.tree →
      ∃ t, exec .cgen s = .next t ∧ CodesOk s.table s.tree t.code ∧
        t = { s with status := { ended s.status with codeValid := true }, code := t.code }) ∧
    (s.status.treeValid = false →
      exec .cgen s =
        .next (failed { s with status := { s.status with codeValid := false } } 0x0104#32 0#32))

/-- R153: after CGEN on a tree built from the table, exactly the present symbols have a code; the codes of different
symbols differ and none is the beginning of another; a single symbol has the code "0"; a sequence that the table counts
has Σ FREQ[s]·CLEN[s] payload bits. -/
def Obligations.CodesPrefixFree : Prop :=
  ∀ s : State, Ready s → TableOk s.table → s.status.treeValid = true → TreeOk s.table s.tree →
    ∃ t, exec .cgen s = .next t ∧
      (∀ sym, t.code.len sym ≠ 0#8 ↔ s.table.count sym ≠ 0#32) ∧
      (∀ a b, t.code.len a ≠ 0#8 → t.code.len b ≠ 0#8 → codeBits t.code a <+: codeBits t.code b → a = b) ∧
      (∀ a, s.table.nsym = 1#32 → t.code.len a ≠ 0#8 → codeBits t.code a = [false]) ∧
      ∀ bs, Counts s.table bs → (payloadBits t.code bs).length =
        ((presentSymbols s.table).map fun sym => (s.table.count sym).toNat * (t.code.len sym).toNat).sum

/-- R154: with two or more symbols the Kraft sum is 1 and every bit string that is long enough has exactly one code as
its beginning; with one symbol the sum is 1/2 and no string that starts with 1 has a code as its beginning. -/
def Obligations.KraftSum : Prop :=
  ∀ s : State, Ready s → TableOk s.table → s.status.treeValid = true → TreeOk s.table s.tree →
    ∃ t, exec .cgen s = .next t ∧
      (2 ≤ s.table.nsym.toNat →
        ((presentSymbols s.table).map fun sym => (1 / 2 : ℚ) ^ (t.code.len sym).toNat).sum = 1 ∧
          ∀ bits : List Bool, 255 ≤ bits.length →
            ∃! sym, t.code.len sym ≠ 0#8 ∧ codeBits t.code sym <+: bits) ∧
      (s.table.nsym = 1#32 →
        ((presentSymbols s.table).map fun sym => (1 / 2 : ℚ) ^ (t.code.len sym).toNat).sum = 1 / 2 ∧
          ∀ (bits : List Bool) (sym : Byte), t.code.len sym ≠ 0#8 → ¬codeBits t.code sym <+: true :: bits)

/-! ### The packer -/

/-- R168: PINIT empties the packer. -/
def Obligations.PinitResult : Prop :=
  decode 0x00000006#32 = .ok .pinit ∧
    ∀ s : State, Ready s → exec .pinit s = .next { s with status := ended s.status, packer := ⟨0#8, 0#3⟩ }

/-- R167, R169: PBIT puts its bit below the pending ones, writes the byte that the eighth bit completes, and raises
CapacityError(OBUF) with the packer unchanged where OBUF is full. That no byte at or beyond the new OUT_LEN changes is the
model's reading of R303 and U14 (log 18). -/
def Obligations.PbitResult : Prop :=
  ∀ (s : State) (b : Bool), Ready s →
    decode (if b then 0x00000107#32 else 0x00000007#32) = .ok (.pbit (if b then 1#8 else 0#8)) ∧
    (s.packer.nb ≠ 7#3 →
      exec (.pbit (if b then 1#8 else 0#8)) s =
        .next { s with
          status := ended s.status,
          packer := ⟨s.packer.acc ||| ((if b then 1#8 else 0#8) <<< (7 - s.packer.nb.toNat)), s.packer.nb + 1#3⟩ }) ∧
    (s.packer.nb = 7#3 → s.outLen < s.params.obufSize →
      ∃ t, exec (.pbit (if b then 1#8 else 0#8)) s = .next t ∧
        t.obufByte s.outLen.toNat = s.packer.acc ||| (if b then 1#8 else 0#8) ∧
        (∀ a, a ≠ s.outLen.toNat → t.obufByte a = s.obufByte a) ∧
        t = { s with
          status := ended s.status, packer := ⟨0#8, 0#3⟩, outLen := s.outLen + 1#32, obuf := t.obuf }) ∧
    (s.packer.nb = 7#3 → s.params.obufSize ≤ s.outLen →
      exec (.pbit (if b then 1#8 else 0#8)) s = .next (failed s 0x0205#32 s.outLen))

/-- R170: PSYM appends the code of its symbol to the bit stream, root edge first; NoCodeError where the symbol has no
code; CapacityError(OBUF) where a byte it completes does not fit, with the bits pushed before it pending (the packer
after the error: R263's precise reading, log 7). That no byte at or beyond the new OUT_LEN changes is the model's reading
of R303 and U14 (log 18). -/
def Obligations.PsymResult : Prop :=
  ∀ (s : State) (sym : Byte), Ready s →
    decode (0x00000008#32 ||| (sym.setWidth 32 <<< 8)) = .ok (.psym sym) ∧
    (s.status.codeValid = false → exec (.psym sym) s = .next (failed s 0x0204#32 0#32)) ∧
    (s.status.codeValid = true → s.code.len sym = 0#8 →
      exec (.psym sym) s = .next (failed s 0x0006#32 (sym.setWidth 32))) ∧
    (s.status.codeValid = true → s.code.len sym ≠ 0#8 → PackerOk s.packer →
      RoomForBits (s.code.len sym).toNat s →
        ∃ t, exec (.psym sym) s = .next t ∧ PackerOk t.packer ∧
          8 * t.outLen.toNat + t.packer.nb.toNat =
            8 * s.outLen.toNat + s.packer.nb.toNat + (s.code.len sym).toNat ∧
          streamFrom s.outLen.toNat t = pendingBits s.packer ++ codeBits s.code sym ∧ OnlyAppended s t ∧
          t = { s with status := ended s.status, packer := t.packer, outLen := t.outLen, obuf := t.obuf }) ∧
    (s.status.codeValid = true → s.code.len sym ≠ 0#8 → PackerOk s.packer →
      ¬RoomForBits (s.code.len sym).toNat s →
        ∃ t, exec (.psym sym) s = .next t ∧ ErrorEnd t 0x0205#32 (fullAt s) ∧ t.packer.nb = 7#3 ∧
          pendingBits t.packer = ((pendingBits s.packer ++ codeBits s.code sym).drop
            (8 * ((fullAt s).toNat - s.outLen.toNat))).take 7)

/-- R171: PACK appends the codes of IBUF[0..IN_LEN−1] in address order to the bit stream and leaves IN_PTR at IN_LEN;
CapacityError(INLEN) and SequenceError(NOCODETABLE) come first; NoCodeError at the first byte without a code, whose
offset is IN_PTR − 1; CapacityError(OBUF) where the codes of the bytes up to some point do not fit. That no byte at or
beyond the new OUT_LEN changes is the model's reading of R303 and U14 (log 18), IN_PTR after the NoCodeError is log 7's
precise reading of R263. -/
def Obligations.PackResult : Prop :=
  decode 0x00000009#32 = .ok .pack ∧ ∀ s : State, Ready s →
    (s.params.ibufSize < s.inLen → exec .pack s = .next (failed s 0x0305#32 s.inLen)) ∧
    (s.inLen ≤ s.params.ibufSize → s.status.codeValid = false → exec .pack s = .next (failed s 0x0204#32 0#32)) ∧
    (s.inLen ≤ s.params.ibufSize → s.status.codeValid = true → PackerOk s.packer →
      ((∀ b ∈ inputBytes s, s.code.len b ≠ 0#8) → RoomForBits (payloadBits s.code (inputBytes s)).length s →
        ∃ t, exec .pack s = .next t ∧ PackerOk t.packer ∧
          8 * t.outLen.toNat + t.packer.nb.toNat =
            8 * s.outLen.toNat + s.packer.nb.toNat + (payloadBits s.code (inputBytes s)).length ∧
          streamFrom s.outLen.toNat t = pendingBits s.packer ++ payloadBits s.code (inputBytes s) ∧
          OnlyAppended s t ∧
          t = { s with
            status := ended s.status, inPtr := s.inLen, packer := t.packer, outLen := t.outLen, obuf := t.obuf }) ∧
      (∀ m, m < s.inLen.toNat → (∀ b ∈ ibufSlice s 0 m, s.code.len b ≠ 0#8) →
        RoomForBits (payloadBits s.code (ibufSlice s 0 m)).length s → s.code.len (s.ibufByte m) = 0#8 →
          ∃ t, exec .pack s = .next t ∧ ErrorEnd t 0x0006#32 ((s.ibufByte m).setWidth 32) ∧ t.inPtr.toNat = m + 1) ∧
      (∀ m, m ≤ s.inLen.toNat → (∀ b ∈ ibufSlice s 0 m, s.code.len b ≠ 0#8) →
        ¬RoomForBits (payloadBits s.code (ibufSlice s 0 m)).length s →
          ∃ t, exec .pack s = .next t ∧ ErrorEnd t 0x0205#32 (fullAt s)))

/-- R172: PFLUSH writes the pending bits with zero padding below them, writes nothing where none is pending, and raises
CapacityError(OBUF) with the packer unchanged where OBUF is full. That no byte at or beyond the new OUT_LEN changes is the
model's reading of R303 and U14 (log 18). -/
def Obligations.PflushResult : Prop :=
  decode 0x0000000A#32 = .ok .pflush ∧ ∀ s : State, Ready s →
    (s.packer.nb = 0#3 → exec .pflush s = .next { s with status := ended s.status }) ∧
    (s.packer.nb ≠ 0#3 → s.outLen < s.params.obufSize →
      ∃ t, exec .pflush s = .next t ∧ t.obufByte s.outLen.toNat = s.packer.acc ∧
        (∀ a, a ≠ s.outLen.toNat → t.obufByte a = s.obufByte a) ∧
        t = { s with
          status := ended s.status, packer := ⟨0#8, 0#3⟩, outLen := s.outLen + 1#32, obuf := t.obuf }) ∧
    (s.packer.nb ≠ 0#3 → s.params.obufSize ≤ s.outLen → exec .pflush s = .next (failed s 0x0205#32 s.outLen))

/-- R173: pushing T bits by any mix of PBIT, PSYM and PACK from an empty packer at OUT_LEN = p and then PFLUSH leaves
OUT_LEN = p + ⌈T/8⌉, stream bit j in bit 7 − (j mod 8) of OBUF[p + ⌊j/8⌋], the unused low bits of the last byte 0, and
every other byte of OBUF as it was (beyond the new OUT_LEN: the model's reading of R303 and U14, log 18). -/
def Obligations.ByteCountLaw : Prop :=
  ∀ (s : State) (is : List Instr), Ready s → s.packer = ⟨0#8, 0#3⟩ → (∀ i ∈ is, CanPack s i) →
    s.outLen.toNat + ((is.flatMap (bitsOf s)).length + 7) / 8 ≤ s.params.obufSize.toNat →
      ∃ t, execAll (is ++ [.pflush]) s = .next t ∧ t.status.done = true ∧
        t.outLen.toNat = s.outLen.toNat + ((is.flatMap (bitsOf s)).length + 7) / 8 ∧
        (∀ j, j < 8 * (t.outLen.toNat - s.outLen.toNat) →
          (t.obufByte (s.outLen.toNat + j / 8)).getLsbD (7 - j % 8) =
            ((is.flatMap (bitsOf s))[j]?).getD false) ∧
        ∀ a, a < s.outLen.toNat ∨ t.outLen.toNat ≤ a → t.obufByte a = s.obufByte a

/-! ### Preconditions -/

/-- R69: every command that reads IBUF raises CapacityError(INLEN) first where IN_LEN exceeds IBUF_SIZE; FACC, PACK, USYM,
UNPK and COMP leave everything else as it was, HGET and DECOMP clear the valid flags, as R27 has it on success or error,
and leave the rest. That R27 is followed over R212's pseudocode there, and that the table stays, is log 9. -/
def Obligations.InlenErrors : Prop :=
  ∀ s : State, Ready s → s.params.ibufSize < s.inLen →
    (∀ i ∈ [Instr.facc, .pack, .usym, .unpk, .comp], exec i s = .next (failed s 0x0305#32 s.inLen)) ∧
      ∀ i ∈ [Instr.hget, .decomp], exec i s =
        .next (failed { s with status := { s.status with treeValid := false, codeValid := false } } 0x0305#32 s.inLen)

/-- R259: the four SequenceErrors, each with the commands that raise it. That CGEN's NOTREE keeps the code table, which
R152 leaves unspecified, is the model's choice (log 5). -/
def Obligations.PreconditionErrors : Prop :=
  ∀ s : State, Ready s →
    (s.status.treeValid = false →
      exec .cgen s = .next (failed { s with status := { s.status with codeValid := false } } 0x0104#32 0#32) ∧
        exec .uinit s = .next (failed s 0x0104#32 0#32) ∧
        (s.inLen ≤ s.params.ibufSize →
          exec .usym s = .next (failed s 0x0104#32 0#32) ∧ exec .unpk s = .next (failed s 0x0104#32 0#32))) ∧
    (s.status.codeValid = false →
      (∀ sym, exec (.psym sym) s = .next (failed s 0x0204#32 0#32)) ∧
        (s.inLen ≤ s.params.ibufSize → exec .pack s = .next (failed s 0x0204#32 0#32))) ∧
    (s.inLen ≤ s.params.ibufSize → s.status.treeValid = true →
      (s.unpacker.rem = 0#32 → exec .usym s = .next (failed s 0x0404#32 0#32)) ∧
        (s.unpacker.rem ≠ 0#32 → s.tree.nonempty = false →
          exec .usym s = .next (failed s 0x0304#32 s.unpacker.rem) ∧
            exec .unpk s = .next (failed s 0x0304#32 s.unpacker.rem)))

/-! ### The unpacker -/

/-- R188: UINIT sets the bit cursor to a byte boundary, CUR to the root and REM to TOTAL; without a valid tree it raises
SequenceError(NOTREE). -/
def Obligations.UinitResult : Prop :=
  decode 0x0000000B#32 = .ok .uinit ∧ ∀ s : State, Ready s →
    (s.status.treeValid = true →
      exec .uinit s =
        .next { s with status := ended s.status, unpacker := ⟨0#3, s.tree.root, s.table.total⟩ }) ∧
    (s.status.treeValid = false → exec .uinit s = .next (failed s 0x0104#32 0#32))

/-- R190: where the bits at the cursor begin with the path of a leaf (or "0" for a single leaf), USYM appends the leaf's
symbol, moves the cursor past those bits, lowers REM by one and puts CUR back at the root; CapacityError(OBUF) after the
bits are read where OBUF is full. That no byte at or beyond the new OUT_LEN changes is the model's reading of R303 and U14
(log 18), the cursor and REM after the error are log 7's precise reading of R263. -/
def Obligations.UsymResult : Prop :=
  ∀ (s : State) (sym : Byte) (bits rest : List Bool), Ready s → s.inLen ≤ s.params.ibufSize →
    s.status.treeValid = true → s.unpacker.rem ≠ 0#32 → s.tree.nonempty = true → cursorBits s = bits ++ rest →
    (if isLeaf s.tree.root then s.tree.root = leafHandle sym ∧ bits = [false] else IsPath s.tree bits sym) →
      (s.outLen < s.params.obufSize →
        ∃ t, exec .usym s = .next t ∧ t.obufByte s.outLen.toNat = sym ∧
          (∀ a, a ≠ s.outLen.toNat → t.obufByte a = s.obufByte a) ∧ cursorPos t = cursorPos s + bits.length ∧
          t.unpacker.rem = s.unpacker.rem - 1#32 ∧ t.unpacker.cur = s.tree.root ∧
          t = { s with
            status := ended s.status, inPtr := t.inPtr, unpacker := t.unpacker, outLen := s.outLen + 1#32,
            obuf := t.obuf }) ∧
      (s.params.obufSize ≤ s.outLen →
        ∃ t, exec .usym s = .next t ∧ ErrorEnd t 0x0205#32 s.outLen ∧ cursorPos t = cursorPos s + bits.length ∧
          t.unpacker.rem = s.unpacker.rem)

/-- R257, R187, R189: where the bits run out before a leaf is reached USYM raises CorruptionError(EXHAUSTED), the cursor
at the end of the input and CUR at the node the walk had reached; a 1 at a single-leaf tree is CorruptionError(BADBIT);
both leave REM and put it in ERRINFO. The cursor, CUR and REM after the error are log 7's precise reading of R263. -/
def Obligations.UsymErrors : Prop :=
  ∀ s : State, Ready s → s.inLen ≤ s.params.ibufSize → s.status.treeValid = true → s.unpacker.rem ≠ 0#32 →
    s.tree.nonempty = true →
      ((if isLeaf s.tree.root then cursorBits s = []
        else ∀ p, p <+: cursorBits s → isLeaf (followPath s.tree s.tree.root p) = false) →
        ∃ t, exec .usym s = .next t ∧ ErrorEnd t 0x0102#32 s.unpacker.rem ∧ t.unpacker.rem = s.unpacker.rem ∧
          t.unpacker.cur = followPath s.tree s.tree.root (cursorBits s) ∧
          t.inPtr = (if s.inLen ≤ s.inPtr then s.inPtr else s.inLen)) ∧
      (isLeaf s.tree.root = true → ∀ rest, cursorBits s = true :: rest →
        ∃ t, exec .usym s = .next t ∧ ErrorEnd t 0x0202#32 s.unpacker.rem ∧ t.unpacker.rem = s.unpacker.rem ∧
          t.unpacker.cur = s.tree.root ∧ cursorPos t = cursorPos s + 1)

/-- R191, R189, R194, R264. UNPK is REM times USYM: while REM is not 0 it ends as USYM ends where that is an error, else
as UNPK does from there, and with REM = 0 it does nothing, as R191's pseudocode and D31 have it, CUR included, which R52
and R191's text would move to the root (log 21); with symbols due a success leaves CUR at the root (R52). A 1 at a
single-leaf tree after `m` zeros is CorruptionError(BADBIT). Where the codes of symbols stand at the cursor, for the
codes CGEN would make of the tree, it appends exactly REM of them, reads not one bit more and leaves REM = 0;
CapacityError(OBUF) where some whole codes do not fit, whatever follows them; CorruptionError(EXHAUSTED) where the bits
end inside a code and the symbols before it fit. Bytes at and beyond the new OUT_LEN: log 18, the cursor and REM after
an error: log 7. -/
def Obligations.UnpkResult : Prop :=
  decode 0x0000000D#32 = .ok .unpk ∧ ∀ s : State, Ready s →
    (s.unpacker.rem ≠ 0#32 → ∀ t, exec .usym s = .next t →
      exec .unpk s = if t.status.err then .next t else exec .unpk t) ∧
    (s.inLen ≤ s.params.ibufSize → s.status.treeValid = true →
      (s.unpacker.rem = 0#32 → exec .unpk s = .next { s with status := ended s.status }) ∧
      (s.tree.nonempty = true → isLeaf s.tree.root = true → ∀ m rest, m < s.unpacker.rem.toNat →
        cursorBits s = List.replicate m false ++ true :: rest →
        (m = 0 ∨ s.outLen.toNat + m ≤ s.params.obufSize.toNat) →
          ∃ t, exec .unpk s = .next t ∧ ErrorEnd t 0x0202#32 t.unpacker.rem ∧
            t.unpacker.rem.toNat + m = s.unpacker.rem.toNat ∧ t.unpacker.cur = s.tree.root ∧
            cursorPos t = cursorPos s + m + 1) ∧
      ∀ (ct : CodeTable) (bs : List Byte), TableOk s.table → TreeOk s.table s.tree → codesOf s.tree = some ct →
        (∀ b ∈ bs, s.table.count b ≠ 0#32) →
          (∀ rest, s.unpacker.rem.toNat = bs.length → cursorBits s = payloadBits ct bs ++ rest →
            (bs = [] ∨ s.outLen.toNat + bs.length ≤ s.params.obufSize.toNat) →
              ∃ t, exec .unpk s = .next t ∧ t.outLen.toNat = s.outLen.toNat + bs.length ∧
                obufSlice t s.outLen.toNat t.outLen.toNat = bs ∧ OnlyAppended s t ∧
                cursorPos t = cursorPos s + (payloadBits ct bs).length ∧ t.unpacker.rem = 0#32 ∧
                t.unpacker.cur = (if bs = [] then s.unpacker.cur else s.tree.root) ∧
                t = { s with
                  status := ended s.status, inPtr := t.inPtr, unpacker := t.unpacker, outLen := t.outLen,
                  obuf := t.obuf }) ∧
          (∀ rest, bs.length ≤ s.unpacker.rem.toNat → cursorBits s = payloadBits ct bs ++ rest → bs ≠ [] →
            s.params.obufSize.toNat < s.outLen.toNat + bs.length →
              ∃ t, exec .unpk s = .next t ∧ ErrorEnd t 0x0205#32 (fullAt s)) ∧
          ∀ (b : Byte) (p : List Bool), s.table.count b ≠ 0#32 → bs.length < s.unpacker.rem.toNat →
            cursorBits s = payloadBits ct bs ++ p → p <+: codeBits ct b → p ≠ codeBits ct b →
            (bs = [] ∨ s.outLen.toNat + bs.length ≤ s.params.obufSize.toNat) →
              ∃ t, exec .unpk s = .next t ∧ ErrorEnd t 0x0102#32 t.unpacker.rem ∧
                t.unpacker.rem.toNat + bs.length = s.unpacker.rem.toNat ∧
                t.inPtr = if s.inLen ≤ s.inPtr then s.inPtr else s.inLen)

/-! ### The header -/

/-- R210 with R92 to R95: HPUT writes the header of the table at OBUF[0] and empties the packer; CapacityError(OBUF)
where OBUF is smaller than the header. The length counts the present symbols, which is NSYM under R22. That no byte at or
beyond the new OUT_LEN changes is the model's reading of R303 and U14 (log 18). -/
def Obligations.HputResult : Prop :=
  decode 0x0000000E#32 = .ok .hput ∧ ∀ s : State, Ready s →
    (10 + 5 * (presentSymbols s.table).length ≤ s.params.obufSize.toNat →
      ∃ t, exec .hput s = .next t ∧ t.outLen.toNat = 10 + 5 * (presentSymbols s.table).length ∧
        outputBytes t = [0x48#8, 0x55#8, 0x46#8, 0x31#8] ++ bigEndian 4 s.table.total ++ bigEndian 2 s.table.nsym ++
          (presentSymbols s.table).flatMap (fun sym => sym :: bigEndian 4 (s.table.count sym)) ∧
        (∀ a, t.outLen.toNat ≤ a → t.obufByte a = s.obufByte a) ∧
        t = { s with status := ended s.status, packer := ⟨0#8, 0#3⟩, outLen := t.outLen, obuf := t.obuf }) ∧
    (s.params.obufSize.toNat < 10 + 5 * (presentSymbols s.table).length →
      ∃ t, exec .hput s = .next t ∧ ErrorEnd t 0x0205#32 s.params.obufSize)

/-- R212 on a well-formed header: HGET loads the entries, OriginalLength and SymbolCount into the table, leaves IN_PTR at
the payload with BIDX = 0, and clears the valid flags. -/
def Obligations.HgetResult : Prop :=
  ∀ (s : State) (n : Nat), Ready s → s.inLen ≤ s.params.ibufSize → n = (headerCount s).toNat → n ≤ 256 →
    10 + 5 * n ≤ s.inLen.toNat → HasMagic s → (∀ i, i < n → EntryGood s i) →
    ((List.range n).map fun i => (entryCount s i).toNat).sum = (headerOriginal s).toNat →
      ∃ t, exec .hget s = .next t ∧ (∀ i, i < n → t.table.count (entrySymbol s i) = entryCount s i) ∧
        (∀ sym, (∀ i, i < n → entrySymbol s i ≠ sym) → t.table.count sym = 0#32) ∧
        t.table.total = headerOriginal s ∧ t.table.nsym.toNat = n ∧
        t = { s with
          status := { ended s.status with treeValid := false, codeValid := false },
          inPtr := BitVec.ofNat 32 (10 + 5 * n), table := t.table, unpacker := { s.unpacker with bidx := 0#3 } }

/-- R256 with R212's order of tests: the six FormatErrors of HGET, each with its ERRINFO, the table clear and IN_PTR where
the parse stopped (log 7's precise reading of R263). -/
def Obligations.HgetErrors : Prop :=
  ∀ s : State, Ready s → s.inLen ≤ s.params.ibufSize →
    (s.inLen.toNat < 4 → exec .hget s = .next (headerFailed s 0x0101#32 s.inLen 0)) ∧
    (∀ j, 4 ≤ s.inLen.toNat → j < 4 → (∀ k, k < j → some (s.ibufByte k) = Config.magic[k]?) →
      some (s.ibufByte j) ≠ Config.magic[j]? →
        exec .hget s = .next (headerFailed s 0x0201#32 (BitVec.ofNat 32 j) (j + 1))) ∧
    (4 ≤ s.inLen.toNat → HasMagic s → s.inLen.toNat < 10 →
      exec .hget s = .next (headerFailed s 0x0101#32 s.inLen 4)) ∧
    (10 ≤ s.inLen.toNat → HasMagic s →
      (256 < (headerCount s).toNat →
        exec .hget s = .next (headerFailed s 0x0301#32 ((headerCount s).setWidth 32) 10)) ∧
      ((headerCount s).toNat ≤ 256 → s.inLen.toNat < 10 + 5 * (headerCount s).toNat →
        exec .hget s = .next (headerFailed s 0x0101#32 s.inLen 10)) ∧
      ((headerCount s).toNat ≤ 256 → 10 + 5 * (headerCount s).toNat ≤ s.inLen.toNat →
        (∀ i j, i < (headerCount s).toNat → (∀ k, k < i → EntryGood s k) → j + 1 = i →
          entrySymbol s i ≤ entrySymbol s j →
            exec .hget s =
              .next (headerFailed s 0x0401#32 (BitVec.ofNat 32 (10 + 5 * i)) (10 + 5 * (i + 1)))) ∧
        (∀ i, i < (headerCount s).toNat → (∀ k, k < i → EntryGood s k) →
          (∀ j, j + 1 = i → entrySymbol s j < entrySymbol s i) → entryCount s i = 0#32 →
            exec .hget s =
              .next (headerFailed s 0x0501#32 (BitVec.ofNat 32 (10 + 5 * i)) (10 + 5 * (i + 1)))) ∧
        ((∀ i, i < (headerCount s).toNat → EntryGood s i) →
          ((List.range (headerCount s).toNat).map fun i => (entryCount s i).toNat).sum ≠ (headerOriginal s).toNat →
            exec .hget s =
              .next (headerFailed s 0x0601#32 (headerOriginal s) (10 + 5 * (headerCount s).toNat)))))

/-- R95, R212: HGET succeeds only on a header: where it ends without an error, IBUF begins with exactly the header of the
table it loaded, and the table keeps R22. -/
def Obligations.HgetAcceptsOnlyHeaders : Prop :=
  ∀ s t : State, Ready s → exec .hget s = .next t → t.status.err = false →
    s.inLen ≤ s.params.ibufSize ∧ TableOk t.table ∧ headerLen (presentSymbols t.table).length ≤ s.inLen.toNat ∧
      ibufSlice s 0 (headerLen (presentSymbols t.table).length) = headerBytes t.table

/-- R215: HGET of the bytes HPUT wrote restores the same table, in any state of the block that reads them. -/
def Obligations.HeaderRoundTrip : Prop :=
  ∀ s u : State, Ready s → Ready u → TableOk s.table →
    10 + 5 * (presentSymbols s.table).length ≤ s.params.obufSize.toNat →
      ∃ t, exec .hput s = .next t ∧ t.status.done = true ∧
        (u.inLen ≤ u.params.ibufSize → t.outLen ≤ u.inLen → ibufSlice u 0 t.outLen.toNat = outputBytes t →
          ∃ v, exec .hget u = .next v ∧ v.status.done = true ∧ v.table = s.table)

/-! ### Whole compression and decompression -/

/-- R232: artifact(B) is a function of the bytes alone, of OUT_LEN = 10 + 5n + ⌈T/8⌉ bytes; for no bytes it is R98's ten. -/
def Obligations.ArtifactOfBytes : Prop :=
  (∀ bs : List Byte, bs.length ≤ 2 ^ 32 - 1 →
    ∃ out, IsArtifact bs out ∧ (∀ out', IsArtifact bs out' → out' = out) ∧
      ∃ ft ct, Counts ft bs ∧ codesOf (buildTree ft Tree.zero) = some ct ∧
        out.length = 10 + 5 * bs.dedup.length + ((payloadBits ct bs).length + 7) / 8) ∧
  IsArtifact [] [0x48#8, 0x55#8, 0x46#8, 0x31#8, 0#8, 0#8, 0#8, 0#8, 0#8, 0#8]

/-- R231: COMP leaves artifact(IBUF[0..IN_LEN−1]) at OBUF[0..OUT_LEN−1], whatever the block held before;
CapacityError(OBUF) exactly where the artifact does not fit, CapacityError(INLEN) where the input does not, no other
error. That no byte at or beyond the new OUT_LEN changes is the model's reading of R303 and U14 (log 18). -/
def Obligations.CompResult : Prop :=
  decode 0x00000010#32 = .ok .comp ∧ ∀ s : State, Ready s →
    (s.params.ibufSize < s.inLen → exec .comp s = .next (failed s 0x0305#32 s.inLen)) ∧
    (s.inLen ≤ s.params.ibufSize → ∃ out, IsArtifact (inputBytes s) out ∧
      (out.length ≤ s.params.obufSize.toNat →
        ∃ t, exec .comp s = .next t ∧ outputBytes t = out ∧ t.outLen.toNat = out.length ∧
          Counts t.table (inputBytes s) ∧
          (s.inLen ≠ 0#32 → TreeOk t.table t.tree ∧ CodesOk t.table t.tree t.code) ∧
          (s.inLen = 0#32 → t.tree = s.tree ∧ t.code = s.code) ∧
          (∀ a, t.outLen.toNat ≤ a → t.obufByte a = s.obufByte a) ∧
          t = { s with
            status := { ended s.status with treeValid := s.inLen != 0#32, codeValid := s.inLen != 0#32 },
            inPtr := s.inLen, outLen := t.outLen, table := t.table, tree := t.tree, code := t.code,
            packer := ⟨0#8, 0#3⟩, obuf := t.obuf }) ∧
      (s.params.obufSize.toNat < out.length →
        ∃ t, exec .comp s = .next t ∧ ErrorEnd t 0x0205#32 s.params.obufSize))

/-- R233: DECOMP of an artifact, whatever bytes follow it, leaves the original bytes at OBUF[0..OUT_LEN−1];
CapacityError(OBUF) where they do not fit; an input that HGET turns away ends with HGET's error; a header of one symbol
whose payload has a 1 where that symbol's 0 is due is CorruptionError(BADBIT) (R189), ERRINFO the symbols not produced;
that the REM register holds them too after that error is log 7's precise reading of R263. That no byte at or beyond the
new OUT_LEN changes is the model's reading of R303 and U14 (log 18). -/
def Obligations.DecompResult : Prop :=
  ∀ s : State, Ready s → s.inLen ≤ s.params.ibufSize →
    (∀ (bs out rest : List Byte), bs.length ≤ 2 ^ 32 - 1 → IsArtifact bs out → inputBytes s = out ++ rest →
      (bs.length ≤ s.params.obufSize.toNat →
        ∃ t, exec .decomp s = .next t ∧ outputBytes t = bs ∧ t.outLen.toNat = bs.length ∧ Counts t.table bs ∧
          t.unpacker.rem = 0#32 ∧ (bs = [] → t.tree = s.tree) ∧ (bs ≠ [] → TreeOk t.table t.tree) ∧
          (∀ a, t.outLen.toNat ≤ a → t.obufByte a = s.obufByte a) ∧
          t = { s with
            status := { ended s.status with treeValid := bs != [], codeValid := false }, inPtr := t.inPtr,
            outLen := t.outLen, table := t.table, tree := t.tree, unpacker := t.unpacker, obuf := t.obuf }) ∧
      (s.params.obufSize.toNat < bs.length →
        ∃ t, exec .decomp s = .next t ∧ ErrorEnd t 0x0205#32 s.params.obufSize)) ∧
    (∀ (ft : FreqTable) (payload : List Byte) (m : Nat) (rest : List Bool), TableOk ft → ft.nsym = 1#32 →
      inputBytes s = headerBytes ft ++ payload → m < ft.total.toNat →
      payload.flatMap byteBits = List.replicate m false ++ true :: rest → m ≤ s.params.obufSize.toNat →
        ∃ t, exec .decomp s = .next t ∧ ErrorEnd t 0x0202#32 t.unpacker.rem ∧
          t.unpacker.rem.toNat + m = ft.total.toNat) ∧
    ∀ t, exec .hget s = .next t → t.status.err = true →
      ∃ u, exec .decomp s = .next u ∧ ErrorEnd u t.errCode t.errInfo

/-- R231, R233: a macro command ends as its bodies do when they are issued one by one, where none of them ends in an
error; and where HGET, TBLD and UINIT do not, DECOMP ends as UNPK does after them, errors included. -/
def Obligations.MacrosRunTheirBodies : Prop :=
  ∀ s t : State, Ready s → t.status.err = false →
    (s.inLen ≠ 0#32 → execAll [.fclr, .facc, .tbld, .cgen, .hput, .pack, .pflush] s = .next t →
      exec .comp s = .next t) ∧
    (s.inLen = 0#32 → execAll [.fclr, .facc, .hput] s = .next t → exec .comp s = .next t) ∧
    (t.table.total ≠ 0#32 → execAll [.hget, .tbld, .uinit, .unpk] { s with outLen := 0#32 } = .next t →
      exec .decomp s = .next t) ∧
    (t.table.total ≠ 0#32 → execAll [.hget, .tbld, .uinit] { s with outLen := 0#32 } = .next t →
      exec .decomp s = exec .unpk t) ∧
    (t.table.total = 0#32 → execAll [.hget] { s with outLen := 0#32 } = .next t →
      exec .decomp s = .next { t with unpacker := { t.unpacker with rem := 0#32 } })

/-- R234: COMP on any input B whose artifact fits, then DECOMP of those bytes in any block they fit, gives B back. -/
def Obligations.RoundTrip : Prop :=
  ∀ s u : State, Ready s → Ready u → s.inLen ≤ s.params.ibufSize →
    (∀ out, IsArtifact (inputBytes s) out → out.length ≤ s.params.obufSize.toNat) →
      ∃ t, exec .comp s = .next t ∧ t.status.done = true ∧
        (u.inLen = t.outLen → inputBytes u = outputBytes t → u.inLen ≤ u.params.ibufSize →
          s.inLen ≤ u.params.obufSize →
            ∃ v, exec .decomp u = .next v ∧ v.status.done = true ∧ outputBytes v = inputBytes s)

/-- R193, R233, R257: DECOMP of an artifact whose payload is cut short raises CorruptionError(EXHAUSTED) and returns
nothing; ERRINFO is REM, the symbols not yet produced. That IN_PTR is IN_LEN and that the REM register holds that number
after the error is log 7's precise reading of R263. -/
def Obligations.TruncatedArtifact : Prop :=
  ∀ (s : State) (bs out : List Byte), Ready s → s.inLen ≤ s.params.ibufSize → bs.length ≤ 2 ^ 32 - 1 →
    IsArtifact bs out → inputBytes s <+: out → s.inLen.toNat < out.length →
    headerLen bs.dedup.length ≤ s.inLen.toNat → bs.length ≤ s.params.obufSize.toNat →
      ∃ t, exec .decomp s = .next t ∧ ErrorEnd t 0x0102#32 t.unpacker.rem ∧ 1 ≤ t.unpacker.rem.toNat ∧
        t.unpacker.rem.toNat ≤ bs.length ∧ t.inPtr = s.inLen

/-! ### Reset and errors -/

/-- R54: after hardware reset, at the reset input, and after SRST every element has the value R54's table gives; SRST
leaves the buffers unchanged. -/
def Obligations.ResetValues : Prop :=
  AtReset State.reset ∧ (∀ s : State, ∃ t, hostMove .rst s = .next t ∧ AtReset t) ∧
    (∀ s : State, s.status.busy = false →
      ∃ t, exec .srst s = .next t ∧ AtReset t ∧ t.ibuf = s.ibuf ∧ t.obuf = s.obuf) ∧
    Config.idWord = 0x48464131#32 ∧ Config.magicWord = 0x48554631#32

/-- R262, R255, R27: how an accepted command ends. Exactly one of DONE and ERR is set and BUSY is 0; with ERR the code is
one that R256 to R261 let this command raise and OUT_LEN is 0; with DONE the error registers are as they were, or
cleared by ECLR. -/
def Obligations.ErrorEntryWrites : Prop :=
  ∀ (i : Instr) (s t : State), Ready s → i ≠ .srst → exec i s = .next t →
    t.status.busy = false ∧ (t.status.done = true ↔ t.status.err = false) ∧
      (t.status.err = true → t.errCode ∈ errorsOf i ∧ t.outLen = 0#32) ∧
      (t.status.done = true → i ≠ .eclr → t.errCode = s.errCode ∧ t.errInfo = s.errInfo)

/-- R270: the interrupt line; it is low after reset (R291), and no command ends with both sources pending (R271). -/
def Obligations.IrqLine : Prop :=
  (∀ s : State, s.irq = true ↔
    (s.status.done = true ∧ s.ctrl.ieDone = true) ∨ (s.status.err = true ∧ s.ctrl.ieErr = true)) ∧
    State.reset.irq = false ∧
    ∀ (i : Instr) (s t : State), Ready s → exec i s = .next t → ¬(t.status.done = true ∧ t.status.err = true)

/-! ### Frames over all commands -/

/-- R61, R21, R30, R32, R33: no command writes IBUF, and none but SRST writes IN_LEN, CTRL, CSEL or NSEL; SRST leaves both
buffers. The parameters and the model's own fields stay too, under SRST as well (logs 1, 2, 6, 13). -/
def Obligations.FrameSetup : Prop :=
  ∀ (i : Instr) (s t : State), exec i s = .next t →
    (i ≠ .srst → SameSetup s t) ∧ t.ibuf = s.ibuf ∧ t.params = s.params ∧ t.inbox = s.inbox ∧
      t.hostData = s.hostData ∧ t.freeCtr = s.freeCtr ∧ (i = .srst → t.obuf = s.obuf)

/-- R40, R130, R49, R27: the table, the tree and the code table change only by the commands that write them, whichever way
the command ends, and a valid flag becomes 1 only by TBLD or CGEN (COMP and DECOMP run them). HGET leaves both flags 0
whichever way it ends, as R27 has it (log 9 for its INLEN error). -/
def Obligations.FrameModel : Prop :=
  ∀ (i : Instr) (s t : State), exec i s = .next t →
    (writesTable i = false → t.table = s.table) ∧ (writesTree i = false → t.tree = s.tree) ∧
      (writesCode i = false → t.code = s.code) ∧
      (writesTable i = false → writesTree i = false → t.status.treeValid = s.status.treeValid) ∧
      (writesTable i = false → writesTree i = false → writesCode i = false →
        t.status.codeValid = s.status.codeValid) ∧
      (t.status.treeValid = true → s.status.treeValid = true ∨ i = .tbld ∨ i = .comp ∨ i = .decomp) ∧
      (t.status.codeValid = true → s.status.codeValid = true ∨ i = .cgen ∨ i = .comp) ∧
      (Ready s → i = .hget → t.status.treeValid = false ∧ t.status.codeValid = false)

/-- R51, R52, R21, R165, R185: ACC, NB, BIDX, CUR, REM and IN_PTR change only by the commands that write them, whichever
way the command ends. -/
def Obligations.FrameCursors : Prop :=
  ∀ (i : Instr) (s t : State), exec i s = .next t →
    (writesPacker i = false → t.packer = s.packer) ∧ (writesBidx i = false → t.unpacker.bidx = s.unpacker.bidx) ∧
      (writesWalk i = false → t.unpacker.cur = s.unpacker.cur ∧ t.unpacker.rem = s.unpacker.rem) ∧
      (writesInPtr i = false → t.inPtr = s.inPtr)

/-- R61, R71: where a command ends without an error, the bytes of OBUF it changed lie between the place its output starts
(OUT_LEN, or 0 for HPUT, COMP and DECOMP) and the new OUT_LEN; a command that writes no OBUF leaves every byte of it and
OUT_LEN. That no byte at or beyond the new OUT_LEN changes is the model's reading of R303 and U14 (log 18). -/
def Obligations.FrameOutput : Prop :=
  ∀ (i : Instr) (s t : State), i ≠ .srst → exec i s = .next t → t.status.err = s.status.err →
    (writesObuf i = false → SameOutput s t) ∧
      (writesObuf i = true →
        (∀ a, t.outLen.toNat ≤ a → t.obufByte a = s.obufByte a) ∧ (startsObuf i = false → OnlyAppended s t))

/-- R27, R28, R29: ERRCODE and ERRINFO change only by error entry, ECLR and SRST, ERR is cleared only by ECLR and SRST,
DROP is set only where the command is dropped and cleared only by ECLR and SRST. -/
def Obligations.FrameErrors : Prop :=
  ∀ (i : Instr) (s t : State), i ≠ .eclr → i ≠ .srst → exec i s = .next t →
    (s.status.err = true → t.status.err = true) ∧
      (t.status.err = s.status.err → t.errCode = s.errCode ∧ t.errInfo = s.errInfo) ∧
      (Ready s → t.status.drop = s.status.drop) ∧ (s.status.drop = true → t.status.drop = true)

/-! ### The invariant -/

/-- The reset state meets the invariant of the machine. -/
def Obligations.ResetInvariant : Prop := Inv State.reset

/-- Every step keeps the invariant: the machine is idle between steps (R10), DONE and ERR are not both set (R27), R22 holds
of the table, a valid flag means a tree or code table of the current counts (R46, R47, R138, R49), ACC[7−NB:0] = 0 (R51),
and the buffers keep their canonical form inside their sizes (R60). -/
def Obligations.StepKeepsInvariant : Prop :=
  ∀ s t : State, Inv s → step s = .next t → Inv t

/-- R311: from every state that meets the invariant every command ends in a next state; no step faults, and a step is
refused only for a host access outside the interface (R65, R73). -/
def Obligations.EveryCommandEnds : Prop :=
  ∀ s : State, Inv s →
    (∀ i : Instr, ∃ t, exec i s = .next t) ∧ SafeStep s ∧ ∀ r, step s = .refused r → r = .hostAccessOutside

/-- R54 and R302 on the tree and the code table: no command reads an element of theirs that the spec leaves unspecified.
States that differ only there answer alike and differ only there afterwards (so log 5's reset values cannot be seen). For
host reads this is the model's choice (log 6): the window of an unspecified element reads as a free word of a counter,
where R33, R54 and U10 allow any value, the element's own included. -/
def Obligations.UnspecifiedStateNotRead : Prop :=
  ∀ s t u : State, Inv s → SameSpecified s u → step s = .next t → ∃ v, step u = .next v ∧ SameSpecified t v

/-! ### The host's side -/

/-- R23, R27, R30, R32, R33, R36: what a host write to each register but CMD stores while BUSY is 0; every offset that is
not listed ignores the write. -/
def Obligations.RegisterWrites : Prop :=
  ∀ (s : State) (v : Word), s.status.busy = false →
    hostMove (.regWrite 0x004 v) s =
        .next { s with
          status := { s.status with
            done := s.status.done && !v.getLsbD 1, drop := s.status.drop && !v.getLsbD 3 } } ∧
      hostMove (.regWrite 0x010 v) s = .next { s with ctrl := ⟨v.getLsbD 0, v.getLsbD 1⟩ } ∧
      hostMove (.regWrite 0x014 v) s = .next { s with inLen := v } ∧
      hostMove (.regWrite 0x018 v) s = .next { s with inPtr := v } ∧
      hostMove (.regWrite 0x01C v) s = .next { s with outLen := v } ∧
      hostMove (.regWrite 0x040 v) s = .next { s with csel := v.extractLsb' 0 8 } ∧
      hostMove (.regWrite 0x068 v) s = .next { s with nsel := v.extractLsb' 0 8 } ∧
      ∀ off, off % 4 = 0 → off < 0x800 →
        off ∉ [0x000, 0x004, 0x010, 0x014, 0x018, 0x01C, 0x040, 0x068] → hostMove (.regWrite off v) s = .next s

/-- R26 to R36: what a host read of each register returns while BUSY is 0; the model records it in `hostData` (log 6). The
windows on the tree and the code table are stated where the spec specifies them. -/
def Obligations.RegisterReads : Prop :=
  ∀ s : State, s.status.busy = false →
    (∀ (off : Nat) (v : Word),
      (off, v) ∈ [(0x000, 0#32), (0x008, s.errCode), (0x00C, s.errInfo), (0x014, s.inLen), (0x018, s.inPtr),
        (0x01C, s.outLen), (0x020, s.table.total), (0x024, s.table.nsym), (0x034, s.unpacker.rem),
        (0x038, 0x48464131#32), (0x03C, 0x48554631#32), (0x040, s.csel.setWidth 32), (0x068, s.nsel.setWidth 32),
        (0x02C, 0#21 ++ s.packer.nb ++ s.packer.acc),
        (0x030, 0#13 ++ s.unpacker.bidx ++ (0#7 ++ s.unpacker.cur)),
        (0x010, 0#30 ++ (BitVec.ofBool s.ctrl.ieErr ++ BitVec.ofBool s.ctrl.ieDone)),
        (0x004, 0#26 ++ (BitVec.ofBool s.status.codeValid ++ (BitVec.ofBool s.status.treeValid ++
          (BitVec.ofBool s.status.drop ++ (BitVec.ofBool s.status.err ++
            (BitVec.ofBool s.status.done ++ BitVec.ofBool s.status.busy))))))] →
        hostMove (.regRead off) s = .next { s with hostData := v }) ∧
    (∀ sym : Byte, hostMove (.regRead (0x400 + 4 * sym.toNat)) s = .next { s with hostData := s.table.count sym }) ∧
    (∀ off, off % 4 = 0 → 0x07C ≤ off → off < 0x400 →
      hostMove (.regRead off) s = .next { s with hostData := 0#32 }) ∧
    (s.status.codeValid = true →
      hostMove (.regRead 0x044) s = .next { s with hostData := (s.code.len s.csel).setWidth 32 } ∧
        ∀ j, j < 8 → hostMove (.regRead (0x048 + 4 * j)) s =
          .next { s with hostData := ((s.code.bits s.csel).setWidth 256).extractLsb' (32 * j) 32 }) ∧
    (s.status.treeValid = true →
      hostMove (.regRead 0x028) s =
          .next { s with hostData := BitVec.ofBool s.tree.nonempty ++ (0#22 ++ s.tree.root) } ∧
        hostMove (.regRead 0x078) s = .next { s with hostData := s.tree.nint.setWidth 32 } ∧
        (s.nsel < s.tree.nint →
          hostMove (.regRead 0x06C) s = .next { s with hostData := (s.tree.entry s.nsel).weight } ∧
            hostMove (.regRead 0x070) s =
              .next { s with
                hostData := 0#7 ++ (s.tree.entry s.nsel).right ++ (0#7 ++ (s.tree.entry s.nsel).left) } ∧
            hostMove (.regRead 0x074) s = .next { s with hostData := (s.tree.entry s.nsel).lsym.setWidth 32 }))

/-- R60, R67, R73, R36: a host write to a buffer byte changes that byte alone, a host read returns it, and no read of a
buffer or a register changes anything but the model's record of it (log 6); an access outside the sizes, or off a word
boundary of the registers, is refused (log 10). -/
def Obligations.HostAccess : Prop :=
  ∀ s : State, s.status.busy = false →
    (∀ (a : Nat) (b : Byte), a < s.params.ibufSize.toNat →
      ∃ t, hostMove (.ibufWrite a b) s = .next t ∧ t.ibufByte a = b ∧
        (∀ a', a' ≠ a → t.ibufByte a' = s.ibufByte a') ∧ t = { s with ibuf := t.ibuf }) ∧
    (∀ (a : Nat) (b : Byte), a < s.params.obufSize.toNat →
      ∃ t, hostMove (.obufWrite a b) s = .next t ∧ t.obufByte a = b ∧
        (∀ a', a' ≠ a → t.obufByte a' = s.obufByte a') ∧ t = { s with obuf := t.obuf }) ∧
    (∀ a, a < s.params.ibufSize.toNat →
      hostMove (.ibufRead a) s = .next { s with hostData := (s.ibufByte a).setWidth 32 }) ∧
    (∀ a, a < s.params.obufSize.toNat →
      hostMove (.obufRead a) s = .next { s with hostData := (s.obufByte a).setWidth 32 }) ∧
    (∀ off, off % 4 = 0 → off < 0x800 →
      ∃ v n, hostMove (.regRead off) s = .next { s with hostData := v, freeCtr := n }) ∧
    (∀ (a : Nat) (b : Byte), s.params.ibufSize.toNat ≤ a →
      hostMove (.ibufRead a) s = .refused .hostAccessOutside ∧
        hostMove (.ibufWrite a b) s = .refused .hostAccessOutside) ∧
    (∀ (a : Nat) (b : Byte), s.params.obufSize.toNat ≤ a →
      hostMove (.obufRead a) s = .refused .hostAccessOutside ∧
        hostMove (.obufWrite a b) s = .refused .hostAccessOutside) ∧
    ∀ (off : Nat) (v : Word), off % 4 ≠ 0 ∨ 0x800 ≤ off →
      hostMove (.regRead off) s = .refused .hostAccessOutside ∧
        hostMove (.regWrite off v) s = .refused .hostAccessOutside
end

