-- ==== Sys2Proof/Laws/State.lean ====
section
/-! SUPPORT. The field lemmas of the named updates: one per field per update, each true by rfl. -/

namespace Sys2Proof.Machine

open Sys2Proof

variable (s : State)

@[simp] theorem State.setStatus_params (v : Status) : (s.setStatus v).params = s.params := rfl
@[simp] theorem State.setStatus_status (v : Status) : (s.setStatus v).status = v := rfl
@[simp] theorem State.setStatus_errCode (v : Status) : (s.setStatus v).errCode = s.errCode := rfl
@[simp] theorem State.setStatus_errInfo (v : Status) : (s.setStatus v).errInfo = s.errInfo := rfl
@[simp] theorem State.setStatus_ctrl (v : Status) : (s.setStatus v).ctrl = s.ctrl := rfl
@[simp] theorem State.setStatus_inLen (v : Status) : (s.setStatus v).inLen = s.inLen := rfl
@[simp] theorem State.setStatus_inPtr (v : Status) : (s.setStatus v).inPtr = s.inPtr := rfl
@[simp] theorem State.setStatus_outLen (v : Status) : (s.setStatus v).outLen = s.outLen := rfl
@[simp] theorem State.setStatus_table (v : Status) : (s.setStatus v).table = s.table := rfl
@[simp] theorem State.setStatus_tree (v : Status) : (s.setStatus v).tree = s.tree := rfl
@[simp] theorem State.setStatus_code (v : Status) : (s.setStatus v).code = s.code := rfl
@[simp] theorem State.setStatus_packer (v : Status) : (s.setStatus v).packer = s.packer := rfl
@[simp] theorem State.setStatus_unpacker (v : Status) : (s.setStatus v).unpacker = s.unpacker := rfl
@[simp] theorem State.setStatus_csel (v : Status) : (s.setStatus v).csel = s.csel := rfl
@[simp] theorem State.setStatus_nsel (v : Status) : (s.setStatus v).nsel = s.nsel := rfl
@[simp] theorem State.setStatus_ibuf (v : Status) : (s.setStatus v).ibuf = s.ibuf := rfl
@[simp] theorem State.setStatus_obuf (v : Status) : (s.setStatus v).obuf = s.obuf := rfl
@[simp] theorem State.setStatus_inbox (v : Status) : (s.setStatus v).inbox = s.inbox := rfl
@[simp] theorem State.setStatus_hostData (v : Status) : (s.setStatus v).hostData = s.hostData := rfl
@[simp] theorem State.setStatus_freeCtr (v : Status) : (s.setStatus v).freeCtr = s.freeCtr := rfl

@[simp] theorem State.setCtrl_params (v : Ctrl) : (s.setCtrl v).params = s.params := rfl
@[simp] theorem State.setCtrl_status (v : Ctrl) : (s.setCtrl v).status = s.status := rfl
@[simp] theorem State.setCtrl_errCode (v : Ctrl) : (s.setCtrl v).errCode = s.errCode := rfl
@[simp] theorem State.setCtrl_errInfo (v : Ctrl) : (s.setCtrl v).errInfo = s.errInfo := rfl
@[simp] theorem State.setCtrl_ctrl (v : Ctrl) : (s.setCtrl v).ctrl = v := rfl
@[simp] theorem State.setCtrl_inLen (v : Ctrl) : (s.setCtrl v).inLen = s.inLen := rfl
@[simp] theorem State.setCtrl_inPtr (v : Ctrl) : (s.setCtrl v).inPtr = s.inPtr := rfl
@[simp] theorem State.setCtrl_outLen (v : Ctrl) : (s.setCtrl v).outLen = s.outLen := rfl
@[simp] theorem State.setCtrl_table (v : Ctrl) : (s.setCtrl v).table = s.table := rfl
@[simp] theorem State.setCtrl_tree (v : Ctrl) : (s.setCtrl v).tree = s.tree := rfl
@[simp] theorem State.setCtrl_code (v : Ctrl) : (s.setCtrl v).code = s.code := rfl
@[simp] theorem State.setCtrl_packer (v : Ctrl) : (s.setCtrl v).packer = s.packer := rfl
@[simp] theorem State.setCtrl_unpacker (v : Ctrl) : (s.setCtrl v).unpacker = s.unpacker := rfl
@[simp] theorem State.setCtrl_csel (v : Ctrl) : (s.setCtrl v).csel = s.csel := rfl
@[simp] theorem State.setCtrl_nsel (v : Ctrl) : (s.setCtrl v).nsel = s.nsel := rfl
@[simp] theorem State.setCtrl_ibuf (v : Ctrl) : (s.setCtrl v).ibuf = s.ibuf := rfl
@[simp] theorem State.setCtrl_obuf (v : Ctrl) : (s.setCtrl v).obuf = s.obuf := rfl
@[simp] theorem State.setCtrl_inbox (v : Ctrl) : (s.setCtrl v).inbox = s.inbox := rfl
@[simp] theorem State.setCtrl_hostData (v : Ctrl) : (s.setCtrl v).hostData = s.hostData := rfl
@[simp] theorem State.setCtrl_freeCtr (v : Ctrl) : (s.setCtrl v).freeCtr = s.freeCtr := rfl

@[simp] theorem State.setInLen_params (v : Word) : (s.setInLen v).params = s.params := rfl
@[simp] theorem State.setInLen_status (v : Word) : (s.setInLen v).status = s.status := rfl
@[simp] theorem State.setInLen_errCode (v : Word) : (s.setInLen v).errCode = s.errCode := rfl
@[simp] theorem State.setInLen_errInfo (v : Word) : (s.setInLen v).errInfo = s.errInfo := rfl
@[simp] theorem State.setInLen_ctrl (v : Word) : (s.setInLen v).ctrl = s.ctrl := rfl
@[simp] theorem State.setInLen_inLen (v : Word) : (s.setInLen v).inLen = v := rfl
@[simp] theorem State.setInLen_inPtr (v : Word) : (s.setInLen v).inPtr = s.inPtr := rfl
@[simp] theorem State.setInLen_outLen (v : Word) : (s.setInLen v).outLen = s.outLen := rfl
@[simp] theorem State.setInLen_table (v : Word) : (s.setInLen v).table = s.table := rfl
@[simp] theorem State.setInLen_tree (v : Word) : (s.setInLen v).tree = s.tree := rfl
@[simp] theorem State.setInLen_code (v : Word) : (s.setInLen v).code = s.code := rfl
@[simp] theorem State.setInLen_packer (v : Word) : (s.setInLen v).packer = s.packer := rfl
@[simp] theorem State.setInLen_unpacker (v : Word) : (s.setInLen v).unpacker = s.unpacker := rfl
@[simp] theorem State.setInLen_csel (v : Word) : (s.setInLen v).csel = s.csel := rfl
@[simp] theorem State.setInLen_nsel (v : Word) : (s.setInLen v).nsel = s.nsel := rfl
@[simp] theorem State.setInLen_ibuf (v : Word) : (s.setInLen v).ibuf = s.ibuf := rfl
@[simp] theorem State.setInLen_obuf (v : Word) : (s.setInLen v).obuf = s.obuf := rfl
@[simp] theorem State.setInLen_inbox (v : Word) : (s.setInLen v).inbox = s.inbox := rfl
@[simp] theorem State.setInLen_hostData (v : Word) : (s.setInLen v).hostData = s.hostData := rfl
@[simp] theorem State.setInLen_freeCtr (v : Word) : (s.setInLen v).freeCtr = s.freeCtr := rfl

@[simp] theorem State.setInPtr_params (v : Word) : (s.setInPtr v).params = s.params := rfl
@[simp] theorem State.setInPtr_status (v : Word) : (s.setInPtr v).status = s.status := rfl
@[simp] theorem State.setInPtr_errCode (v : Word) : (s.setInPtr v).errCode = s.errCode := rfl
@[simp] theorem State.setInPtr_errInfo (v : Word) : (s.setInPtr v).errInfo = s.errInfo := rfl
@[simp] theorem State.setInPtr_ctrl (v : Word) : (s.setInPtr v).ctrl = s.ctrl := rfl
@[simp] theorem State.setInPtr_inLen (v : Word) : (s.setInPtr v).inLen = s.inLen := rfl
@[simp] theorem State.setInPtr_inPtr (v : Word) : (s.setInPtr v).inPtr = v := rfl
@[simp] theorem State.setInPtr_outLen (v : Word) : (s.setInPtr v).outLen = s.outLen := rfl
@[simp] theorem State.setInPtr_table (v : Word) : (s.setInPtr v).table = s.table := rfl
@[simp] theorem State.setInPtr_tree (v : Word) : (s.setInPtr v).tree = s.tree := rfl
@[simp] theorem State.setInPtr_code (v : Word) : (s.setInPtr v).code = s.code := rfl
@[simp] theorem State.setInPtr_packer (v : Word) : (s.setInPtr v).packer = s.packer := rfl
@[simp] theorem State.setInPtr_unpacker (v : Word) : (s.setInPtr v).unpacker = s.unpacker := rfl
@[simp] theorem State.setInPtr_csel (v : Word) : (s.setInPtr v).csel = s.csel := rfl
@[simp] theorem State.setInPtr_nsel (v : Word) : (s.setInPtr v).nsel = s.nsel := rfl
@[simp] theorem State.setInPtr_ibuf (v : Word) : (s.setInPtr v).ibuf = s.ibuf := rfl
@[simp] theorem State.setInPtr_obuf (v : Word) : (s.setInPtr v).obuf = s.obuf := rfl
@[simp] theorem State.setInPtr_inbox (v : Word) : (s.setInPtr v).inbox = s.inbox := rfl
@[simp] theorem State.setInPtr_hostData (v : Word) : (s.setInPtr v).hostData = s.hostData := rfl
@[simp] theorem State.setInPtr_freeCtr (v : Word) : (s.setInPtr v).freeCtr = s.freeCtr := rfl

@[simp] theorem State.setOutLen_params (v : Word) : (s.setOutLen v).params = s.params := rfl
@[simp] theorem State.setOutLen_status (v : Word) : (s.setOutLen v).status = s.status := rfl
@[simp] theorem State.setOutLen_errCode (v : Word) : (s.setOutLen v).errCode = s.errCode := rfl
@[simp] theorem State.setOutLen_errInfo (v : Word) : (s.setOutLen v).errInfo = s.errInfo := rfl
@[simp] theorem State.setOutLen_ctrl (v : Word) : (s.setOutLen v).ctrl = s.ctrl := rfl
@[simp] theorem State.setOutLen_inLen (v : Word) : (s.setOutLen v).inLen = s.inLen := rfl
@[simp] theorem State.setOutLen_inPtr (v : Word) : (s.setOutLen v).inPtr = s.inPtr := rfl
@[simp] theorem State.setOutLen_outLen (v : Word) : (s.setOutLen v).outLen = v := rfl
@[simp] theorem State.setOutLen_table (v : Word) : (s.setOutLen v).table = s.table := rfl
@[simp] theorem State.setOutLen_tree (v : Word) : (s.setOutLen v).tree = s.tree := rfl
@[simp] theorem State.setOutLen_code (v : Word) : (s.setOutLen v).code = s.code := rfl
@[simp] theorem State.setOutLen_packer (v : Word) : (s.setOutLen v).packer = s.packer := rfl
@[simp] theorem State.setOutLen_unpacker (v : Word) : (s.setOutLen v).unpacker = s.unpacker := rfl
@[simp] theorem State.setOutLen_csel (v : Word) : (s.setOutLen v).csel = s.csel := rfl
@[simp] theorem State.setOutLen_nsel (v : Word) : (s.setOutLen v).nsel = s.nsel := rfl
@[simp] theorem State.setOutLen_ibuf (v : Word) : (s.setOutLen v).ibuf = s.ibuf := rfl
@[simp] theorem State.setOutLen_obuf (v : Word) : (s.setOutLen v).obuf = s.obuf := rfl
@[simp] theorem State.setOutLen_inbox (v : Word) : (s.setOutLen v).inbox = s.inbox := rfl
@[simp] theorem State.setOutLen_hostData (v : Word) : (s.setOutLen v).hostData = s.hostData := rfl
@[simp] theorem State.setOutLen_freeCtr (v : Word) : (s.setOutLen v).freeCtr = s.freeCtr := rfl

@[simp] theorem State.setTable_params (v : FreqTable) : (s.setTable v).params = s.params := rfl
@[simp] theorem State.setTable_status (v : FreqTable) : (s.setTable v).status = s.status := rfl
@[simp] theorem State.setTable_errCode (v : FreqTable) : (s.setTable v).errCode = s.errCode := rfl
@[simp] theorem State.setTable_errInfo (v : FreqTable) : (s.setTable v).errInfo = s.errInfo := rfl
@[simp] theorem State.setTable_ctrl (v : FreqTable) : (s.setTable v).ctrl = s.ctrl := rfl
@[simp] theorem State.setTable_inLen (v : FreqTable) : (s.setTable v).inLen = s.inLen := rfl
@[simp] theorem State.setTable_inPtr (v : FreqTable) : (s.setTable v).inPtr = s.inPtr := rfl
@[simp] theorem State.setTable_outLen (v : FreqTable) : (s.setTable v).outLen = s.outLen := rfl
@[simp] theorem State.setTable_table (v : FreqTable) : (s.setTable v).table = v := rfl
@[simp] theorem State.setTable_tree (v : FreqTable) : (s.setTable v).tree = s.tree := rfl
@[simp] theorem State.setTable_code (v : FreqTable) : (s.setTable v).code = s.code := rfl
@[simp] theorem State.setTable_packer (v : FreqTable) : (s.setTable v).packer = s.packer := rfl
@[simp] theorem State.setTable_unpacker (v : FreqTable) : (s.setTable v).unpacker = s.unpacker := rfl
@[simp] theorem State.setTable_csel (v : FreqTable) : (s.setTable v).csel = s.csel := rfl
@[simp] theorem State.setTable_nsel (v : FreqTable) : (s.setTable v).nsel = s.nsel := rfl
@[simp] theorem State.setTable_ibuf (v : FreqTable) : (s.setTable v).ibuf = s.ibuf := rfl
@[simp] theorem State.setTable_obuf (v : FreqTable) : (s.setTable v).obuf = s.obuf := rfl
@[simp] theorem State.setTable_inbox (v : FreqTable) : (s.setTable v).inbox = s.inbox := rfl
@[simp] theorem State.setTable_hostData (v : FreqTable) : (s.setTable v).hostData = s.hostData := rfl
@[simp] theorem State.setTable_freeCtr (v : FreqTable) : (s.setTable v).freeCtr = s.freeCtr := rfl

@[simp] theorem State.setTree_params (v : Tree) : (s.setTree v).params = s.params := rfl
@[simp] theorem State.setTree_status (v : Tree) : (s.setTree v).status = s.status := rfl
@[simp] theorem State.setTree_errCode (v : Tree) : (s.setTree v).errCode = s.errCode := rfl
@[simp] theorem State.setTree_errInfo (v : Tree) : (s.setTree v).errInfo = s.errInfo := rfl
@[simp] theorem State.setTree_ctrl (v : Tree) : (s.setTree v).ctrl = s.ctrl := rfl
@[simp] theorem State.setTree_inLen (v : Tree) : (s.setTree v).inLen = s.inLen := rfl
@[simp] theorem State.setTree_inPtr (v : Tree) : (s.setTree v).inPtr = s.inPtr := rfl
@[simp] theorem State.setTree_outLen (v : Tree) : (s.setTree v).outLen = s.outLen := rfl
@[simp] theorem State.setTree_table (v : Tree) : (s.setTree v).table = s.table := rfl
@[simp] theorem State.setTree_tree (v : Tree) : (s.setTree v).tree = v := rfl
@[simp] theorem State.setTree_code (v : Tree) : (s.setTree v).code = s.code := rfl
@[simp] theorem State.setTree_packer (v : Tree) : (s.setTree v).packer = s.packer := rfl
@[simp] theorem State.setTree_unpacker (v : Tree) : (s.setTree v).unpacker = s.unpacker := rfl
@[simp] theorem State.setTree_csel (v : Tree) : (s.setTree v).csel = s.csel := rfl
@[simp] theorem State.setTree_nsel (v : Tree) : (s.setTree v).nsel = s.nsel := rfl
@[simp] theorem State.setTree_ibuf (v : Tree) : (s.setTree v).ibuf = s.ibuf := rfl
@[simp] theorem State.setTree_obuf (v : Tree) : (s.setTree v).obuf = s.obuf := rfl
@[simp] theorem State.setTree_inbox (v : Tree) : (s.setTree v).inbox = s.inbox := rfl
@[simp] theorem State.setTree_hostData (v : Tree) : (s.setTree v).hostData = s.hostData := rfl
@[simp] theorem State.setTree_freeCtr (v : Tree) : (s.setTree v).freeCtr = s.freeCtr := rfl

@[simp] theorem State.setCode_params (v : CodeTable) : (s.setCode v).params = s.params := rfl
@[simp] theorem State.setCode_status (v : CodeTable) : (s.setCode v).status = s.status := rfl
@[simp] theorem State.setCode_errCode (v : CodeTable) : (s.setCode v).errCode = s.errCode := rfl
@[simp] theorem State.setCode_errInfo (v : CodeTable) : (s.setCode v).errInfo = s.errInfo := rfl
@[simp] theorem State.setCode_ctrl (v : CodeTable) : (s.setCode v).ctrl = s.ctrl := rfl
@[simp] theorem State.setCode_inLen (v : CodeTable) : (s.setCode v).inLen = s.inLen := rfl
@[simp] theorem State.setCode_inPtr (v : CodeTable) : (s.setCode v).inPtr = s.inPtr := rfl
@[simp] theorem State.setCode_outLen (v : CodeTable) : (s.setCode v).outLen = s.outLen := rfl
@[simp] theorem State.setCode_table (v : CodeTable) : (s.setCode v).table = s.table := rfl
@[simp] theorem State.setCode_tree (v : CodeTable) : (s.setCode v).tree = s.tree := rfl
@[simp] theorem State.setCode_code (v : CodeTable) : (s.setCode v).code = v := rfl
@[simp] theorem State.setCode_packer (v : CodeTable) : (s.setCode v).packer = s.packer := rfl
@[simp] theorem State.setCode_unpacker (v : CodeTable) : (s.setCode v).unpacker = s.unpacker := rfl
@[simp] theorem State.setCode_csel (v : CodeTable) : (s.setCode v).csel = s.csel := rfl
@[simp] theorem State.setCode_nsel (v : CodeTable) : (s.setCode v).nsel = s.nsel := rfl
@[simp] theorem State.setCode_ibuf (v : CodeTable) : (s.setCode v).ibuf = s.ibuf := rfl
@[simp] theorem State.setCode_obuf (v : CodeTable) : (s.setCode v).obuf = s.obuf := rfl
@[simp] theorem State.setCode_inbox (v : CodeTable) : (s.setCode v).inbox = s.inbox := rfl
@[simp] theorem State.setCode_hostData (v : CodeTable) : (s.setCode v).hostData = s.hostData := rfl
@[simp] theorem State.setCode_freeCtr (v : CodeTable) : (s.setCode v).freeCtr = s.freeCtr := rfl

@[simp] theorem State.setPacker_params (v : Packer) : (s.setPacker v).params = s.params := rfl
@[simp] theorem State.setPacker_status (v : Packer) : (s.setPacker v).status = s.status := rfl
@[simp] theorem State.setPacker_errCode (v : Packer) : (s.setPacker v).errCode = s.errCode := rfl
@[simp] theorem State.setPacker_errInfo (v : Packer) : (s.setPacker v).errInfo = s.errInfo := rfl
@[simp] theorem State.setPacker_ctrl (v : Packer) : (s.setPacker v).ctrl = s.ctrl := rfl
@[simp] theorem State.setPacker_inLen (v : Packer) : (s.setPacker v).inLen = s.inLen := rfl
@[simp] theorem State.setPacker_inPtr (v : Packer) : (s.setPacker v).inPtr = s.inPtr := rfl
@[simp] theorem State.setPacker_outLen (v : Packer) : (s.setPacker v).outLen = s.outLen := rfl
@[simp] theorem State.setPacker_table (v : Packer) : (s.setPacker v).table = s.table := rfl
@[simp] theorem State.setPacker_tree (v : Packer) : (s.setPacker v).tree = s.tree := rfl
@[simp] theorem State.setPacker_code (v : Packer) : (s.setPacker v).code = s.code := rfl
@[simp] theorem State.setPacker_packer (v : Packer) : (s.setPacker v).packer = v := rfl
@[simp] theorem State.setPacker_unpacker (v : Packer) : (s.setPacker v).unpacker = s.unpacker := rfl
@[simp] theorem State.setPacker_csel (v : Packer) : (s.setPacker v).csel = s.csel := rfl
@[simp] theorem State.setPacker_nsel (v : Packer) : (s.setPacker v).nsel = s.nsel := rfl
@[simp] theorem State.setPacker_ibuf (v : Packer) : (s.setPacker v).ibuf = s.ibuf := rfl
@[simp] theorem State.setPacker_obuf (v : Packer) : (s.setPacker v).obuf = s.obuf := rfl
@[simp] theorem State.setPacker_inbox (v : Packer) : (s.setPacker v).inbox = s.inbox := rfl
@[simp] theorem State.setPacker_hostData (v : Packer) : (s.setPacker v).hostData = s.hostData := rfl
@[simp] theorem State.setPacker_freeCtr (v : Packer) : (s.setPacker v).freeCtr = s.freeCtr := rfl

@[simp] theorem State.setUnpacker_params (v : Unpacker) : (s.setUnpacker v).params = s.params := rfl
@[simp] theorem State.setUnpacker_status (v : Unpacker) : (s.setUnpacker v).status = s.status := rfl
@[simp] theorem State.setUnpacker_errCode (v : Unpacker) : (s.setUnpacker v).errCode = s.errCode := rfl
@[simp] theorem State.setUnpacker_errInfo (v : Unpacker) : (s.setUnpacker v).errInfo = s.errInfo := rfl
@[simp] theorem State.setUnpacker_ctrl (v : Unpacker) : (s.setUnpacker v).ctrl = s.ctrl := rfl
@[simp] theorem State.setUnpacker_inLen (v : Unpacker) : (s.setUnpacker v).inLen = s.inLen := rfl
@[simp] theorem State.setUnpacker_inPtr (v : Unpacker) : (s.setUnpacker v).inPtr = s.inPtr := rfl
@[simp] theorem State.setUnpacker_outLen (v : Unpacker) : (s.setUnpacker v).outLen = s.outLen := rfl
@[simp] theorem State.setUnpacker_table (v : Unpacker) : (s.setUnpacker v).table = s.table := rfl
@[simp] theorem State.setUnpacker_tree (v : Unpacker) : (s.setUnpacker v).tree = s.tree := rfl
@[simp] theorem State.setUnpacker_code (v : Unpacker) : (s.setUnpacker v).code = s.code := rfl
@[simp] theorem State.setUnpacker_packer (v : Unpacker) : (s.setUnpacker v).packer = s.packer := rfl
@[simp] theorem State.setUnpacker_unpacker (v : Unpacker) : (s.setUnpacker v).unpacker = v := rfl
@[simp] theorem State.setUnpacker_csel (v : Unpacker) : (s.setUnpacker v).csel = s.csel := rfl
@[simp] theorem State.setUnpacker_nsel (v : Unpacker) : (s.setUnpacker v).nsel = s.nsel := rfl
@[simp] theorem State.setUnpacker_ibuf (v : Unpacker) : (s.setUnpacker v).ibuf = s.ibuf := rfl
@[simp] theorem State.setUnpacker_obuf (v : Unpacker) : (s.setUnpacker v).obuf = s.obuf := rfl
@[simp] theorem State.setUnpacker_inbox (v : Unpacker) : (s.setUnpacker v).inbox = s.inbox := rfl
@[simp] theorem State.setUnpacker_hostData (v : Unpacker) : (s.setUnpacker v).hostData = s.hostData := rfl
@[simp] theorem State.setUnpacker_freeCtr (v : Unpacker) : (s.setUnpacker v).freeCtr = s.freeCtr := rfl

@[simp] theorem State.setCsel_params (v : Byte) : (s.setCsel v).params = s.params := rfl
@[simp] theorem State.setCsel_status (v : Byte) : (s.setCsel v).status = s.status := rfl
@[simp] theorem State.setCsel_errCode (v : Byte) : (s.setCsel v).errCode = s.errCode := rfl
@[simp] theorem State.setCsel_errInfo (v : Byte) : (s.setCsel v).errInfo = s.errInfo := rfl
@[simp] theorem State.setCsel_ctrl (v : Byte) : (s.setCsel v).ctrl = s.ctrl := rfl
@[simp] theorem State.setCsel_inLen (v : Byte) : (s.setCsel v).inLen = s.inLen := rfl
@[simp] theorem State.setCsel_inPtr (v : Byte) : (s.setCsel v).inPtr = s.inPtr := rfl
@[simp] theorem State.setCsel_outLen (v : Byte) : (s.setCsel v).outLen = s.outLen := rfl
@[simp] theorem State.setCsel_table (v : Byte) : (s.setCsel v).table = s.table := rfl
@[simp] theorem State.setCsel_tree (v : Byte) : (s.setCsel v).tree = s.tree := rfl
@[simp] theorem State.setCsel_code (v : Byte) : (s.setCsel v).code = s.code := rfl
@[simp] theorem State.setCsel_packer (v : Byte) : (s.setCsel v).packer = s.packer := rfl
@[simp] theorem State.setCsel_unpacker (v : Byte) : (s.setCsel v).unpacker = s.unpacker := rfl
@[simp] theorem State.setCsel_csel (v : Byte) : (s.setCsel v).csel = v := rfl
@[simp] theorem State.setCsel_nsel (v : Byte) : (s.setCsel v).nsel = s.nsel := rfl
@[simp] theorem State.setCsel_ibuf (v : Byte) : (s.setCsel v).ibuf = s.ibuf := rfl
@[simp] theorem State.setCsel_obuf (v : Byte) : (s.setCsel v).obuf = s.obuf := rfl
@[simp] theorem State.setCsel_inbox (v : Byte) : (s.setCsel v).inbox = s.inbox := rfl
@[simp] theorem State.setCsel_hostData (v : Byte) : (s.setCsel v).hostData = s.hostData := rfl
@[simp] theorem State.setCsel_freeCtr (v : Byte) : (s.setCsel v).freeCtr = s.freeCtr := rfl

@[simp] theorem State.setNsel_params (v : Byte) : (s.setNsel v).params = s.params := rfl
@[simp] theorem State.setNsel_status (v : Byte) : (s.setNsel v).status = s.status := rfl
@[simp] theorem State.setNsel_errCode (v : Byte) : (s.setNsel v).errCode = s.errCode := rfl
@[simp] theorem State.setNsel_errInfo (v : Byte) : (s.setNsel v).errInfo = s.errInfo := rfl
@[simp] theorem State.setNsel_ctrl (v : Byte) : (s.setNsel v).ctrl = s.ctrl := rfl
@[simp] theorem State.setNsel_inLen (v : Byte) : (s.setNsel v).inLen = s.inLen := rfl
@[simp] theorem State.setNsel_inPtr (v : Byte) : (s.setNsel v).inPtr = s.inPtr := rfl
@[simp] theorem State.setNsel_outLen (v : Byte) : (s.setNsel v).outLen = s.outLen := rfl
@[simp] theorem State.setNsel_table (v : Byte) : (s.setNsel v).table = s.table := rfl
@[simp] theorem State.setNsel_tree (v : Byte) : (s.setNsel v).tree = s.tree := rfl
@[simp] theorem State.setNsel_code (v : Byte) : (s.setNsel v).code = s.code := rfl
@[simp] theorem State.setNsel_packer (v : Byte) : (s.setNsel v).packer = s.packer := rfl
@[simp] theorem State.setNsel_unpacker (v : Byte) : (s.setNsel v).unpacker = s.unpacker := rfl
@[simp] theorem State.setNsel_csel (v : Byte) : (s.setNsel v).csel = s.csel := rfl
@[simp] theorem State.setNsel_nsel (v : Byte) : (s.setNsel v).nsel = v := rfl
@[simp] theorem State.setNsel_ibuf (v : Byte) : (s.setNsel v).ibuf = s.ibuf := rfl
@[simp] theorem State.setNsel_obuf (v : Byte) : (s.setNsel v).obuf = s.obuf := rfl
@[simp] theorem State.setNsel_inbox (v : Byte) : (s.setNsel v).inbox = s.inbox := rfl
@[simp] theorem State.setNsel_hostData (v : Byte) : (s.setNsel v).hostData = s.hostData := rfl
@[simp] theorem State.setNsel_freeCtr (v : Byte) : (s.setNsel v).freeCtr = s.freeCtr := rfl

@[simp] theorem State.setIbuf_params (v : Buffer) : (s.setIbuf v).params = s.params := rfl
@[simp] theorem State.setIbuf_status (v : Buffer) : (s.setIbuf v).status = s.status := rfl
@[simp] theorem State.setIbuf_errCode (v : Buffer) : (s.setIbuf v).errCode = s.errCode := rfl
@[simp] theorem State.setIbuf_errInfo (v : Buffer) : (s.setIbuf v).errInfo = s.errInfo := rfl
@[simp] theorem State.setIbuf_ctrl (v : Buffer) : (s.setIbuf v).ctrl = s.ctrl := rfl
@[simp] theorem State.setIbuf_inLen (v : Buffer) : (s.setIbuf v).inLen = s.inLen := rfl
@[simp] theorem State.setIbuf_inPtr (v : Buffer) : (s.setIbuf v).inPtr = s.inPtr := rfl
@[simp] theorem State.setIbuf_outLen (v : Buffer) : (s.setIbuf v).outLen = s.outLen := rfl
@[simp] theorem State.setIbuf_table (v : Buffer) : (s.setIbuf v).table = s.table := rfl
@[simp] theorem State.setIbuf_tree (v : Buffer) : (s.setIbuf v).tree = s.tree := rfl
@[simp] theorem State.setIbuf_code (v : Buffer) : (s.setIbuf v).code = s.code := rfl
@[simp] theorem State.setIbuf_packer (v : Buffer) : (s.setIbuf v).packer = s.packer := rfl
@[simp] theorem State.setIbuf_unpacker (v : Buffer) : (s.setIbuf v).unpacker = s.unpacker := rfl
@[simp] theorem State.setIbuf_csel (v : Buffer) : (s.setIbuf v).csel = s.csel := rfl
@[simp] theorem State.setIbuf_nsel (v : Buffer) : (s.setIbuf v).nsel = s.nsel := rfl
@[simp] theorem State.setIbuf_ibuf (v : Buffer) : (s.setIbuf v).ibuf = v := rfl
@[simp] theorem State.setIbuf_obuf (v : Buffer) : (s.setIbuf v).obuf = s.obuf := rfl
@[simp] theorem State.setIbuf_inbox (v : Buffer) : (s.setIbuf v).inbox = s.inbox := rfl
@[simp] theorem State.setIbuf_hostData (v : Buffer) : (s.setIbuf v).hostData = s.hostData := rfl
@[simp] theorem State.setIbuf_freeCtr (v : Buffer) : (s.setIbuf v).freeCtr = s.freeCtr := rfl

@[simp] theorem State.setObuf_params (v : Buffer) : (s.setObuf v).params = s.params := rfl
@[simp] theorem State.setObuf_status (v : Buffer) : (s.setObuf v).status = s.status := rfl
@[simp] theorem State.setObuf_errCode (v : Buffer) : (s.setObuf v).errCode = s.errCode := rfl
@[simp] theorem State.setObuf_errInfo (v : Buffer) : (s.setObuf v).errInfo = s.errInfo := rfl
@[simp] theorem State.setObuf_ctrl (v : Buffer) : (s.setObuf v).ctrl = s.ctrl := rfl
@[simp] theorem State.setObuf_inLen (v : Buffer) : (s.setObuf v).inLen = s.inLen := rfl
@[simp] theorem State.setObuf_inPtr (v : Buffer) : (s.setObuf v).inPtr = s.inPtr := rfl
@[simp] theorem State.setObuf_outLen (v : Buffer) : (s.setObuf v).outLen = s.outLen := rfl
@[simp] theorem State.setObuf_table (v : Buffer) : (s.setObuf v).table = s.table := rfl
@[simp] theorem State.setObuf_tree (v : Buffer) : (s.setObuf v).tree = s.tree := rfl
@[simp] theorem State.setObuf_code (v : Buffer) : (s.setObuf v).code = s.code := rfl
@[simp] theorem State.setObuf_packer (v : Buffer) : (s.setObuf v).packer = s.packer := rfl
@[simp] theorem State.setObuf_unpacker (v : Buffer) : (s.setObuf v).unpacker = s.unpacker := rfl
@[simp] theorem State.setObuf_csel (v : Buffer) : (s.setObuf v).csel = s.csel := rfl
@[simp] theorem State.setObuf_nsel (v : Buffer) : (s.setObuf v).nsel = s.nsel := rfl
@[simp] theorem State.setObuf_ibuf (v : Buffer) : (s.setObuf v).ibuf = s.ibuf := rfl
@[simp] theorem State.setObuf_obuf (v : Buffer) : (s.setObuf v).obuf = v := rfl
@[simp] theorem State.setObuf_inbox (v : Buffer) : (s.setObuf v).inbox = s.inbox := rfl
@[simp] theorem State.setObuf_hostData (v : Buffer) : (s.setObuf v).hostData = s.hostData := rfl
@[simp] theorem State.setObuf_freeCtr (v : Buffer) : (s.setObuf v).freeCtr = s.freeCtr := rfl

@[simp] theorem State.setInbox_params (v : List HostMove) : (s.setInbox v).params = s.params := rfl
@[simp] theorem State.setInbox_status (v : List HostMove) : (s.setInbox v).status = s.status := rfl
@[simp] theorem State.setInbox_errCode (v : List HostMove) : (s.setInbox v).errCode = s.errCode := rfl
@[simp] theorem State.setInbox_errInfo (v : List HostMove) : (s.setInbox v).errInfo = s.errInfo := rfl
@[simp] theorem State.setInbox_ctrl (v : List HostMove) : (s.setInbox v).ctrl = s.ctrl := rfl
@[simp] theorem State.setInbox_inLen (v : List HostMove) : (s.setInbox v).inLen = s.inLen := rfl
@[simp] theorem State.setInbox_inPtr (v : List HostMove) : (s.setInbox v).inPtr = s.inPtr := rfl
@[simp] theorem State.setInbox_outLen (v : List HostMove) : (s.setInbox v).outLen = s.outLen := rfl
@[simp] theorem State.setInbox_table (v : List HostMove) : (s.setInbox v).table = s.table := rfl
@[simp] theorem State.setInbox_tree (v : List HostMove) : (s.setInbox v).tree = s.tree := rfl
@[simp] theorem State.setInbox_code (v : List HostMove) : (s.setInbox v).code = s.code := rfl
@[simp] theorem State.setInbox_packer (v : List HostMove) : (s.setInbox v).packer = s.packer := rfl
@[simp] theorem State.setInbox_unpacker (v : List HostMove) : (s.setInbox v).unpacker = s.unpacker := rfl
@[simp] theorem State.setInbox_csel (v : List HostMove) : (s.setInbox v).csel = s.csel := rfl
@[simp] theorem State.setInbox_nsel (v : List HostMove) : (s.setInbox v).nsel = s.nsel := rfl
@[simp] theorem State.setInbox_ibuf (v : List HostMove) : (s.setInbox v).ibuf = s.ibuf := rfl
@[simp] theorem State.setInbox_obuf (v : List HostMove) : (s.setInbox v).obuf = s.obuf := rfl
@[simp] theorem State.setInbox_inbox (v : List HostMove) : (s.setInbox v).inbox = v := rfl
@[simp] theorem State.setInbox_hostData (v : List HostMove) : (s.setInbox v).hostData = s.hostData := rfl
@[simp] theorem State.setInbox_freeCtr (v : List HostMove) : (s.setInbox v).freeCtr = s.freeCtr := rfl

@[simp] theorem State.setError_params (c i : Word) : (s.setError c i).params = s.params := rfl
@[simp] theorem State.setError_status (c i : Word) : (s.setError c i).status = s.status := rfl
@[simp] theorem State.setError_errCode (c i : Word) : (s.setError c i).errCode = c := rfl
@[simp] theorem State.setError_errInfo (c i : Word) : (s.setError c i).errInfo = i := rfl
@[simp] theorem State.setError_ctrl (c i : Word) : (s.setError c i).ctrl = s.ctrl := rfl
@[simp] theorem State.setError_inLen (c i : Word) : (s.setError c i).inLen = s.inLen := rfl
@[simp] theorem State.setError_inPtr (c i : Word) : (s.setError c i).inPtr = s.inPtr := rfl
@[simp] theorem State.setError_outLen (c i : Word) : (s.setError c i).outLen = s.outLen := rfl
@[simp] theorem State.setError_table (c i : Word) : (s.setError c i).table = s.table := rfl
@[simp] theorem State.setError_tree (c i : Word) : (s.setError c i).tree = s.tree := rfl
@[simp] theorem State.setError_code (c i : Word) : (s.setError c i).code = s.code := rfl
@[simp] theorem State.setError_packer (c i : Word) : (s.setError c i).packer = s.packer := rfl
@[simp] theorem State.setError_unpacker (c i : Word) : (s.setError c i).unpacker = s.unpacker := rfl
@[simp] theorem State.setError_csel (c i : Word) : (s.setError c i).csel = s.csel := rfl
@[simp] theorem State.setError_nsel (c i : Word) : (s.setError c i).nsel = s.nsel := rfl
@[simp] theorem State.setError_ibuf (c i : Word) : (s.setError c i).ibuf = s.ibuf := rfl
@[simp] theorem State.setError_obuf (c i : Word) : (s.setError c i).obuf = s.obuf := rfl
@[simp] theorem State.setError_inbox (c i : Word) : (s.setError c i).inbox = s.inbox := rfl
@[simp] theorem State.setError_hostData (c i : Word) : (s.setError c i).hostData = s.hostData := rfl
@[simp] theorem State.setError_freeCtr (c i : Word) : (s.setError c i).freeCtr = s.freeCtr := rfl

end Sys2Proof.Machine
end

