-- ==== Sys2Proof/Laws/Memory.lean ====
section
/-! SUPPORT. The laws of memory and of the buffers: read after write, and that every operation keeps the canonical
form. -/

namespace Sys2Proof.Machine

open Sys2Proof Sys2Proof.Safety

@[simp] theorem Memory.read_nil (a : Nat) : Memory.read [] a = none := rfl

theorem Memory.read_write_same (m : Memory) (a : Nat) (b : Byte) : Memory.read (Memory.write m a b) a = some b := by
  induction m with
  | nil => simp [Memory.write, Memory.read]
  | cons c m ih =>
    obtain ⟨x, v⟩ := c
    by_cases h₁ : a < x
    · simp [Memory.write, Memory.read, h₁]
    · by_cases h₂ : a = x
      · simp [Memory.write, Memory.read, h₂]
      · simp [Memory.write, Memory.read, h₁, h₂, ih]

theorem Memory.read_write_other (m : Memory) {a a' : Nat} (b : Byte) (h : a' ≠ a) :
    Memory.read (Memory.write m a b) a' = Memory.read m a' := by
  induction m with
  | nil => simp [Memory.write, Memory.read, h]
  | cons c m ih =>
    obtain ⟨x, v⟩ := c
    by_cases h₁ : a < x
    · simp [Memory.write, Memory.read, h₁, h]
    · by_cases h₂ : a = x
      · subst h₂; simp [Memory.write, Memory.read, h]
      · simp [Memory.write, Memory.read, h₁, h₂, ih]

theorem Memory.mem_write {m : Memory} {a : Nat} {b : Byte} {c : Host.Cell} (h : c ∈ Memory.write m a b) :
    c = (a, b) ∨ c ∈ m := by
  induction m with
  | nil => simpa [Memory.write] using h
  | cons d m ih =>
    obtain ⟨x, v⟩ := d
    by_cases h₁ : a < x
    · simpa [Memory.write, h₁] using h
    · by_cases h₂ : a = x
      · simp only [Memory.write, h₂, if_true, if_false, lt_self_iff_false, List.mem_cons] at h ⊢
        tauto
      · simp only [Memory.write, h₁, h₂, if_false, List.mem_cons] at h ⊢
        rcases h with h | h
        · exact .inr (.inl h)
        · rcases ih h with h | h
          · exact .inl h
          · exact .inr (.inr h)

/-- Every write keeps the addresses strictly rising. -/
theorem Memory.write_wf {m : Memory} (h : Memory.wf m) (a : Nat) (b : Byte) : Memory.wf (Memory.write m a b) := by
  induction m with
  | nil => simp [Memory.write, Memory.wf]
  | cons c m ih =>
    obtain ⟨x, v⟩ := c
    rw [Memory.wf, List.pairwise_cons] at h
    by_cases h₁ : a < x
    · simp only [Memory.write, h₁, if_true, Memory.wf, List.pairwise_cons]
      refine ⟨?_, h⟩
      intro y hy
      rcases List.mem_cons.1 hy with rfl | hy
      · exact h₁
      · exact lt_trans h₁ (h.1 y hy)
    · by_cases h₂ : a = x
      · subst h₂
        simpa only [Memory.write, lt_self_iff_false, if_true, if_false, Memory.wf, List.pairwise_cons] using h
      · simp only [Memory.write, h₁, h₂, if_false, Memory.wf, List.pairwise_cons]
        refine ⟨?_, ih h.2⟩
        intro y hy
        rcases Memory.mem_write hy with rfl | hy
        · simp only; omega
        · exact h.1 y hy

/-! ### Buffers -/

theorem Buffer.byte_store_same (free : Nat → Nat → Byte) (b : Buffer) (a : Nat) (v : Byte) :
    (b.store a v).byte free a = v := by
  simp [Buffer.byte, Buffer.store, Memory.read_write_same]

theorem Buffer.byte_store_other (free : Nat → Nat → Byte) (b : Buffer) {a a' : Nat} (v : Byte) (h : a' ≠ a) :
    (b.store a v).byte free a' = b.byte free a' := by
  simp [Buffer.byte, Buffer.store, Memory.read_write_other _ _ h]

theorem bufferOk_store {b : Buffer} {size : Word} (h : BufferOk b size) {a : Nat} (ha : a < size.toNat) (v : Byte) :
    BufferOk (b.store a v) size := by
  refine ⟨Memory.write_wf h.1 a v, ?_⟩
  intro c hc
  rcases Memory.mem_write hc with rfl | hc
  · exact ha
  · exact h.2 c hc

theorem bufferOk_forget (b : Buffer) (size : Word) : BufferOk b.forget size := by
  simp [BufferOk, Buffer.forget, Memory.wf]

/-- The reset state's buffers have the canonical form. -/
theorem reset_buffers_ok : BufferOk State.reset.ibuf State.reset.params.ibufSize ∧
    BufferOk State.reset.obuf State.reset.params.obufSize := by
  simp [State.reset, BufferOk, Memory.wf]

end Sys2Proof.Machine
end

