-- ==== Sys2Proof/Laws/Ops.lean ====
section
/-! SUPPORT. What the shared operations can do: the way bodies are chained, the guards, the byte primitives, the
command envelope. -/

namespace Sys2Proof.Machine

open Sys2Proof Sys2Proof.Safety

/-! ### Chaining -/

@[simp] theorem Ran.andThen_done (s : State) (f : State → Ran) : (Ran.done s).andThen f = f s := rfl
@[simp] theorem Ran.andThen_raised (r : Raise) (s : State) (f : State → Ran) :
    (Ran.raised r s).andThen f = .raised r s := rfl
@[simp] theorem Ran.andThen_stuck (e : Fault) (f : State → Ran) : (Ran.stuck e).andThen f = .stuck e := rfl

theorem Ran.andThen_assoc (r : Ran) (f g : State → Ran) :
    (r.andThen f).andThen g = r.andThen fun s => (f s).andThen g := by cases r <;> rfl

/-- A chain that comes to its end did so in both parts. -/
theorem Ran.andThen_eq_done {r : Ran} {f : State → Ran} {t : State} :
    r.andThen f = .done t ↔ ∃ s, r = .done s ∧ f s = .done t := by
  cases r <;> simp

/-- A chain raises in its first part, or in its second after the first came to its end. -/
theorem Ran.andThen_eq_raised {r : Ran} {f : State → Ran} {e : Raise} {t : State} :
    r.andThen f = .raised e t ↔ r = .raised e t ∨ ∃ s, r = .done s ∧ f s = .raised e t := by
  cases r <;> simp

theorem Ran.andThen_eq_stuck {r : Ran} {f : State → Ran} {e : Fault} :
    r.andThen f = .stuck e ↔ r = .stuck e ∨ ∃ s, r = .done s ∧ f s = .stuck e := by
  cases r <;> simp

/-- A property of the state where a body ends or raises; nothing is asked of a stuck one. -/
def Ran.Post (P : State → Prop) : Ran → Prop
  | .done s => P s
  | .raised _ s => P s
  | .stuck _ => True

@[simp] theorem Ran.post_done (P : State → Prop) (s : State) : (Ran.done s).Post P = P s := rfl
@[simp] theorem Ran.post_raised (P : State → Prop) (e : Raise) (s : State) : (Ran.raised e s).Post P = P s := rfl
@[simp] theorem Ran.post_stuck (P : State → Prop) (e : Fault) : (Ran.stuck e).Post P = True := rfl

theorem Ran.Post.andThen {P Q : State → Prop} {r : Ran} {f : State → Ran} (h : r.Post P)
    (hf : ∀ s, P s → (f s).Post Q) (hPQ : ∀ s, P s → Q s) : (r.andThen f).Post Q := by
  cases r with
  | done s => exact hf s h
  | raised e s => exact hPQ s h
  | stuck e => trivial

theorem Ran.Post.mono {P Q : State → Prop} {r : Ran} (h : r.Post P) (hPQ : ∀ s, P s → Q s) : r.Post Q := by
  cases r with
  | done s => exact hPQ s h
  | raised e s => exact hPQ s h
  | stuck e => trivial

/-! ### Guards -/

theorem guardRaise_pass {bad : Bool} (h : bad = false) (k : ErrorKind) (info : Word) (s : State) :
    guardRaise bad k info s = .done s := by simp [guardRaise, h]

theorem guardRaise_fail {bad : Bool} (h : bad = true) (k : ErrorKind) (info : Word) (s : State) :
    guardRaise bad k info s = .raised ⟨k, info⟩ s := by simp [guardRaise, h]

/-- A guard leaves the state as it is, whichever way it goes. -/
theorem guardRaise_post {P : State → Prop} {s : State} (h : P s) (bad : Bool) (k : ErrorKind) (info : Word) :
    (guardRaise bad k info s).Post P := by cases bad <;> exact h

theorem guardRaise_ne_stuck (bad : Bool) (k : ErrorKind) (info : Word) (s : State) (f : Fault) :
    guardRaise bad k info s ≠ .stuck f := by cases bad <;> simp [guardRaise]

theorem checkIn_pass {s : State} (h : s.inLen ≤ s.params.ibufSize) : checkIn s = .done s :=
  guardRaise_pass (by simpa using h) _ _ _

theorem checkIn_fail {s : State} (h : s.params.ibufSize < s.inLen) :
    checkIn s = .raised ⟨.capInlen, s.inLen⟩ s :=
  guardRaise_fail (by simpa using h) _ _ _

theorem needTree_pass {s : State} (h : s.status.treeValid = true) : needTree s = .done s :=
  guardRaise_pass (by simp [h]) _ _ _

theorem needTree_fail {s : State} (h : s.status.treeValid = false) : needTree s = .raised ⟨.seqNotree, 0#32⟩ s :=
  guardRaise_fail (by simp [h]) _ _ _

theorem needCode_pass {s : State} (h : s.status.codeValid = true) : needCode s = .done s :=
  guardRaise_pass (by simp [h]) _ _ _

theorem needCode_fail {s : State} (h : s.status.codeValid = false) : needCode s = .raised ⟨.seqNocodetable, 0#32⟩ s :=
  guardRaise_fail (by simp [h]) _ _ _

/-! ### The byte primitives -/

/-- A register below another value counts up without wrapping. -/
theorem word_add_one_toNat {x : Word} {n : Nat} (h : x.toNat < n) (hn : n < 2 ^ 32) :
    (x + 1#32).toNat = x.toNat + 1 := by
  have h₁ : (1#32).toNat = 1 := rfl
  rw [BitVec.toNat_add, h₁]
  omega

theorem outByte_room {s : State} (h : s.outLen < s.params.obufSize) (v : Byte) :
    outByte v s = .done (appendByte v s) := by
  simp [outByte, BitVec.not_le.2 h]

theorem outByte_full {s : State} (h : s.params.obufSize ≤ s.outLen) (v : Byte) :
    outByte v s = .raised ⟨.capObuf, s.outLen⟩ s := by
  simp [outByte, h]

theorem outByte_ne_stuck (v : Byte) (s : State) (f : Fault) : outByte v s ≠ .stuck f := by
  unfold outByte; split <;> simp

/-- OUT_LEN advances by one and does not wrap (R24, R71). -/
theorem appendByte_outLen_toNat {s : State} (h : s.outLen < s.params.obufSize) (v : Byte) :
    (appendByte v s).outLen.toNat = s.outLen.toNat + 1 := by
  exact word_add_one_toNat (BitVec.lt_def.1 h) s.params.obufSize.isLt

theorem appendByte_obufByte_same (v : Byte) (s : State) : (appendByte v s).obufByte s.outLen.toNat = v := by
  simp [appendByte, State.obufByte, Buffer.byte_store_same]

theorem appendByte_obufByte_other (v : Byte) (s : State) {a : Nat} (h : a ≠ s.outLen.toNat) :
    (appendByte v s).obufByte a = s.obufByte a := by
  simp [appendByte, State.obufByte, Buffer.byte_store_other _ _ _ h]

/-- IN_PTR advances by one and does not wrap where a byte is left (R24, R70). -/
theorem pastByte_inPtr_toNat {s : State} (h : s.inPtr.toNat < s.inLen.toNat) :
    (pastByte s).inPtr.toNat = s.inPtr.toNat + 1 := by
  exact word_add_one_toNat h s.inLen.isLt

/-! ### The envelope -/

/-- A ready machine accepts a command and runs its body (R230). -/
theorem runCommand_ready {s : State} (h : Ready s) (body : State → Ran) :
    runCommand body s = concludeWith finishDone (body (accept s)) := by
  simp [runCommand, h.1, h.2]

/-- While ERR or BUSY is 1 the command is dropped (R230, R266). -/
theorem runCommand_dropped {s : State} (h : s.status.busy = true ∨ s.status.err = true) (body : State → Ran) :
    runCommand body s = .next (markDrop s) := by
  rcases h with h | h <;> simp [runCommand, h]

theorem runAlways_idle {s : State} (h : s.status.busy = false) (body : State → Ran) (finish : State → State) :
    runAlways body finish s = concludeWith finish (body (accept s)) := by
  simp [runAlways, h]

theorem runAlways_dropped {s : State} (h : s.status.busy = true) (body : State → Ran) (finish : State → State) :
    runAlways body finish s = .next (markDrop s) := by
  simp [runAlways, h]

/-- What the envelope can answer: a drop, the end of the body, error entry, or a fault the body ran into. -/
theorem runCommand_cases {body : State → Ran} {s t : State} (h : runCommand body s = .next t) :
    ((s.status.busy = true ∨ s.status.err = true) ∧ t = markDrop s) ∨
      (Ready s ∧ ((∃ u, body (accept s) = .done u ∧ t = finishDone u) ∨
        ∃ e u, body (accept s) = .raised e u ∧ t = errorEntry e u)) := by
  by_cases hb : s.status.busy = true ∨ s.status.err = true
  · rw [runCommand_dropped hb] at h
    exact .inl ⟨hb, (Host.Outcome.next.inj h).symm⟩
  · have hr : Ready s := by
      constructor
      · simpa using fun h => hb (.inl h)
      · simpa using fun h => hb (.inr h)
    rw [runCommand_ready hr] at h
    refine .inr ⟨hr, ?_⟩
    cases hbody : body (accept s) with
    | done u => rw [hbody] at h; injection h with h; exact .inl ⟨u, rfl, h.symm⟩
    | raised e u => rw [hbody] at h; injection h with h; exact .inr ⟨e, u, rfl, h.symm⟩
    | stuck f => rw [hbody] at h; simp [concludeWith] at h

theorem runCommand_fault {body : State → Ran} {s : State} {f : Fault} (h : runCommand body s = .fault f) :
    body (accept s) = .stuck f := by
  unfold runCommand at h
  split at h
  · exact absurd h (by simp)
  · cases hb : body (accept s) with
    | done u => rw [hb] at h; simp [concludeWith] at h
    | raised e u => rw [hb] at h; simp [concludeWith] at h
    | stuck g => cases g; cases f; rfl

/-- A ready machine runs a body that comes to its end to DONE. -/
theorem runCommand_done {s u : State} (h : Ready s) {body : State → Ran} (hb : body (accept s) = .done u) :
    runCommand body s = .next (finishDone u) := by
  rw [runCommand_ready h, hb]; rfl

/-- A ready machine runs a body that raises to error entry. -/
theorem runCommand_raised {s u : State} (h : Ready s) {body : State → Ran} {e : Raise}
    (hb : body (accept s) = .raised e u) : runCommand body s = .next (errorEntry e u) := by
  rw [runCommand_ready h, hb]; rfl

end Sys2Proof.Machine
end

