-- ==== Sys2Proof/Laws/Table.lean ====
section
/-! SUPPORT. The frequency table: its entries in ascending order, the sum and the number of its counts, what one more
symbol does to it. -/

namespace Sys2Proof.Machine

open Sys2Proof Sys2Proof.Safety

theorem symbols_length : symbols.length = 256 := by simp [symbols]

theorem symbols_getElem (i : Nat) (h : i < symbols.length) : symbols[i] = BitVec.ofNat 8 i := by simp [symbols]

theorem mem_symbols (s : Byte) : s ∈ symbols := by
  refine List.mem_map.2 ⟨s.toNat, List.mem_range.2 s.isLt, ?_⟩
  simp

theorem symbols_sorted : symbols.Pairwise (· < ·) := by
  rw [symbols, List.pairwise_map]
  refine List.Pairwise.imp_of_mem ?_ List.pairwise_lt_range
  intro a b ha hb hab
  rw [List.mem_range] at ha hb
  rw [BitVec.lt_def, BitVec.toNat_ofNat, BitVec.toNat_ofNat]
  omega

theorem symbols_nodup : symbols.Nodup := symbols_sorted.imp (fun h => by rintro rfl; exact BitVec.lt_irrefl _ h)

/-- The counters beside their symbols are the map from symbol to count. -/
theorem zip_freq (ft : FreqTable) : symbols.zip ft.freq.toList = symbols.map fun s => (s, ft.count s) := by
  apply List.ext_getElem
  · simp [symbols]
  · intro i h₁ h₂
    have hi : i < 256 := by simpa [symbols] using h₂
    simp [symbols, FreqTable.count, Nat.mod_eq_of_lt hi]

theorem entries_eq (ft : FreqTable) :
    ft.entries = (symbols.filter fun s => ft.count s != 0#32).map fun s => (s, ft.count s) := by
  rw [FreqTable.entries, zip_freq, List.filter_map]
  rfl

theorem presentSymbols_eq (ft : FreqTable) : presentSymbols ft = symbols.filter fun s => ft.count s != 0#32 := by
  rw [presentSymbols, entries_eq, List.map_map]
  exact List.map_id _

theorem entries_eq_present (ft : FreqTable) : ft.entries = (presentSymbols ft).map fun s => (s, ft.count s) := by
  rw [presentSymbols_eq, entries_eq]

@[simp] theorem mem_presentSymbols {ft : FreqTable} {s : Byte} : s ∈ presentSymbols ft ↔ ft.count s ≠ 0#32 := by
  simp [presentSymbols_eq, mem_symbols]

theorem presentSymbols_sorted (ft : FreqTable) : (presentSymbols ft).Pairwise (· < ·) := by
  rw [presentSymbols_eq]; exact symbols_sorted.filter _

theorem presentSymbols_nodup (ft : FreqTable) : (presentSymbols ft).Nodup := by
  rw [presentSymbols_eq]; exact symbols_nodup.filter _

theorem presentSymbols_length_le (ft : FreqTable) : (presentSymbols ft).length ≤ 256 := by
  rw [presentSymbols_eq]
  exact le_trans (List.length_filter_le _ _) (le_of_eq symbols_length)

theorem presentSymbols_length (ft : FreqTable) : (presentSymbols ft).length = ft.entries.length := by
  simp [presentSymbols]

theorem freq_toList (ft : FreqTable) : ft.freq.toList = symbols.map ft.count := by
  have h := congrArg (List.map Prod.snd) (zip_freq ft)
  rw [List.map_snd_zip (by simp [symbols])] at h
  rw [h, List.map_map]
  rfl

/-- The sum of all counters (R22), as a sum over the symbols. -/
theorem freq_sum (ft : FreqTable) :
    (ft.freq.toList.map BitVec.toNat).sum = (symbols.map fun s => (ft.count s).toNat).sum := by
  rw [freq_toList, List.map_map]
  rfl

/-- Absent symbols add nothing: the sum over the present ones. -/
theorem freq_sum_present (ft : FreqTable) :
    (ft.freq.toList.map BitVec.toNat).sum = ((presentSymbols ft).map fun s => (ft.count s).toNat).sum := by
  rw [freq_sum, presentSymbols_eq]
  generalize symbols = l
  induction l with
  | nil => rfl
  | cons a l ih =>
    by_cases h : ft.count a = 0#32
    · simp [h, ih]
    · simp [h, ih]

@[simp] theorem zero_count (s : Byte) : FreqTable.zero.count s = 0#32 := by
  simp [FreqTable.zero, FreqTable.count]

@[simp] theorem zero_total : FreqTable.zero.total = 0#32 := rfl
@[simp] theorem zero_nsym : FreqTable.zero.nsym = 0#32 := rfl

@[simp] theorem zero_presentSymbols : presentSymbols FreqTable.zero = [] := by
  simp [presentSymbols_eq]

theorem zero_tableOk : TableOk FreqTable.zero := by
  constructor
  · simp [freq_sum]
  · rw [← presentSymbols_length]; simp

@[simp] theorem add_count_same (ft : FreqTable) (s : Byte) : (ft.add s).count s = ft.count s + 1#32 := by
  simp [FreqTable.add, FreqTable.count]

theorem add_count_other (ft : FreqTable) {s s' : Byte} (h : s' ≠ s) : (ft.add s).count s' = ft.count s' := by
  have : s.toNat ≠ s'.toNat := fun e => h (BitVec.eq_of_toNat_eq e.symm)
  simp [FreqTable.add, FreqTable.count, this]

@[simp] theorem add_total (ft : FreqTable) (s : Byte) : (ft.add s).total = ft.total + 1#32 := rfl

theorem count_le_sum {ft : FreqTable} (h : TableOk ft) (s : Byte) : (ft.count s).toNat ≤ ft.total.toNat := by
  rw [h.1, freq_sum]
  exact List.le_sum_of_mem (List.mem_map.2 ⟨s, mem_symbols s, rfl⟩)

/-- Where TOTAL is below MAXLEN no counter wraps (R117, R119). -/
theorem add_count_toNat {ft : FreqTable} (h : TableOk ft) (hm : ft.total.toNat < Config.maxLen) (s s' : Byte) :
    ((ft.add s).count s').toNat = (ft.count s').toNat + if s' = s then 1 else 0 := by
  by_cases e : s' = s
  · subst e
    rw [add_count_same, if_pos rfl]
    exact word_add_one_toNat (lt_of_le_of_lt (count_le_sum h s') hm) (by decide)
  · rw [add_count_other ft e, if_neg e, Nat.add_zero]

theorem sum_map_bump {l : List Byte} (hl : l.Nodup) {f g : Byte → Nat} {s : Byte} (hs : s ∈ l)
    (h : ∀ x, g x = f x + if x = s then 1 else 0) : (l.map g).sum = (l.map f).sum + 1 := by
  induction l with
  | nil => cases hs
  | cons a l ih =>
    rw [List.nodup_cons] at hl
    rw [List.map_cons, List.map_cons, List.sum_cons, List.sum_cons, h a]
    rcases List.mem_cons.1 hs with rfl | hs
    · have : l.map g = l.map f := List.map_congr_left fun x hx => by
        rw [h x, if_neg (fun e : x = s => hl.1 (e ▸ hx)), Nat.add_zero]
      rw [this]; simp; omega
    · rw [ih hl.2 hs, if_neg (fun e : a = s => hl.1 (e ▸ hs))]
      omega

theorem length_filter_insert {l : List Byte} (hl : l.Nodup) {p q : Byte → Bool} {s : Byte} (hs : s ∈ l)
    (hp : p s = false) (hq : q s = true) (h : ∀ x, x ≠ s → q x = p x) :
    (l.filter q).length = (l.filter p).length + 1 := by
  induction l with
  | nil => cases hs
  | cons a l ih =>
    rw [List.nodup_cons] at hl
    rcases List.mem_cons.1 hs with rfl | hs
    · have : l.filter q = l.filter p := List.filter_congr fun x hx => h x fun e => hl.1 (e ▸ hx)
      simp [hp, hq, this]
    · have ha : a ≠ s := fun e => hl.1 (e ▸ hs)
      have := ih hl.2 hs
      by_cases hpa : p a = true
      · simp [h a ha, hpa, this]
      · simp [h a ha, hpa, this]

/-- Counting one more symbol keeps R22 as long as TOTAL is below MAXLEN. -/
theorem add_tableOk {ft : FreqTable} (h : TableOk ft) (hm : ft.total.toNat < Config.maxLen) (s : Byte) :
    TableOk (ft.add s) := by
  have ht : (ft.total + 1#32).toNat = ft.total.toNat + 1 := word_add_one_toNat hm (by decide)
  refine ⟨?_, ?_⟩
  · rw [add_total, ht, freq_sum, sum_map_bump symbols_nodup (mem_symbols s) (add_count_toNat h hm s), ← freq_sum, ← h.1]
  · rw [← presentSymbols_length, presentSymbols_eq]
    have hn := h.2
    rw [← presentSymbols_length, presentSymbols_eq] at hn
    by_cases hc : ft.count s = 0#32
    · rw [length_filter_insert (p := fun x => ft.count x != 0#32) symbols_nodup (mem_symbols s) (by simp [hc])
        (by simp [hc]) (fun x hx => by rw [add_count_other ft hx]), ← hn]
      simp only [FreqTable.add, hc, if_true]
      exact word_add_one_toNat (lt_of_le_of_lt (b := 256) (by
        rw [hn, ← presentSymbols_eq]; exact presentSymbols_length_le ft) (by decide : 256 < 257)) (by decide)
    · have : (symbols.filter fun x => (ft.add s).count x != 0#32) = symbols.filter fun x => ft.count x != 0#32 := by
        refine List.filter_congr fun x _ => ?_
        have hx := add_count_toNat h hm s x
        have key : (ft.add s).count x = 0#32 ↔ ft.count x = 0#32 := by
          rw [← BitVec.toNat_inj, ← BitVec.toNat_inj (x := ft.count x), hx]
          by_cases e : x = s
          · subst e
            have : (ft.count x).toNat ≠ 0 := fun e => hc (BitVec.eq_of_toNat_eq (by simpa using e))
            simp
            simpa using this
          · simp [e]
        simp [bne, key]
      rw [this, ← hn]
      simp [FreqTable.add, hc]

end Sys2Proof.Machine
end

