-- ==== Sys2Proof/Laws/Frequency.lean ====
section
/-! SUPPORT. What the frequency commands do to the table: counting a sequence of bytes, and FACC's loop. -/

namespace Sys2Proof.Machine

open Sys2Proof Sys2Proof.Safety

/-! ### Slices of the buffers -/

theorem ibufSlice_length (s : State) (a b : Nat) : (ibufSlice s a b).length = b - a := by simp [ibufSlice]

theorem ibufSlice_cons (s : State) {a b : Nat} (h : a < b) :
    ibufSlice s a b = s.ibufByte a :: ibufSlice s (a + 1) b := by
  have h₁ : b - a = (b - (a + 1)) + 1 := by omega
  rw [ibufSlice, h₁, List.range_succ_eq_map, List.map_cons, List.map_map, ibufSlice]
  simp only [Nat.add_zero, List.cons.injEq, true_and]
  refine List.map_congr_left fun i _ => ?_
  simp only [Function.comp]
  congr 1
  omega

theorem ibufSlice_self (s : State) (a : Nat) : ibufSlice s a a = [] := by simp [ibufSlice]

/-- A slice depends on IBUF only. -/
theorem ibufSlice_congr {s t : State} (h : t.ibuf = s.ibuf) (a b : Nat) : ibufSlice t a b = ibufSlice s a b := by
  simp [ibufSlice, State.ibufByte, h]

/-! ### Counting a sequence -/

/-- The table after counting the bytes of a sequence one by one (R117). -/
def FreqTable.addAll (ft : FreqTable) (bs : List Byte) : FreqTable := bs.foldl FreqTable.add ft

@[simp] theorem addAll_nil (ft : FreqTable) : ft.addAll [] = ft := rfl
@[simp] theorem addAll_cons (ft : FreqTable) (b : Byte) (bs : List Byte) :
    ft.addAll (b :: bs) = (ft.add b).addAll bs := rfl

/-- Counting a sequence keeps R22, adds its length to TOTAL and its occurrences to the counters. -/
theorem addAll_spec {ft : FreqTable} (h : TableOk ft) {bs : List Byte}
    (hm : ft.total.toNat + bs.length ≤ Config.maxLen) :
    TableOk (ft.addAll bs) ∧ (ft.addAll bs).total.toNat = ft.total.toNat + bs.length ∧
      ∀ sym, ((ft.addAll bs).count sym).toNat = (ft.count sym).toNat + bs.count sym := by
  induction bs generalizing ft with
  | nil => simp [h]
  | cons b bs ih =>
    rw [List.length_cons] at hm
    have hlt : ft.total.toNat < Config.maxLen := by omega
    have ht : (ft.add b).total.toNat = ft.total.toNat + 1 := by
      rw [add_total]; exact word_add_one_toNat hlt (by decide)
    obtain ⟨h₁, h₂, h₃⟩ := ih (add_tableOk h hlt b) (by omega)
    refine ⟨h₁, by rw [addAll_cons, h₂, ht, List.length_cons]; omega, fun sym => ?_⟩
    rw [addAll_cons, h₃, add_count_toNat h hlt, List.count_cons]
    by_cases e : sym = b
    · subst e; simp; omega
    · have : ¬b = sym := fun h => e h.symm
      simp [e, this]

theorem presentSymbols_perm_dedup {ft : FreqTable} {bs : List Byte}
    (h : ∀ sym, (ft.count sym).toNat = bs.count sym) : (presentSymbols ft).Perm bs.dedup := by
  rw [List.perm_ext_iff_of_nodup (presentSymbols_nodup ft) (List.nodup_dedup bs)]
  intro a
  rw [mem_presentSymbols, List.mem_dedup, ← List.count_pos_iff, ← h a, Nat.pos_iff_ne_zero, ne_eq, ne_eq,
    ← BitVec.toNat_inj]
  simp

/-- A table that keeps R22 and has the counts of a sequence counts it (R120). -/
theorem counts_of_tableOk {ft : FreqTable} {bs : List Byte} (h : TableOk ft) (ht : ft.total.toNat = bs.length)
    (hc : ∀ sym, (ft.count sym).toNat = bs.count sym) : Counts ft bs := by
  refine ⟨hc, ht, ?_⟩
  rw [h.2, ← presentSymbols_length]
  exact (presentSymbols_perm_dedup hc).length_eq

/-- From a clear table, counting a sequence gives its counts (R120). -/
theorem addAll_zero_counts {bs : List Byte} (h : bs.length ≤ Config.maxLen) : Counts (FreqTable.zero.addAll bs) bs := by
  obtain ⟨h₁, h₂, h₃⟩ := addAll_spec zero_tableOk (bs := bs) (by simpa using h)
  refine counts_of_tableOk h₁ (by simpa using h₂) fun sym => by simpa using h₃ sym

/-! ### FACC's loop -/

/-- FACC's loop counts the next `n` bytes and moves IN_PTR past them; nothing else changes (R118). -/
theorem countBytes_eq (n : Nat) (s : State) (h : s.inPtr.toNat + n < 2 ^ 32) :
    countBytes n s =
      (s.setTable (s.table.addAll (ibufSlice s s.inPtr.toNat (s.inPtr.toNat + n)))).setInPtr
        (BitVec.ofNat 32 (s.inPtr.toNat + n)) := by
  induction n generalizing s with
  | zero => simp [countBytes, ibufSlice_self, State.setTable, State.setInPtr]
  | succ n ih =>
    have hp : (s.inPtr + 1#32).toNat = s.inPtr.toNat + 1 :=
      word_add_one_toNat (n := 2 ^ 32 - 1) (by omega) (by decide)
    have hc : (countByte s).inPtr.toNat = s.inPtr.toNat + 1 := hp
    rw [countBytes, ih (countByte s) (by omega), ibufSlice_cons s (by omega : s.inPtr.toNat < s.inPtr.toNat + (n + 1)),
      addAll_cons, hc]
    have e : s.inPtr.toNat + 1 + n = s.inPtr.toNat + (n + 1) := by omega
    rw [e]
    rfl

end Sys2Proof.Machine
end

