-- ==== Sys2Proof/Laws/Tree.lean ====
section
/-! SUPPORT. What TBLD builds: node handles, the trees an arena stands for, and the invariant of the merge loop. -/

namespace Sys2Proof.Machine

open Sys2Proof Sys2Proof.Safety

/-! ### Handles -/

theorem isLeaf_leafHandle (s : Byte) : isLeaf (leafHandle s) = true := by
  have e : (leafHandle s).getLsbD 8 = (0#1 ++ s : BitVec (1 + 8)).getLsbD 8 := rfl
  rw [isLeaf, e, BitVec.getLsbD_append]
  rfl

theorem isLeaf_nodeHandle (k : Byte) : isLeaf (nodeHandle k) = false := by
  have e : (nodeHandle k).getLsbD 8 = (1#1 ++ k : BitVec (1 + 8)).getLsbD 8 := rfl
  rw [isLeaf, e, BitVec.getLsbD_append]
  rfl

theorem lowByte_append (b : BitVec 1) (s : Byte) : lowByte (b ++ s) = s := by
  apply BitVec.eq_of_getLsbD_eq
  intro i hi
  have h : (lowByte (b ++ s)).getLsbD i = (b ++ s : BitVec (1 + 8)).getLsbD i := by
    simp [lowByte, hi]
  rw [h, BitVec.getLsbD_append]
  simp [hi]

@[simp] theorem lowByte_leafHandle (s : Byte) : lowByte (leafHandle s) = s := lowByte_append _ s
@[simp] theorem lowByte_nodeHandle (k : Byte) : lowByte (nodeHandle k) = k := lowByte_append _ k

theorem leafHandle_lowByte {h : Handle} (hl : isLeaf h = true) : leafHandle (lowByte h) = h := by
  apply BitVec.eq_of_getLsbD_eq
  intro i hi
  have e : (leafHandle (lowByte h)).getLsbD i = (0#1 ++ lowByte h : BitVec (1 + 8)).getLsbD i := rfl
  rw [e, BitVec.getLsbD_append]
  by_cases h8 : i < 8
  · simp [h8, lowByte]
  · have : i = 8 := by omega
    subst this
    simpa [isLeaf] using hl

theorem nodeHandle_lowByte {h : Handle} (hl : isLeaf h = false) : nodeHandle (lowByte h) = h := by
  apply BitVec.eq_of_getLsbD_eq
  intro i hi
  have e : (nodeHandle (lowByte h)).getLsbD i = (1#1 ++ lowByte h : BitVec (1 + 8)).getLsbD i := rfl
  rw [e, BitVec.getLsbD_append]
  by_cases h8 : i < 8
  · simp [h8, lowByte]
  · have : i = 8 := by omega
    subst this
    simpa [isLeaf] using hl

@[simp] theorem isLeaf_leafHandle' (s : Byte) : isLeaf (leafHandle s) = true := isLeaf_leafHandle s
@[simp] theorem isLeaf_nodeHandle' (k : Byte) : isLeaf (nodeHandle k) = false := isLeaf_nodeHandle k

theorem leafHandle_injective {a b : Byte} (h : leafHandle a = leafHandle b) : a = b := by
  simpa using congrArg lowByte h

@[simp] theorem left_nodeHandle (t : Tree) (k : Byte) : t.left (nodeHandle k) = (t.entry k).left := by
  simp [Tree.left]

@[simp] theorem right_nodeHandle (t : Tree) (k : Byte) : t.right (nodeHandle k) = (t.entry k).right := by
  simp [Tree.right]

@[simp] theorem nodeWeight_leafHandle (ft : FreqTable) (t : Tree) (s : Byte) :
    nodeWeight ft t (leafHandle s) = ft.count s := by simp [nodeWeight]

@[simp] theorem nodeWeight_nodeHandle (ft : FreqTable) (t : Tree) (k : Byte) :
    nodeWeight ft t (nodeHandle k) = (t.entry k).weight := by simp [nodeWeight]

@[simp] theorem nodeLsym_leafHandle (t : Tree) (s : Byte) : nodeLsym t (leafHandle s) = s := by simp [nodeLsym]

@[simp] theorem nodeLsym_nodeHandle (t : Tree) (k : Byte) : nodeLsym t (nodeHandle k) = (t.entry k).lsym := by
  simp [nodeLsym]

/-! ### The trees an arena stands for -/

/-- A tree without an arena: leaves with their symbols, internal nodes with their index. -/
inductive HTree where
  | leaf (s : Byte)
  | node (k : Byte) (l r : HTree)

/-- The symbols of the leaves, left to right. -/
def HTree.leaves : HTree → List Byte
  | .leaf s => [s]
  | .node _ l r => l.leaves ++ r.leaves

/-- The indexes of the internal nodes, root first. -/
def HTree.nodes : HTree → List Byte
  | .leaf _ => []
  | .node k l r => k :: (l.nodes ++ r.nodes)

def HTree.depth : HTree → Nat
  | .leaf _ => 0
  | .node _ l r => max l.depth r.depth + 1

/-- The sum of the counts of the leaves (R139). -/
def HTree.weight (ft : FreqTable) : HTree → Nat
  | .leaf s => (ft.count s).toNat
  | .node _ l r => l.weight ft + r.weight ft

/-- Handle `h` of arena `t` stands for the tree (R45). -/
inductive Rep (t : Tree) : Handle → HTree → Prop
  | leaf (s : Byte) : Rep t (leafHandle s) (.leaf s)
  | node (k : Byte) (l r : HTree) (hk : k < t.nint) (hl : Rep t (t.entry k).left l) (hr : Rep t (t.entry k).right r) :
      Rep t (nodeHandle k) (.node k l r)

theorem HTree.leaves_ne_nil (T : HTree) : T.leaves ≠ [] := by
  induction T with
  | leaf s => simp [leaves]
  | node k l r ihl _ => simp [leaves, ihl]

theorem HTree.leaves_length_pos (T : HTree) : 0 < T.leaves.length := List.length_pos_of_ne_nil T.leaves_ne_nil

/-- A strict binary tree with n leaves is at most n − 1 deep (R7). -/
theorem HTree.depth_lt (T : HTree) : T.depth < T.leaves.length := by
  induction T with
  | leaf s => simp [leaves, depth]
  | node k l r ihl ihr =>
    have := l.leaves_length_pos
    have := r.leaves_length_pos
    simp only [leaves, depth, List.length_append]
    omega

/-- A strict binary tree with n leaves has n − 1 internal nodes (R7). -/
theorem HTree.nodes_length (T : HTree) : T.nodes.length + 1 = T.leaves.length := by
  induction T with
  | leaf s => simp [leaves, nodes]
  | node k l r ihl ihr => simp only [leaves, nodes, List.length_append, List.length_cons]; omega

theorem HTree.weight_eq (ft : FreqTable) (T : HTree) :
    T.weight ft = (T.leaves.map fun s => (ft.count s).toNat).sum := by
  induction T with
  | leaf s => simp [weight, leaves]
  | node k l r ihl ihr => simp [weight, leaves, ihl, ihr]

/-- A handle stands for one tree only. -/
theorem Rep.functional {t : Tree} {h : Handle} {T U : HTree} (hT : Rep t h T) (hU : Rep t h U) : T = U := by
  induction hT generalizing U with
  | leaf s =>
    generalize e : leafHandle s = h at hU
    cases hU with
    | leaf s' => rw [leafHandle_injective e]
    | node k l r => exact absurd (congrArg isLeaf e) (by simp)
  | node k l r hk _ _ ihl ihr =>
    generalize e : nodeHandle k = h at hU
    cases hU with
    | leaf s' => exact absurd (congrArg isLeaf e) (by simp)
    | node k' l' r' hk' hl' hr' =>
      have : k = k' := by simpa using congrArg lowByte e
      subst this
      rw [ihl hl', ihr hr']

/-- With enough depth, the leaves under a handle are the leaves of its tree. -/
theorem Rep.leavesUnder_eq {t : Tree} {h : Handle} {T : HTree} (hT : Rep t h T) {n : Nat} (hn : T.depth < n) :
    leavesUnder t n h = T.leaves := by
  induction hT generalizing n with
  | leaf s => obtain ⟨n, rfl⟩ := Nat.exists_eq_succ_of_ne_zero (by omega : n ≠ 0); simp [leavesUnder, HTree.leaves]
  | node k l r _ _ _ ihl ihr =>
    obtain ⟨n, rfl⟩ := Nat.exists_eq_succ_of_ne_zero (by omega : n ≠ 0)
    simp only [HTree.depth] at hn
    simp [leavesUnder, HTree.leaves, ihl (by omega : l.depth < n), ihr (by omega : r.depth < n)]

theorem Rep.nodesUnder_eq {t : Tree} {h : Handle} {T : HTree} (hT : Rep t h T) {n : Nat} (hn : T.depth < n) :
    nodesUnder t n h = T.nodes := by
  induction hT generalizing n with
  | leaf s => obtain ⟨n, rfl⟩ := Nat.exists_eq_succ_of_ne_zero (by omega : n ≠ 0); simp [nodesUnder, HTree.nodes]
  | node k l r _ _ _ ihl ihr =>
    obtain ⟨n, rfl⟩ := Nat.exists_eq_succ_of_ne_zero (by omega : n ≠ 0)
    simp only [HTree.depth] at hn
    simp [nodesUnder, HTree.nodes, ihl (by omega : l.depth < n), ihr (by omega : r.depth < n)]

/-- Two arenas with the same entries below `nint` stand for the same trees. -/
theorem Rep.transfer {t u : Tree} {h : Handle} {T : HTree} (hT : Rep t h T) (hn : t.nint ≤ u.nint)
    (he : ∀ k, k < t.nint → u.entry k = t.entry k) : Rep u h T := by
  induction hT with
  | leaf s => exact .leaf s
  | node k l r hk _ _ ihl ihr =>
    refine .node k l r (BitVec.lt_def.2 (lt_of_lt_of_le (BitVec.lt_def.1 hk) (BitVec.le_def.1 hn))) ?_ ?_
    · rw [he k hk]; exact ihl
    · rw [he k hk]; exact ihr

/-- With R46's weights in the arena, the weight of a handle is the sum of the counts of its leaves (R139). -/
theorem Rep.nodeWeight_eq {ft : FreqTable} {t : Tree} {h : Handle} {T : HTree} (hT : Rep t h T)
    (he : ∀ k, k < t.nint → EntryOk ft t k) : (nodeWeight ft t h).toNat = T.weight ft := by
  induction hT with
  | leaf s => simp [HTree.weight]
  | node k l r hk _ _ ihl ihr => rw [nodeWeight_nodeHandle, (he k hk).2.2.2.1, ihl, ihr, HTree.weight]

/-- Every internal node of a represented tree is represented, not deeper than the whole. -/
theorem Rep.of_node {t : Tree} {h : Handle} {T : HTree} (hT : Rep t h T) {k : Byte} (hk : k ∈ T.nodes) :
    ∃ U, Rep t (nodeHandle k) U ∧ U.depth ≤ T.depth := by
  induction hT with
  | leaf s => simp [HTree.nodes] at hk
  | node j l r hj hl hr ihl ihr =>
    simp only [HTree.nodes, List.mem_cons, List.mem_append] at hk
    rcases hk with rfl | hk | hk
    · exact ⟨_, Rep.node k l r hj hl hr, le_refl _⟩
    · obtain ⟨U, h₁, h₂⟩ := ihl hk
      exact ⟨U, h₁, by simp only [HTree.depth]; omega⟩
    · obtain ⟨U, h₁, h₂⟩ := ihr hk
      exact ⟨U, h₁, by simp only [HTree.depth]; omega⟩

/-- A handle that stands for a tree whose leaves are present names a node. -/
theorem Rep.names {ft : FreqTable} {t : Tree} {h : Handle} {T : HTree} (hT : Rep t h T)
    (hl : ∀ s ∈ T.leaves, ft.count s ≠ 0#32) : Names ft t.nint.toNat h := by
  cases hT with
  | leaf s => simpa [Names, HTree.leaves] using hl
  | node k l r hk => simpa [Names] using BitVec.lt_def.1 hk

/-! ### Merging -/

theorem merge_nint_toNat {ft : FreqTable} {t : Tree} {a b : Handle} (h : t.nint.toNat < 255) :
    (t.merge ft a b).nint.toNat = t.nint.toNat + 1 := by
  have : (1#8).toNat = 1 := rfl
  simp only [Tree.merge, BitVec.toNat_add, this]
  omega

theorem merge_entry_new {ft : FreqTable} {t : Tree} (a b : Handle) (h : t.nint.toNat < 255) :
    (t.merge ft a b).entry t.nint =
      ⟨nodeWeight ft t a + nodeWeight ft t b, a, b, nodeLsym t a⟩ := by
  simp [Tree.entry, Tree.merge, h]

theorem merge_entry_old {ft : FreqTable} {t : Tree} (a b : Handle) {k : Byte} (h : k < t.nint) :
    (t.merge ft a b).entry k = t.entry k := by
  have : t.nint.toNat ≠ k.toNat := by have := BitVec.lt_def.1 h; omega
  simp [Tree.entry, Tree.merge, this]

theorem minFrom_mem (ft : FreqTable) (t : Tree) (m : Handle) (hs : List Handle) : minFrom ft t m hs ∈ m :: hs := by
  induction hs generalizing m with
  | nil => simp [minFrom]
  | cons h hs ih =>
    rw [minFrom]
    by_cases hk : keyBelow ft t h m = true
    · have := ih h
      simp only [hk, if_true, List.mem_cons] at this ⊢
      tauto
    · have := ih m
      simp only [hk, Bool.false_eq_true, if_false, List.mem_cons] at this ⊢
      tauto

/-- Taking the minimum takes a member and leaves the rest. -/
theorem takeMin_perm {ft : FreqTable} {t : Tree} {live rest : List Handle} {a : Handle}
    (h : takeMin ft t live = some (a, rest)) : live.Perm (a :: rest) := by
  cases live with
  | nil => simp [takeMin] at h
  | cons x xs =>
    simp only [takeMin, Option.some.injEq, Prod.mk.injEq] at h
    obtain ⟨rfl, rfl⟩ := h
    exact List.perm_cons_erase (minFrom_mem ft t x xs)

theorem takeMin_eq_none {ft : FreqTable} {t : Tree} {live : List Handle} : takeMin ft t live = none ↔ live = [] := by
  cases live <;> simp [takeMin]

/-- Two lists of values whose keys are a permutation of `a :: l` can be split at a value with key `a`. -/
theorem perm_map_cons {α β : Type} {f : α → β} {P : List α} {a : β} {l : List β} (h : (P.map f).Perm (a :: l)) :
    ∃ p P', P.Perm (p :: P') ∧ f p = a ∧ (P'.map f).Perm l := by
  have ha : a ∈ P.map f := h.symm.subset (List.mem_cons_self ..)
  obtain ⟨p, hp, rfl⟩ := List.mem_map.1 ha
  obtain ⟨s, t, rfl⟩ := List.append_of_mem hp
  have e : (s ++ p :: t).Perm (p :: (s ++ t)) := List.perm_middle
  refine ⟨p, s ++ t, e, rfl, ?_⟩
  exact ((e.map f).symm.trans h).cons_inv

/-- What the merge loop keeps: the live handles stand for trees whose leaves are the present symbols, whose nodes are
the entries made so far, each once; every entry made so far is as R46 says. -/
structure Forest (ft : FreqTable) (live : List Handle) (t : Tree) : Prop where
  entries : ∀ k : Byte, k < t.nint → EntryOk ft t k
  trees : ∃ P : List (Handle × HTree), (P.map Prod.fst).Perm live ∧ (∀ p ∈ P, Rep t p.1 p.2) ∧
    (P.flatMap fun p => p.2.leaves).Perm (presentSymbols ft) ∧
    (P.flatMap fun p => p.2.nodes).Perm ((List.range t.nint.toNat).map (BitVec.ofNat 8))
  last : t.nint = 0#8 ∨ nodeHandle (t.nint - 1#8) ∈ live
  size : live.length + t.nint.toNat = (presentSymbols ft).length

/-- The leaves of the present symbols are the forest the loop starts from. -/
theorem Forest.start (ft : FreqTable) (t : Tree) : Forest ft (liveLeaves ft) { t with nint := 0#8 } where
  entries := fun k hk => absurd hk (by simp [BitVec.lt_def])
  trees := by
    refine ⟨(presentSymbols ft).map fun s => (leafHandle s, .leaf s), ?_, ?_, ?_, ?_⟩
    · rw [liveLeaves, entries_eq_present, List.map_map, List.map_map]
      exact List.Perm.refl _
    · intro p hp
      obtain ⟨s, _, rfl⟩ := List.mem_map.1 hp
      exact .leaf s
    · simp [List.flatMap_map, HTree.leaves]
    · simp [List.flatMap_map, HTree.nodes]
  last := .inl rfl
  size := by simp [liveLeaves, presentSymbols_length]

/-- One pass of the loop keeps the forest (R137, R138, R139). -/
theorem Forest.merge {ft : FreqTable} (hft : TableOk ft) {live live₁ live₂ : List Handle} {t : Tree} {a b : Handle}
    (h : Forest ft live t) (ha : takeMin ft t live = some (a, live₁)) (hb : takeMin ft t live₁ = some (b, live₂)) :
    Forest ft (nodeHandle t.nint :: live₂) (t.merge ft a b) := by
  have hperm : live.Perm (a :: b :: live₂) := (takeMin_perm ha).trans ((takeMin_perm hb).cons a)
  obtain ⟨P, hP, hRep, hleaves, hnodes⟩ := h.trees
  obtain ⟨⟨a', A⟩, P₁, hP₁, rfl, hP₁'⟩ := perm_map_cons (hP.trans hperm)
  obtain ⟨⟨b', B⟩, P₂, hP₂, rfl, hP₂'⟩ := perm_map_cons hP₁'
  simp only at hperm ha hb ⊢
  have hPP : P.Perm ((a', A) :: (b', B) :: P₂) := hP₁.trans (hP₂.cons _)
  have hA : Rep t a' A := hRep (a', A) (hPP.symm.subset (by simp))
  have hB : Rep t b' B := hRep (b', B) (hPP.symm.subset (by simp))
  have hlv : (A.leaves ++ (B.leaves ++ P₂.flatMap fun p => p.2.leaves)).Perm (presentSymbols ft) := by
    simpa using ((hPP.flatMap_right _).symm.trans hleaves)
  have hnd : (A.nodes ++ (B.nodes ++ P₂.flatMap fun p => p.2.nodes)).Perm
      ((List.range t.nint.toNat).map (BitVec.ofNat 8)) := by
    simpa using ((hPP.flatMap_right _).symm.trans hnodes)
  have hsize : live₂.length + 2 + t.nint.toNat = (presentSymbols ft).length := by
    rw [← h.size, hperm.length_eq]; simp
  have hlt : t.nint.toNat < 255 := by have := presentSymbols_length_le ft; omega
  have hk' : (t.merge ft a' b').nint.toNat = t.nint.toNat + 1 := merge_nint_toNat hlt
  have hle : t.nint ≤ (t.merge ft a' b').nint := by rw [BitVec.le_def, hk']; omega
  have hnew : t.nint < (t.merge ft a' b').nint := by rw [BitVec.lt_def, hk']; omega
  have hold : ∀ k, k < t.nint → (t.merge ft a' b').entry k = t.entry k := fun k hk => merge_entry_old a' b' hk
  have hAl : ∀ s ∈ A.leaves, ft.count s ≠ 0#32 := fun s hs => mem_presentSymbols.1 (hlv.subset (by simp [hs]))
  have hBl : ∀ s ∈ B.leaves, ft.count s ≠ 0#32 := fun s hs => mem_presentSymbols.1 (hlv.subset (by simp [hs]))
  have hnodup : (A.leaves ++ (B.leaves ++ P₂.flatMap fun p => p.2.leaves)).Nodup :=
    hlv.nodup_iff.2 (presentSymbols_nodup ft)
  have hne : a' ≠ b' := by
    rintro rfl
    have e := hA.functional hB
    subst e
    obtain ⟨x, hx⟩ := List.exists_mem_of_ne_nil _ A.leaves_ne_nil
    exact (List.disjoint_of_nodup_append hnodup) hx (by simp [hx])
  -- the weight of a handle that names a node is the same before and after
  have hsame : ∀ c, Names ft t.nint.toNat c → nodeWeight ft (t.merge ft a' b') c = nodeWeight ft t c ∧
      nodeLsym (t.merge ft a' b') c = nodeLsym t c := by
    intro c hc
    unfold Names at hc
    by_cases hl : isLeaf c = true
    · simp [nodeWeight, nodeLsym, hl]
    · rw [if_neg hl] at hc
      have : lowByte c < t.nint := BitVec.lt_def.2 hc
      simp [nodeWeight, nodeLsym, hl, hold _ this]
  have hmono : ∀ {k : Byte} {c : Handle}, k < t.nint → Names ft k.toNat c → Names ft t.nint.toNat c := by
    intro k c hk hc
    unfold Names at hc ⊢
    split at hc
    · simp only [*, if_true]; exact hc
    · have := BitVec.lt_def.1 hk
      simp only [*, Bool.false_eq_true, if_false] at hc ⊢
      omega
  refine ⟨?_, ?_, ?_, ?_⟩
  · intro k hk
    rw [BitVec.lt_def, hk'] at hk
    by_cases e : k = t.nint
    · subst e
      have hw : (nodeWeight ft t a').toNat + (nodeWeight ft t b').toNat < 2 ^ 32 := by
        rw [hA.nodeWeight_eq h.entries, hB.nodeWeight_eq h.entries, HTree.weight_eq, HTree.weight_eq]
        have e₁ := hft.1
        rw [freq_sum_present] at e₁
        have e₂ := (hlv.map fun s => (ft.count s).toNat).sum_eq
        simp only [List.map_append, List.sum_append] at e₂
        have := ft.total.isLt
        omega
      unfold EntryOk
      rw [merge_entry_new a' b' hlt]
      simp only
      refine ⟨hA.names hAl, hB.names hBl, hne, ?_, ?_⟩
      · rw [(hsame a' (hA.names hAl)).1, (hsame b' (hB.names hBl)).1, BitVec.toNat_add]
        exact Nat.mod_eq_of_lt hw
      · rw [(hsame a' (hA.names hAl)).2]
    · have hk₁ : k < t.nint := by
        rw [BitVec.lt_def]
        have : k.toNat ≠ t.nint.toNat := fun e' => e (BitVec.eq_of_toNat_eq e')
        omega
      have he := h.entries k hk₁
      unfold EntryOk at he ⊢
      rw [hold k hk₁]
      refine ⟨he.1, he.2.1, he.2.2.1, ?_, ?_⟩
      · rw [(hsame _ (hmono hk₁ he.1)).1, (hsame _ (hmono hk₁ he.2.1)).1]; exact he.2.2.2.1
      · rw [(hsame _ (hmono hk₁ he.1)).2]; exact he.2.2.2.2
  · refine ⟨(nodeHandle t.nint, .node t.nint A B) :: P₂, ?_, ?_, ?_, ?_⟩
    · exact hP₂'.cons _
    · intro p hp
      rcases List.mem_cons.1 hp with rfl | hp
      · refine .node _ A B hnew ?_ ?_
        · rw [merge_entry_new a' b' hlt]; exact hA.transfer hle hold
        · rw [merge_entry_new a' b' hlt]; exact hB.transfer hle hold
      · exact (hRep p (hPP.symm.subset (by simp [hp]))).transfer hle hold
    · simpa [HTree.leaves] using hlv
    · rw [hk', List.range_succ, List.map_append]
      have : BitVec.ofNat 8 t.nint.toNat = t.nint := by simp
      simp only [List.flatMap_cons, HTree.nodes, List.map_cons, List.map_nil, this, List.cons_append]
      refine List.Perm.trans ?_ (List.perm_append_comm.trans (List.Perm.refl _)).symm
      simpa using hnd
  · right
    have : (t.merge ft a' b').nint - 1#8 = t.nint := by
      apply BitVec.eq_of_toNat_eq
      have : (1#8).toNat = 1 := rfl
      rw [BitVec.toNat_sub, hk', this]
      omega
    rw [this]
    exact List.mem_cons_self ..
  · rw [List.length_cons, hk']; omega

/-- The loop leaves a forest of at most one tree. -/
theorem mergeLoop_spec {ft : FreqTable} (hft : TableOk ft) (fuel : Nat) {live : List Handle} {t : Tree}
    (h : Forest ft live t) (hf : live.length ≤ fuel + 1) :
    Forest ft (mergeLoop ft fuel live t).1 (mergeLoop ft fuel live t).2 ∧ (mergeLoop ft fuel live t).1.length ≤ 1 := by
  induction fuel generalizing live t with
  | zero => exact ⟨h, by simpa [mergeLoop] using hf⟩
  | succ fuel ih =>
    rw [mergeLoop]
    cases ha : takeMin ft t live with
    | none => rw [takeMin_eq_none] at ha; subst ha; exact ⟨h, by simp⟩
    | some p =>
      obtain ⟨a, live₁⟩ := p
      have e₁ := (takeMin_perm ha).length_eq
      simp only
      cases hb : takeMin ft t live₁ with
      | none => rw [takeMin_eq_none] at hb; subst hb; exact ⟨h, by rw [e₁]; simp⟩
      | some q =>
        obtain ⟨b, live₂⟩ := q
        have e₂ := (takeMin_perm hb).length_eq
        refine ih (h.merge hft ha hb) ?_
        simp only [List.length_cons] at e₁ e₂ ⊢
        omega

/-- The tree fields that do not depend on ROOT. -/
theorem setRoot_entry (t : Tree) (l : List Handle) (k : Byte) : (t.setRoot l).entry k = t.entry k := by
  cases l <;> rfl

@[simp] theorem setRoot_nint (t : Tree) (l : List Handle) : (t.setRoot l).nint = t.nint := by cases l <;> rfl

theorem entryOk_congr {ft : FreqTable} {t u : Tree} {k : Byte} (h : EntryOk ft t k)
    (he : ∀ j, u.entry j = t.entry j) : EntryOk ft u k := by
  have hw : ∀ c, nodeWeight ft u c = nodeWeight ft t c := fun c => by simp [nodeWeight, he]
  have hs : ∀ c, nodeLsym u c = nodeLsym t c := fun c => by simp [nodeLsym, he]
  unfold EntryOk at h ⊢
  rw [he, hw, hw, hs]
  exact h

/-- What TBLD's tree stands for: nothing when no symbol is present, else one tree under ROOT (R137, R138). -/
theorem buildTree_spec {ft : FreqTable} (hft : TableOk ft) (t : Tree) :
    (∀ k : Byte, k < (buildTree ft t).nint → EntryOk ft (buildTree ft t) k) ∧
      RootOk ft (buildTree ft t) ∧
      ((buildTree ft t).nonempty = true → ∃ T, Rep (buildTree ft t) (buildTree ft t).root T ∧
        T.leaves.Perm (presentSymbols ft) ∧
        T.nodes.Perm ((List.range (buildTree ft t).nint.toNat).map (BitVec.ofNat 8))) := by
  obtain ⟨hF, hlen⟩ := mergeLoop_spec hft (liveLeaves ft).length (Forest.start ft t) (by omega)
  have hb : buildTree ft t = (mergeLoop ft (liveLeaves ft).length (liveLeaves ft) { t with nint := 0#8 }).2.setRoot
      (mergeLoop ft (liveLeaves ft).length (liveLeaves ft) { t with nint := 0#8 }).1 := rfl
  rw [hb]
  generalize (mergeLoop ft (liveLeaves ft).length (liveLeaves ft) { t with nint := 0#8 }).2 = u at *
  generalize (mergeLoop ft (liveLeaves ft).length (liveLeaves ft) { t with nint := 0#8 }).1 = l at *
  refine ⟨fun k hk => entryOk_congr (hF.entries k (by simpa using hk)) (setRoot_entry u l), ?_⟩
  obtain ⟨P, hP, hRep, hleaves, hnodes⟩ := hF.trees
  match l, hlen, hF, hP with
  | [], _, hF, hP =>
    have hP' : P = [] := by simpa using hP.length_eq
    subst hP'
    have hps : presentSymbols ft = [] := by simpa using hleaves.length_eq.symm
    have hn : u.nint = 0#8 := by
      have := hF.size
      rw [hps] at this
      apply BitVec.eq_of_toNat_eq
      simpa using this
    refine ⟨?_, by simp [Tree.setRoot]⟩
    simp [RootOk, hps, Tree.setRoot, hn]
  | [h], _, hF, hP =>
    obtain ⟨⟨h', T⟩, P', hPP, rfl, hP'⟩ := perm_map_cons hP
    have hP'' : P' = [] := by simpa using hP'.length_eq
    subst hP''
    have hT : Rep u h' T := hRep (h', T) (hPP.symm.subset (by simp))
    have hlv : T.leaves.Perm (presentSymbols ft) := by simpa using (hPP.flatMap_right _).symm.trans hleaves
    have hnd : T.nodes.Perm ((List.range u.nint.toNat).map (BitVec.ofNat 8)) := by
      simpa using (hPP.flatMap_right _).symm.trans hnodes
    have hps : presentSymbols ft ≠ [] := fun e => T.leaves_ne_nil (by rw [e] at hlv; exact hlv.eq_nil)
    have hs := hF.size
    simp only [List.length_cons, List.length_nil] at hs
    constructor
    · unfold RootOk
      rw [if_neg hps]
      refine ⟨rfl, ?_, ?_⟩
      · simp only [setRoot_nint]; omega
      · simp only [setRoot_nint]
        split
        · next hn =>
          rw [hn] at hnd
          cases hT with
          | leaf s =>
            exact ⟨s, rfl, List.perm_singleton.1 hlv.symm⟩
          | node k l r => exact absurd hnd.length_eq (by simp [HTree.nodes])
        · next hn =>
          rcases hF.last with hl | hl
          · exact absurd hl hn
          · simpa [Tree.setRoot] using (List.mem_singleton.1 hl).symm
    · intro _
      refine ⟨T, ?_, hlv, by simpa using hnd⟩
      exact hT.transfer (by simp) fun k _ => setRoot_entry u [h'] k
  | _ :: _ :: _, hlen, _, _ => exact absurd hlen (by simp)

theorem Rep.depth_lt {ft : FreqTable} {T : HTree} (h : T.leaves.Perm (presentSymbols ft)) : T.depth < 256 :=
  lt_of_lt_of_le T.depth_lt (h.length_eq ▸ presentSymbols_length_le ft)

/-- TBLD leaves a tree as R46, R47, R138 and R139 say. -/
theorem buildTree_ok {ft : FreqTable} (hft : TableOk ft) (t : Tree) : TreeOk ft (buildTree ft t) := by
  obtain ⟨h₁, h₂, h₃⟩ := buildTree_spec hft t
  refine ⟨h₁, h₂, fun hne => ?_⟩
  obtain ⟨T, hT, hl, hn⟩ := h₃ hne
  have hd := Rep.depth_lt hl
  rw [hT.leavesUnder_eq hd, hT.nodesUnder_eq hd]
  exact ⟨hl, hn⟩

end Sys2Proof.Machine
end

