-- ==== Sys2Proof/Laws/Codes.lean ====
section
/-! SUPPORT. What CGEN makes of a tree: the code of each leaf is its path, the walk never runs out of depth on a tree
TBLD made, and TBLD's result depends on the table alone. -/

namespace Sys2Proof.Machine

open Sys2Proof Sys2Proof.Safety

/-! ### Bits appended to a code -/

theorem appendBit_getLsbD (bits : CodeBits) (b : Bool) (i : Nat) :
    (appendBit bits b).getLsbD i = if i = 0 then b else (decide (i < 255) && bits.getLsbD (i - 1)) := by
  unfold appendBit
  rw [BitVec.getLsbD_or, BitVec.getLsbD_shiftLeft, BitVec.getLsbD_setWidth]
  by_cases h : i = 0
  · subst h; simp
  · have : 1 ≤ i := by omega
    simp [h, this]

/-- The code field of a path holds its bits right-aligned, the first-emitted one highest (R49, R151). -/
theorem foldl_appendBit_getLsbD (p : List Bool) (bits : CodeBits) (i : Nat) :
    (p.foldl appendBit bits).getLsbD i =
      if h : i < p.length then decide (i < 255) && p[p.length - 1 - i]
      else decide (i < 255) && bits.getLsbD (i - p.length) := by
  induction p using List.reverseRecOn generalizing i with
  | nil =>
    by_cases h : i < 255
    · simp [h]
    · simp [h, BitVec.getLsbD_of_ge _ _ (Nat.le_of_not_lt h)]
  | append_singleton p b ih =>
    rw [List.foldl_append, List.foldl_cons, List.foldl_nil, appendBit_getLsbD, ih]
    by_cases h0 : i = 0
    · subst h0; simp
    · rw [if_neg h0]
      have e₁ : (i - 1 < p.length) ↔ i < (p ++ [b]).length := by simp; omega
      by_cases h1 : i < (p ++ [b]).length
      · have h2 := e₁.2 h1
        have e₃ : (p ++ [b]).length - 1 - i = p.length - 1 - (i - 1) := by simp; omega
        have e₄ : p.length - 1 - (i - 1) < p.length := by omega
        simp only [h1, h2, dif_pos, e₃, List.getElem_append_left e₄]
        by_cases h5 : i < 255
        · have : i - 1 < 255 := by omega
          simp [h5, this]
        · simp [h5]
      · have h2 : ¬ i - 1 < p.length := fun h => h1 (e₁.1 h)
        simp only [h1, h2, dif_neg, not_false_eq_true]
        have e₃ : i - (p ++ [b]).length = i - 1 - p.length := by simp; omega
        rw [e₃]
        by_cases h5 : i < 255
        · have : i - 1 < 255 := by omega
          simp [h5, this]
        · simp [h5]

/-! ### Paths -/

/-- The leaves of a tree, each with the bits of its path: 0 for left, 1 for right (R97). -/
def HTree.paths : HTree → List (Byte × List Bool)
  | .leaf s => [(s, [])]
  | .node _ l r => (l.paths.map fun e => (e.1, false :: e.2)) ++ r.paths.map fun e => (e.1, true :: e.2)

/-- The codes of a tree (R97): the paths, or "0" for the only leaf. -/
def HTree.codes : HTree → List (Byte × List Bool)
  | .leaf s => [(s, [false])]
  | .node k l r => (HTree.node k l r).paths

theorem HTree.paths_fst (T : HTree) : T.paths.map Prod.fst = T.leaves := by
  induction T with
  | leaf s => rfl
  | node k l r ihl ihr => simp [paths, leaves, ← ihl, ← ihr, Function.comp_def]

theorem HTree.codes_fst (T : HTree) : T.codes.map Prod.fst = T.leaves := by
  cases T with
  | leaf s => rfl
  | node k l r => exact HTree.paths_fst _

theorem HTree.paths_length_le {T : HTree} {e : Byte × List Bool} (h : e ∈ T.paths) : e.2.length ≤ T.depth := by
  induction T generalizing e with
  | leaf s => simp [paths] at h; simp [h]
  | node k l r ihl ihr =>
    simp only [paths, List.mem_append, List.mem_map] at h
    rcases h with ⟨e', h, rfl⟩ | ⟨e', h, rfl⟩
    · have := ihl h; simp only [depth, List.length_cons]; omega
    · have := ihr h; simp only [depth, List.length_cons]; omega

theorem HTree.codes_ne_nil {T : HTree} {e : Byte × List Bool} (h : e ∈ T.codes) : e.2 ≠ [] := by
  cases T with
  | leaf s => simp [codes] at h; simp [h]
  | node k l r =>
    simp only [codes, paths, List.mem_append, List.mem_map] at h
    rcases h with ⟨e', _, rfl⟩ | ⟨e', _, rfl⟩ <;> simp

theorem HTree.codes_length_le {T : HTree} (hd : T.depth ≤ 255) {e : Byte × List Bool} (h : e ∈ T.codes) :
    e.2.length ≤ 255 := by
  cases T with
  | leaf s => simp [codes] at h; simp [h]
  | node k l r => exact le_trans (HTree.paths_length_le h) hd

/-- The path of a leaf determines it: two paths of one tree, one the beginning of the other, are the same leaf's
(R153 (b)). -/
theorem HTree.paths_prefix {T : HTree} {e f : Byte × List Bool} (he : e ∈ T.paths) (hf : f ∈ T.paths)
    (h : e.2 <+: f.2) : e = f := by
  induction T generalizing e f with
  | leaf s => simp [paths] at he hf; rw [he, hf]
  | node k l r ihl ihr =>
    simp only [paths, List.mem_append, List.mem_map] at he hf
    rcases he with ⟨e', he, rfl⟩ | ⟨e', he, rfl⟩ <;> rcases hf with ⟨f', hf, rfl⟩ | ⟨f', hf, rfl⟩
    · simp only [List.cons_prefix_cons, true_and] at h; rw [ihl he hf h]
    · simp at h
    · simp at h
    · simp only [List.cons_prefix_cons, true_and] at h; rw [ihr he hf h]

/-! ### Assigning the codes -/

theorem assign_len_same (ct : CodeTable) (s : Byte) (len : Nat) (bits : CodeBits) :
    (ct.assign s len bits).len s = BitVec.ofNat 8 len := by simp [CodeTable.assign, CodeTable.len]

theorem assign_bits_same (ct : CodeTable) (s : Byte) (len : Nat) (bits : CodeBits) :
    (ct.assign s len bits).bits s = bits := by simp [CodeTable.assign, CodeTable.bits]

theorem assign_len_other (ct : CodeTable) {s s' : Byte} (h : s' ≠ s) (len : Nat) (bits : CodeBits) :
    (ct.assign s len bits).len s' = ct.len s' := by
  have : s.toNat ≠ s'.toNat := fun e => h (BitVec.eq_of_toNat_eq e.symm)
  simp [CodeTable.assign, CodeTable.len, this]

theorem assign_bits_other (ct : CodeTable) {s s' : Byte} (h : s' ≠ s) (len : Nat) (bits : CodeBits) :
    (ct.assign s len bits).bits s' = ct.bits s' := by
  have : s.toNat ≠ s'.toNat := fun e => h (BitVec.eq_of_toNat_eq e.symm)
  simp [CodeTable.assign, CodeTable.bits, this]

/-- Assign to each leaf of a list the code `pre` followed by its path. -/
def assignAll (pre : List Bool) (l : List (Byte × List Bool)) (ct : CodeTable) : CodeTable :=
  l.foldl (fun ct e => ct.assign e.1 (pre ++ e.2).length ((pre ++ e.2).foldl appendBit 0#255)) ct

theorem assignAll_append (pre : List Bool) (l m : List (Byte × List Bool)) (ct : CodeTable) :
    assignAll pre (l ++ m) ct = assignAll pre m (assignAll pre l ct) := by simp [assignAll]

theorem assignAll_map (pre : List Bool) (b : Bool) (l : List (Byte × List Bool)) (ct : CodeTable) :
    assignAll pre (l.map fun e => (e.1, b :: e.2)) ct = assignAll (pre ++ [b]) l ct := by
  simp [assignAll, List.foldl_map]

/-- CGEN's walk assigns every leaf its path (R152). -/
theorem Rep.walk_eq {t : Tree} {h : Handle} {T : HTree} (hT : Rep t h T) {fuel : Nat} (hf : T.depth < fuel)
    (pre : List Bool) (ct : CodeTable) :
    walk t fuel h pre.length (pre.foldl appendBit 0#255) ct = some (assignAll pre T.paths ct) := by
  induction hT generalizing fuel pre ct with
  | leaf s =>
    obtain ⟨fuel, rfl⟩ := Nat.exists_eq_succ_of_ne_zero (by omega : fuel ≠ 0)
    simp [walk, assignAll, HTree.paths]
  | node k l r _ _ _ ihl ihr =>
    obtain ⟨fuel, rfl⟩ := Nat.exists_eq_succ_of_ne_zero (by omega : fuel ≠ 0)
    simp only [HTree.depth] at hf
    have e : ∀ b, appendBit (pre.foldl appendBit 0#255) b = (pre ++ [b]).foldl appendBit 0#255 := by simp
    have e' : ∀ b : Bool, pre.length + 1 = (pre ++ [b]).length := by simp
    rw [walk, if_neg (by simp), left_nodeHandle, right_nodeHandle, e, e' false, ihl (by omega : l.depth < fuel)]
    simp only [Option.bind_some]
    rw [e, ← e' false, e' true, ihr (by omega : r.depth < fuel), HTree.paths, assignAll_append, assignAll_map,
      assignAll_map]

/-- What a symbol's code is after assigning a list without repeats: unchanged if it is not listed. -/
theorem assignAll_other (pre : List Bool) {l : List (Byte × List Bool)} {s : Byte} (h : s ∉ l.map Prod.fst)
    (ct : CodeTable) : (assignAll pre l ct).len s = ct.len s ∧ (assignAll pre l ct).bits s = ct.bits s := by
  induction l generalizing ct with
  | nil => simp [assignAll]
  | cons e l ih =>
    simp only [List.map_cons, List.mem_cons, not_or] at h
    have := ih h.2 (ct.assign e.1 (pre ++ e.2).length ((pre ++ e.2).foldl appendBit 0#255))
    rw [assign_len_other _ h.1, assign_bits_other _ h.1] at this
    exact this

/-- And the listed code if it is. -/
theorem assignAll_listed (pre : List Bool) {l : List (Byte × List Bool)} (hl : (l.map Prod.fst).Nodup)
    {e : Byte × List Bool} (h : e ∈ l) (ct : CodeTable) :
    (assignAll pre l ct).len e.1 = BitVec.ofNat 8 (pre ++ e.2).length ∧
      (assignAll pre l ct).bits e.1 = (pre ++ e.2).foldl appendBit 0#255 := by
  induction l generalizing ct with
  | nil => cases h
  | cons x l ih =>
    rw [List.map_cons, List.nodup_cons] at hl
    rcases List.mem_cons.1 h with rfl | h
    · have := assignAll_other pre hl.1 (ct.assign e.1 (pre ++ e.2).length ((pre ++ e.2).foldl appendBit 0#255))
      rw [assign_len_same, assign_bits_same] at this
      exact this
    · exact ih hl.2 h _

@[simp] theorem zero_len (s : Byte) : CodeTable.zero.len s = 0#8 := by simp [CodeTable.zero, CodeTable.len]
@[simp] theorem zero_bits (s : Byte) : CodeTable.zero.bits s = 0#255 := by simp [CodeTable.zero, CodeTable.bits]

/-- A symbol with CLEN = L ≤ 255 and the code field of a path of that length has that path as its code (R49). -/
theorem codeBits_of_path {ct : CodeTable} {s : Byte} {p : List Bool} (hp : p.length ≤ 255)
    (hl : ct.len s = BitVec.ofNat 8 p.length) (hb : ct.bits s = p.foldl appendBit 0#255) : codeBits ct s = p := by
  have hL : (ct.len s).toNat = p.length := by rw [hl, BitVec.toNat_ofNat]; omega
  unfold codeBits
  rw [hL, hb]
  apply List.ext_getElem
  · simp
  · intro i h₁ h₂
    have h₃ : p.length - 1 - i < p.length := by omega
    have h₄ : p.length - 1 - i < 255 := by omega
    have h₅ : p.length - 1 - (p.length - 1 - i) = i := by omega
    simp [foldl_appendBit_getLsbD, h₃, h₄, h₅]

/-- The code table of a tree: every leaf has its code, no other symbol has one (R152, R153). -/
structure CodesTree (ct : CodeTable) (T : HTree) : Prop where
  code : ∀ e ∈ T.codes, codeBits ct e.1 = e.2
  len : ∀ e ∈ T.codes, (ct.len e.1).toNat = e.2.length
  bits : ∀ e ∈ T.codes, ct.bits e.1 = e.2.foldl appendBit 0#255
  absent : ∀ s, s ∉ T.leaves → ct.len s = 0#8 ∧ ct.bits s = 0#255

/-- CGEN on a tree of at most 256 different leaves answers its code table (R152). -/
theorem Rep.codesOf_eq {t : Tree} {T : HTree} (hne : t.nonempty = true) (hT : Rep t t.root T) (hd : T.depth < 256)
    (hn : T.leaves.Nodup) : ∃ ct, codesOf t = some ct ∧ CodesTree ct T := by
  have key : ∀ (l : List (Byte × List Bool)), (l.map Prod.fst).Nodup → (∀ e ∈ l, e.2.length ≤ 255) →
      l.map Prod.fst = T.leaves → T.codes = l → CodesTree (assignAll [] l CodeTable.zero) T := by
    intro l hl hlen hfst hc
    refine ⟨?_, ?_, ?_, ?_⟩
    · intro e he
      rw [hc] at he
      have := assignAll_listed [] hl he CodeTable.zero
      exact codeBits_of_path (hlen e he) this.1 this.2
    · intro e he
      rw [hc] at he
      have := hlen e he
      rw [(assignAll_listed [] hl he CodeTable.zero).1, BitVec.toNat_ofNat, List.nil_append]
      omega
    · intro e he
      rw [hc] at he
      exact (assignAll_listed [] hl he CodeTable.zero).2
    · intro s hs
      rw [← hfst] at hs
      have := assignAll_other [] hs CodeTable.zero
      simpa using this
  cases T with
  | leaf s =>
    generalize e : t.root = h at hT
    cases hT with
    | leaf s =>
      refine ⟨CodeTable.zero.assign s 1 0#255, ?_, ?_⟩
      · simp [codesOf, hne, e]
      · have := key [(s, [false])] (by simp) (by simp) rfl rfl
        have e2 : appendBit 0#255 false = 0#255 := by decide
        simpa [assignAll, e2] using this
  | node k l r =>
    refine ⟨assignAll [] (HTree.node k l r).paths CodeTable.zero, ?_, ?_⟩
    · have hleaf : isLeaf t.root = false := by
        generalize t.root = h at hT
        cases hT with
        | node => simp
      have := hT.walk_eq (fuel := walkFuel) hd [] CodeTable.zero
      simp only [List.length_nil, List.foldl_nil] at this
      simp [codesOf, hne, hleaf, this]
    · refine key _ (by rw [HTree.paths_fst]; exact hn) (fun e he => ?_) (HTree.paths_fst _) rfl
      exact le_trans (HTree.paths_length_le he) (by omega)

/-- Every tree that is as TBLD leaves it stands for a tree under ROOT, and CGEN's walk on it comes to its end. -/
theorem treeOk_rep {ft : FreqTable} {t : Tree} (h : TreeOk ft t) (hne : t.nonempty = true) :
    ∃ T, Rep t t.root T ∧ T.leaves.Perm (presentSymbols ft) := by
  have build : ∀ n (c : Handle), (if isLeaf c then 0 else (lowByte c).toNat + 1) ≤ n →
      (isLeaf c = false → lowByte c < t.nint) → ∃ T, Rep t c T ∧ T.depth ≤ n := by
    intro n
    induction n with
    | zero =>
      intro c hc _
      by_cases hl : isLeaf c = true
      · exact ⟨.leaf (lowByte c), by simpa [leafHandle_lowByte hl] using Rep.leaf (t := t) (lowByte c), by
          simp [HTree.depth]⟩
      · simp [hl] at hc
    | succ n ih =>
      intro c hc hn
      by_cases hl : isLeaf c = true
      · exact ⟨.leaf (lowByte c), by simpa [leafHandle_lowByte hl] using Rep.leaf (t := t) (lowByte c), by
          simp [HTree.depth]⟩
      · have hl' : isLeaf c = false := by simpa using hl
        have hk := hn hl'
        have he := h.entries _ hk
        simp only [hl', Bool.false_eq_true, if_false] at hc
        have sub : ∀ d, Names ft (lowByte c).toNat d → ∃ T, Rep t d T ∧ T.depth ≤ n := by
          intro d hd
          unfold Names at hd
          refine ih d ?_ ?_
          · split at hd <;> (simp_all; try omega)
          · intro hd'
            rw [hd'] at hd
            simp only [Bool.false_eq_true, if_false] at hd
            have := BitVec.lt_def.1 hk
            exact BitVec.lt_def.2 (by omega)
        obtain ⟨L, hL, hLd⟩ := sub _ he.1
        obtain ⟨R, hR, hRd⟩ := sub _ he.2.1
        refine ⟨.node (lowByte c) L R, ?_, by simp only [HTree.depth]; omega⟩
        have := Rep.node (t := t) (lowByte c) L R hk hL hR
        rwa [nodeHandle_lowByte hl'] at this
  have hroot : isLeaf t.root = false → lowByte t.root < t.nint := by
    intro hl
    have hr := h.root
    unfold RootOk at hr
    split at hr
    · rw [hr.1] at hne; cases hne
    · obtain ⟨_, _, hr⟩ := hr
      split at hr
      · obtain ⟨s, hs, _⟩ := hr
        rw [hs] at hl; simp at hl
      · next hn0 =>
        rw [hr, lowByte_nodeHandle, BitVec.lt_def, BitVec.toNat_sub]
        have : (1#8).toNat = 1 := rfl
        have h0 : t.nint.toNat ≠ 0 := fun e => hn0 (BitVec.eq_of_toNat_eq e)
        have := t.nint.isLt
        omega
  obtain ⟨T, hT, hd⟩ := build 255 t.root (by
    split
    · omega
    · next hl =>
      have h₁ := hroot (by simpa using hl)
      have h₁ := BitVec.lt_def.1 h₁
      have h₂ := h.root
      unfold RootOk at h₂
      split at h₂
      · rw [h₂.1] at hne; cases hne
      · have h₃ := presentSymbols_length_le ft
        have := h₂.2.1
        omega) hroot
  refine ⟨T, hT, ?_⟩
  have := (h.shape hne).1
  rwa [hT.leavesUnder_eq (by omega)] at this

/-- CGEN on a tree as TBLD leaves it (R152, R153). -/
theorem treeOk_codesOf {ft : FreqTable} {t : Tree} (h : TreeOk ft t) (hne : t.nonempty = true) :
    ∃ T ct, Rep t t.root T ∧ T.leaves.Perm (presentSymbols ft) ∧ codesOf t = some ct ∧ CodesTree ct T := by
  obtain ⟨T, hT, hl⟩ := treeOk_rep h hne
  obtain ⟨ct, h₁, h₂⟩ := hT.codesOf_eq hne (Rep.depth_lt hl) (hl.nodup_iff.2 (presentSymbols_nodup ft))
  exact ⟨T, ct, hT, hl, h₁, h₂⟩

/-- CGEN's walk comes to its end on every tree as TBLD leaves it, the empty one too. -/
theorem treeOk_codesOf_isSome {ft : FreqTable} {t : Tree} (h : TreeOk ft t) : ∃ ct, codesOf t = some ct := by
  by_cases hne : t.nonempty = true
  · obtain ⟨_, ct, _, _, h₁, _⟩ := treeOk_codesOf h hne
    exact ⟨ct, h₁⟩
  · exact ⟨CodeTable.zero, by simp [codesOf, hne]⟩

end Sys2Proof.Machine
end

