-- ==== Sys2Proof/Laws/Packer.lean ====
section
/-! SUPPORT. What the output primitives do: bytes appended to OBUF, bits pushed through the packer. -/

namespace Sys2Proof.Machine

open Sys2Proof Sys2Proof.Safety

/-! ### Slices of OBUF -/

theorem obufSlice_length (s : State) (a b : Nat) : (obufSlice s a b).length = b - a := by simp [obufSlice]

theorem obufSlice_self (s : State) (a : Nat) : obufSlice s a a = [] := by simp [obufSlice]

theorem obufSlice_congr {s t : State} {a b : Nat} (h : ∀ i, a ≤ i → i < b → t.obufByte i = s.obufByte i) :
    obufSlice t a b = obufSlice s a b := by
  unfold obufSlice
  refine List.map_congr_left fun i hi => h _ (by omega) ?_
  rw [List.mem_range] at hi
  omega

theorem obufSlice_snoc (s : State) {a b : Nat} (h : a ≤ b) :
    obufSlice s a (b + 1) = obufSlice s a b ++ [s.obufByte b] := by
  have e : b + 1 - a = (b - a) + 1 := by omega
  have e' : a + (b - a) = b := by omega
  rw [obufSlice, e, List.range_succ, List.map_append, obufSlice]
  simp [e']

theorem obufSlice_append (s : State) {a b c : Nat} (h₁ : a ≤ b) (h₂ : b ≤ c) :
    obufSlice s a c = obufSlice s a b ++ obufSlice s b c := by
  obtain ⟨n, rfl⟩ := Nat.exists_eq_add_of_le h₂
  induction n with
  | zero => simp [obufSlice_self]
  | succ n ih =>
    rw [← Nat.add_assoc, obufSlice_snoc s (by omega), obufSlice_snoc s (by omega), ih (by omega), List.append_assoc]

/-! ### What an output body may change -/

/-- From `s` to `t` only the packer, OBUF and OUT_LEN changed, and of OBUF only the bytes from the old OUT_LEN up to
the new one. -/
structure Appended (s t : State) : Prop where
  only : t = ((s.setPacker t.packer).setObuf t.obuf).setOutLen t.outLen
  grows : s.outLen.toNat ≤ t.outLen.toNat
  outside : ∀ a, a < s.outLen.toNat ∨ t.outLen.toNat ≤ a → t.obufByte a = s.obufByte a

theorem Appended.refl (s : State) : Appended s s := ⟨rfl, le_refl _, fun _ _ => rfl⟩

theorem Appended.trans {s t u : State} (h₁ : Appended s t) (h₂ : Appended t u) : Appended s u := by
  refine ⟨?_, le_trans h₁.grows h₂.grows, fun a ha => ?_⟩
  · have e₁ := h₁.only
    have e₂ := h₂.only
    rw [e₁] at e₂
    exact e₂
  · have g₁ := h₁.grows
    have g₂ := h₂.grows
    rw [h₂.outside a (by omega), h₁.outside a (by omega)]

theorem Appended.packer (s : State) (p : Packer) : Appended s (s.setPacker p) := ⟨rfl, le_refl _, fun _ _ => rfl⟩

theorem Appended.appendByte {s : State} (h : s.outLen < s.params.obufSize) (v : Byte) :
    Appended s (appendByte v s) := by
  refine ⟨rfl, by rw [appendByte_outLen_toNat h]; omega, fun a ha => ?_⟩
  rw [appendByte_outLen_toNat h] at ha
  exact appendByte_obufByte_other v s (by omega)

/-- The fields an output body leaves alone. -/
theorem Appended.fields {s t : State} (h : Appended s t) :
    t.params = s.params ∧ t.status = s.status ∧ t.errCode = s.errCode ∧ t.errInfo = s.errInfo ∧ t.ctrl = s.ctrl ∧
      t.inLen = s.inLen ∧ t.inPtr = s.inPtr ∧ t.table = s.table ∧ t.tree = s.tree ∧ t.code = s.code ∧
      t.unpacker = s.unpacker ∧ t.csel = s.csel ∧ t.nsel = s.nsel ∧ t.ibuf = s.ibuf ∧ t.inbox = s.inbox ∧
      t.hostData = s.hostData ∧ t.freeCtr = s.freeCtr := by
  have e := h.only
  generalize t.packer = p at e
  generalize t.obuf = o at e
  generalize t.outLen = l at e
  subst e
  exact ⟨rfl, rfl, rfl, rfl, rfl, rfl, rfl, rfl, rfl, rfl, rfl, rfl, rfl, rfl, rfl, rfl, rfl⟩

theorem obufSlice_appendByte {s : State} (h : s.outLen < s.params.obufSize) (v : Byte) {p : Nat}
    (hp : p ≤ s.outLen.toNat) :
    obufSlice (appendByte v s) p (appendByte v s).outLen.toNat = obufSlice s p s.outLen.toNat ++ [v] := by
  rw [appendByte_outLen_toNat h, obufSlice_snoc _ hp, appendByte_obufByte_same,
    obufSlice_congr fun i _ hi => appendByte_obufByte_other v s (by omega)]

/-- OutByte of a list with room for it appends the list (R71). -/
theorem outBytes_spec (vs : List Byte) {s : State} (h : s.outLen.toNat + vs.length ≤ s.params.obufSize.toNat) :
    ∃ t, outBytes vs s = .done t ∧ Appended s t ∧ t.packer = s.packer ∧
      t.outLen.toNat = s.outLen.toNat + vs.length ∧
      ∀ p, p ≤ s.outLen.toNat → obufSlice t p t.outLen.toNat = obufSlice s p s.outLen.toNat ++ vs := by
  induction vs generalizing s with
  | nil => exact ⟨s, rfl, Appended.refl s, rfl, rfl, fun p _ => by simp⟩
  | cons v vs ih =>
    rw [List.length_cons] at h
    have hr : s.outLen < s.params.obufSize := BitVec.lt_def.2 (by omega)
    have hl := appendByte_outLen_toNat hr v
    obtain ⟨t, h₁, h₂, h₃, h₄, h₅⟩ := ih (s := appendByte v s) (by
      rw [hl]; show _ ≤ s.params.obufSize.toNat; omega)
    refine ⟨t, ?_, (Appended.appendByte hr v).trans h₂, h₃, by rw [h₄, hl, List.length_cons]; omega, fun p hp => ?_⟩
    · rw [outBytes, outByte_room hr, Ran.andThen_done, h₁]
    · rw [h₅ p (by omega), obufSlice_appendByte hr v hp]; simp

theorem outBytes_append (vs ws : List Byte) (s : State) :
    outBytes (vs ++ ws) s = (outBytes vs s).andThen (outBytes ws) := by
  induction vs generalizing s with
  | nil => rfl
  | cons v vs ih =>
    rw [List.cons_append, outBytes, outBytes, Ran.andThen_assoc]
    congr 1
    funext s
    exact ih s

/-! ### Bits -/

theorem byteBits_length (b : Byte) : (byteBits b).length = 8 := by simp [byteBits]

theorem flatMap_byteBits_length (bs : List Byte) : (bs.flatMap byteBits).length = 8 * bs.length := by
  induction bs with
  | nil => rfl
  | cons b bs ih => rw [List.flatMap_cons, List.length_append, ih, byteBits_length, List.length_cons]; omega

theorem pendingBits_eq (p : Packer) :
    pendingBits p = (List.range p.nb.toNat).map fun i => p.acc.getLsbD (7 - i) := by
  have := p.nb.isLt
  rw [pendingBits, byteBits, ← List.map_take, List.take_range, Nat.min_eq_left (by omega)]

theorem pendingBits_length (p : Packer) : (pendingBits p).length = p.nb.toNat := by simp [pendingBits_eq]

/-- R51's invariant, bit by bit. -/
theorem packerOk_iff (p : Packer) : PackerOk p ↔ ∀ i, i < 8 - p.nb.toNat → p.acc.getLsbD i = false := by
  unfold PackerOk
  constructor
  · intro h i hi
    have := congrArg (fun x => Nat.testBit x i) h
    simp only [Nat.testBit_mod_two_pow, hi, decide_true, Bool.true_and, Nat.zero_testBit] at this
    exact this
  · intro h
    apply Nat.eq_of_testBit_eq
    intro i
    rw [Nat.testBit_mod_two_pow, Nat.zero_testBit]
    by_cases hi : i < 8 - p.nb.toNat
    · have := h i hi
      simp only [hi, decide_true, Bool.true_and]
      exact this
    · simp [hi]

theorem packerOk_empty : PackerOk ⟨0#8, 0#3⟩ := by simp [PackerOk]

theorem bitByte_getLsbD (b : Bool) (i : Nat) : (bitByte b).getLsbD i = (decide (i = 0) && b) := by
  unfold bitByte
  by_cases h : i = 0
  · subst h; simp
  · cases b <;> simp [h]

theorem shifted_getLsbD (b : Bool) (k i : Nat) (hk : k < 8) :
    (bitByte b <<< k).getLsbD i = (decide (i = k) && b) := by
  rw [BitVec.getLsbD_shiftLeft, bitByte_getLsbD]
  by_cases h : i = k
  · subst h; simp [hk]
  · by_cases h' : i < k
    · simp [h', h]
    · have : i - k ≠ 0 := by omega
      simp [h, this]

/-- PushBit with room puts the bit at the end of the stream (R64, R167). -/
theorem pushBit_spec (b : Bool) {s : State} (hp : PackerOk s.packer)
    (hr : RoomForBits 1 s) :
    ∃ t, pushBit b s = .done t ∧ Appended s t ∧ PackerOk t.packer ∧
      8 * t.outLen.toNat + t.packer.nb.toNat = 8 * s.outLen.toNat + s.packer.nb.toNat + 1 ∧
      ∀ p, p ≤ s.outLen.toNat → streamFrom p t = streamFrom p s ++ [b] := by
  rw [packerOk_iff] at hp
  have hnb := s.packer.nb.isLt
  by_cases h7 : s.packer.nb = 7#3
  · have h7' : s.packer.nb.toNat = 7 := by rw [h7]; rfl
    have hroom : s.outLen < s.params.obufSize := by
      have := hr (by omega)
      rw [BitVec.lt_def]; omega
    have hl := appendByte_outLen_toNat hroom (s.packer.acc ||| bitByte b)
    refine ⟨emptyPacker (appendByte (s.packer.acc ||| bitByte b) s), ?_, ?_, packerOk_empty, ?_, fun p hpp => ?_⟩
    · rw [pushBit, if_pos h7, outByte_room hroom]; rfl
    · exact (Appended.appendByte hroom _).trans (Appended.packer _ _)
    · show 8 * (appendByte (s.packer.acc ||| bitByte b) s).outLen.toNat + 0 = _
      omega
    · have e : (obufSlice (emptyPacker (appendByte (s.packer.acc ||| bitByte b) s)) p
          (emptyPacker (appendByte (s.packer.acc ||| bitByte b) s)).outLen.toNat) =
          obufSlice s p s.outLen.toNat ++ [s.packer.acc ||| bitByte b] := obufSlice_appendByte hroom _ hpp
      unfold streamFrom
      rw [e, List.flatMap_append, pendingBits_eq, pendingBits_eq, h7']
      have e0 : (emptyPacker (appendByte (s.packer.acc ||| bitByte b) s)).packer.nb.toNat = 0 := rfl
      have h0 := hp 0 (by omega)
      have e1 : byteBits (s.packer.acc ||| bitByte b) =
          ((List.range 7).map fun i => s.packer.acc.getLsbD (7 - i)) ++ [b] := by
        rw [byteBits, List.range_succ, List.map_append, List.map_singleton, BitVec.getLsbD_or, bitByte_getLsbD, h0]
        simp only [Nat.sub_self, decide_true, Bool.true_and, Bool.false_or]
        congr 1
        refine List.map_congr_left fun i hi => ?_
        rw [List.mem_range] at hi
        have : ¬7 - i = 0 := by omega
        simp [BitVec.getLsbD_or, bitByte_getLsbD, this]
      rw [e0, List.flatMap_cons, List.flatMap_nil, e1]
      simp
  · have h7' : s.packer.nb.toNat ≠ 7 := fun e => h7 (BitVec.eq_of_toNat_eq e)
    have hn : (s.packer.nb + 1#3).toNat = s.packer.nb.toNat + 1 := by
      have : (1#3).toNat = 1 := rfl
      rw [BitVec.toNat_add, this]; omega
    refine ⟨s.setPacker ⟨s.packer.acc ||| (bitByte b <<< (7 - s.packer.nb.toNat)), s.packer.nb + 1#3⟩, ?_, ?_, ?_, ?_,
      fun p hpp => ?_⟩
    · rw [pushBit, if_neg h7]
    · exact Appended.packer _ _
    · rw [packerOk_iff]
      intro i hi
      simp only [State.setPacker_packer, hn] at hi ⊢
      rw [BitVec.getLsbD_or, shifted_getLsbD _ _ _ (by omega), hp i (by omega)]
      have : ¬i = 7 - s.packer.nb.toNat := by omega
      simp [this]
    · simp only [State.setPacker_packer, State.setPacker_outLen, hn]; omega
    · unfold streamFrom
      rw [pendingBits_eq, pendingBits_eq, List.append_assoc]
      simp only [State.setPacker_packer, State.setPacker_outLen, hn]
      congr 1
      rw [List.range_succ, List.map_append, List.map_singleton, BitVec.getLsbD_or, shifted_getLsbD _ _ _ (by omega),
        hp _ (by omega)]
      congr 1
      · refine List.map_congr_left fun i hi => ?_
        rw [List.mem_range] at hi
        rw [BitVec.getLsbD_or, shifted_getLsbD _ _ _ (by omega)]
        have : ¬7 - i = 7 - s.packer.nb.toNat := by omega
        simp [this]
      · simp

/-- PushBit for each bit of a list, in order. -/
def pushBits : List Bool → State → Ran
  | [], s => .done s
  | b :: bs, s => (pushBit b s).andThen (pushBits bs)

theorem pushBits_append (bs cs : List Bool) (s : State) :
    pushBits (bs ++ cs) s = (pushBits bs s).andThen (pushBits cs) := by
  induction bs generalizing s with
  | nil => rfl
  | cons b bs ih =>
    rw [List.cons_append, pushBits, pushBits, Ran.andThen_assoc]
    congr 1
    funext s
    exact ih s

/-- Pushing a list of bits with room for it appends it to the stream (R173). -/
theorem pushBits_spec (bs : List Bool) {s : State} (hp : PackerOk s.packer)
    (hr : RoomForBits bs.length s) :
    ∃ t, pushBits bs s = .done t ∧ Appended s t ∧ PackerOk t.packer ∧
      8 * t.outLen.toNat + t.packer.nb.toNat = 8 * s.outLen.toNat + s.packer.nb.toNat + bs.length ∧
      ∀ p, p ≤ s.outLen.toNat → streamFrom p t = streamFrom p s ++ bs := by
  induction bs generalizing s with
  | nil => exact ⟨s, rfl, Appended.refl s, hp, rfl, fun p _ => by simp⟩
  | cons b bs ih =>
    rw [List.length_cons] at hr
    have hnb := s.packer.nb.isLt
    obtain ⟨u, h₁, h₂, h₃, h₄, h₅⟩ := pushBit_spec b hp fun h => by have := hr (by omega); omega
    have hpar : u.params = s.params := h₂.fields.1
    have hunb := u.packer.nb.isLt
    obtain ⟨t, k₁, k₂, k₃, k₄, k₅⟩ := ih h₃ fun h => by
      have := hr (by omega)
      rw [hpar]; omega
    refine ⟨t, ?_, h₂.trans k₂, k₃, by rw [k₄, h₄, List.length_cons]; omega, fun p hpp => ?_⟩
    · rw [pushBits, h₁, Ran.andThen_done, k₁]
    · rw [k₅ p (le_trans hpp h₂.grows), h₅ p hpp, List.append_assoc]; rfl

/-- The bits PushCode sends are the code of the symbol in emission order (R49, R170). -/
theorem pushCodeBits_eq (bits : CodeBits) (l : Nat) (s : State) :
    pushCodeBits bits l s = pushBits ((List.range l).map fun i => bits.getLsbD (l - 1 - i)) s := by
  induction l generalizing s with
  | zero => rfl
  | succ l ih =>
    rw [pushCodeBits, List.range_succ_eq_map, List.map_cons, List.map_map, pushBits]
    have e : bits.getLsbD (l + 1 - 1 - 0) = bits.getLsbD l := by simp
    rw [e]
    congr 1
    funext s
    rw [ih]
    congr 1
    refine List.map_congr_left fun i _ => ?_
    simp only [Function.comp]
    congr 1
    omega

theorem pushCode_eq {s : State} {sym : Byte} (h : s.code.len sym ≠ 0#8) :
    pushCode sym s = pushBits (codeBits s.code sym) s := by
  rw [pushCode, if_neg h, pushCodeBits_eq]; rfl

theorem pushCode_noCode {s : State} {sym : Byte} (h : s.code.len sym = 0#8) :
    pushCode sym s = .raised ⟨.noCode, sym.setWidth 32⟩ s := by rw [pushCode, if_pos h]

/-- PACK's loop with room for the payload of the bytes it reads (R96, R171, R173): every byte has a code, the codes
are appended in address order, IN_PTR ends past the bytes. -/
theorem packBytes_spec (n : Nat) {s : State} (hp : PackerOk s.packer) (hin : s.inPtr.toNat + n < 2 ^ 32)
    (hc : ∀ b ∈ ibufSlice s s.inPtr.toNat (s.inPtr.toNat + n), s.code.len b ≠ 0#8)
    (hr : RoomForBits (payloadBits s.code (ibufSlice s s.inPtr.toNat (s.inPtr.toNat + n))).length s) :
    ∃ t, packBytes n s = .done t ∧ Appended (s.setInPtr (BitVec.ofNat 32 (s.inPtr.toNat + n))) t ∧
      PackerOk t.packer ∧
      8 * t.outLen.toNat + t.packer.nb.toNat = 8 * s.outLen.toNat + s.packer.nb.toNat +
        (payloadBits s.code (ibufSlice s s.inPtr.toNat (s.inPtr.toNat + n))).length ∧
      ∀ p, p ≤ s.outLen.toNat →
        streamFrom p t = streamFrom p s ++ payloadBits s.code (ibufSlice s s.inPtr.toNat (s.inPtr.toNat + n)) := by
  induction n generalizing s with
  | zero =>
    refine ⟨s, rfl, ?_, hp, by simp [ibufSlice_self, payloadBits], fun p _ => by simp [ibufSlice_self, payloadBits]⟩
    have : s.setInPtr (BitVec.ofNat 32 (s.inPtr.toNat + 0)) = s := by simp [State.setInPtr]
    rw [this]
    exact Appended.refl s
  | succ n ih =>
    have hip : (s.inPtr + 1#32).toNat = s.inPtr.toNat + 1 :=
      word_add_one_toNat (n := 2 ^ 32 - 1) (by omega) (by decide)
    have hs := ibufSlice_cons s (by omega : s.inPtr.toNat < s.inPtr.toNat + (n + 1))
    rw [hs] at hc hr
    have hb : inByte s = s.ibufByte s.inPtr.toNat := rfl
    have hpl : payloadBits s.code (s.ibufByte s.inPtr.toNat :: ibufSlice s (s.inPtr.toNat + 1) (s.inPtr.toNat + (n + 1)))
        = codeBits s.code (s.ibufByte s.inPtr.toNat) ++
          payloadBits s.code (ibufSlice s (s.inPtr.toNat + 1) (s.inPtr.toNat + (n + 1))) := rfl
    rw [hpl, List.length_append] at hr
    have hcode : (pastByte s).code.len (inByte s) ≠ 0#8 := hc _ (List.mem_cons_self ..)
    obtain ⟨u, h₁, h₂, h₃, h₄, h₅⟩ := pushBits_spec (codeBits s.code (s.ibufByte s.inPtr.toNat)) (s := pastByte s) hp
      (fun h => by
        show s.outLen.toNat + (s.packer.nb.toNat + _) / 8 ≤ s.params.obufSize.toNat
        have h : 8 ≤ s.packer.nb.toNat + (codeBits s.code (s.ibufByte s.inPtr.toNat)).length := h
        have := hr (by omega)
        omega)
    have hf := h₂.fields
    have hcode' : u.code = s.code := hf.2.2.2.2.2.2.2.2.2.1
    have hptr : u.inPtr.toNat = s.inPtr.toNat + 1 := by rw [hf.2.2.2.2.2.2.1]; exact hip
    have hibuf : u.ibuf = s.ibuf := hf.2.2.2.2.2.2.2.2.2.2.2.2.2.1
    have hpar : u.params = s.params := hf.1
    have hunb := u.packer.nb.isLt
    have hnb := s.packer.nb.isLt
    have e : s.inPtr.toNat + 1 + n = s.inPtr.toNat + (n + 1) := by omega
    have hsl : ibufSlice u u.inPtr.toNat (u.inPtr.toNat + n) =
        ibufSlice s (s.inPtr.toNat + 1) (s.inPtr.toNat + (n + 1)) := by
      rw [hptr, e]; exact ibufSlice_congr hibuf _ _
    have h₄' : 8 * u.outLen.toNat + u.packer.nb.toNat = 8 * s.outLen.toNat + s.packer.nb.toNat +
        (codeBits s.code (s.ibufByte s.inPtr.toNat)).length := h₄
    obtain ⟨t, k₁, k₂, k₃, k₄, k₅⟩ := ih (s := u) h₃ (by omega)
      (by rw [hsl, hcode']; exact fun b hb => hc b (List.mem_cons_of_mem _ hb))
      (by
        rw [hsl, hcode']
        intro h
        have := hr (by omega)
        rw [hpar]; omega)
    rw [hsl, hcode'] at k₄ k₅
    rw [hs, hpl, List.length_append]
    refine ⟨t, ?_, ?_, k₃, by rw [k₄, h₄']; omega, fun p hpp => ?_⟩
    · rw [packBytes, pushCode_eq hcode]
      show (pushBits (codeBits s.code (s.ibufByte s.inPtr.toNat)) (pastByte s)).andThen (packBytes n) = _
      rw [h₁, Ran.andThen_done, k₁]
    · rw [hptr, e] at k₂
      refine Appended.trans ?_ k₂
      refine ⟨?_, h₂.grows, fun a ha => h₂.outside a ha⟩
      have := h₂.only
      rw [this]
      rfl
    · rw [k₅ p (le_trans hpp h₂.grows), h₅ p hpp, List.append_assoc]
      rfl

end Sys2Proof.Machine
end

