-- ==== Sys2Proof/Laws/Container.lean ====
section
/-! SUPPORT. What HPUT writes and what HGET reads. -/

namespace Sys2Proof.Machine

open Sys2Proof Sys2Proof.Safety

/-! ### Writing the header -/

theorem putEntries_eq (es : List (Byte × Word)) (s : State) :
    putEntries es s = outBytes (es.flatMap fun e => e.1 :: bigEndian 4 e.2) s := by
  induction es generalizing s with
  | nil => rfl
  | cons e es ih =>
    rw [putEntries, List.flatMap_cons, List.cons_append, outBytes]
    congr 1
    funext s
    rw [outBytes_append, putInt]
    congr 1
    funext s
    exact ih s

theorem outBytes_table {vs : List Byte} {s t : State} (h : outBytes vs s = .done t) : t.table = s.table := by
  induction vs generalizing s with
  | nil => simp [outBytes] at h; rw [h]
  | cons v vs ih =>
    rw [outBytes, Ran.andThen_eq_done] at h
    obtain ⟨c, hc, hb⟩ := h
    unfold outByte at hc
    split at hc
    · cases hc
    · cases hc; rw [ih hb]; rfl

/-- HPUT writes the header bytes from OBUF[0] on, with the packer emptied (R210). -/
theorem bodyHput_eq (s : State) : bodyHput s = outBytes (headerBytes s.table) (emptyPacker (s.setOutLen 0#32)) := by
  rw [headerBytes, List.append_assoc, List.append_assoc, outBytes_append, bodyHput]
  cases h : outBytes Config.magic (emptyPacker (s.setOutLen 0#32)) with
  | raised e u => rfl
  | stuck f => rfl
  | done u =>
    have hu : u.table = s.table := by have := outBytes_table h; exact this
    rw [Ran.andThen_done, Ran.andThen_done, outBytes_append, putInt, hu]
    cases h₂ : outBytes (bigEndian 4 s.table.total) u with
    | raised e v => rfl
    | stuck f => rfl
    | done v =>
      have hv : v.table = s.table := (outBytes_table h₂).trans hu
      rw [Ran.andThen_done, Ran.andThen_done, outBytes_append, putInt, hv]
      cases h₃ : outBytes (bigEndian 2 s.table.nsym) v with
      | raised e w => rfl
      | stuck f => rfl
      | done w =>
        have hw : w.table = s.table := (outBytes_table h₃).trans hv
        rw [Ran.andThen_done, Ran.andThen_done, putEntries_eq, hw]

theorem bigEndian_length (k : Nat) (v : Word) : (bigEndian k v).length = k := by
  induction k with
  | zero => rfl
  | succ k ih => rw [bigEndian, List.length_cons, ih]

/-- HLEN (R93). -/
theorem headerBytes_length (ft : FreqTable) : (headerBytes ft).length = headerLen ft.entries.length := by
  have h : ∀ es : List (Byte × Word), (es.flatMap fun e => e.1 :: bigEndian 4 e.2).length = 5 * es.length := by
    intro es
    induction es with
    | nil => rfl
    | cons e es ih => rw [List.flatMap_cons, List.length_append, ih, List.length_cons, List.length_cons,
        bigEndian_length]; omega
  rw [headerBytes, List.length_append, List.length_append, List.length_append, bigEndian_length, bigEndian_length, h,
    headerLen]
  simp [Config.magic]

/-- OutByte of a list that OBUF has no room for: CapacityError(OBUF) at the end of OBUF (R71, R260). -/
theorem outBytes_full (vs : List Byte) {s : State} (h₀ : s.outLen ≤ s.params.obufSize)
    (h : s.params.obufSize.toNat < s.outLen.toNat + vs.length) :
    ∃ u, outBytes vs s = .raised ⟨.capObuf, s.params.obufSize⟩ u := by
  induction vs generalizing s with
  | nil => rw [BitVec.le_def] at h₀; exact absurd h (by rw [List.length_nil]; omega)
  | cons v vs ih =>
    rw [List.length_cons] at h
    by_cases hroom : s.outLen < s.params.obufSize
    · have hl := appendByte_outLen_toNat hroom v
      have hp : (appendByte v s).params = s.params := rfl
      obtain ⟨u, hu⟩ := ih (s := appendByte v s)
        (by rw [BitVec.lt_def] at hroom; rw [BitVec.le_def, hl, hp]; omega) (by rw [hl, hp]; omega)
      exact ⟨u, by rw [outBytes, outByte_room hroom, Ran.andThen_done, hu]; rfl⟩
    · have e : s.outLen = s.params.obufSize := BitVec.le_antisymm h₀ (BitVec.not_lt.1 hroom)
      exact ⟨s, by rw [outBytes, outByte_full (BitVec.not_lt.1 hroom), Ran.andThen_raised, e]⟩

/-! ### Reading integers -/

/-- The state with IN_PTR at an address. -/
def readAt (a : Nat) (s : State) : State := s.setInPtr (BitVec.ofNat 32 a)

theorem inByte_readAt {a : Nat} (h : a < 2 ^ 32) (s : State) : inByte (readAt a s) = s.ibufByte a := by
  have : (readAt a s).inPtr.toNat = a := by
    show (BitVec.ofNat 32 a).toNat = a
    rw [BitVec.toNat_ofNat]; omega
  unfold inByte
  rw [this]
  rfl

theorem pastByte_readAt (a : Nat) (s : State) : pastByte (readAt a s) = readAt (a + 1) s := by
  show s.setInPtr (BitVec.ofNat 32 a + 1#32) = s.setInPtr (BitVec.ofNat 32 (a + 1))
  rw [BitVec.ofNat_add]

theorem ibufWord_toNat (s : State) (a : Nat) : (ibufWord s a).toNat =
    256 * (256 * (256 * (256 * 0 + (s.ibufByte a).toNat) + (s.ibufByte (a + 1)).toNat) + (s.ibufByte (a + 2)).toNat) +
      (s.ibufByte (a + 3)).toNat := by
  unfold ibufWord
  simp only [BitVec.toNat_append]
  have h₁ := (s.ibufByte (a + 1)).isLt
  have h₂ := (s.ibufByte (a + 2)).isLt
  have h₃ := (s.ibufByte (a + 3)).isLt
  rw [← Nat.shiftLeft_add_eq_or_of_lt h₁, ← Nat.shiftLeft_add_eq_or_of_lt h₂, ← Nat.shiftLeft_add_eq_or_of_lt h₃]
  simp only [Nat.shiftLeft_eq]
  omega

/-- GetInt(4) (R207). -/
theorem getInt_four {a : Nat} (h : a + 4 ≤ 2 ^ 32) (s : State) :
    getInt 4 (readAt a s) = ((ibufWord s a).toNat, readAt (a + 4) s) := by
  rw [ibufWord_toNat]
  simp only [getInt, getIntFrom, pastByte_readAt, Nat.add_assoc, Nat.reduceAdd]
  rw [inByte_readAt (by omega), inByte_readAt (by omega), inByte_readAt (by omega), inByte_readAt (by omega)]

/-- GetInt(2) (R207). -/
theorem getInt_two {s : State} : getInt 2 (readAt 8 s) = ((headerCount s).toNat, readAt 10 s) := by
  unfold headerCount
  simp only [getInt, getIntFrom, pastByte_readAt, Nat.reduceAdd]
  rw [inByte_readAt (by omega), inByte_readAt (by omega), BitVec.toNat_append,
    ← Nat.shiftLeft_add_eq_or_of_lt (s.ibufByte 9).isLt, Nat.shiftLeft_eq]
  congr 1
  omega

/-- A big-endian field of four bytes is the number it was written from (R94, R206, R207). -/
theorem ibufWord_of_bytes {s : State} {a : Nat} {v : Word} (h : ibufSlice s a (a + 4) = bigEndian 4 v) :
    ibufWord s a = v := by
  have e : ∀ i, (hi : i < 4) → s.ibufByte (a + i) = (v >>> (8 * (3 - i))).setWidth 8 := by
    intro i hi
    have h₁ : (ibufSlice s a (a + 4))[i]? = some (s.ibufByte (a + i)) := by
      simp [ibufSlice, hi]
    rw [h] at h₁
    match i, hi with
    | 0, _ | 1, _ | 2, _ | 3, _ => simpa [bigEndian] using h₁.symm
  apply BitVec.eq_of_toNat_eq
  have e0 := e 0 (by omega)
  rw [Nat.add_zero] at e0
  rw [ibufWord_toNat, e0, e 1 (by omega), e 2 (by omega), e 3 (by omega)]
  simp only [BitVec.toNat_setWidth, BitVec.toNat_ushiftRight, Nat.shiftRight_eq_div_pow]
  have := v.isLt
  omega

theorem bigEndian_ibufWord (s : State) (a : Nat) : bigEndian 4 (ibufWord s a) = ibufSlice s a (a + 4) := by
  have h₀ := (s.ibufByte a).isLt
  have h₁ := (s.ibufByte (a + 1)).isLt
  have h₂ := (s.ibufByte (a + 2)).isLt
  have h₃ := (s.ibufByte (a + 3)).isLt
  have key : ∀ (k : Nat) (b : Byte), (ibufWord s a).toNat / 2 ^ (8 * k) % 256 = b.toNat →
      ((ibufWord s a) >>> (8 * k)).setWidth 8 = b := by
    intro k b hk
    apply BitVec.eq_of_toNat_eq
    rw [BitVec.toNat_setWidth, BitVec.toNat_ushiftRight, Nat.shiftRight_eq_div_pow]
    exact hk
  have hs : ibufSlice s a (a + 4) = [s.ibufByte a, s.ibufByte (a + 1), s.ibufByte (a + 2), s.ibufByte (a + 3)] := by
    simp [ibufSlice, List.range_succ]
  rw [hs]
  simp only [bigEndian]
  rw [key 3 (s.ibufByte a) (by rw [ibufWord_toNat]; omega), key 2 (s.ibufByte (a + 1)) (by rw [ibufWord_toNat]; omega),
    key 1 (s.ibufByte (a + 2)) (by rw [ibufWord_toNat]; omega), key 0 (s.ibufByte (a + 3)) (by rw [ibufWord_toNat]; omega)]

/-! ### Reading the entries -/

/-- HGET's locals after the first `i` entries of the header in IBUF (R212). -/
def localsAt (s : State) : Nat → HeaderLocals
  | 0 => ⟨FreqTable.zero.freq, 0, none⟩
  | i + 1 => (localsAt s i).put (entrySymbol s i) (entryCount s i).toNat

/-- The ORDER test of entry `i` (R212, R256). -/
theorem localsAt_disordered {s : State} {i : Nat} {sym : Byte} :
    (localsAt s i).disordered sym = true ↔ ∃ j, j + 1 = i ∧ sym ≤ entrySymbol s j := by
  cases i with
  | zero => simp [localsAt, HeaderLocals.disordered]
  | succ i => simp [localsAt, HeaderLocals.put, HeaderLocals.disordered]

/-- One pass of HGET's loop (R212). -/
theorem getEntries_step {s : State} {i : Nat} (hi : i < 256) (n : Nat) (rest : HeaderLocals → State → Ran) :
    getEntries (n + 1) i (localsAt s i) (readAt (10 + 5 * i) s) rest =
      (guardRaise ((localsAt s i).disordered (entrySymbol s i)) .formatOrder (BitVec.ofNat 32 (10 + 5 * i))
        (readAt (10 + 5 * (i + 1)) s)).andThen fun t =>
        (guardRaise ((entryCount s i).toNat == 0) .formatZerocount (BitVec.ofNat 32 (10 + 5 * i)) t).andThen fun t =>
          getEntries n (i + 1) (localsAt s (i + 1)) t rest := by
  rw [getEntries, inByte_readAt (by omega), pastByte_readAt, getInt_four (by omega)]
  have e₁ : 10 + 5 * i + 1 = 11 + 5 * i := by omega
  have e₂ : 11 + 5 * i + 4 = 10 + 5 * (i + 1) := by omega
  rw [e₁, e₂]
  rfl

theorem entryGood_iff {s : State} {i : Nat} : EntryGood s i ↔
    (localsAt s i).disordered (entrySymbol s i) = false ∧ ((entryCount s i).toNat == 0) = false := by
  unfold EntryGood
  rw [← Bool.not_eq_true, localsAt_disordered]
  constructor
  · rintro ⟨h₁, h₂⟩
    refine ⟨?_, by simpa [← BitVec.toNat_inj] using h₂⟩
    rintro ⟨j, hj, h⟩
    exact absurd (h₁ j hj) (BitVec.not_lt.2 h)
  · rintro ⟨h₁, h₂⟩
    exact ⟨fun j hj => BitVec.not_le.1 fun h => h₁ ⟨j, hj, h⟩, by simpa [← BitVec.toNat_inj] using h₂⟩

/-- HGET's loop passes the good entries (R212). -/
theorem getEntries_good {s : State} {m : Nat} (hm : m ≤ 256) (hg : ∀ j, j < m → EntryGood s j) (n : Nat)
    (rest : HeaderLocals → State → Ran) :
    getEntries (m + n) 0 (localsAt s 0) (readAt 10 s) rest =
      getEntries n m (localsAt s m) (readAt (10 + 5 * m) s) rest := by
  induction m generalizing n with
  | zero => rw [Nat.zero_add]
  | succ m ih =>
    have e : m + 1 + n = m + (n + 1) := by omega
    rw [e, ih (by omega) (fun j hj => hg j (by omega)), getEntries_step (by omega)]
    obtain ⟨h₁, h₂⟩ := entryGood_iff.1 (hg m (by omega))
    rw [guardRaise_pass h₁, Ran.andThen_done, guardRaise_pass h₂, Ran.andThen_done]

/-- The entries of the header in IBUF, as pairs. -/
def headerEntries (s : State) (n : Nat) : List (Byte × Word) :=
  (List.range n).map fun j => (entrySymbol s j, entryCount s j)

theorem entrySymbol_lt {s : State} {n : Nat} (hg : ∀ j, j < n → EntryGood s j) {i j : Nat} (hij : i < j) (hj : j < n) :
    entrySymbol s i < entrySymbol s j := by
  induction j with
  | zero => omega
  | succ j ih =>
    have h := (hg (j + 1) hj).1 j rfl
    rcases Nat.eq_or_lt_of_le (Nat.le_of_lt_succ hij) with rfl | h'
    · exact h
    · exact BitVec.lt_trans (ih h' (by omega)) h

theorem localsAt_sum (s : State) (n : Nat) :
    (localsAt s n).sum = ((List.range n).map fun j => (entryCount s j).toNat).sum := by
  induction n with
  | zero => rfl
  | succ n ih => rw [List.range_succ, List.map_append, List.sum_append, ← ih]; simp [localsAt, HeaderLocals.put]

/-- The table HGET commits (R212). -/
def headerTable (s : State) (n : Nat) : FreqTable :=
  ⟨(localsAt s n).freq, headerOriginal s, BitVec.ofNat 32 n⟩

/-- Each good entry's symbol gets its count, every other symbol 0 (R212). -/
theorem headerTable_count {s : State} {n : Nat} (hg : ∀ j, j < n → EntryGood s j) :
    (∀ j, j < n → (headerTable s n).count (entrySymbol s j) = entryCount s j) ∧
      ∀ sym, (∀ j, j < n → sym ≠ entrySymbol s j) → (headerTable s n).count sym = 0#32 := by
  have hc : ∀ m sym, (headerTable s (m + 1)).count sym =
      if sym = entrySymbol s m then entryCount s m else (headerTable s m).count sym := by
    intro m sym
    simp only [headerTable, localsAt, HeaderLocals.put, FreqTable.count, BitVec.ofNat_toNat, BitVec.setWidth_eq,
      Vector.getElem_set]
    by_cases h : sym = entrySymbol s m
    · subst h; simp
    · have : (entrySymbol s m).toNat ≠ sym.toNat := fun e => h (BitVec.eq_of_toNat_eq e.symm)
      simp [h, this]
  induction n with
  | zero =>
    refine ⟨fun j hj => by omega, fun sym _ => ?_⟩
    simp [headerTable, localsAt, FreqTable.count, FreqTable.zero]
  | succ n ih =>
    obtain ⟨h₁, h₂⟩ := ih fun j hj => hg j (by omega)
    constructor
    · intro j hj
      rw [hc]
      rcases Nat.eq_or_lt_of_le (Nat.le_of_lt_succ hj) with rfl | h
      · rw [if_pos rfl]
      · have hlt := entrySymbol_lt hg h (by omega)
        rw [if_neg (fun e => by rw [e] at hlt; exact BitVec.lt_irrefl _ hlt), h₁ j h]
    · intro sym hs
      rw [hc, if_neg (hs n (by omega)), h₂ sym fun j hj => hs j (by omega)]

theorem sorted_eq_of_mem {l m : List Byte} (hl : l.Pairwise (· < ·)) (hm : m.Pairwise (· < ·))
    (h : ∀ x, x ∈ l ↔ x ∈ m) : l = m := by
  have nd : ∀ {l : List Byte}, l.Pairwise (· < ·) → l.Nodup := fun hl =>
    hl.imp fun h => by rintro rfl; exact BitVec.lt_irrefl _ h
  refine ((List.perm_ext_iff_of_nodup (nd hl) (nd hm)).2 h).eq_of_pairwise ?_ hl hm
  intro a b _ _ h₁ h₂
  exact absurd (BitVec.lt_trans h₁ h₂) (BitVec.lt_irrefl _)

/-- The table HGET commits has exactly the entries of the header (R212). -/
theorem headerTable_entries {s : State} {n : Nat} (hg : ∀ j, j < n → EntryGood s j) :
    (headerTable s n).entries = headerEntries s n := by
  obtain ⟨h₁, h₂⟩ := headerTable_count hg
  have hp : presentSymbols (headerTable s n) = (List.range n).map (entrySymbol s) := by
    refine sorted_eq_of_mem (presentSymbols_sorted _) ?_ fun x => ?_
    · rw [List.pairwise_map]
      exact List.pairwise_lt_range.imp_of_mem fun {a b} _ hb hab =>
        entrySymbol_lt hg hab (List.mem_range.1 hb)
    · rw [mem_presentSymbols, List.mem_map]
      constructor
      · intro hx
        by_contra hno
        exact hx (h₂ x fun j hj e => hno ⟨j, List.mem_range.2 hj, e.symm⟩)
      · rintro ⟨j, hj, rfl⟩
        rw [List.mem_range] at hj
        rw [h₁ j hj]
        exact (hg j hj).2
  rw [entries_eq_present, hp, headerEntries, List.map_map]
  refine List.map_congr_left fun j hj => ?_
  simp only [Function.comp, h₁ j (List.mem_range.1 hj)]

theorem headerTable_ok {s : State} {n : Nat} (hn : n ≤ 256) (hg : ∀ j, j < n → EntryGood s j)
    (hs : ((List.range n).map fun j => (entryCount s j).toNat).sum = (headerOriginal s).toNat) :
    TableOk (headerTable s n) := by
  have he := headerTable_entries hg
  constructor
  · rw [freq_sum_present, presentSymbols, List.map_map]
    have : ((fun x => ((headerTable s n).count x).toNat) ∘ Prod.fst) = fun e : Byte × Word =>
      ((headerTable s n).count e.1).toNat := rfl
    rw [this, he, headerEntries, List.map_map]
    show (headerOriginal s).toNat = _
    rw [← hs]
    congr 1
    refine List.map_congr_left fun j hj => ?_
    simp only [Function.comp, (headerTable_count hg).1 j (List.mem_range.1 hj)]
  · rw [he, headerEntries, List.length_map, List.length_range]
    show (BitVec.ofNat 32 n).toNat = n
    rw [BitVec.toNat_ofNat]; omega

/-! ### HGET -/

theorem checkMagic_spec {s : State} (l : List Byte) {j : Nat} (hj : j + l.length ≤ 4) :
    (ibufSlice s j (j + l.length) = l → checkMagic l j (readAt j s) = .done (readAt (j + l.length) s)) ∧
      ∀ i, i < l.length → (∀ k, k < i → some (s.ibufByte (j + k)) = l[k]?) → some (s.ibufByte (j + i)) ≠ l[i]? →
        checkMagic l j (readAt j s) = .raised ⟨.formatMagic, BitVec.ofNat 32 (j + i)⟩ (readAt (j + i + 1) s) := by
  induction l generalizing j with
  | nil => exact ⟨fun _ => rfl, fun i hi => by simp at hi⟩
  | cons m ms ih =>
    rw [List.length_cons] at hj
    have hb : inByte (readAt j s) = s.ibufByte j := inByte_readAt (by omega) s
    constructor
    · intro h
      rw [List.length_cons, ibufSlice_cons s (by omega)] at h
      obtain ⟨h₁, h₂⟩ := List.cons.inj h
      rw [checkMagic, hb, if_pos h₁, pastByte_readAt]
      have e : j + (ms.length + 1) = j + 1 + ms.length := by omega
      rw [e] at h₂
      rw [List.length_cons, e]
      exact (ih (by omega)).1 h₂
    · intro i hi h₁ h₂
      rw [checkMagic, hb, pastByte_readAt]
      cases i with
      | zero =>
        have : s.ibufByte j ≠ m := by simpa using h₂
        rw [if_neg this]
        rfl
      | succ i =>
        have h0 := h₁ 0 (by omega)
        have : s.ibufByte j = m := by simpa using h0
        rw [if_pos this]
        have e : ∀ k, j + (k + 1) = j + 1 + k := fun k => by omega
        rw [e i]
        refine (ih (j := j + 1) (by omega)).2 i (by rw [List.length_cons] at hi; omega) (fun k hk => ?_) ?_
        · have := h₁ (k + 1) (by omega)
          rwa [e k, List.getElem?_cons_succ] at this
        · rwa [e i, List.getElem?_cons_succ] at h₂

theorem localsAt_congr {s t : State} (h : t.ibuf = s.ibuf) (n : Nat) : localsAt t n = localsAt s n := by
  induction n with
  | zero => rfl
  | succ n ih => simp only [localsAt, ih, entrySymbol, entryCount, ibufWord, State.ibufByte, h]

theorem localsAt_startHeader (s : State) (n : Nat) : localsAt (startHeader s) n = localsAt s n :=
  localsAt_congr (s := s) (t := startHeader s) rfl n

/-- Clearing the valid flags first changes nothing of what the parse starts from. -/
theorem startHeader_clearValid (s : State) : startHeader (clearValid s) = startHeader s := rfl

theorem startHeader_readAt (s : State) : startHeader s = readAt 0 (startHeader s) := rfl

theorem needLength_pass {n : Nat} {s : State} (h : n ≤ s.inLen.toNat) : needLength n s = .done s :=
  guardRaise_pass (by simpa using h) _ _ _

theorem needLength_fail {n : Nat} {s : State} (h : s.inLen.toNat < n) :
    needLength n s = .raised ⟨.formatShort, s.inLen⟩ s :=
  guardRaise_fail (by simpa using h) _ _ _

section

variable {s : State} (hin : s.inLen ≤ s.params.ibufSize)

/-- An input longer than IBUF: the valid flags are cleared, nothing else is written (R27, R69, log 9). -/
theorem bodyHget_inlen (h : s.params.ibufSize < s.inLen) :
    bodyHget s = .raised ⟨.capInlen, s.inLen⟩ (clearValid s) := by
  rw [bodyHget, checkIn_fail (by exact h), Ran.andThen_raised]
  rfl

include hin

theorem bodyHget_short (h : s.inLen.toNat < 4) : bodyHget s = .raised ⟨.formatShort, s.inLen⟩ (startHeader s) := by
  rw [bodyHget, checkIn_pass (by exact hin), Ran.andThen_done, needLength_fail (by exact h), Ran.andThen_raised]
  rfl

theorem bodyHget_magic (h4 : 4 ≤ s.inLen.toNat) {i : Nat} (hi : i < 4)
    (h₁ : ∀ k, k < i → some (s.ibufByte k) = Config.magic[k]?) (h₂ : some (s.ibufByte i) ≠ Config.magic[i]?) :
    bodyHget s = .raised ⟨.formatMagic, BitVec.ofNat 32 i⟩ (readAt (i + 1) (startHeader s)) := by
  rw [bodyHget, checkIn_pass (by exact hin), Ran.andThen_done, needLength_pass (by exact h4), Ran.andThen_done,
    startHeader_clearValid, startHeader_readAt]
  have := (checkMagic_spec (s := startHeader s) Config.magic (j := 0) (by decide)).2 i hi
    (fun k hk => by rw [Nat.zero_add]; exact h₁ k hk) (by rw [Nat.zero_add]; exact h₂)
  rw [Nat.zero_add] at this
  rw [this, Ran.andThen_raised]
  rfl

/-- Past the magic (R212). -/
theorem bodyHget_passMagic (h4 : 4 ≤ s.inLen.toNat) (hm : HasMagic s) :
    bodyHget s = (needLength 10 (readAt 4 (startHeader s))).andThen parseFields := by
  rw [bodyHget, checkIn_pass (by exact hin), Ran.andThen_done, needLength_pass (by exact h4), Ran.andThen_done,
    startHeader_clearValid, startHeader_readAt]
  have := (checkMagic_spec (s := startHeader s) Config.magic (j := 0) (by decide)).1 hm
  rw [this, Ran.andThen_done]
  rfl

theorem bodyHget_short10 (h4 : 4 ≤ s.inLen.toNat) (hm : HasMagic s) (h : s.inLen.toNat < 10) :
    bodyHget s = .raised ⟨.formatShort, s.inLen⟩ (readAt 4 (startHeader s)) := by
  rw [bodyHget_passMagic hin h4 hm, needLength_fail (by exact h), Ran.andThen_raised]
  rfl

/-- Past the length fields (R212). -/
theorem bodyHget_passFields (h10 : 10 ≤ s.inLen.toNat) (hm : HasMagic s) :
    bodyHget s = (guardRaise (decide (256 < (headerCount s).toNat)) .formatSymcount
      (BitVec.ofNat 32 (headerCount s).toNat) (readAt 10 (startHeader s))).andThen fun t =>
        (needLength (10 + 5 * (headerCount s).toNat) t).andThen fun t =>
          getEntries (headerCount s).toNat 0 ⟨FreqTable.zero.freq, 0, none⟩ t
            (commitHeader (headerOriginal s).toNat (headerCount s).toNat) := by
  rw [bodyHget_passMagic hin (by omega) hm, needLength_pass (by exact h10), Ran.andThen_done, parseFields,
    getInt_four (by omega)]
  simp only [getInt_two, Nat.reduceAdd]
  rfl

theorem bodyHget_symcount (h10 : 10 ≤ s.inLen.toNat) (hm : HasMagic s) (h : 256 < (headerCount s).toNat) :
    bodyHget s = .raised ⟨.formatSymcount, BitVec.ofNat 32 (headerCount s).toNat⟩ (readAt 10 (startHeader s)) := by
  rw [bodyHget_passFields hin h10 hm, guardRaise_fail (by simpa using h), Ran.andThen_raised]

theorem bodyHget_shortEntries (h10 : 10 ≤ s.inLen.toNat) (hm : HasMagic s) (hn : (headerCount s).toNat ≤ 256)
    (h : s.inLen.toNat < 10 + 5 * (headerCount s).toNat) :
    bodyHget s = .raised ⟨.formatShort, s.inLen⟩ (readAt 10 (startHeader s)) := by
  rw [bodyHget_passFields hin h10 hm, guardRaise_pass (by simpa using hn), Ran.andThen_done,
    needLength_fail (by exact h), Ran.andThen_raised]
  rfl

/-- Past the length tests and the first `m` entries, all good (R212). -/
theorem bodyHget_passEntries (hm : HasMagic s) (hn : (headerCount s).toNat ≤ 256)
    (hl : 10 + 5 * (headerCount s).toNat ≤ s.inLen.toNat) {m k : Nat} (hk : m + k = (headerCount s).toNat)
    (hg : ∀ j, j < m → EntryGood s j) :
    bodyHget s = getEntries k m (localsAt s m) (readAt (10 + 5 * m) (startHeader s))
      (commitHeader (headerOriginal s).toNat (headerCount s).toNat) := by
  rw [bodyHget_passFields hin (by omega) hm, guardRaise_pass (by simpa using hn), Ran.andThen_done,
    needLength_pass (by exact hl), Ran.andThen_done, ← hk]
  have := getEntries_good (s := startHeader s) (m := m) (by omega) hg k (commitHeader (headerOriginal s).toNat (m + k))
  rw [localsAt_startHeader, localsAt_startHeader] at this
  exact this

theorem bodyHget_order (hm : HasMagic s) (hn : (headerCount s).toNat ≤ 256)
    (hl : 10 + 5 * (headerCount s).toNat ≤ s.inLen.toNat) {m j : Nat} (hmn : m < (headerCount s).toNat)
    (hg : ∀ j, j < m → EntryGood s j) (hj : j + 1 = m) (h : entrySymbol s m ≤ entrySymbol s j) :
    bodyHget s = .raised ⟨.formatOrder, BitVec.ofNat 32 (10 + 5 * m)⟩ (readAt (10 + 5 * (m + 1)) (startHeader s)) := by
  obtain ⟨k, hk⟩ : ∃ k, m + (k + 1) = (headerCount s).toNat := ⟨(headerCount s).toNat - m - 1, by omega⟩
  rw [bodyHget_passEntries hin hm hn hl hk hg]
  have := getEntries_step (s := startHeader s) (i := m) (by omega) k
    (commitHeader (headerOriginal s).toNat (headerCount s).toNat)
  have hd : (localsAt (startHeader s) m).disordered (entrySymbol (startHeader s) m) = true :=
    localsAt_disordered.2 ⟨j, hj, h⟩
  rw [guardRaise_fail hd, Ran.andThen_raised, localsAt_startHeader] at this
  exact this

theorem bodyHget_zerocount (hm : HasMagic s) (hn : (headerCount s).toNat ≤ 256)
    (hl : 10 + 5 * (headerCount s).toNat ≤ s.inLen.toNat) {m : Nat} (hmn : m < (headerCount s).toNat)
    (hg : ∀ j, j < m → EntryGood s j) (ho : ∀ j, j + 1 = m → entrySymbol s j < entrySymbol s m)
    (h : entryCount s m = 0#32) :
    bodyHget s =
      .raised ⟨.formatZerocount, BitVec.ofNat 32 (10 + 5 * m)⟩ (readAt (10 + 5 * (m + 1)) (startHeader s)) := by
  obtain ⟨k, hk⟩ : ∃ k, m + (k + 1) = (headerCount s).toNat := ⟨(headerCount s).toNat - m - 1, by omega⟩
  rw [bodyHget_passEntries hin hm hn hl hk hg]
  have := getEntries_step (s := startHeader s) (i := m) (by omega) k
    (commitHeader (headerOriginal s).toNat (headerCount s).toNat)
  have ho' : (localsAt (startHeader s) m).disordered (entrySymbol (startHeader s) m) = false := by
    rw [← Bool.not_eq_true, localsAt_disordered]
    rintro ⟨j, hj, h'⟩
    exact absurd (ho j hj) (BitVec.not_lt.2 h')
  have hz : ((entryCount (startHeader s) m).toNat == 0) = true := by
    have : entryCount (startHeader s) m = 0#32 := h
    rw [this]; rfl
  rw [guardRaise_pass ho', Ran.andThen_done, guardRaise_fail hz, Ran.andThen_raised,
    localsAt_startHeader] at this
  exact this

theorem bodyHget_sum (hm : HasMagic s) (hn : (headerCount s).toNat ≤ 256)
    (hl : 10 + 5 * (headerCount s).toNat ≤ s.inLen.toNat) (hg : ∀ j, j < (headerCount s).toNat → EntryGood s j)
    (h : ((List.range (headerCount s).toNat).map fun j => (entryCount s j).toNat).sum ≠ (headerOriginal s).toNat) :
    bodyHget s = .raised ⟨.formatSum, headerOriginal s⟩
      (readAt (10 + 5 * (headerCount s).toNat) (startHeader s)) := by
  rw [bodyHget_passEntries hin hm hn hl (Nat.add_zero _) hg, getEntries, commitHeader,
    guardRaise_fail (by rw [localsAt_sum]; simpa using h), Ran.andThen_raised]
  simp

/-- HGET on a header that passes every test (R212). -/
theorem bodyHget_ok (hm : HasMagic s) (hn : (headerCount s).toNat ≤ 256)
    (hl : 10 + 5 * (headerCount s).toNat ≤ s.inLen.toNat) (hg : ∀ j, j < (headerCount s).toNat → EntryGood s j)
    (h : ((List.range (headerCount s).toNat).map fun j => (entryCount s j).toNat).sum = (headerOriginal s).toNat) :
    bodyHget s = .done ((readAt (10 + 5 * (headerCount s).toNat) (startHeader s)).setTable
      (headerTable s (headerCount s).toNat)) := by
  rw [bodyHget_passEntries hin hm hn hl (Nat.add_zero _) hg, getEntries, commitHeader,
    guardRaise_pass (by rw [localsAt_sum]; simpa using h), Ran.andThen_done]
  simp [headerTable]

end

/-- HGET's ends: its CapacityError, a FormatError over a clear table, or the table of a header that passes every
test (R212). -/
theorem bodyHget_cases (s : State) :
    bodyHget s = .raised ⟨.capInlen, s.inLen⟩ (clearValid s) ∨
      (∃ e a, bodyHget s = .raised e (readAt a (startHeader s)) ∧ e.kind.cause = 1) ∨
      (s.inLen ≤ s.params.ibufSize ∧ HasMagic s ∧ (headerCount s).toNat ≤ 256 ∧
        10 + 5 * (headerCount s).toNat ≤ s.inLen.toNat ∧ (∀ j, j < (headerCount s).toNat → EntryGood s j) ∧
        ((List.range (headerCount s).toNat).map fun j => (entryCount s j).toNat).sum = (headerOriginal s).toNat ∧
        bodyHget s = .done ((readAt (10 + 5 * (headerCount s).toNat) (startHeader s)).setTable
          (headerTable s (headerCount s).toNat))) := by
  classical
  by_cases hin : s.inLen ≤ s.params.ibufSize
  swap
  · exact .inl (bodyHget_inlen (BitVec.not_le.1 hin))
  right
  by_cases h4 : 4 ≤ s.inLen.toNat
  swap
  · exact .inl ⟨_, 0, bodyHget_short hin (by omega), rfl⟩
  by_cases hm : HasMagic s
  swap
  · left
    have : ∃ i, i < 4 ∧ some (s.ibufByte i) ≠ Config.magic[i]? := by
      by_contra hall
      refine hm ?_
      unfold HasMagic
      have e : ∀ i, i < 4 → some (s.ibufByte i) = Config.magic[i]? := fun i hi => by
        by_contra hne; exact hall ⟨i, hi, hne⟩
      have e0 := e 0 (by omega)
      have e1 := e 1 (by omega)
      have e2 := e 2 (by omega)
      have e3 := e 3 (by omega)
      simp only [Config.magic, List.getElem?_cons_zero, List.getElem?_cons_succ, Option.some.injEq] at e0 e1 e2 e3
      simp [ibufSlice, List.range_succ, Config.magic, e0, e1, e2, e3]
    have hf := Nat.find_spec this
    have hmin := fun k (hk : k < Nat.find this) => Nat.find_min this hk
    refine ⟨_, _, bodyHget_magic hin h4 hf.1 (fun k hk => ?_) hf.2, rfl⟩
    by_contra hne
    exact hmin k hk ⟨lt_trans hk hf.1, hne⟩
  by_cases h10 : 10 ≤ s.inLen.toNat
  swap
  · exact .inl ⟨_, _, bodyHget_short10 hin h4 hm (by omega), rfl⟩
  by_cases hn : (headerCount s).toNat ≤ 256
  swap
  · exact .inl ⟨_, _, bodyHget_symcount hin h10 hm (by omega), rfl⟩
  by_cases hl : 10 + 5 * (headerCount s).toNat ≤ s.inLen.toNat
  swap
  · exact .inl ⟨_, _, bodyHget_shortEntries hin h10 hm hn (by omega), rfl⟩
  by_cases hg : ∃ j, j < (headerCount s).toNat ∧ ¬EntryGood s j
  · left
    obtain ⟨hf, hbad⟩ := Nat.find_spec hg
    have hmin : ∀ k, k < Nat.find hg → EntryGood s k := fun k hk => by
      by_contra hne; exact Nat.find_min hg hk ⟨lt_trans hk hf, hne⟩
    generalize Nat.find hg = m at hf hbad hmin
    by_cases ho : ∃ j, j + 1 = m ∧ entrySymbol s m ≤ entrySymbol s j
    · obtain ⟨j, hj, ho⟩ := ho
      exact ⟨_, _, bodyHget_order hin hm hn hl hf hmin hj ho, rfl⟩
    · have ho' : ∀ j, j + 1 = m → entrySymbol s j < entrySymbol s m := fun j hj =>
        BitVec.not_le.1 fun h => ho ⟨j, hj, h⟩
      have hz : entryCount s m = 0#32 := by
        by_contra hne; exact hbad ⟨ho', hne⟩
      exact ⟨_, _, bodyHget_zerocount hin hm hn hl hf hmin ho' hz, rfl⟩
  have hg' : ∀ j, j < (headerCount s).toNat → EntryGood s j := fun j hj => by
    by_contra hne; exact hg ⟨j, hj, hne⟩
  by_cases hs : ((List.range (headerCount s).toNat).map fun j => (entryCount s j).toNat).sum = (headerOriginal s).toNat
  · exact .inr ⟨hin, hm, hn, hl, hg', hs, bodyHget_ok hin hm hn hl hg' hs⟩
  · exact .inl ⟨_, _, bodyHget_sum hin hm hn hl hg' hs, rfl⟩

/-! ### The header as a list of bytes -/

theorem ibufSlice_append (s : State) {a b c : Nat} (h₁ : a ≤ b) (h₂ : b ≤ c) :
    ibufSlice s a c = ibufSlice s a b ++ ibufSlice s b c := by
  obtain ⟨n, rfl⟩ := Nat.exists_eq_add_of_le h₁
  clear h₁
  induction n generalizing a with
  | zero => rw [Nat.add_zero, ibufSlice_self, List.nil_append]
  | succ n ih =>
    rw [ibufSlice_cons s (by omega : a < c), ibufSlice_cons s (by omega : a < a + (n + 1)), List.cons_append]
    have := ih (a := a + 1) (by omega)
    rw [this]
    have e : a + 1 + n = a + (n + 1) := by omega
    rw [e]

theorem entry_bytes (s : State) (i : Nat) :
    ibufSlice s (10 + 5 * i) (10 + 5 * (i + 1)) = entrySymbol s i :: bigEndian 4 (entryCount s i) := by
  rw [ibufSlice_cons s (by omega), entryCount, bigEndian_ibufWord]
  have e₁ : 10 + 5 * i + 1 = 11 + 5 * i := by omega
  have e₂ : 10 + 5 * (i + 1) = 11 + 5 * i + 4 := by omega
  rw [e₁, e₂]
  rfl

/-- The entry area of IBUF is the bytes of its entries (R92, R94). -/
theorem headerEntries_bytes (s : State) (n : Nat) :
    ibufSlice s 10 (10 + 5 * n) = (headerEntries s n).flatMap fun e => e.1 :: bigEndian 4 e.2 := by
  induction n with
  | zero => simp [ibufSlice_self, headerEntries]
  | succ n ih =>
    rw [ibufSlice_append s (by omega : 10 ≤ 10 + 5 * n) (by omega : 10 + 5 * n ≤ 10 + 5 * (n + 1)), ih, entry_bytes]
    simp [headerEntries, List.range_succ]

theorem bigEndian_headerCount (s : State) : bigEndian 2 ((headerCount s).setWidth 32) = ibufSlice s 8 10 := by
  have h₀ := (s.ibufByte 8).isLt
  have h₁ := (s.ibufByte 9).isLt
  have hs : ibufSlice s 8 10 = [s.ibufByte 8, s.ibufByte 9] := by simp [ibufSlice, List.range_succ]
  have hn : ((headerCount s).setWidth 32 : Word).toNat = 256 * (s.ibufByte 8).toNat + (s.ibufByte 9).toNat := by
    rw [BitVec.toNat_setWidth, headerCount, BitVec.toNat_append, ← Nat.shiftLeft_add_eq_or_of_lt h₁, Nat.shiftLeft_eq]
    omega
  rw [hs]
  simp only [bigEndian, List.cons.injEq, and_true]
  constructor
  · apply BitVec.eq_of_toNat_eq
    rw [BitVec.toNat_setWidth, BitVec.toNat_ushiftRight, Nat.shiftRight_eq_div_pow, hn]; omega
  · apply BitVec.eq_of_toNat_eq
    rw [BitVec.toNat_setWidth, BitVec.toNat_ushiftRight, Nat.shiftRight_eq_div_pow, hn]; omega

/-- The table HGET commits has the bytes of the header it was read from (R212, R215). -/
theorem headerBytes_headerTable {s : State} (hm : HasMagic s)
    (hg : ∀ j, j < (headerCount s).toNat → EntryGood s j) :
    headerBytes (headerTable s (headerCount s).toNat) = ibufSlice s 0 (10 + 5 * (headerCount s).toNat) := by
  have e : BitVec.ofNat 32 (headerCount s).toNat = (headerCount s).setWidth 32 := by
    apply BitVec.eq_of_toNat_eq; rw [BitVec.toNat_ofNat, BitVec.toNat_setWidth]
  rw [headerBytes, headerTable_entries hg, ← headerEntries_bytes]
  show Config.magic ++ bigEndian 4 (ibufWord s 4) ++ bigEndian 2 (BitVec.ofNat 32 (headerCount s).toNat) ++ _ = _
  rw [e, bigEndian_headerCount, bigEndian_ibufWord, ← hm, ← ibufSlice_append s (by omega) (by omega),
    ← ibufSlice_append s (by omega) (by omega), ← ibufSlice_append s (by omega) (by omega)]

theorem mem_entries {ft : FreqTable} {e : Byte × Word} : e ∈ ft.entries ↔ e.2 = ft.count e.1 ∧ e.2 ≠ 0#32 := by
  rw [entries_eq_present, List.mem_map]
  constructor
  · rintro ⟨x, hx, rfl⟩; exact ⟨rfl, mem_presentSymbols.1 hx⟩
  · rintro ⟨h₁, h₂⟩
    exact ⟨e.1, mem_presentSymbols.2 (h₁ ▸ h₂), by rw [← h₁]⟩

/-- The entries determine the counters. -/
theorem freq_eq_of_entries {a b : FreqTable} (h : a.entries = b.entries) : a.freq = b.freq := by
  have hc : ∀ sym, a.count sym = b.count sym := by
    intro sym
    by_cases ha : a.count sym = 0#32
    · by_contra hne
      have : (sym, b.count sym) ∈ b.entries := mem_entries.2 ⟨rfl, fun e => hne (by rw [ha]; exact e.symm)⟩
      rw [← h, mem_entries] at this
      exact hne this.1.symm
    · have : (sym, a.count sym) ∈ a.entries := mem_entries.2 ⟨rfl, ha⟩
      rw [h, mem_entries] at this
      exact this.1
  apply Vector.toList_inj.1
  rw [freq_toList, freq_toList]
  exact List.map_congr_left fun x _ => hc x

theorem table_ext {a b : FreqTable} (h : a.entries = b.entries) (ht : a.total = b.total) (hn : a.nsym = b.nsym) :
    a = b := by
  have hf := freq_eq_of_entries h
  obtain ⟨fa, ta, na⟩ := a
  obtain ⟨fb, tb, nb⟩ := b
  simp only at ht hn hf
  rw [ht, hn, hf]

/-- Reading the bytes of a list of entries gives the entries. -/
theorem headerEntries_of_bytes {s : State} (es : List (Byte × Word)) {i : Nat}
    (h : ibufSlice s (10 + 5 * i) (10 + 5 * (i + es.length)) = es.flatMap fun e => e.1 :: bigEndian 4 e.2) :
    ((List.range es.length).map fun j => (entrySymbol s (i + j), entryCount s (i + j))) = es := by
  induction es generalizing i with
  | nil => rfl
  | cons e es ih =>
    rw [List.length_cons, ibufSlice_append s (by omega : 10 + 5 * i ≤ 10 + 5 * (i + 1)) (by omega), List.flatMap_cons] at h
    obtain ⟨h₁, h₂⟩ := List.append_inj h (by
      rw [ibufSlice_length, List.length_cons, bigEndian_length]; omega)
    have e₁ : i + (es.length + 1) = i + 1 + es.length := by omega
    rw [e₁] at h₂
    have ih := ih h₂
    have h₁' := h₁
    rw [ibufSlice_cons s (by omega)] at h₁'
    obtain ⟨k₁, k₂⟩ := List.cons.inj h₁'
    have k₃ : entryCount s i = e.2 := by
      refine ibufWord_of_bytes ?_
      have e₁ : 10 + 5 * i + 1 = 11 + 5 * i := by omega
      have e₂ : 10 + 5 * (i + 1) = 11 + 5 * i + 4 := by omega
      rw [e₁, e₂] at k₂
      exact k₂
    rw [List.length_cons, List.range_succ_eq_map, List.map_cons, List.map_map, Nat.add_zero]
    congr 1
    · exact Prod.ext k₁ k₃
    · have : ((fun j => (entrySymbol s (i + j), entryCount s (i + j))) ∘ Nat.succ) =
          fun j => (entrySymbol s (i + 1 + j), entryCount s (i + 1 + j)) := by
        funext j
        have : i + Nat.succ j = i + 1 + j := by omega
        simp only [Function.comp, this]
      rw [this]
      exact ih

/-- Where IBUF starts with the header of a table, every test of HGET passes and the table is read back (R215). -/
theorem header_read {s : State} {ft : FreqTable} (hft : TableOk ft)
    (h : ibufSlice s 0 (headerLen ft.entries.length) = headerBytes ft) :
    HasMagic s ∧ (headerCount s).toNat = ft.entries.length ∧ ft.entries.length ≤ 256 ∧
      (∀ j, j < ft.entries.length → EntryGood s j) ∧
      ((List.range ft.entries.length).map fun j => (entryCount s j).toNat).sum = (headerOriginal s).toNat ∧
      headerTable s ft.entries.length = ft := by
  have hle : ft.entries.length ≤ 256 := presentSymbols_length ft ▸ presentSymbols_length_le ft
  rw [headerLen, headerBytes, ibufSlice_append s (by omega : 0 ≤ 10) (by omega : 10 ≤ 10 + 5 * ft.entries.length),
    ibufSlice_append s (by omega : 0 ≤ 8) (by omega : 8 ≤ 10),
    ibufSlice_append s (by omega : 0 ≤ 4) (by omega : 4 ≤ 8)] at h
  obtain ⟨h, h₄⟩ := List.append_inj h (by simp [ibufSlice_length, bigEndian_length, Config.magic])
  obtain ⟨h, h₃⟩ := List.append_inj h (by simp [ibufSlice_length, bigEndian_length, Config.magic])
  obtain ⟨h₁, h₂⟩ := List.append_inj h (by simp [ibufSlice_length, Config.magic])
  have ho : headerOriginal s = ft.total := ibufWord_of_bytes h₂
  have hns : ft.nsym.toNat = ft.entries.length := hft.2
  have hcnt : (headerCount s).toNat = ft.entries.length := by
    rw [← bigEndian_headerCount] at h₃
    simp only [bigEndian, List.cons.injEq, and_true] at h₃
    obtain ⟨p, q⟩ := h₃
    have p := congrArg BitVec.toNat p
    have q := congrArg BitVec.toNat q
    simp only [BitVec.toNat_setWidth, BitVec.toNat_ushiftRight, Nat.shiftRight_eq_div_pow] at p q
    have := (headerCount s).isLt
    omega
  have hes : headerEntries s ft.entries.length = ft.entries := by
    have := headerEntries_of_bytes (s := s) ft.entries (i := 0) (by simpa using h₄)
    simpa [headerEntries] using this
  have hget : ∀ j, (hj : j < ft.entries.length) → (entrySymbol s j, entryCount s j) = ft.entries[j] := by
    intro j hj
    have : (headerEntries s ft.entries.length)[j]? = ft.entries[j]? := by rw [hes]
    rw [List.getElem?_eq_getElem hj] at this
    simpa [headerEntries, hj] using this
  have hg : ∀ j, j < ft.entries.length → EntryGood s j := by
    intro j hj
    constructor
    · rintro k rfl
      have hsort := presentSymbols_sorted ft
      rw [presentSymbols, List.pairwise_map, List.pairwise_iff_getElem] at hsort
      have := hsort k (k + 1) (by omega) hj (by omega)
      rw [← hget k (by omega), ← hget (k + 1) hj] at this
      exact this
    · have : (entrySymbol s j, entryCount s j) ∈ ft.entries := by rw [hget j hj]; exact List.getElem_mem _
      exact (mem_entries.1 this).2
  refine ⟨h₁, hcnt, hle, hg, ?_, ?_⟩
  · rw [ho, hft.1, freq_sum_present, presentSymbols, List.map_map, ← hes]
    simp only [headerEntries, List.length_map, List.length_range, List.map_map]
    congr 1
    refine List.map_congr_left fun j hj => ?_
    rw [List.mem_range] at hj
    have : (entrySymbol s j, entryCount s j) ∈ ft.entries := by rw [hget j hj]; exact List.getElem_mem _
    simp only [Function.comp]
    exact congrArg BitVec.toNat (mem_entries.1 this).1
  · refine table_ext ((headerTable_entries hg).trans hes) ho ?_
    show BitVec.ofNat 32 ft.entries.length = ft.nsym
    rw [← hns, BitVec.ofNat_toNat, BitVec.setWidth_eq]

/-- HGET on an input that starts with the header of a table (R215). -/
theorem bodyHget_header {s : State} {ft : FreqTable} (hft : TableOk ft) (hin : s.inLen ≤ s.params.ibufSize)
    (hl : headerLen ft.entries.length ≤ s.inLen.toNat)
    (h : ibufSlice s 0 (headerLen ft.entries.length) = headerBytes ft) :
    bodyHget s = .done ((readAt (headerLen ft.entries.length) (startHeader s)).setTable ft) := by
  obtain ⟨h₁, h₂, h₃, h₄, h₅, h₆⟩ := header_read hft h
  have := bodyHget_ok hin h₁ (by omega) (by rw [h₂]; exact hl) (by rw [h₂]; exact h₄) (by rw [h₂]; exact h₅)
  rw [h₂, h₆] at this
  exact this

end Sys2Proof.Machine
end

