-- ==== Sys2Proof/Laws/Determinism.lean ====
section
/-! SUPPORT. TBLD is a function of FREQ alone (R140): what the node store held before does not matter. -/

namespace Sys2Proof.Machine

open Sys2Proof Sys2Proof.Safety

/-- Two arenas with the same entries so far. -/
structure Agree (t u : Tree) : Prop where
  nint : u.nint = t.nint
  entries : ∀ k : Byte, k < t.nint → u.entry k = t.entry k

/-- Every live handle names a node. -/
theorem Forest.names {ft : FreqTable} {live : List Handle} {t : Tree} (h : Forest ft live t) {c : Handle}
    (hc : c ∈ live) : Names ft t.nint.toNat c := by
  obtain ⟨P, hP, hRep, hleaves, _⟩ := h.trees
  obtain ⟨p, hp, rfl⟩ := List.mem_map.1 (hP.symm.subset hc)
  refine (hRep p hp).names fun s hs => mem_presentSymbols.1 (hleaves.subset ?_)
  exact List.mem_flatMap.2 ⟨p, hp, hs⟩

theorem Agree.node {ft : FreqTable} {t u : Tree} (h : Agree t u) {c : Handle} (hc : Names ft t.nint.toNat c) :
    nodeWeight ft u c = nodeWeight ft t c ∧ nodeLsym u c = nodeLsym t c := by
  unfold Names at hc
  by_cases hl : isLeaf c = true
  · simp [nodeWeight, nodeLsym, hl]
  · rw [if_neg hl] at hc
    simp [nodeWeight, nodeLsym, hl, h.entries _ (BitVec.lt_def.2 hc)]

theorem Agree.minFrom {ft : FreqTable} {t u : Tree} (h : Agree t u) {m : Handle} {hs : List Handle}
    (hm : Names ft t.nint.toNat m) (hn : ∀ c ∈ hs, Names ft t.nint.toNat c) :
    minFrom ft u m hs = minFrom ft t m hs := by
  induction hs generalizing m with
  | nil => rfl
  | cons x xs ih =>
    have hx := hn x (List.mem_cons_self ..)
    have hxs := fun c hc => hn c (List.mem_cons_of_mem _ hc)
    have e : keyBelow ft u x m = keyBelow ft t x m := by
      simp [keyBelow, h.node hx, h.node hm]
    rw [Machine.minFrom, Machine.minFrom, e]
    split
    · exact ih hx hxs
    · exact ih hm hxs

theorem Agree.takeMin {ft : FreqTable} {t u : Tree} (h : Agree t u) {live : List Handle}
    (hn : ∀ c ∈ live, Names ft t.nint.toNat c) : takeMin ft u live = takeMin ft t live := by
  cases live with
  | nil => rfl
  | cons x xs =>
    simp only [Machine.takeMin]
    rw [h.minFrom (hn x (List.mem_cons_self ..)) fun c hc => hn c (List.mem_cons_of_mem _ hc)]

theorem Agree.merge {ft : FreqTable} {t u : Tree} (h : Agree t u) {a b : Handle} (ha : Names ft t.nint.toNat a)
    (hb : Names ft t.nint.toNat b) (hlt : t.nint.toNat < 255) : Agree (t.merge ft a b) (u.merge ft a b) := by
  have hu : u.nint.toNat < 255 := by rw [h.nint]; exact hlt
  refine ⟨by simp [Tree.merge, h.nint], fun k hk => ?_⟩
  by_cases e : k = t.nint
  · subst e
    rw [merge_entry_new a b hlt]
    have := merge_entry_new (ft := ft) (t := u) a b hu
    rw [h.nint] at this
    rw [this, (h.node ha).1, (h.node hb).1, (h.node ha).2]
  · rw [BitVec.lt_def, merge_nint_toNat hlt] at hk
    have hk' : k < t.nint := by
      rw [BitVec.lt_def]
      have : k.toNat ≠ t.nint.toNat := fun e' => e (BitVec.eq_of_toNat_eq e')
      omega
    rw [merge_entry_old a b hk', merge_entry_old a b (by rw [h.nint]; exact hk'), h.entries k hk']

theorem Agree.mergeLoop {ft : FreqTable} (hft : TableOk ft) (fuel : Nat) {live : List Handle} {t u : Tree}
    (h : Agree t u) (hF : Forest ft live t) :
    (mergeLoop ft fuel live u).1 = (mergeLoop ft fuel live t).1 ∧
      Agree (mergeLoop ft fuel live t).2 (mergeLoop ft fuel live u).2 := by
  induction fuel generalizing live t u with
  | zero => exact ⟨rfl, h⟩
  | succ fuel ih =>
    rw [Machine.mergeLoop, Machine.mergeLoop, h.takeMin fun c hc => hF.names hc]
    cases ha : Machine.takeMin ft t live with
    | none => exact ⟨rfl, h⟩
    | some p =>
      obtain ⟨a, live₁⟩ := p
      have pa := takeMin_perm ha
      simp only
      rw [h.takeMin fun c hc => hF.names (pa.symm.subset (List.mem_cons_of_mem _ hc))]
      cases hb : Machine.takeMin ft t live₁ with
      | none => exact ⟨rfl, h⟩
      | some q =>
        obtain ⟨b, live₂⟩ := q
        have pb := takeMin_perm hb
        have hlt : t.nint.toNat < 255 := by
          have h₁ := hF.size
          have h₂ := presentSymbols_length_le ft
          have h₃ := pa.length_eq
          have h₄ := pb.length_eq
          simp only [List.length_cons] at h₃ h₄
          omega
        simp only [h.nint]
        exact ih (h.merge (hF.names (pa.symm.subset (List.mem_cons_self ..)))
          (hF.names (pa.symm.subset (List.mem_cons_of_mem _ (pb.symm.subset (List.mem_cons_self ..))))) hlt)
          (hF.merge hft ha hb)

/-- Whatever the node store held, TBLD makes the same NINT, the same ROOT and the same entries below NINT (R140). -/
theorem buildTree_agree {ft : FreqTable} (hft : TableOk ft) (t u : Tree) :
    Agree (buildTree ft t) (buildTree ft u) ∧ (buildTree ft u).nonempty = (buildTree ft t).nonempty ∧
      (buildTree ft u).root = (buildTree ft t).root := by
  have h₀ : Agree { t with nint := 0#8 } { u with nint := 0#8 } :=
    ⟨rfl, fun k hk => absurd hk (by simp [BitVec.lt_def])⟩
  obtain ⟨h₁, h₂⟩ := h₀.mergeLoop hft (liveLeaves ft).length (Forest.start ft t)
  have e : ∀ v : Tree, buildTree ft v =
      (mergeLoop ft (liveLeaves ft).length (liveLeaves ft) { v with nint := 0#8 }).2.setRoot
        (mergeLoop ft (liveLeaves ft).length (liveLeaves ft) { v with nint := 0#8 }).1 := fun _ => rfl
  rw [e t, e u, h₁]
  refine ⟨⟨by simpa using h₂.nint, fun k hk => ?_⟩, ?_, ?_⟩
  · rw [setRoot_entry, setRoot_entry]; exact h₂.entries k (by simpa using hk)
  · cases (mergeLoop ft (liveLeaves ft).length (liveLeaves ft) { t with nint := 0#8 }).1 <;> rfl
  · cases (mergeLoop ft (liveLeaves ft).length (liveLeaves ft) { t with nint := 0#8 }).1 <;> rfl

/-- Agreeing arenas stand for the same trees. -/
theorem Agree.rep {t u : Tree} (h : Agree t u) {c : Handle} {T : HTree} (hT : Rep t c T) : Rep u c T :=
  hT.transfer (by rw [h.nint]; exact BitVec.le_refl _) h.entries

/-- The code table of TBLD's tree depends on the table alone (R140). -/
theorem codesOf_buildTree {ft : FreqTable} (hft : TableOk ft) (t u : Tree) :
    codesOf (buildTree ft u) = codesOf (buildTree ft t) := by
  obtain ⟨hA, hne, hr⟩ := buildTree_agree hft t u
  obtain ⟨_, _, hs⟩ := buildTree_spec hft t
  unfold codesOf
  rw [hne, hr]
  split
  · next h =>
    obtain ⟨T, hT, hl, _⟩ := hs h
    have hd : T.depth < walkFuel := Rep.depth_lt hl
    have w₁ := hT.walk_eq hd [] CodeTable.zero
    have w₂ := (hA.rep hT).walk_eq hd [] CodeTable.zero
    simp only [List.length_nil, List.foldl_nil] at w₁ w₂
    rw [w₁, w₂]
  · rfl

/-! ### FREQ alone -/

theorem nodeWeight_congr {a b : FreqTable} (h : a.freq = b.freq) : nodeWeight a = nodeWeight b := by
  funext t c
  simp [nodeWeight, FreqTable.count, h]

theorem minFrom_congr {a b : FreqTable} (h : a.freq = b.freq) (t : Tree) (m : Handle) (hs : List Handle) :
    minFrom a t m hs = minFrom b t m hs := by
  induction hs generalizing m with
  | nil => rfl
  | cons c cs ih =>
    have e : keyBelow a t c m = keyBelow b t c m := by simp only [keyBelow, nodeWeight_congr h]
    rw [minFrom, minFrom, e, ih]

theorem takeMin_congr {a b : FreqTable} (h : a.freq = b.freq) (t : Tree) (live : List Handle) :
    takeMin a t live = takeMin b t live := by
  cases live with
  | nil => rfl
  | cons c cs => rw [takeMin, takeMin, minFrom_congr h]

theorem mergeLoop_congr {a b : FreqTable} (h : a.freq = b.freq) (fuel : Nat) (live : List Handle) (t : Tree) :
    mergeLoop a fuel live t = mergeLoop b fuel live t := by
  induction fuel generalizing live t with
  | zero => rfl
  | succ fuel ih =>
    have hm : ∀ x y, t.merge a x y = t.merge b x y := fun x y => by simp only [Tree.merge, nodeWeight_congr h]
    rw [mergeLoop, mergeLoop, takeMin_congr h]
    cases takeMin b t live with
    | none => rfl
    | some p =>
      obtain ⟨x, live₁⟩ := p
      simp only
      rw [takeMin_congr h]
      cases takeMin b t live₁ with
      | none => rfl
      | some q =>
        obtain ⟨y, live₂⟩ := q
        simp only
        rw [hm, ih]

/-- TBLD reads FREQ alone (R130, R140). -/
theorem buildTree_congr {a b : FreqTable} (h : a.freq = b.freq) (t : Tree) : buildTree a t = buildTree b t := by
  have e : liveLeaves a = liveLeaves b := by simp only [liveLeaves, FreqTable.entries, h]
  simp only [buildTree, e, mergeLoop_congr h]

end Sys2Proof.Machine
end

