-- ==== Sys2Proof/Laws/Unpacker.lean ====
section
/-! SUPPORT. What the bit cursor and the tree walk of the unpacker do. -/

namespace Sys2Proof.Machine

open Sys2Proof Sys2Proof.Safety

/-! ### The cursor -/

/-- Bit `i` of IBUF, MSB-first in each byte (R64). -/
def ibufBit (s : State) (i : Nat) : Bool := (s.ibufByte (i / 8)).getLsbD (7 - i % 8)

theorem flatMap_range_bytes (f : Nat → Byte) (a n : Nat) :
    (((List.range n).map fun i => f (a + i)).flatMap byteBits) =
      (List.range (8 * n)).map fun i => (f (a + i / 8)).getLsbD (7 - i % 8) := by
  induction n with
  | zero => rfl
  | succ n ih =>
    rw [List.range_succ, List.map_append, List.flatMap_append, ih, Nat.mul_succ, List.range_add, List.map_append]
    congr 1
    simp only [List.map_singleton, List.flatMap_singleton, byteBits, List.map_map]
    refine List.map_congr_left fun i hi => ?_
    rw [List.mem_range] at hi
    have e₁ : (8 * n + i) / 8 = n := by omega
    have e₂ : (8 * n + i) % 8 = i := by omega
    simp [e₁, e₂]

/-- The bits from the cursor on, as the bits of IBUF from that position (R185). -/
theorem cursorBits_eq (s : State) :
    cursorBits s = (List.range (8 * s.inLen.toNat - cursorPos s)).map fun i => ibufBit s (cursorPos s + i) := by
  have hb := s.unpacker.bidx.isLt
  unfold cursorBits ibufSlice
  rw [flatMap_range_bytes s.ibufByte]
  apply List.ext_getElem
  · simp only [List.length_drop, List.length_map, List.length_range, cursorPos]; omega
  · intro i h₁ h₂
    simp only [List.getElem_drop, List.getElem_map, List.getElem_range, ibufBit, cursorPos]
    have e₁ : (8 * s.inPtr.toNat + s.unpacker.bidx.toNat + i) / 8 =
        s.inPtr.toNat + (s.unpacker.bidx.toNat + i) / 8 := by omega
    have e₂ : (8 * s.inPtr.toNat + s.unpacker.bidx.toNat + i) % 8 = (s.unpacker.bidx.toNat + i) % 8 := by omega
    rw [e₁, e₂]

/-- GetBit can succeed as often as there are bits from the cursor on (R187). -/
theorem bitsLeft_eq (s : State) : bitsLeft s = (cursorBits s).length := by
  rw [cursorBits_eq, List.length_map, List.length_range, bitsLeft, cursorPos]; omega

theorem cursorBits_eq_nil {s : State} : cursorBits s = [] ↔ s.inLen ≤ s.inPtr := by
  have hb := s.unpacker.bidx.isLt
  rw [← List.length_eq_zero_iff, ← bitsLeft_eq, bitsLeft, BitVec.le_def]; omega

/-- The cursor `n` bits further; nothing else changes. -/
def moved (n : Nat) (s : State) : State :=
  (s.setInPtr (BitVec.ofNat 32 ((cursorPos s + n) / 8))).setUnpacker
    { s.unpacker with bidx := BitVec.ofNat 3 (cursorPos s + n) }

theorem moved_zero (s : State) : moved 0 s = s := by
  have hb := s.unpacker.bidx.isLt
  have e₁ : BitVec.ofNat 32 ((cursorPos s + 0) / 8) = s.inPtr := by
    apply BitVec.eq_of_toNat_eq
    have := s.inPtr.isLt
    rw [BitVec.toNat_ofNat, cursorPos]; omega
  have e₂ : BitVec.ofNat 3 (cursorPos s + 0) = s.unpacker.bidx := by
    apply BitVec.eq_of_toNat_eq
    rw [BitVec.toNat_ofNat, cursorPos]; omega
  rw [moved, e₁, e₂]
  rfl

/-- Within the input the cursor moves by the number of bits. -/
theorem cursorPos_moved {n : Nat} {s : State} (h : cursorPos s + n ≤ 8 * s.inLen.toNat) :
    cursorPos (moved n s) = cursorPos s + n := by
  have := s.inLen.isLt
  show 8 * (BitVec.ofNat 32 ((cursorPos s + n) / 8)).toNat + (BitVec.ofNat 3 (cursorPos s + n)).toNat = _
  rw [BitVec.toNat_ofNat, BitVec.toNat_ofNat]; omega

theorem moved_moved {m n : Nat} {s : State} (h : cursorPos s + m ≤ 8 * s.inLen.toNat) :
    moved n (moved m s) = moved (m + n) s := by
  have e := cursorPos_moved h
  unfold moved at e ⊢
  rw [e, Nat.add_assoc]
  rfl

theorem cursorBits_moved {n : Nat} {s : State} (h : cursorPos s + n ≤ 8 * s.inLen.toNat) :
    cursorBits (moved n s) = (cursorBits s).drop n := by
  rw [cursorBits_eq, cursorBits_eq, cursorPos_moved h]
  have e : (moved n s).inLen = s.inLen := rfl
  rw [e]
  apply List.ext_getElem
  · simp only [List.length_drop, List.length_map, List.length_range]; omega
  · intro i h₁ h₂
    simp only [List.getElem_drop, List.getElem_map, List.getElem_range, Nat.add_assoc]
    rfl

/-- A list of bits that stands at the cursor fits before IN_LEN. -/
theorem cursorPos_le {s : State} {p q : List Bool} (h : cursorBits s = p ++ q) (hne : p ≠ []) :
    cursorPos s + p.length ≤ 8 * s.inLen.toNat := by
  have e := congrArg List.length h
  have hp := List.length_pos_of_ne_nil hne
  rw [cursorBits_eq, List.length_map, List.length_range, List.length_append] at e
  omega

theorem cursorBits_moved_append {s : State} {p q : List Bool} (h : cursorBits s = p ++ q) :
    cursorBits (moved p.length s) = q := by
  by_cases hne : p = []
  · subst hne; rw [List.length_nil, moved_zero, h]; rfl
  · rw [cursorBits_moved (cursorPos_le h hne), h, List.drop_left]

/-- The bit under the cursor is the first of the bits from it on (R187). -/
theorem cursorBits_cons {s : State} (h : s.inPtr < s.inLen) :
    cursorBits s = cursorBit s :: cursorBits (pastBit s) ∧ pastBit s = moved 1 s := by
  rw [BitVec.lt_def] at h
  have hb := s.unpacker.bidx.isLt
  have hl := s.inLen.isLt
  have hpos : cursorPos s + 1 ≤ 8 * s.inLen.toNat := by rw [cursorPos]; omega
  have hp : pastBit s = moved 1 s := by
    unfold pastBit moved
    by_cases h7 : s.unpacker.bidx = 7#3
    · have h7' : s.unpacker.bidx.toNat = 7 := by rw [h7]; rfl
      rw [if_pos h7]
      have e₁ : BitVec.ofNat 32 ((cursorPos s + 1) / 8) = s.inPtr + 1#32 := by
        apply BitVec.eq_of_toNat_eq
        have : (1#32).toNat = 1 := rfl
        rw [BitVec.toNat_ofNat, BitVec.toNat_add, this, cursorPos]; omega
      have e₂ : BitVec.ofNat 3 (cursorPos s + 1) = 0#3 := by
        apply BitVec.eq_of_toNat_eq
        have : (0#3).toNat = 0 := rfl
        rw [BitVec.toNat_ofNat, this, cursorPos]; omega
      rw [e₁, e₂]
      rfl
    · have h7' : s.unpacker.bidx.toNat ≠ 7 := fun e => h7 (BitVec.eq_of_toNat_eq e)
      rw [if_neg h7]
      have e₁ : BitVec.ofNat 32 ((cursorPos s + 1) / 8) = s.inPtr := by
        apply BitVec.eq_of_toNat_eq
        rw [BitVec.toNat_ofNat, cursorPos]; omega
      have e₂ : BitVec.ofNat 3 (cursorPos s + 1) = s.unpacker.bidx + 1#3 := by
        apply BitVec.eq_of_toNat_eq
        have : (1#3).toNat = 1 := rfl
        rw [BitVec.toNat_ofNat, BitVec.toNat_add, this, cursorPos]; omega
      rw [e₁, e₂]
      rfl
  refine ⟨?_, hp⟩
  rw [hp, cursorBits_moved hpos]
  have hc : cursorBit s = ibufBit s (cursorPos s) := by
    unfold cursorBit inByte ibufBit cursorPos
    have e₁ : (8 * s.inPtr.toNat + s.unpacker.bidx.toNat) / 8 = s.inPtr.toNat := by omega
    have e₂ : (8 * s.inPtr.toNat + s.unpacker.bidx.toNat) % 8 = s.unpacker.bidx.toNat := by omega
    rw [e₁, e₂]
  rw [cursorBits_eq, hc]
  obtain ⟨n, hn⟩ : ∃ n, 8 * s.inLen.toNat - cursorPos s = n + 1 := ⟨8 * s.inLen.toNat - cursorPos s - 1, by omega⟩
  rw [hn, List.range_succ_eq_map]
  rfl

/-- GetBit gives the first bit from the cursor on (R187). -/
theorem getBit_cons {s : State} {b : Bool} {bs : List Bool} (h : cursorBits s = b :: bs) (rest : Bool → State → Ran) :
    getBit s rest = rest b (moved 1 s) := by
  have hne : ¬s.inLen ≤ s.inPtr := fun e => by rw [cursorBits_eq_nil.2 e] at h; cases h
  obtain ⟨e, hp⟩ := cursorBits_cons (BitVec.not_le.1 hne)
  rw [getBit, if_neg hne, hp]
  rw [h] at e
  rw [(List.cons.inj e).1]

/-- With no bit left GetBit raises (R187, R257). -/
theorem getBit_nil {s : State} (h : cursorBits s = []) (rest : Bool → State → Ran) :
    getBit s rest = .raised ⟨.corruptExhausted, s.unpacker.rem⟩ s := by
  rw [getBit, if_pos (cursorBits_eq_nil.1 h)]

theorem getBit_cases (s : State) (rest : Bool → State → Ran) :
    getBit s rest = .raised ⟨.corruptExhausted, s.unpacker.rem⟩ s ∨ ∃ b, getBit s rest = rest b (moved 1 s) := by
  cases h : cursorBits s with
  | nil => exact .inl (getBit_nil h rest)
  | cons b bs => exact .inr ⟨b, getBit_cons h rest⟩

/-! ### The walk -/

theorem cursorBits_congr {s t : State} (hi : t.ibuf = s.ibuf) (hl : t.inLen = s.inLen) (hp : t.inPtr = s.inPtr)
    (hb : t.unpacker.bidx = s.unpacker.bidx) : cursorBits t = cursorBits s := by
  unfold cursorBits
  rw [hl, hp, hb, ibufSlice_congr hi]

@[simp] theorem cursorBits_setCur (h : Handle) (s : State) : cursorBits (setCur h s) = cursorBits s :=
  cursorBits_congr rfl rfl rfl rfl

@[simp] theorem cursorBits_descend (b : Bool) (s : State) : cursorBits (descend b s) = cursorBits s :=
  cursorBits_congr rfl rfl rfl rfl

theorem setCur_setCur (g h : Handle) (s : State) : setCur g (setCur h s) = setCur g s := rfl

theorem moved_setCur (n : Nat) (h : Handle) (s : State) : moved n (setCur h s) = setCur h (moved n s) := rfl

/-- The loop of the walk at a leaf. -/
theorem walkToLeaf_leaf {s : State} (h : isLeaf s.unpacker.cur = true) (n : Nat) : walkToLeaf n s = .done s := by
  cases n <;> simp [walkToLeaf, h]

/-- The loop of the walk takes the next bit at an internal node (R190). -/
theorem walkToLeaf_cons {s : State} (h : isLeaf s.unpacker.cur = false) {b : Bool} {bs : List Bool}
    (hc : cursorBits s = b :: bs) :
    walkToLeaf (cursorBits s).length s = walkToLeaf bs.length (descend b (moved 1 s)) := by
  rw [hc, List.length_cons, walkToLeaf, if_neg (by simp [h]), getBit_cons hc]

/-- The loop of the walk raises when no bit is left at an internal node (R187, R190). -/
theorem walkToLeaf_nil {s : State} (h : isLeaf s.unpacker.cur = false) (hc : cursorBits s = []) :
    walkToLeaf (cursorBits s).length s = .raised ⟨.corruptExhausted, s.unpacker.rem⟩ s := by
  rw [hc, List.length_nil, walkToLeaf, if_neg (by simp [h])]

/-- The walk follows the path that spells the code (R190, R194). -/
theorem Rep.walkToLeaf_path {t : Tree} {h : Handle} {T : HTree} (hT : Rep t h T) {s : State} (ht : s.tree = t)
    (hcur : s.unpacker.cur = h) {e : Byte × List Bool} (he : e ∈ T.paths) {rest : List Bool}
    (hc : cursorBits s = e.2 ++ rest) :
    walkToLeaf (cursorBits s).length s = .done (setCur (leafHandle e.1) (moved e.2.length s)) := by
  induction hT generalizing s e with
  | leaf x =>
    simp [HTree.paths] at he
    subst he
    rw [walkToLeaf_leaf (by rw [hcur]; simp), List.length_nil, moved_zero, ← hcur]
    rfl
  | node k l r hk _ _ ihl ihr =>
    have hnl : isLeaf s.unpacker.cur = false := by rw [hcur]; simp
    have hcase : ∀ (b : Bool) (U : HTree) (c : Handle), (if b then t.right (nodeHandle k) else t.left (nodeHandle k)) = c →
        (∀ {s' : State}, s'.tree = t → s'.unpacker.cur = c → ∀ {e : Byte × List Bool}, e ∈ U.paths →
          cursorBits s' = e.2 ++ rest →
          walkToLeaf (cursorBits s').length s' = .done (setCur (leafHandle e.1) (moved e.2.length s'))) →
        ∀ f ∈ U.paths, e = (f.1, b :: f.2) →
        walkToLeaf (cursorBits s).length s = .done (setCur (leafHandle e.1) (moved e.2.length s)) := by
      intro b U c hbc ih f hf he
      subst he
      have hc' : cursorBits s = b :: (f.2 ++ rest) := hc
      rw [walkToLeaf_cons hnl hc']
      have hpos : cursorPos s + 1 ≤ 8 * s.inLen.toNat :=
        cursorPos_le (p := [b]) (q := f.2 ++ rest) hc' (by simp)
      have hm : cursorBits (moved 1 s) = f.2 ++ rest := cursorBits_moved_append (p := [b]) hc'
      have hd : descend b (moved 1 s) = setCur c (moved 1 s) := by
        rw [← hbc, ← hcur, ← ht]; rfl
      have := ih (s' := setCur c (moved 1 s)) ht rfl hf (by rw [cursorBits_setCur, hm])
      rw [cursorBits_setCur, hm] at this
      rw [hd, this, moved_setCur, setCur_setCur, moved_moved hpos, List.length_cons, Nat.add_comm 1]
    rw [HTree.paths, List.mem_append, List.mem_map, List.mem_map] at he
    obtain ⟨f, hf, he⟩ | ⟨f, hf, he⟩ := he
    · exact hcase false l (t.entry k).left (by simp) (fun {_} h₁ h₂ {_} h₃ h₄ => ihl h₁ h₂ h₃ h₄) f hf he.symm
    · exact hcase true r (t.entry k).right (by simp) (fun {_} h₁ h₂ {_} h₃ h₄ => ihr h₁ h₂ h₃ h₄) f hf he.symm

/-- Where no path of the tree stands at the cursor, the bits run out before a leaf is reached (R187, R190). -/
theorem Rep.walkToLeaf_exhausted {t : Tree} {h : Handle} {T : HTree} (hT : Rep t h T) {s : State} (ht : s.tree = t)
    (hcur : s.unpacker.cur = h) (hno : ∀ e ∈ T.paths, ¬e.2 <+: cursorBits s) :
    ∃ c, walkToLeaf (cursorBits s).length s =
      .raised ⟨.corruptExhausted, s.unpacker.rem⟩ (setCur c (moved (cursorBits s).length s)) := by
  induction hT generalizing s with
  | leaf x => exact absurd (List.nil_prefix) (hno (x, []) (by simp [HTree.paths]))
  | node k l r hk _ _ ihl ihr =>
    have hnl : isLeaf s.unpacker.cur = false := by rw [hcur]; simp
    cases hc : cursorBits s with
    | nil =>
      refine ⟨s.unpacker.cur, ?_⟩
      have := walkToLeaf_nil hnl hc
      rw [hc] at this
      rw [this, List.length_nil, moved_zero]
      rfl
    | cons b bs =>
      have hpos : cursorPos s + 1 ≤ 8 * s.inLen.toNat := cursorPos_le (p := [b]) (q := bs) hc (by simp)
      have hm : cursorBits (moved 1 s) = bs := cursorBits_moved_append (p := [b]) hc
      have hstep := walkToLeaf_cons hnl hc
      rw [hc] at hstep
      have fin : ∀ c, (∃ d, walkToLeaf (cursorBits (setCur c (moved 1 s))).length (setCur c (moved 1 s)) =
          .raised ⟨.corruptExhausted, s.unpacker.rem⟩
            (setCur d (moved (cursorBits (setCur c (moved 1 s))).length (setCur c (moved 1 s))))) →
          descend b (moved 1 s) = setCur c (moved 1 s) →
          ∃ d, walkToLeaf (b :: bs).length s =
            .raised ⟨.corruptExhausted, s.unpacker.rem⟩ (setCur d (moved (b :: bs).length s)) := by
        rintro c ⟨d, hd⟩ hb
        rw [cursorBits_setCur, hm] at hd
        refine ⟨d, ?_⟩
        rw [hstep, hb, hd, moved_setCur, setCur_setCur, moved_moved hpos, List.length_cons, Nat.add_comm 1]
      cases b with
      | false =>
        refine fin _ (ihl (s := setCur (t.left (nodeHandle k)) (moved 1 s)) ht (by simp [setCur]) ?_) ?_
        · intro e he hpre
          rw [cursorBits_setCur, hm] at hpre
          refine hno (e.1, false :: e.2) ?_ ?_
          · rw [HTree.paths]; exact List.mem_append_left _ (List.mem_map_of_mem (f := fun e => (e.1, false :: e.2)) he)
          · rw [hc]; exact List.cons_prefix_cons.2 ⟨rfl, hpre⟩
        · rw [← hcur, ← ht]; rfl
      | true =>
        refine fin _ (ihr (s := setCur (t.right (nodeHandle k)) (moved 1 s)) ht (by simp [setCur]) ?_) ?_
        · intro e he hpre
          rw [cursorBits_setCur, hm] at hpre
          refine hno (e.1, true :: e.2) ?_ ?_
          · rw [HTree.paths]; exact List.mem_append_right _ (List.mem_map_of_mem (f := fun e => (e.1, true :: e.2)) he)
          · rw [hc]; exact List.cons_prefix_cons.2 ⟨rfl, hpre⟩
        · rw [← hcur, ← ht]; rfl

/-- The bits of one symbol: with its code at the cursor the walk ends at its leaf, past the code (R189, R190). -/
theorem Rep.walkSymbol_code {T : HTree} {s : State} (hT : Rep s.tree s.tree.root T) {e : Byte × List Bool}
    (he : e ∈ T.codes) {rest : List Bool} (hc : cursorBits s = e.2 ++ rest) :
    walkSymbol s = .done (setCur (leafHandle e.1) (moved e.2.length s)) := by
  generalize hr : s.tree.root = h at hT
  unfold walkSymbol
  rw [hr]
  cases hT with
  | leaf x =>
    simp [HTree.codes] at he
    subst he
    have hc' : cursorBits (setCur (leafHandle x) s) = false :: rest := by rw [cursorBits_setCur]; exact hc
    rw [if_pos (by simp), singleLeafBit, getBit_cons hc', guardRaise_pass rfl, moved_setCur]
    rfl
  | node k l r hk hl hr' =>
    rw [if_neg (by simp), bitsLeft_eq]
    have := (Rep.node k l r hk hl hr').walkToLeaf_path (s := setCur (nodeHandle k) s) rfl rfl he
      (by rw [cursorBits_setCur]; exact hc)
    rw [cursorBits_setCur] at this
    rw [this, moved_setCur, setCur_setCur]

/-- Without any code at the cursor: a 1 under a single leaf is BADBIT, every other case is EXHAUSTED (R189, R190,
R257). In both the bits up to the failing one are consumed. -/
theorem Rep.walkSymbol_noCode {T : HTree} {s : State} (hT : Rep s.tree s.tree.root T)
    (hno : ∀ e ∈ T.codes, ¬e.2 <+: cursorBits s) :
    (∃ c, walkSymbol s = .raised ⟨.corruptExhausted, s.unpacker.rem⟩ (setCur c (moved (cursorBits s).length s))) ∨
      (isLeaf s.tree.root = true ∧ (∃ bs, cursorBits s = true :: bs) ∧
        walkSymbol s = .raised ⟨.corruptBadbit, s.unpacker.rem⟩ (setCur s.tree.root (moved 1 s))) := by
  generalize hr : s.tree.root = h at hT
  unfold walkSymbol
  rw [hr]
  cases hT with
  | leaf x =>
    have hcs : cursorBits (setCur (leafHandle x) s) = cursorBits s := cursorBits_setCur _ _
    rw [if_pos (by simp), singleLeafBit]
    cases hc : cursorBits s with
    | nil =>
      rw [hc] at hcs
      left
      refine ⟨leafHandle x, ?_⟩
      rw [getBit_nil hcs, List.length_nil, moved_zero]
      rfl
    | cons b bs =>
      rw [hc] at hcs
      rw [getBit_cons hcs]
      cases b with
      | false => exact absurd (by rw [hc]; exact ⟨bs, rfl⟩) (hno (x, [false]) (by simp [HTree.codes]))
      | true => exact .inr ⟨by simp, ⟨bs, rfl⟩, by rw [guardRaise_fail rfl]; rfl⟩
  | node k l r hk hl hr' =>
    left
    rw [if_neg (by simp), bitsLeft_eq]
    obtain ⟨c, hc⟩ := (Rep.node k l r hk hl hr').walkToLeaf_exhausted (s := setCur (nodeHandle k) s) rfl rfl
      (fun e he => by rw [cursorBits_setCur]; exact hno e he)
    refine ⟨c, ?_⟩
    rw [cursorBits_setCur] at hc
    rw [hc, moved_setCur, setCur_setCur]
    rfl

/-! ### One symbol and many -/

/-- The state after a symbol whose code is `n` bits long (R190). -/
def decoded (sym : Byte) (n : Nat) (s : State) : State :=
  (appendByte sym (moved n s)).setUnpacker ⟨(moved n s).unpacker.bidx, s.tree.root, s.unpacker.rem - 1#32⟩

theorem decoded_cur (sym : Byte) (n : Nat) (s : State) : (decoded sym n s).unpacker.cur = s.tree.root := rfl
theorem decoded_rem (sym : Byte) (n : Nat) (s : State) : (decoded sym n s).unpacker.rem = s.unpacker.rem - 1#32 := rfl
theorem decoded_tree (sym : Byte) (n : Nat) (s : State) : (decoded sym n s).tree = s.tree := rfl

/-- DecodeOne with the code of a symbol at the cursor and room for a byte (R190, R194). -/
theorem Rep.decodeOne_code {T : HTree} {s : State} (hT : Rep s.tree s.tree.root T) (hne : s.tree.nonempty = true)
    {e : Byte × List Bool} (he : e ∈ T.codes) {rest : List Bool} (hc : cursorBits s = e.2 ++ rest)
    (hr : s.outLen < s.params.obufSize) : decodeOne s = .done (decoded e.1 e.2.length s) := by
  rw [decodeOne, guardRaise_pass (by simp [hne]), Ran.andThen_done, hT.walkSymbol_code he hc, Ran.andThen_done,
    emitSymbol, outByte_room (by exact hr), Ran.andThen_done]
  have : lowByte (setCur (leafHandle e.1) (moved e.2.length s)).unpacker.cur = e.1 := lowByte_leafHandle e.1
  rw [this]
  rfl

/-- DecodeOne with the code at the cursor but no room: the bits are consumed, then CapacityError(OBUF) (R264). -/
theorem Rep.decodeOne_full {T : HTree} {s : State} (hT : Rep s.tree s.tree.root T) (hne : s.tree.nonempty = true)
    {e : Byte × List Bool} (he : e ∈ T.codes) {rest : List Bool} (hc : cursorBits s = e.2 ++ rest)
    (hr : s.params.obufSize ≤ s.outLen) :
    decodeOne s = .raised ⟨.capObuf, s.outLen⟩ (setCur (leafHandle e.1) (moved e.2.length s)) := by
  rw [decodeOne, guardRaise_pass (by simp [hne]), Ran.andThen_done, hT.walkSymbol_code he hc, Ran.andThen_done,
    emitSymbol, outByte_full (by exact hr), Ran.andThen_raised]
  rfl

/-- A leaf's code in the table is its path. -/
theorem CodesTree.mem_codes {ct : CodeTable} {T : HTree} (h : CodesTree ct T) {b : Byte} (hb : b ∈ T.leaves) :
    (b, codeBits ct b) ∈ T.codes := by
  rw [← T.codes_fst, List.mem_map] at hb
  obtain ⟨e, he, rfl⟩ := hb
  rw [h.code e he]
  exact he

/-- Two codes of one tree, one the beginning of the other, are the same symbol's (R153 (b), (d)). -/
theorem HTree.codes_prefix {T : HTree} {e f : Byte × List Bool} (he : e ∈ T.codes) (hf : f ∈ T.codes)
    (h : e.2 <+: f.2) : e = f := by
  cases T with
  | leaf s => simp [HTree.codes] at he hf; rw [he, hf]
  | node k l r => exact HTree.paths_prefix he hf h

theorem payloadBits_cons (ct : CodeTable) (b : Byte) (bs : List Byte) :
    payloadBits ct (b :: bs) = codeBits ct b ++ payloadBits ct bs := rfl

theorem moved_decoded {b : Byte} {n : Nat} (m : Nat) {s : State} (h : cursorPos s + n ≤ 8 * s.inLen.toNat) :
    moved m (decoded b n s) =
      (((moved (n + m) s).setObuf (decoded b n s).obuf).setOutLen (decoded b n s).outLen).setUnpacker
        ⟨(moved (n + m) s).unpacker.bidx, s.tree.root, s.unpacker.rem - 1#32⟩ := by rw [← moved_moved h]; rfl

theorem word_sub_succ (x : Word) (n : Nat) : x - 1#32 - BitVec.ofNat 32 n = x - BitVec.ofNat 32 (n + 1) := by
  rw [BitVec.ofNat_add]
  ring

/-- UNPK's loop on the payload of a sequence of present symbols, with room for what it appends: the sequence is
appended (R194). -/
theorem Rep.decodeMany_payload {T : HTree} {ct : CodeTable} (hct : CodesTree ct T) (bs : List Byte) {s : State}
    (hT : Rep s.tree s.tree.root T) (hne : s.tree.nonempty = true) (hb : ∀ b ∈ bs, b ∈ T.leaves) {rest : List Bool}
    (hc : cursorBits s = payloadBits ct bs ++ rest)
    (hr : bs = [] ∨ s.outLen.toNat + bs.length ≤ s.params.obufSize.toNat) :
    ∃ t, decodeMany bs.length s = .done t ∧
      t = (((moved (payloadBits ct bs).length s).setObuf t.obuf).setOutLen t.outLen).setUnpacker
        ⟨(moved (payloadBits ct bs).length s).unpacker.bidx, if bs = [] then s.unpacker.cur else s.tree.root,
          s.unpacker.rem - BitVec.ofNat 32 bs.length⟩ ∧
      t.outLen.toNat = s.outLen.toNat + bs.length ∧
      (∀ a, a < s.outLen.toNat ∨ t.outLen.toNat ≤ a → t.obufByte a = s.obufByte a) ∧
      ∀ p, p ≤ s.outLen.toNat → obufSlice t p t.outLen.toNat = obufSlice s p s.outLen.toNat ++ bs := by
  induction bs generalizing s with
  | nil =>
    refine ⟨s, rfl, ?_, rfl, fun _ _ => rfl, fun p _ => by simp⟩
    have : (payloadBits ct []).length = 0 := rfl
    rw [this, moved_zero]
    simp [State.setObuf, State.setOutLen, State.setUnpacker]
  | cons b bs ih =>
    have hr := hr.resolve_left (List.cons_ne_nil b bs)
    rw [List.length_cons] at hr
    have hroom : s.outLen < s.params.obufSize := BitVec.lt_def.2 (by omega)
    have hmem := hct.mem_codes (hb b (List.mem_cons_self ..))
    rw [payloadBits_cons, List.append_assoc] at hc
    have h₁ := hT.decodeOne_code hne hmem hc hroom
    have hl : (decoded b (codeBits ct b).length s).outLen.toNat = s.outLen.toNat + 1 :=
      appendByte_outLen_toNat (s := moved (codeBits ct b).length s) hroom b
    have hcne : codeBits ct b ≠ [] := HTree.codes_ne_nil hmem
    have hpos : cursorPos s + (codeBits ct b).length ≤ 8 * s.inLen.toNat := cursorPos_le hc hcne
    have hc' : cursorBits (decoded b (codeBits ct b).length s) = payloadBits ct bs ++ rest := by
      rw [← cursorBits_moved_append hc]
      exact cursorBits_congr rfl rfl rfl rfl
    obtain ⟨t, k₁, k₂, k₃, k₄, k₅⟩ := ih (s := decoded b (codeBits ct b).length s) hT hne
      (fun x hx => hb x (List.mem_cons_of_mem _ hx)) hc'
      (.inr (by rw [hl]; show _ ≤ s.params.obufSize.toNat; omega))
    have hout : ∀ a, a ≠ s.outLen.toNat → (decoded b (codeBits ct b).length s).obufByte a = s.obufByte a := fun a ha =>
      appendByte_obufByte_other b (moved (codeBits ct b).length s) ha
    refine ⟨t, ?_, ?_, by rw [k₃, hl, List.length_cons]; omega, fun a ha => ?_, fun p hp => ?_⟩
    · rw [List.length_cons, decodeMany, h₁, Ran.andThen_done, k₁]
    · generalize t.obuf = o at k₂
      generalize t.outLen = l at k₂
      rw [moved_decoded _ hpos, decoded_cur, decoded_tree, decoded_rem, word_sub_succ, ite_self] at k₂
      rw [k₂, payloadBits_cons, List.length_append, List.length_cons, if_neg (List.cons_ne_nil b bs)]
      generalize moved ((codeBits ct b).length + (payloadBits ct bs).length) s = X
      generalize (decoded b (codeBits ct b).length s).obuf = o'
      generalize (decoded b (codeBits ct b).length s).outLen = l'
      rfl
    · rw [k₄ a (by rw [hl]; omega), hout a (by omega)]
    · rw [k₅ p (by rw [hl]; omega)]
      have : obufSlice (decoded b (codeBits ct b).length s) p (decoded b (codeBits ct b).length s).outLen.toNat =
          obufSlice s p s.outLen.toNat ++ [b] :=
        obufSlice_appendByte (s := moved (codeBits ct b).length s) hroom b hp
      rw [this]; simp

/-- The walk on a proper beginning of a present symbol's code runs out of bits (R187, R257). -/
theorem Rep.walkSymbol_cut {T : HTree} {s : State} (hT : Rep s.tree s.tree.root T) {e : Byte × List Bool}
    (he : e ∈ T.codes) (hc : cursorBits s <+: e.2) (hlt : (cursorBits s).length < e.2.length) :
    ∃ c, walkSymbol s = .raised ⟨.corruptExhausted, s.unpacker.rem⟩ (setCur c (moved (cursorBits s).length s)) := by
  have hno : ∀ f ∈ T.codes, ¬f.2 <+: cursorBits s := by
    intro f hf h
    obtain rfl := HTree.codes_prefix hf he (h.trans hc)
    exact absurd h.length_le (by omega)
  obtain h | ⟨hl, ⟨q, hq⟩, -⟩ := hT.walkSymbol_noCode hno
  · exact h
  · exfalso
    rw [hq] at hlt hc
    generalize s.tree.root = r at hT hl
    cases hT with
    | leaf x =>
      simp only [HTree.codes, List.mem_singleton] at he
      rw [he] at hlt
      simp at hlt
    | node k l r => simp at hl

/-- UNPK's loop on a payload cut short, with room: the bits run out, ERRINFO counts the symbols not produced, the
cursor stands at the end (R191, R193). -/
theorem Rep.decodeMany_short {T : HTree} {ct : CodeTable} (hct : CodesTree ct T) (bs : List Byte) {s : State}
    (hT : Rep s.tree s.tree.root T) (hne : s.tree.nonempty = true) (hb : ∀ b ∈ bs, b ∈ T.leaves)
    (hc : cursorBits s <+: payloadBits ct bs) (hlt : (cursorBits s).length < (payloadBits ct bs).length)
    (hr : s.outLen.toNat + bs.length ≤ s.params.obufSize.toNat) :
    ∃ u k, decodeMany bs.length s = .raised ⟨.corruptExhausted, s.unpacker.rem - BitVec.ofNat 32 k⟩ u ∧
      k < bs.length ∧ (payloadBits ct (bs.take k)).length ≤ (cursorBits s).length ∧
      (cursorBits s).length < (payloadBits ct (bs.take (k + 1))).length ∧
      (moved (cursorBits s).length s).inPtr = u.inPtr ∧ u.unpacker.rem = s.unpacker.rem - BitVec.ofNat 32 k := by
  induction bs generalizing s with
  | nil => exact absurd hlt (by simp [payloadBits])
  | cons b bs ih =>
    rw [List.length_cons] at hr
    have hroom : s.outLen < s.params.obufSize := BitVec.lt_def.2 (by omega)
    have hmem := hct.mem_codes (hb b (List.mem_cons_self ..))
    have hcne : codeBits ct b ≠ [] := HTree.codes_ne_nil hmem
    rw [payloadBits_cons] at hc hlt
    rw [List.length_append] at hlt
    by_cases hpre : codeBits ct b <+: cursorBits s
    · obtain ⟨q, hq⟩ := hpre
      have hq' : cursorBits s = codeBits ct b ++ q := hq.symm
      have h₁ := hT.decodeOne_code hne hmem hq' hroom
      have hl : (decoded b (codeBits ct b).length s).outLen.toNat = s.outLen.toNat + 1 :=
        appendByte_outLen_toNat (s := moved (codeBits ct b).length s) hroom b
      have hpos : cursorPos s + (codeBits ct b).length ≤ 8 * s.inLen.toNat := cursorPos_le hq' hcne
      have hc' : cursorBits (decoded b (codeBits ct b).length s) = q := by
        rw [← cursorBits_moved_append hq']
        exact cursorBits_congr rfl rfl rfl rfl
      rw [hq', List.length_append] at hlt
      rw [hq', List.prefix_append_right_inj] at hc
      obtain ⟨u, k, k₁, k₂, k₃, k₄, k₅, k₆⟩ := ih (s := decoded b (codeBits ct b).length s) hT hne
        (fun x hx => hb x (List.mem_cons_of_mem _ hx)) (by rw [hc']; exact hc) (by rw [hc']; omega)
        (by rw [hl]; show _ ≤ s.params.obufSize.toNat; omega)
      rw [hc'] at k₃ k₄ k₅
      rw [decoded_rem, word_sub_succ] at k₁ k₆
      refine ⟨u, k + 1, ?_, by rw [List.length_cons]; omega, ?_, ?_, ?_, k₆⟩
      · rw [List.length_cons, decodeMany, h₁, Ran.andThen_done, k₁]
      · rw [List.take_succ_cons, payloadBits_cons, hq', List.length_append, List.length_append]; omega
      · rw [List.take_succ_cons, payloadBits_cons, hq', List.length_append, List.length_append]; omega
      · rw [← k₅, moved_decoded _ hpos, hq', List.length_append]; rfl
    · have hcb : cursorBits s <+: codeBits ct b :=
        List.prefix_of_prefix_length_le hc (List.prefix_append ..) (by
          rcases Nat.le_total (cursorBits s).length (codeBits ct b).length with h | h
          · exact h
          · exact absurd (List.prefix_of_prefix_length_le (List.prefix_append ..) hc h) hpre)
      have hlen : (cursorBits s).length < (codeBits ct b).length := by
        refine lt_of_le_of_ne hcb.length_le fun e => hpre ?_
        rw [hcb.eq_of_length e]
      obtain ⟨c, hw⟩ := hT.walkSymbol_cut hmem hcb hlen
      refine ⟨setCur c (moved (cursorBits s).length s), 0, ?_, by simp, by simp [payloadBits], ?_, rfl,
        (BitVec.sub_zero _).symm⟩
      · rw [List.length_cons, decodeMany, decodeOne, guardRaise_pass (by simp [hne]), Ran.andThen_done, hw,
          Ran.andThen_raised, Ran.andThen_raised]
        simp
      · rw [List.take_succ_cons, payloadBits_cons, List.length_append]; omega

/-- UNPK's loop on a payload that OBUF has no room for: CapacityError(OBUF) where OBUF is full (R260, R264). -/
theorem Rep.decodeMany_full {T : HTree} {ct : CodeTable} (hct : CodesTree ct T) (bs : List Byte) {s : State}
    (hT : Rep s.tree s.tree.root T) (hne : s.tree.nonempty = true) (hb : ∀ b ∈ bs, b ∈ T.leaves) {rest : List Bool}
    (hc : cursorBits s = payloadBits ct bs ++ rest) (h₀ : bs ≠ [])
    (hr : s.params.obufSize.toNat < s.outLen.toNat + bs.length) :
    ∃ u, decodeMany bs.length s = .raised ⟨.capObuf, fullAt s⟩ u := by
  induction bs generalizing s with
  | nil => exact absurd rfl h₀
  | cons b bs ih =>
    rw [List.length_cons] at hr
    have hmem := hct.mem_codes (hb b (List.mem_cons_self ..))
    rw [payloadBits_cons, List.append_assoc] at hc
    by_cases hroom : s.outLen < s.params.obufSize
    · have h₁ := hT.decodeOne_code hne hmem hc hroom
      have hl : (decoded b (codeBits ct b).length s).outLen.toNat = s.outLen.toNat + 1 :=
        appendByte_outLen_toNat (s := moved (codeBits ct b).length s) hroom b
      have hc' : cursorBits (decoded b (codeBits ct b).length s) = payloadBits ct bs ++ rest := by
        rw [← cursorBits_moved_append hc]
        exact cursorBits_congr rfl rfl rfl rfl
      have hpar : (decoded b (codeBits ct b).length s).params = s.params := rfl
      rw [BitVec.lt_def] at hroom
      have hne' : bs ≠ [] := by
        rintro rfl
        rw [List.length_nil] at hr
        omega
      obtain ⟨u, hu⟩ := ih (s := decoded b (codeBits ct b).length s) hT hne
        (fun x hx => hb x (List.mem_cons_of_mem _ hx)) hc' hne' (by rw [hl, hpar]; omega)
      have hf : fullAt (decoded b (codeBits ct b).length s) = fullAt s := by
        have e₁ : ¬s.params.obufSize ≤ s.outLen := by rw [BitVec.le_def]; omega
        unfold fullAt
        rw [hpar, if_neg e₁]
        split
        · apply BitVec.eq_of_toNat_eq
          rename_i h
          rw [BitVec.le_def, hl] at h
          omega
        · rfl
      exact ⟨u, by rw [List.length_cons, decodeMany, h₁, Ran.andThen_done, hu, hf]⟩
    · have e : s.params.obufSize ≤ s.outLen := BitVec.not_lt.1 hroom
      have h₁ := hT.decodeOne_full hne hmem hc e
      exact ⟨setCur (leafHandle b) (moved (codeBits ct b).length s), by
        rw [List.length_cons, decodeMany, h₁, Ran.andThen_raised, fullAt, if_pos e]⟩

/-- The walk of a symbol leaves REM (R190). -/
theorem walkToLeaf_rem (n : Nat) (s : State) : (walkToLeaf n s).Post fun t => t.unpacker.rem = s.unpacker.rem := by
  induction n generalizing s with
  | zero => unfold walkToLeaf; split <;> exact rfl
  | succ n ih =>
    unfold walkToLeaf
    split
    · exact rfl
    · obtain h | ⟨b, h⟩ := getBit_cases s fun b s => walkToLeaf n (descend b s)
      · rw [h]; exact rfl
      · rw [h]; exact ih _

theorem walkSymbol_rem (s : State) : (walkSymbol s).Post fun t => t.unpacker.rem = s.unpacker.rem := by
  unfold walkSymbol singleLeafBit
  split
  · obtain h | ⟨b, h⟩ := getBit_cases (setCur s.tree.root s) fun b s => guardRaise b .corruptBadbit s.unpacker.rem s
    · rw [h]; exact rfl
    · rw [h]; exact guardRaise_post (P := fun t => t.unpacker.rem = s.unpacker.rem) (s := moved 1 (setCur s.tree.root s)) rfl ..
  · exact walkToLeaf_rem _ _

/-- A symbol that DecodeOne produces lowers REM by one (R190). -/
theorem decodeOne_rem {s u : State} (h : decodeOne s = .done u) : u.unpacker.rem = s.unpacker.rem - 1#32 := by
  obtain ⟨s', h₁, h⟩ := Ran.andThen_eq_done.1 h
  obtain ⟨v, h₂, h⟩ := Ran.andThen_eq_done.1 h
  obtain ⟨w, h₃, h₄⟩ := Ran.andThen_eq_done.1 h
  obtain rfl : s' = s := by
    unfold guardRaise at h₁
    split at h₁
    · cases h₁
    · exact (Ran.done.inj h₁).symm
  have hv := walkSymbol_rem s'
  rw [h₂] at hv
  unfold outByte at h₃
  split at h₃
  · cases h₃
  · cases h₃
    cases h₄
    exact congrArg (· - 1#32) hv

/-- UNPK past its tests is its loop (R191). -/
theorem bodyUnpk_ready {s : State} (hin : s.inLen ≤ s.params.ibufSize) (hv : s.status.treeValid = true) :
    bodyUnpk s = decodeMany s.unpacker.rem.toNat s := by
  rw [bodyUnpk, checkIn_pass hin, Ran.andThen_done, needTree_pass hv, Ran.andThen_done]

/-- UNPK's loop cut in two (R191). -/
theorem decodeMany_add (m n : Nat) (s : State) : decodeMany (m + n) s = (decodeMany m s).andThen (decodeMany n) := by
  induction m generalizing s with
  | zero => rw [Nat.zero_add]; rfl
  | succ m ih =>
    rw [Nat.succ_add, decodeMany, decodeMany, Ran.andThen_assoc]
    exact congrArg _ (funext ih)

/-- UNPK's loop where the bits end inside the code of the symbol after some whole codes, with room for the symbols of
those: EXHAUSTED comes before any test of the room for a later symbol (R187, R264). -/
theorem Rep.decodeMany_cut {T : HTree} {ct : CodeTable} (hct : CodesTree ct T) (bs : List Byte) {s : State}
    (hT : Rep s.tree s.tree.root T) (hne : s.tree.nonempty = true) (hb : ∀ b ∈ bs, b ∈ T.leaves) {b : Byte}
    (hl : b ∈ T.leaves) {p : List Bool} (hc : cursorBits s = payloadBits ct bs ++ p) (hp : p <+: codeBits ct b)
    (hlt : p.length < (codeBits ct b).length)
    (hr : bs = [] ∨ s.outLen.toNat + bs.length ≤ s.params.obufSize.toNat) (n : Nat) :
    ∃ u, decodeMany (bs.length + (n + 1)) s =
        .raised ⟨.corruptExhausted, s.unpacker.rem - BitVec.ofNat 32 bs.length⟩ u ∧
      u.inPtr = (moved (cursorBits s).length s).inPtr ∧
      u.unpacker.rem = s.unpacker.rem - BitVec.ofNat 32 bs.length := by
  obtain ⟨t, k₁, k₂, -⟩ := Rep.decodeMany_payload hct bs hT hne hb hc hr
  generalize t.obuf = o at k₂
  generalize t.outLen = l at k₂
  have htree : t.tree = s.tree := by rw [k₂]; rfl
  have hrem : t.unpacker.rem = s.unpacker.rem - BitVec.ofNat 32 bs.length := by rw [k₂]; rfl
  have hcur : cursorBits t = p := by
    rw [← cursorBits_moved_append hc, k₂]
    exact cursorBits_congr rfl rfl rfl rfl
  have hmove : (moved p.length t).inPtr = (moved (cursorBits s).length s).inPtr := by
    rw [hc, List.length_append]
    have e : (moved p.length t).inPtr = (moved p.length (moved (payloadBits ct bs).length s)).inPtr := by
      rw [k₂]; rfl
    rw [e]
    by_cases h0 : payloadBits ct bs = []
    · rw [h0, List.length_nil, moved_zero, Nat.zero_add]
    · rw [moved_moved (cursorPos_le hc h0)]
  obtain ⟨c, hw⟩ := Rep.walkSymbol_cut (s := t) (htree ▸ hT) (hct.mem_codes hl) (hcur ▸ hp) (by rw [hcur]; exact hlt)
  refine ⟨setCur c (moved (cursorBits t).length t), ?_, by rw [← hmove, ← hcur]; rfl, hrem⟩
  rw [decodeMany_add, k₁, Ran.andThen_done, decodeMany, decodeOne, guardRaise_pass (by rw [htree]; simp [hne]),
    Ran.andThen_done, hw, Ran.andThen_raised, Ran.andThen_raised, hrem]

/-- UNPK's loop where the codes of some symbols stand at the cursor, more than OBUF has room for: CapacityError(OBUF),
whatever follows them (R264). -/
theorem Rep.decodeMany_noRoom {T : HTree} {ct : CodeTable} (hct : CodesTree ct T) (bs : List Byte) {s : State}
    (hT : Rep s.tree s.tree.root T) (hne : s.tree.nonempty = true) (hb : ∀ b ∈ bs, b ∈ T.leaves) {rest : List Bool}
    (hc : cursorBits s = payloadBits ct bs ++ rest) (h₀ : bs ≠ [])
    (hr : s.params.obufSize.toNat < s.outLen.toNat + bs.length) (n : Nat) :
    ∃ u, decodeMany (bs.length + n) s = .raised ⟨.capObuf, fullAt s⟩ u := by
  obtain ⟨u, hu⟩ := Rep.decodeMany_full hct bs hT hne hb hc h₀ hr
  exact ⟨u, by rw [decodeMany_add, hu, Ran.andThen_raised]⟩

/-- UNPK's loop on a single-leaf tree: `m` zero bits give the symbol `m` times, the one bit after them is BADBIT
(R189). -/
theorem decodeMany_badbit {sym : Byte} (m n : Nat) {s : State} (hroot : s.tree.root = leafHandle sym)
    (hne : s.tree.nonempty = true) {rest : List Bool} (hc : cursorBits s = List.replicate m false ++ true :: rest)
    (hr : m = 0 ∨ s.outLen.toNat + m ≤ s.params.obufSize.toNat) :
    ∃ u, decodeMany (m + (n + 1)) s = .raised ⟨.corruptBadbit, s.unpacker.rem - BitVec.ofNat 32 m⟩ u ∧
      u.unpacker.rem = s.unpacker.rem - BitVec.ofNat 32 m ∧ u.unpacker.cur = s.tree.root ∧
      cursorPos u = cursorPos s + m + 1 := by
  have hT : Rep s.tree s.tree.root (.leaf sym) := by rw [hroot]; exact .leaf sym
  induction m generalizing s with
  | zero =>
    have hw := hT.walkSymbol_noCode (by
      intro e he h
      simp only [HTree.codes, List.mem_singleton] at he
      subst he
      rw [hc] at h
      simp at h)
    obtain ⟨c, hw⟩ | ⟨-, -, hw⟩ := hw
    · rw [walkSymbol, if_pos (by rw [hroot]; exact isLeaf_leafHandle sym), singleLeafBit,
        getBit_cons (by rw [cursorBits_setCur]; exact hc), guardRaise_fail rfl] at hw
      cases hw
    · refine ⟨setCur s.tree.root (moved 1 s), ?_, (BitVec.sub_zero _).symm, rfl, ?_⟩
      · rw [Nat.zero_add, decodeMany, decodeOne, guardRaise_pass (by simp [hne]), Ran.andThen_done, hw,
          Ran.andThen_raised, Ran.andThen_raised, BitVec.sub_zero]
      · exact cursorPos_moved (cursorPos_le (p := [true]) hc (by simp))
  | succ m ih =>
    have hr := hr.resolve_left (Nat.succ_ne_zero m)
    have hroom : s.outLen < s.params.obufSize := BitVec.lt_def.2 (by omega)
    replace hc : cursorBits s = [false] ++ (List.replicate m false ++ true :: rest) := hc
    have h₁ := hT.decodeOne_code hne (e := (sym, [false])) (List.mem_singleton.2 rfl) hc hroom
    have hl : (decoded sym 1 s).outLen.toNat = s.outLen.toNat + 1 :=
      appendByte_outLen_toNat (s := moved 1 s) hroom sym
    have hc' : cursorBits (decoded sym 1 s) = List.replicate m false ++ true :: rest := by
      rw [← cursorBits_moved_append hc]
      exact cursorBits_congr rfl rfl rfl rfl
    obtain ⟨u, k₁, k₂, k₃, k₄⟩ := ih (s := decoded sym 1 s) hroot hne hc'
      (.inr (by rw [hl]; show _ ≤ s.params.obufSize.toNat; omega)) hT
    rw [decoded_rem, word_sub_succ] at k₁ k₂
    refine ⟨u, ?_, k₂, k₃, ?_⟩
    · rw [Nat.succ_add, decodeMany, h₁, Ran.andThen_done]; exact k₁
    · have : cursorPos (decoded sym 1 s) = cursorPos s + 1 :=
        cursorPos_moved (s := s) (cursorPos_le hc (by simp))
      rw [k₄, this]; omega

end Sys2Proof.Machine
end

