-- ==== Sys2Proof/Laws/Artifact.lean ====
section
/-! SUPPORT. The artifact of a byte sequence is one list of bytes, and the packer's end of it. -/

namespace Sys2Proof.Machine

open Sys2Proof Sys2Proof.Safety

/-! ### One table, one payload -/

theorem table_eq_of_count {a b : FreqTable} (hc : ∀ sym, a.count sym = b.count sym) (ht : a.total = b.total)
    (hn : a.nsym = b.nsym) : a = b := by
  refine table_ext ?_ ht hn
  rw [entries_eq, entries_eq]
  have : (fun s => a.count s != 0#32) = fun s => b.count s != 0#32 := by funext s; rw [hc]
  rw [this]
  exact List.map_congr_left fun x _ => by rw [hc]

/-- The counts of a sequence are one table. -/
theorem counts_unique {a b : FreqTable} {bs : List Byte} (h : Counts a bs) (k : Counts b bs) : a = b :=
  table_eq_of_count (fun sym => BitVec.eq_of_toNat_eq ((h.1 sym).trans (k.1 sym).symm))
    (BitVec.eq_of_toNat_eq (h.2.1.trans k.2.1.symm)) (BitVec.eq_of_toNat_eq (h.2.2.trans k.2.2.symm))

theorem counts_tableOk {ft : FreqTable} {bs : List Byte} (h : Counts ft bs) (hl : bs.length ≤ Config.maxLen) :
    TableOk ft := by
  have := (addAll_spec zero_tableOk (bs := bs) (by simpa using hl)).1
  rwa [counts_unique (addAll_zero_counts hl) h] at this

theorem counts_mem {ft : FreqTable} {bs : List Byte} (h : Counts ft bs) (b : Byte) :
    b ∈ presentSymbols ft ↔ b ∈ bs := by
  rw [mem_presentSymbols, ← List.count_pos_iff, ← h.1 b, ← BitVec.toNat_inj.ne]
  show _ ≠ 0 ↔ _
  omega

theorem byteBits_injective {a b : Byte} (h : byteBits a = byteBits b) : a = b := by
  apply BitVec.eq_of_getLsbD_eq
  intro i hi
  have : (byteBits a)[7 - i]? = (byteBits b)[7 - i]? := by rw [h]
  have e : 7 - (7 - i) = i := by omega
  have hlt : 7 - i < 8 := by omega
  simpa [byteBits, hlt, e] using this

theorem flatMap_byteBits_injective {a b : List Byte} (h : a.flatMap byteBits = b.flatMap byteBits) : a = b := by
  induction a generalizing b with
  | nil =>
    cases b with
    | nil => rfl
    | cons y b => have := congrArg List.length h; rw [flatMap_byteBits_length, flatMap_byteBits_length] at this; simp at this
  | cons x a ih =>
    cases b with
    | nil => have := congrArg List.length h; rw [flatMap_byteBits_length, flatMap_byteBits_length] at this; simp at this
    | cons y b =>
      rw [List.flatMap_cons, List.flatMap_cons] at h
      obtain ⟨h₁, h₂⟩ := List.append_inj h (by rw [byteBits_length, byteBits_length])
      rw [byteBits_injective h₁, ih h₂]

theorem packsTo_length {bits : List Bool} {p : List Byte} (h : PacksTo bits p) : p.length = (bits.length + 7) / 8 := by
  obtain ⟨pad, hp, h⟩ := h
  have := congrArg List.length h
  rw [flatMap_byteBits_length, List.length_append, List.length_replicate] at this
  omega

/-- A bit stream packs into one list of bytes (R96). -/
theorem packsTo_unique {bits : List Bool} {p q : List Byte} (h : PacksTo bits p) (k : PacksTo bits q) : p = q := by
  have hl := (packsTo_length h).trans (packsTo_length k).symm
  obtain ⟨i, hi, h⟩ := h
  obtain ⟨j, hj, k⟩ := k
  have e₁ := congrArg List.length h
  have e₂ := congrArg List.length k
  rw [flatMap_byteBits_length, List.length_append, List.length_replicate] at e₁ e₂
  have : i = j := by omega
  subst this
  exact flatMap_byteBits_injective (h.trans k.symm)

/-- artifact(B) is a function of B (R232). -/
theorem isArtifact_unique {bs a b : List Byte} (h : IsArtifact bs a) (k : IsArtifact bs b) : a = b := by
  obtain ⟨f, c, p, h₁, h₂, h₃, rfl⟩ := h
  obtain ⟨g, d, q, k₁, k₂, k₃, rfl⟩ := k
  obtain rfl := counts_unique h₁ k₁
  rw [h₂] at k₂
  obtain rfl := Option.some.inj k₂
  rw [packsTo_unique h₃ k₃]

/-- Every bit stream packs into bytes (R96). -/
theorem packsTo_exists (bits : List Bool) : ∃ p, PacksTo bits p := by
  have key : ∀ n (l : List Bool), l.length = 8 * n → ∃ p : List Byte, p.flatMap byteBits = l := by
    intro n
    induction n with
    | zero => intro l hl; exact ⟨[], (List.eq_nil_of_length_eq_zero (by omega : l.length = 0)).symm⟩
    | succ n ih =>
      intro l hl
      obtain ⟨p, hp⟩ := ih (l.drop 8) (by rw [List.length_drop]; omega)
      have hb : ∃ b : Byte, byteBits b = l.take 8 := by
        refine ⟨BitVec.ofFnLE fun i : Fin 8 => l[7 - i.val]'(by omega), ?_⟩
        apply List.ext_getElem
        · rw [byteBits_length, List.length_take]; omega
        · intro i h₁ h₂
          rw [byteBits_length] at h₁
          have e : 7 - (7 - i) = i := by omega
          have h7 : 7 - i < 8 := by omega
          simp [byteBits, BitVec.getLsbD_ofFnLE, h7, e]
      obtain ⟨b, hb⟩ := hb
      exact ⟨b :: p, by rw [List.flatMap_cons, hb, hp, List.take_append_drop]⟩
  obtain ⟨p, hp⟩ := key ((bits.length + 7) / 8) (bits ++ List.replicate ((8 - bits.length % 8) % 8) false) (by
    rw [List.length_append, List.length_replicate]; omega)
  exact ⟨p, _, by omega, hp⟩

/-- Every sequence of at most MAXLEN bytes has an artifact (R232). -/
theorem artifact_exists {bs : List Byte} (h : bs.length ≤ Config.maxLen) : ∃ out, IsArtifact bs out := by
  have hc := addAll_zero_counts h
  obtain ⟨ct, hct⟩ := treeOk_codesOf_isSome (buildTree_ok (counts_tableOk hc h) Tree.zero)
  obtain ⟨p, hp⟩ := packsTo_exists (payloadBits ct bs)
  exact ⟨_, _, ct, p, hc, hct, hp, rfl⟩

/-! ### The flush -/

/-- ACC's eight bits are the pending ones and then zeros (R51). -/
theorem byteBits_acc {p : Packer} (h : PackerOk p) :
    byteBits p.acc = pendingBits p ++ List.replicate (8 - p.nb.toNat) false := by
  rw [packerOk_iff] at h
  have hnb := p.nb.isLt
  rw [pendingBits_eq, byteBits]
  have e : List.range 8 = List.range p.nb.toNat ++ (List.range (8 - p.nb.toNat)).map (p.nb.toNat + ·) := by
    rw [← List.range_add]; congr 1; omega
  rw [e, List.map_append]
  congr 1
  rw [List.map_map]
  apply List.ext_getElem
  · simp
  · intro i h₁ h₂
    simp only [List.length_map, List.length_range] at h₁
    simp only [List.getElem_map, List.getElem_range, Function.comp, List.getElem_replicate]
    exact h _ (by omega)

/-- PFLUSH pads the last byte with zeros and empties the packer (R172). -/
theorem bodyPflush_spec {s : State} (hp : PackerOk s.packer)
    (hr : s.packer.nb = 0#3 ∨ s.outLen < s.params.obufSize) :
    ∃ t, bodyPflush s = .done t ∧ Appended s t ∧ t.packer = ⟨0#8, 0#3⟩ ∧
      t.outLen.toNat = (8 * s.outLen.toNat + s.packer.nb.toNat + 7) / 8 ∧
      ∀ p, p ≤ s.outLen.toNat → ∃ pad, pad < 8 ∧
        (obufSlice t p t.outLen.toNat).flatMap byteBits = streamFrom p s ++ List.replicate pad false := by
  have hnb := s.packer.nb.isLt
  by_cases h0 : s.packer.nb = 0#3
  · have h0' : s.packer.nb.toNat = 0 := by rw [h0]; rfl
    have hacc : s.packer.acc = 0#8 := by
      unfold PackerOk at hp
      rw [h0'] at hp
      apply BitVec.eq_of_toNat_eq
      have := s.packer.acc.isLt
      have h2 : s.packer.acc.toNat % 256 = 0 := hp
      show _ = 0
      omega
    refine ⟨s, by rw [bodyPflush, if_pos h0], .refl s, ?_, by omega, fun p _ => ⟨0, by omega, ?_⟩⟩
    · cases hpk : s.packer with
      | mk a n => rw [hpk] at h0 hacc; simp only at h0 hacc; rw [h0, hacc]
    · rw [streamFrom, pendingBits_eq, h0']; simp
  · have hroom : s.outLen < s.params.obufSize := hr.resolve_left h0
    have h0' : s.packer.nb.toNat ≠ 0 := fun e => h0 (BitVec.eq_of_toNat_eq e)
    have hl := appendByte_outLen_toNat hroom s.packer.acc
    refine ⟨emptyPacker (appendByte s.packer.acc s), ?_, (Appended.appendByte hroom _).trans (.packer _ _), rfl, ?_,
      fun p hpp => ⟨8 - s.packer.nb.toNat, by omega, ?_⟩⟩
    · rw [bodyPflush, if_neg h0, outByte_room hroom]; rfl
    · show (appendByte s.packer.acc s).outLen.toNat = _
      rw [hl]; omega
    · have e : obufSlice (emptyPacker (appendByte s.packer.acc s)) p
          (emptyPacker (appendByte s.packer.acc s)).outLen.toNat = obufSlice s p s.outLen.toNat ++ [s.packer.acc] :=
        obufSlice_appendByte hroom _ hpp
      rw [e, List.flatMap_append, List.flatMap_singleton, byteBits_acc hp, streamFrom, List.append_assoc]

/-! ### No room -/

theorem fullAt_of_le {s : State} (h : s.params.obufSize ≤ s.outLen) : fullAt s = s.outLen := if_pos h

theorem fullAt_of_lt {s : State} (h : s.outLen ≤ s.params.obufSize) : fullAt s = s.params.obufSize := by
  unfold fullAt
  split
  · exact BitVec.le_antisymm h ‹_›
  · rfl

/-- A byte more leaves the place where OBUF is full where it was. -/
theorem fullAt_later {s t : State} (hp : t.params = s.params) (h : s.outLen.toNat ≤ t.outLen.toNat)
    (hs : t.outLen = s.outLen ∨ t.outLen.toNat ≤ s.params.obufSize.toNat) : fullAt t = fullAt s := by
  obtain e | hs := hs
  · unfold fullAt; rw [hp, e]
  · rw [fullAt_of_lt (by rw [BitVec.le_def, hp]; exact hs), fullAt_of_lt (by rw [BitVec.le_def]; omega), hp]

/-- Pushing bits that OBUF has no room for: CapacityError(OBUF) where OBUF is full, the seven bits that have no eighth
pending (R167, R260). -/
theorem pushBits_full (bs : List Bool) {s : State} (hp : PackerOk s.packer) (hr : ¬RoomForBits bs.length s) :
    ∃ u, pushBits bs s = .raised ⟨.capObuf, fullAt s⟩ u ∧ Appended s u ∧ u.packer.nb = 7#3 ∧
      pendingBits u.packer =
        ((pendingBits s.packer ++ bs).drop (8 * ((fullAt s).toNat - s.outLen.toNat))).take 7 := by
  unfold RoomForBits at hr
  have hnb := s.packer.nb.isLt
  obtain ⟨m, hm⟩ : ∃ m, m = 8 * (s.params.obufSize.toNat - s.outLen.toNat) + 7 - s.packer.nb.toNat := ⟨_, rfl⟩
  have hml : m < bs.length := by omega
  have htake : (bs.take m).length = m := by rw [List.length_take]; omega
  obtain ⟨t, k₁, k₂, k₃, k₄, k₅⟩ := pushBits_spec (bs.take m) hp (s := s) (by
    unfold RoomForBits; rw [htake]; omega)
  rw [htake] at k₄
  have hg := k₂.grows
  have htnb := t.packer.nb.isLt
  have h7 : t.packer.nb = 7#3 := by
    apply BitVec.eq_of_toNat_eq
    show _ = 7
    omega
  have h7' : t.packer.nb.toNat = 7 := by rw [h7]; rfl
  have hfull : fullAt s = t.outLen := by
    apply BitVec.eq_of_toNat_eq
    unfold fullAt
    split <;> rename_i h <;> rw [BitVec.le_def] at h <;> omega
  have hpar : t.params = s.params := k₂.fields.1
  have hlast : t.params.obufSize ≤ t.outLen := by rw [hpar, BitVec.le_def]; omega
  obtain ⟨b, cs, hcs⟩ : ∃ b cs, bs.drop m = b :: cs := by
    cases h : bs.drop m with
    | nil => have := congrArg List.length h; rw [List.length_drop] at this; simp only [List.length_nil] at this; omega
    | cons b cs => exact ⟨b, cs, rfl⟩
  refine ⟨t, ?_, k₂, h7, ?_⟩
  · rw [← List.take_append_drop m bs, pushBits_append, k₁, Ran.andThen_done, hcs, pushBits, pushBit, if_pos h7,
      outByte_full hlast, Ran.andThen_raised, Ran.andThen_raised, hfull]
  · have hstream : (obufSlice t s.outLen.toNat t.outLen.toNat).flatMap byteBits ++ pendingBits t.packer =
        pendingBits s.packer ++ bs.take m := by
      have := k₅ s.outLen.toNat (by omega)
      rwa [streamFrom, streamFrom, obufSlice_self, List.flatMap_nil, List.nil_append] at this
    have e : pendingBits s.packer ++ bs =
        (obufSlice t s.outLen.toNat t.outLen.toNat).flatMap byteBits ++ (pendingBits t.packer ++ bs.drop m) := by
      rw [← List.append_assoc, hstream, List.append_assoc, List.take_append_drop]
    have hlen : ((obufSlice t s.outLen.toNat t.outLen.toNat).flatMap byteBits).length =
        8 * (t.outLen.toNat - s.outLen.toNat) := by rw [flatMap_byteBits_length, obufSlice_length]
    rw [hfull, e, ← hlen, List.drop_left]
    exact (List.take_left' (by rw [pendingBits_length, h7'])).symm

/-- PACK's loop, split. -/
theorem packBytes_append (m n : Nat) (s : State) :
    packBytes (m + n) s = (packBytes m s).andThen (packBytes n) := by
  induction m generalizing s with
  | zero => rw [Nat.zero_add]; rfl
  | succ m ih =>
    have e : m + 1 + n = m + n + 1 := by omega
    rw [e, packBytes, packBytes, Ran.andThen_assoc]
    congr 1
    funext s
    exact ih s

/-- PACK's loop over bytes that all have a code but whose payload OBUF has no room for (R171, R260). -/
theorem packBytes_full (n : Nat) {s : State} (hp : PackerOk s.packer) (hin : s.inPtr.toNat + n < 2 ^ 32)
    (hc : ∀ b ∈ ibufSlice s s.inPtr.toNat (s.inPtr.toNat + n), s.code.len b ≠ 0#8)
    (hr : ¬RoomForBits (payloadBits s.code (ibufSlice s s.inPtr.toNat (s.inPtr.toNat + n))).length s) :
    ∃ u, packBytes n s = .raised ⟨.capObuf, fullAt s⟩ u := by
  have hnb := s.packer.nb.isLt
  induction n generalizing s with
  | zero => simp [ibufSlice_self, payloadBits, RoomForBits] at hr; omega
  | succ n ih =>
    have hip : (s.inPtr + 1#32).toNat = s.inPtr.toNat + 1 :=
      word_add_one_toNat (n := 2 ^ 32 - 1) (by omega) (by decide)
    have hs := ibufSlice_cons s (by omega : s.inPtr.toNat < s.inPtr.toNat + (n + 1))
    rw [hs] at hc hr
    have hcode : (pastByte s).code.len (inByte s) ≠ 0#8 := hc _ (List.mem_cons_self ..)
    rw [payloadBits_cons, List.length_append] at hr
    by_cases hroom : RoomForBits (codeBits s.code (s.ibufByte s.inPtr.toNat)).length s
    · obtain ⟨u, h₁, h₂, h₃, h₄, _⟩ := pushBits_spec (codeBits s.code (s.ibufByte s.inPtr.toNat)) (s := pastByte s) hp
        (by exact hroom)
      have hf := h₂.fields
      have hcode' : u.code = s.code := hf.2.2.2.2.2.2.2.2.2.1
      have hptr : u.inPtr.toNat = s.inPtr.toNat + 1 := by rw [hf.2.2.2.2.2.2.1]; exact hip
      have hibuf : u.ibuf = s.ibuf := hf.2.2.2.2.2.2.2.2.2.2.2.2.2.1
      have hpar : u.params = s.params := hf.1
      have hg : s.outLen.toNat ≤ u.outLen.toNat := h₂.grows
      have e : s.inPtr.toNat + 1 + n = s.inPtr.toNat + (n + 1) := by omega
      have hsl : ibufSlice u u.inPtr.toNat (u.inPtr.toNat + n) =
          ibufSlice s (s.inPtr.toNat + 1) (s.inPtr.toNat + (n + 1)) := by
        rw [hptr, e]; exact ibufSlice_congr hibuf _ _
      have h₄' : 8 * u.outLen.toNat + u.packer.nb.toNat = 8 * s.outLen.toNat + s.packer.nb.toNat +
          (codeBits s.code (s.ibufByte s.inPtr.toNat)).length := h₄
      have hunb := u.packer.nb.isLt
      unfold RoomForBits at hr hroom
      have hs' : u.outLen = s.outLen ∨ u.outLen.toNat ≤ s.params.obufSize.toNat := by
        by_cases h8 : 8 ≤ s.packer.nb.toNat + (codeBits s.code (s.ibufByte s.inPtr.toNat)).length
        · right; have := hroom h8; omega
        · left; apply BitVec.eq_of_toNat_eq; omega
      obtain ⟨v, hv⟩ := ih (s := u) h₃ (by omega)
        (by rw [hsl, hcode']; exact fun b hb => hc b (List.mem_cons_of_mem _ hb))
        (by rw [hsl, hcode', RoomForBits, hpar]; omega) hunb
      refine ⟨v, ?_⟩
      rw [packBytes, pushCode_eq hcode]
      show (pushBits (codeBits s.code (s.ibufByte s.inPtr.toNat)) (pastByte s)).andThen (packBytes n) = _
      rw [h₁, Ran.andThen_done, hv, fullAt_later hpar hg hs']
    · obtain ⟨u, hu, _⟩ := pushBits_full (codeBits s.code (s.ibufByte s.inPtr.toNat)) (s := pastByte s) hp
        (by exact hroom)
      refine ⟨u, ?_⟩
      rw [packBytes, pushCode_eq hcode]
      show (pushBits (codeBits s.code (s.ibufByte s.inPtr.toNat)) (pastByte s)).andThen (packBytes n) = _
      rw [hu, Ran.andThen_raised]
      rfl

/-- PACK's loop at the first byte without a code (R171, R261). -/
theorem packBytes_noCode {m n : Nat} (hmn : m < n) {s : State} (hp : PackerOk s.packer) (hin : s.inPtr.toNat + n < 2 ^ 32)
    (hc : ∀ b ∈ ibufSlice s s.inPtr.toNat (s.inPtr.toNat + m), s.code.len b ≠ 0#8)
    (h0 : s.code.len (s.ibufByte (s.inPtr.toNat + m)) = 0#8)
    (hr : RoomForBits (payloadBits s.code (ibufSlice s s.inPtr.toNat (s.inPtr.toNat + m))).length s) :
    ∃ u, packBytes n s = .raised ⟨.noCode, (s.ibufByte (s.inPtr.toNat + m)).setWidth 32⟩ u ∧
      u.inPtr = BitVec.ofNat 32 (s.inPtr.toNat + m + 1) := by
  obtain ⟨k, rfl⟩ : ∃ k, n = m + (k + 1) := ⟨n - m - 1, by omega⟩
  obtain ⟨t, h₁, h₂, _, _, _⟩ := packBytes_spec m hp (by omega) hc hr
  have hf := h₂.fields
  have hptr : t.inPtr = BitVec.ofNat 32 (s.inPtr.toNat + m) := hf.2.2.2.2.2.2.1
  have hcode : t.code = s.code := hf.2.2.2.2.2.2.2.2.2.1
  have hib : t.ibuf = s.ibuf := hf.2.2.2.2.2.2.2.2.2.2.2.2.2.1
  have hb : inByte t = s.ibufByte (s.inPtr.toNat + m) := by
    unfold inByte State.ibufByte
    rw [hptr, hib, BitVec.toNat_ofNat, Nat.mod_eq_of_lt (by omega)]
  refine ⟨pastByte t, ?_, ?_⟩
  · rw [packBytes_append, h₁, Ran.andThen_done, packBytes, pushCode_noCode (by
      show t.code.len (inByte t) = _; rw [hcode, hb]; exact h0), Ran.andThen_raised, hb]
  · show t.inPtr + 1#32 = _
    rw [hptr, ← BitVec.ofNat_add]

end Sys2Proof.Machine
end

