-- ==== Sys2Proof/Laws/Ends.lean ====
section
/-! SUPPORT. How an accepted command ends: the error codes as numbers (R256 to R261), error entry (R262) and the normal
end (R230), in the terms of the claims. -/

namespace Sys2Proof.Machine

open Sys2Proof Sys2Proof.Safety

@[simp] theorem ErrorKind.code_formatShort : ErrorKind.formatShort.code = 0x0101#32 := by decide
@[simp] theorem ErrorKind.code_formatMagic : ErrorKind.formatMagic.code = 0x0201#32 := by decide
@[simp] theorem ErrorKind.code_formatSymcount : ErrorKind.formatSymcount.code = 0x0301#32 := by decide
@[simp] theorem ErrorKind.code_formatOrder : ErrorKind.formatOrder.code = 0x0401#32 := by decide
@[simp] theorem ErrorKind.code_formatZerocount : ErrorKind.formatZerocount.code = 0x0501#32 := by decide
@[simp] theorem ErrorKind.code_formatSum : ErrorKind.formatSum.code = 0x0601#32 := by decide
@[simp] theorem ErrorKind.code_corruptExhausted : ErrorKind.corruptExhausted.code = 0x0102#32 := by decide
@[simp] theorem ErrorKind.code_corruptBadbit : ErrorKind.corruptBadbit.code = 0x0202#32 := by decide
@[simp] theorem ErrorKind.code_illegalCommand : ErrorKind.illegalCommand.code = 0x0003#32 := by decide
@[simp] theorem ErrorKind.code_seqNotree : ErrorKind.seqNotree.code = 0x0104#32 := by decide
@[simp] theorem ErrorKind.code_seqNocodetable : ErrorKind.seqNocodetable.code = 0x0204#32 := by decide
@[simp] theorem ErrorKind.code_seqEmptytree : ErrorKind.seqEmptytree.code = 0x0304#32 := by decide
@[simp] theorem ErrorKind.code_seqRemzero : ErrorKind.seqRemzero.code = 0x0404#32 := by decide
@[simp] theorem ErrorKind.code_capCount : ErrorKind.capCount.code = 0x0105#32 := by decide
@[simp] theorem ErrorKind.code_capObuf : ErrorKind.capObuf.code = 0x0205#32 := by decide
@[simp] theorem ErrorKind.code_capInlen : ErrorKind.capInlen.code = 0x0305#32 := by decide
@[simp] theorem ErrorKind.code_noCode : ErrorKind.noCode.code = 0x0006#32 := by decide

/-- A raise before any write (R262). -/
theorem errorEntry_accept (s : State) (k : ErrorKind) (info : Word) :
    errorEntry ⟨k, info⟩ (accept s) = failed s k.code info := rfl

/-- A command whose body raises before it writes anything ends in `failed`. -/
theorem runCommand_failed {s : State} (h : Ready s) {body : State → Ran} {k : ErrorKind} {info : Word}
    (hb : body (accept s) = .raised ⟨k, info⟩ (accept s)) : runCommand body s = .next (failed s k.code info) := by
  rw [runCommand_raised h hb, errorEntry_accept]

/-- Where error entry leads (R262). -/
theorem errorEntry_end {u : State} (hd : u.status.done = false) (k : ErrorKind) (info : Word) :
    ErrorEnd (errorEntry ⟨k, info⟩ u) k.code info := ⟨rfl, rfl, hd, rfl, rfl, rfl⟩

/-- A command whose body raises ends in error entry, the fields error entry does not write as the raise left them. -/
theorem runCommand_errorEnd {s u : State} (h : Ready s) {body : State → Ran} {k : ErrorKind} {info : Word}
    (hb : body (accept s) = .raised ⟨k, info⟩ u) (hd : u.status.done = false) :
    ∃ t, runCommand body s = .next t ∧ ErrorEnd t k.code info ∧ t.inPtr = u.inPtr ∧ t.unpacker = u.unpacker ∧
      t.packer = u.packer ∧ t.table = u.table :=
  ⟨_, runCommand_raised h hb, errorEntry_end hd k info, rfl, rfl, rfl, rfl⟩

end Sys2Proof.Machine
end

