-- ==== Sys2Proof/Laws/Frame.lean ====
section
/-! SUPPORT. What each body may change, whichever way it ends, and that it keeps the invariant. -/

namespace Sys2Proof.Machine

open Sys2Proof Sys2Proof.Safety

/-- A property of the state where a body ends or raises; the body does not get stuck. -/
def Ran.Safe (P : State → Prop) : Ran → Prop
  | .done s => P s
  | .raised _ s => P s
  | .stuck _ => False

@[simp] theorem Ran.safe_done (P : State → Prop) (s : State) : (Ran.done s).Safe P = P s := rfl
@[simp] theorem Ran.safe_raised (P : State → Prop) (e : Raise) (s : State) : (Ran.raised e s).Safe P = P s := rfl

theorem Ran.Safe.mono {P Q : State → Prop} {r : Ran} (h : r.Safe P) (hPQ : ∀ s, P s → Q s) : r.Safe Q := by
  cases r with
  | done s => exact hPQ s h
  | raised e s => exact hPQ s h
  | stuck e => exact h

/-- A chain of two parts, each with its own relation to the state before it. -/
theorem Ran.Safe.andThen {P Q : State → Prop} {r : Ran} {f : State → Ran} (h : r.Safe P)
    (hf : ∀ s, P s → (f s).Safe Q) (hPQ : ∀ s, P s → Q s) : (r.andThen f).Safe Q := by
  cases r with
  | done s => exact hf s h
  | raised e s => exact hPQ s h
  | stuck e => exact h

theorem Ran.Safe.and {P Q : State → Prop} {r : Ran} (h : r.Safe P) (k : r.Safe Q) : r.Safe fun s => P s ∧ Q s := by
  cases r with
  | done s => exact ⟨h, k⟩
  | raised e s => exact ⟨h, k⟩
  | stuck e => exact h

theorem guardRaise_safe {P : State → Prop} {s : State} (h : P s) (bad : Bool) (k : ErrorKind) (info : Word) :
    (guardRaise bad k info s).Safe P := by cases bad <;> exact h

/-- A guard before a body: only the body matters. -/
theorem guardRaise_andThen_safe {P : State → Prop} {s : State} (h : P s) (bad : Bool) (k : ErrorKind) (info : Word)
    {f : State → Ran} (hf : (f s).Safe P) : ((guardRaise bad k info s).andThen f).Safe P := by
  cases bad
  · exact hf
  · exact h

theorem checkIn_andThen_safe {P : State → Prop} {s : State} (h : P s) {f : State → Ran} (hf : (f s).Safe P) :
    ((checkIn s).andThen f).Safe P := guardRaise_andThen_safe h _ _ _ hf

theorem needTree_andThen_safe {P : State → Prop} {s : State} (h : P s) {f : State → Ran} (hf : (f s).Safe P) :
    ((needTree s).andThen f).Safe P := guardRaise_andThen_safe h _ _ _ hf

theorem needCode_andThen_safe {P : State → Prop} {s : State} (h : P s) {f : State → Ran} (hf : (f s).Safe P) :
    ((needCode s).andThen f).Safe P := guardRaise_andThen_safe h _ _ _ hf

/-! ### The output primitives -/

/-- What the packer's bodies do to a state: IN_PTR, the packer, and bytes appended to OBUF (R165). -/
structure PackStep (s t : State) : Prop where
  only : t = (((s.setInPtr t.inPtr).setPacker t.packer).setObuf t.obuf).setOutLen t.outLen
  appended : OnlyAppended s t
  packerOk : PackerOk s.packer → PackerOk t.packer
  obufOk : BufferOk s.obuf s.params.obufSize → BufferOk t.obuf s.params.obufSize

theorem onlyAppended_refl (s : State) : OnlyAppended s s := ⟨le_refl _, fun _ _ => rfl⟩

theorem onlyAppended_trans {s t u : State} (h : OnlyAppended s t) (k : OnlyAppended t u) : OnlyAppended s u := by
  refine ⟨le_trans h.1 k.1, fun a ha => ?_⟩
  have h₁ := h.1
  have k₁ := k.1
  rw [k.2 a (by omega), h.2 a (by omega)]

theorem PackStep.refl (s : State) : PackStep s s := ⟨rfl, onlyAppended_refl s, id, id⟩

theorem PackStep.params {s t : State} (h : PackStep s t) : t.params = s.params := by rw [h.only]; rfl

theorem PackStep.trans {s t u : State} (h : PackStep s t) (k : PackStep t u) : PackStep s u := by
  refine ⟨?_, onlyAppended_trans h.appended k.appended, k.packerOk ∘ h.packerOk, fun o => ?_⟩
  · have e₁ := h.only
    have e₂ := k.only
    rw [e₁] at e₂
    exact e₂
  · have := k.obufOk (by rw [h.params]; exact h.obufOk o)
    rwa [h.params] at this

theorem PackStep.setPacker (s : State) (p : Packer) (h : PackerOk s.packer → PackerOk p) :
    PackStep s (s.setPacker p) := ⟨rfl, ⟨le_refl _, fun _ _ => rfl⟩, h, id⟩

theorem PackStep.pastByte (s : State) : PackStep s (pastByte s) := ⟨rfl, ⟨le_refl _, fun _ _ => rfl⟩, id, id⟩

theorem PackStep.appendByte {s : State} (h : s.outLen < s.params.obufSize) (v : Byte) :
    PackStep s (appendByte v s) := by
  refine ⟨rfl, ?_, id, fun o => bufferOk_store o (BitVec.lt_def.1 h) v⟩
  have := Appended.appendByte h v
  exact ⟨this.grows, this.outside⟩

theorem outByte_pack (v : Byte) (s : State) : (outByte v s).Safe (PackStep s) := by
  by_cases h : s.outLen < s.params.obufSize
  · rw [outByte_room h]; exact .appendByte h v
  · rw [outByte_full (BitVec.not_lt.1 h)]; exact .refl s

theorem outBytes_pack (vs : List Byte) (s : State) : (outBytes vs s).Safe (PackStep s) := by
  induction vs generalizing s with
  | nil => exact .refl s
  | cons v vs ih => exact (outByte_pack v s).andThen (fun t ht => (ih t).mono fun u hu => ht.trans hu) fun _ => id

theorem emptyPacker_pack (s : State) : PackStep s (emptyPacker s) := .setPacker s _ fun _ => packerOk_empty

theorem pushBit_pack (b : Bool) (s : State) : (pushBit b s).Safe (PackStep s) := by
  unfold pushBit
  split
  · exact (outByte_pack _ s).andThen (fun t ht => ht.trans (emptyPacker_pack t)) fun _ => id
  · refine PackStep.setPacker s _ fun hp => ?_
    rename_i h7
    rw [packerOk_iff] at hp ⊢
    have h7' : s.packer.nb.toNat ≠ 7 := fun e => h7 (BitVec.eq_of_toNat_eq e)
    have hnb := s.packer.nb.isLt
    have hn : (s.packer.nb + 1#3).toNat = s.packer.nb.toNat + 1 := by
      have : (1#3).toNat = 1 := rfl
      rw [BitVec.toNat_add, this]; omega
    intro i hi
    simp only [hn] at hi ⊢
    rw [BitVec.getLsbD_or, shifted_getLsbD _ _ _ (by omega), hp i (by omega)]
    have : ¬i = 7 - s.packer.nb.toNat := by omega
    simp [this]

theorem pushCodeBits_pack (bits : CodeBits) (l : Nat) (s : State) : (pushCodeBits bits l s).Safe (PackStep s) := by
  induction l generalizing s with
  | zero => exact .refl s
  | succ l ih => exact (pushBit_pack _ s).andThen (fun t ht => (ih t).mono fun u hu => ht.trans hu) fun _ => id

theorem pushCode_pack (sym : Byte) (s : State) : (pushCode sym s).Safe (PackStep s) := by
  unfold pushCode
  split
  · exact .refl s
  · exact pushCodeBits_pack _ _ s

theorem packBytes_pack (n : Nat) (s : State) : (packBytes n s).Safe (PackStep s) := by
  induction n generalizing s with
  | zero => exact .refl s
  | succ n ih =>
    refine Ran.Safe.andThen (P := PackStep s) ?_ (fun t ht => (ih t).mono fun u hu => ht.trans hu) fun _ => id
    exact (pushCode_pack (inByte s) (pastByte s)).mono fun t ht => (PackStep.pastByte s).trans ht

theorem bodyPinit_pack (s : State) : (bodyPinit s).Safe (PackStep s) := emptyPacker_pack s
theorem bodyPbit_pack (imm : Byte) (s : State) : (bodyPbit imm s).Safe (PackStep s) := pushBit_pack _ s

theorem bodyPsym_pack (sym : Byte) (s : State) : (bodyPsym sym s).Safe (PackStep s) :=
  needCode_andThen_safe (.refl s) (pushCode_pack sym s)

theorem bodyPack_pack (s : State) : (bodyPack s).Safe (PackStep s) := by
  refine checkIn_andThen_safe (.refl s) (needCode_andThen_safe (.refl s) ?_)
  refine (packBytes_pack _ _).mono fun t ht => PackStep.trans ?_ ht
  exact ⟨rfl, ⟨le_refl _, fun _ _ => rfl⟩, id, id⟩

theorem bodyPflush_pack (s : State) : (bodyPflush s).Safe (PackStep s) := by
  unfold bodyPflush
  split
  · exact .refl s
  · exact (outByte_pack _ s).andThen (fun t ht => ht.trans (emptyPacker_pack t)) fun _ => id

/-! ### The unpacker -/

/-- What the unpacker's bodies do to a state: IN_PTR, BIDX, CUR, REM, and bytes appended to OBUF (R185). -/
structure UnpackStep (s t : State) : Prop where
  only : t = (((s.setInPtr t.inPtr).setUnpacker t.unpacker).setObuf t.obuf).setOutLen t.outLen
  appended : OnlyAppended s t
  obufOk : BufferOk s.obuf s.params.obufSize → BufferOk t.obuf s.params.obufSize

theorem UnpackStep.refl (s : State) : UnpackStep s s := ⟨rfl, onlyAppended_refl s, id⟩

theorem UnpackStep.params {s t : State} (h : UnpackStep s t) : t.params = s.params := by rw [h.only]; rfl

theorem UnpackStep.trans {s t u : State} (h : UnpackStep s t) (k : UnpackStep t u) : UnpackStep s u := by
  refine ⟨?_, onlyAppended_trans h.appended k.appended, fun o => ?_⟩
  · have e₁ := h.only
    have e₂ := k.only
    rw [e₁] at e₂
    exact e₂
  · have := k.obufOk (by rw [h.params]; exact h.obufOk o)
    rwa [h.params] at this

theorem UnpackStep.setUnpacker (s : State) (u : Unpacker) : UnpackStep s (s.setUnpacker u) :=
  ⟨rfl, ⟨le_refl _, fun _ _ => rfl⟩, id⟩

theorem UnpackStep.moved (n : Nat) (s : State) : UnpackStep s (moved n s) :=
  ⟨rfl, ⟨le_refl _, fun _ _ => rfl⟩, id⟩

theorem UnpackStep.appendByte {s : State} (h : s.outLen < s.params.obufSize) (v : Byte) :
    UnpackStep s (appendByte v s) := by
  refine ⟨rfl, ?_, fun o => bufferOk_store o (BitVec.lt_def.1 h) v⟩
  have := Appended.appendByte h v
  exact ⟨this.grows, this.outside⟩

theorem outByte_unpack (v : Byte) (s : State) : (outByte v s).Safe (UnpackStep s) := by
  by_cases h : s.outLen < s.params.obufSize
  · rw [outByte_room h]; exact .appendByte h v
  · rw [outByte_full (BitVec.not_lt.1 h)]; exact .refl s

theorem getBit_unpack (s : State) {rest : Bool → State → Ran}
    (h : ∀ b, (rest b (moved 1 s)).Safe (UnpackStep (moved 1 s))) : (getBit s rest).Safe (UnpackStep s) := by
  obtain e | ⟨b, e⟩ := getBit_cases s rest
  · rw [e]; exact .refl s
  · rw [e]; exact (h b).mono fun t ht => (UnpackStep.moved 1 s).trans ht

theorem setCur_unpack (h : Handle) (s : State) : UnpackStep s (setCur h s) := .setUnpacker s _

theorem walkToLeaf_unpack (n : Nat) (s : State) : (walkToLeaf n s).Safe (UnpackStep s) := by
  induction n generalizing s with
  | zero => unfold walkToLeaf; split <;> exact .refl s
  | succ n ih =>
    unfold walkToLeaf
    split
    · exact .refl s
    · exact getBit_unpack s fun b => (ih _).mono fun t ht => (setCur_unpack _ _).trans ht

theorem decodeOne_unpack (s : State) : (decodeOne s).Safe (UnpackStep s) := by
  refine guardRaise_andThen_safe (.refl s) _ _ _ (Ran.Safe.andThen (P := UnpackStep s) ?_ (fun t ht => ?_) fun _ => id)
  · unfold walkSymbol
    split
    · refine Ran.Safe.mono ?_ fun t ht => (setCur_unpack s.tree.root s).trans ht
      exact getBit_unpack _ fun b => guardRaise_safe (.refl _) _ _ _
    · exact (walkToLeaf_unpack _ _).mono fun t ht => (setCur_unpack s.tree.root s).trans ht
  · exact (outByte_unpack _ t).andThen (fun u hu => ht.trans (hu.trans (.setUnpacker u _))) fun u hu => ht.trans hu

theorem decodeMany_unpack (n : Nat) (s : State) : (decodeMany n s).Safe (UnpackStep s) := by
  induction n generalizing s with
  | zero => exact .refl s
  | succ n ih => exact (decodeOne_unpack s).andThen (fun t ht => (ih t).mono fun u hu => ht.trans hu) fun _ => id

theorem bodyUinit_unpack (s : State) : (bodyUinit s).Safe (UnpackStep s) :=
  needTree_andThen_safe (.refl s) (UnpackStep.setUnpacker s _)

theorem bodyUsym_unpack (s : State) : (bodyUsym s).Safe (UnpackStep s) :=
  checkIn_andThen_safe (.refl s) (needTree_andThen_safe (.refl s)
    (guardRaise_andThen_safe (.refl s) _ _ _ (decodeOne_unpack s)))

theorem bodyUnpk_unpack (s : State) : (bodyUnpk s).Safe (UnpackStep s) :=
  checkIn_andThen_safe (.refl s) (needTree_andThen_safe (.refl s) (decodeMany_unpack _ s))

/-! ### The header -/

/-- HPUT (R205): the packer is emptied, OUT_LEN restarts at 0, bytes are appended from there. -/
theorem bodyHput_pack (s : State) :
    (bodyHput s).Safe (PackStep (emptyPacker (s.setOutLen 0#32))) := by
  rw [bodyHput_eq]; exact outBytes_pack _ _

/-- What HGET does to a state: the table, IN_PTR, BIDX and the two valid flags (R205), which it clears whichever way
it ends (R27). The CapacityError leaves the rest as it was (log 9), a FormatError leaves a clear table, success leaves the
table of the header. -/
inductive HeaderStep (s : State) : State → Prop
  | tooLong : HeaderStep s (clearValid s)
  | cleared (a : Nat) : HeaderStep s (readAt a (startHeader s))
  | loaded (a : Nat) (ft : FreqTable) (h : TableOk ft) : HeaderStep s ((readAt a (startHeader s)).setTable ft)

theorem bodyHget_step (s : State) : (bodyHget s).Safe (HeaderStep s) := by
  obtain h | ⟨e, a, h, _⟩ | ⟨h₁, h₂, h₃, h₄, h₅, h₆, h⟩ := bodyHget_cases s
  · rw [h]; exact .tooLong
  · rw [h]; exact .cleared a
  · rw [h]; exact .loaded _ _ (headerTable_ok h₃ h₅ h₆)

end Sys2Proof.Machine
end

