-- ==== Sys2Proof/Laws/Invariant.lean ====
section
/-! SUPPORT. Every body keeps the invariant, and so do the moves of the host. -/

namespace Sys2Proof.Machine

open Sys2Proof Sys2Proof.Safety

/-- A cleared flag is not set. -/
theorem flag_absurd {P : Prop} (e : false = true) : P := by cases e

/-- What a running body leaves alone: the host's settings, the error registers, and the flags of the envelope. -/
structure Runs (s t : State) : Prop where
  setup : SameSetup s t
  errCode : t.errCode = s.errCode
  errInfo : t.errInfo = s.errInfo
  busy : t.status.busy = s.status.busy
  done : t.status.done = s.status.done
  err : t.status.err = s.status.err
  drop : t.status.drop = s.status.drop

theorem sameSetup_refl (s : State) : SameSetup s s := ⟨rfl, rfl, rfl, rfl, rfl, rfl, rfl, rfl, rfl⟩

theorem sameSetup_trans {s t u : State} (h : SameSetup s t) (k : SameSetup t u) : SameSetup s u :=
  ⟨k.params.trans h.params, k.ctrl.trans h.ctrl, k.inLen.trans h.inLen, k.csel.trans h.csel, k.nsel.trans h.nsel,
    k.ibuf.trans h.ibuf, k.inbox.trans h.inbox, k.hostData.trans h.hostData, k.freeCtr.trans h.freeCtr⟩

theorem Runs.refl (s : State) : Runs s s := ⟨sameSetup_refl s, rfl, rfl, rfl, rfl, rfl, rfl⟩

theorem Runs.trans {s t u : State} (h : Runs s t) (k : Runs t u) : Runs s u :=
  ⟨sameSetup_trans h.setup k.setup, k.errCode.trans h.errCode, k.errInfo.trans h.errInfo, k.busy.trans h.busy,
    k.done.trans h.done, k.err.trans h.err, k.drop.trans h.drop⟩

/-- The invariant holds after, and only what a body may change has changed. -/
def Keeps (s t : State) : Prop := CoreInv t ∧ Runs s t

theorem Keeps.trans {s t u : State} (h : Keeps s t) (k : Keeps t u) : Keeps s u := ⟨k.1, h.2.trans k.2⟩

theorem PackStep.runs {s t : State} (k : PackStep s t) : Runs s t := by
  obtain ⟨p, pk, o, l, rfl⟩ : ∃ p pk o l, t = (((s.setInPtr p).setPacker pk).setObuf o).setOutLen l :=
    ⟨_, _, _, _, k.only⟩
  exact ⟨⟨rfl, rfl, rfl, rfl, rfl, rfl, rfl, rfl, rfl⟩, rfl, rfl, rfl, rfl, rfl, rfl⟩

theorem PackStep.model {s t : State} (k : PackStep s t) : SameModel s t ∧ t.unpacker = s.unpacker := by
  obtain ⟨p, pk, o, l, rfl⟩ : ∃ p pk o l, t = (((s.setInPtr p).setPacker pk).setObuf o).setOutLen l :=
    ⟨_, _, _, _, k.only⟩
  exact ⟨⟨rfl, rfl, rfl, rfl, rfl⟩, rfl⟩

theorem PackStep.keeps {s t : State} (k : PackStep s t) (h : CoreInv s) : Keeps s t := by
  refine ⟨?_, k.runs⟩
  have hp := k.packerOk h.packer
  have ho := k.obufOk h.obuf
  obtain ⟨p, pk, o, l, rfl⟩ : ∃ p pk o l, t = (((s.setInPtr p).setPacker pk).setObuf o).setOutLen l :=
    ⟨_, _, _, _, k.only⟩
  exact ⟨h.params, h.table, h.tree, h.code, hp, h.ibuf, ho⟩

theorem UnpackStep.runs {s t : State} (k : UnpackStep s t) : Runs s t := by
  obtain ⟨p, up, o, l, rfl⟩ : ∃ p up o l, t = (((s.setInPtr p).setUnpacker up).setObuf o).setOutLen l :=
    ⟨_, _, _, _, k.only⟩
  exact ⟨⟨rfl, rfl, rfl, rfl, rfl, rfl, rfl, rfl, rfl⟩, rfl, rfl, rfl, rfl, rfl, rfl⟩

theorem UnpackStep.model {s t : State} (k : UnpackStep s t) : SameModel s t ∧ t.packer = s.packer := by
  obtain ⟨p, up, o, l, rfl⟩ : ∃ p up o l, t = (((s.setInPtr p).setUnpacker up).setObuf o).setOutLen l :=
    ⟨_, _, _, _, k.only⟩
  exact ⟨⟨rfl, rfl, rfl, rfl, rfl⟩, rfl⟩

theorem UnpackStep.keeps {s t : State} (k : UnpackStep s t) (h : CoreInv s) : Keeps s t := by
  refine ⟨?_, k.runs⟩
  have ho := k.obufOk h.obuf
  obtain ⟨p, up, o, l, rfl⟩ : ∃ p up o l, t = (((s.setInPtr p).setUnpacker up).setObuf o).setOutLen l :=
    ⟨_, _, _, _, k.only⟩
  exact ⟨h.params, h.table, h.tree, h.code, h.packer, h.ibuf, ho⟩

/-- A new table with both valid flags cleared keeps the invariant (R22, R115). -/
theorem clearValid_keeps {s : State} (h : CoreInv s) {ft : FreqTable} (hft : TableOk ft) :
    Keeps s (clearValid (s.setTable ft)) :=
  ⟨⟨h.params, hft, flag_absurd, flag_absurd, h.packer,
    h.ibuf, h.obuf⟩, ⟨⟨rfl, rfl, rfl, rfl, rfl, rfl, rfl, rfl, rfl⟩, rfl, rfl, rfl, rfl, rfl, rfl⟩⟩

theorem HeaderStep.keeps {s t : State} (k : HeaderStep s t) (h : CoreInv s) : Keeps s t := by
  cases k with
  | tooLong => exact clearValid_keeps h h.table
  | cleared a =>
    obtain ⟨i, r⟩ := clearValid_keeps h zero_tableOk
    exact ⟨⟨i.params, i.table, i.tree, i.code, i.packer, i.ibuf, i.obuf⟩,
      ⟨⟨rfl, rfl, rfl, rfl, rfl, rfl, rfl, rfl, rfl⟩, rfl, rfl, rfl, rfl, rfl, rfl⟩⟩
  | loaded a ft hft =>
    obtain ⟨i, r⟩ := clearValid_keeps h hft
    exact ⟨⟨i.params, i.table, i.tree, i.code, i.packer, i.ibuf, i.obuf⟩,
      ⟨⟨rfl, rfl, rfl, rfl, rfl, rfl, rfl, rfl, rfl⟩, rfl, rfl, rfl, rfl, rfl, rfl⟩⟩

section

variable {s : State} (h : CoreInv s)

include h

theorem bodyNop_keeps : (bodyNop s).Safe (Keeps s) := ⟨h, Runs.refl s⟩

theorem bodyFclr_keeps : (bodyFclr s).Safe (Keeps s) := clearValid_keeps h zero_tableOk

theorem bodyFaccb_keeps (sym : Byte) : (bodyFaccb sym s).Safe (Keeps s) := by
  unfold bodyFaccb
  cases hb : (s.table.total.toNat == Config.maxLen) with
  | true => exact ⟨h, Runs.refl s⟩
  | false =>
    have hlt : s.table.total.toNat < Config.maxLen := by
      have := s.table.total.isLt
      have : s.table.total.toNat ≠ Config.maxLen := by simpa using hb
      unfold Config.maxLen at *
      omega
    exact clearValid_keeps h (add_tableOk h.table hlt sym)

omit h in
/-- FACC where it raises nothing (R118). -/
theorem bodyFacc_done (hin : s.inLen ≤ s.params.ibufSize) (hm : s.table.total.toNat + s.inLen.toNat ≤ Config.maxLen) :
    bodyFacc s = .done ((clearValid (s.setTable (s.table.addAll (inputBytes s)))).setInPtr s.inLen) := by
  rw [bodyFacc, checkIn_pass hin, Ran.andThen_done, guardRaise_pass (by simpa using hm), Ran.andThen_done,
    countBytes_eq _ _ (by show 0 + s.inLen.toNat < 2 ^ 32; have := s.inLen.isLt; omega)]
  have e : (((clearValid s).setInPtr 0#32).inPtr.toNat + s.inLen.toNat) = s.inLen.toNat := Nat.zero_add _
  rw [e, BitVec.ofNat_toNat, BitVec.setWidth_eq]
  rfl

theorem bodyFacc_keeps : (bodyFacc s).Safe (Keeps s) := by
  by_cases hin : s.inLen ≤ s.params.ibufSize
  · by_cases hm : s.table.total.toNat + s.inLen.toNat ≤ Config.maxLen
    · rw [bodyFacc_done hin hm]
      have hlen : (inputBytes s).length = s.inLen.toNat := ibufSlice_length s 0 _
      obtain ⟨i, r⟩ := clearValid_keeps h (addAll_spec h.table (bs := inputBytes s) (by rw [hlen]; exact hm)).1
      exact ⟨⟨i.params, i.table, i.tree, i.code, i.packer, i.ibuf, i.obuf⟩,
        ⟨⟨rfl, rfl, rfl, rfl, rfl, rfl, rfl, rfl, rfl⟩, rfl, rfl, rfl, rfl, rfl, rfl⟩⟩
    · rw [bodyFacc, checkIn_pass hin, Ran.andThen_done, guardRaise_fail (by simpa using hm), Ran.andThen_raised]
      exact ⟨h, Runs.refl s⟩
  · rw [bodyFacc, checkIn_fail (BitVec.not_le.1 hin), Ran.andThen_raised]
    exact ⟨h, Runs.refl s⟩

theorem bodyTbld_keeps : (bodyTbld s).Safe (Keeps s) :=
  ⟨⟨h.params, h.table, fun _ => buildTree_ok h.table s.tree, flag_absurd, h.packer,
    h.ibuf, h.obuf⟩, ⟨⟨rfl, rfl, rfl, rfl, rfl, rfl, rfl, rfl, rfl⟩, rfl, rfl, rfl, rfl, rfl, rfl⟩⟩

theorem clearCodeValid_keeps : Keeps s (clearCodeValid s) :=
  ⟨⟨h.params, h.table, h.tree, flag_absurd, h.packer, h.ibuf, h.obuf⟩,
    ⟨⟨rfl, rfl, rfl, rfl, rfl, rfl, rfl, rfl, rfl⟩, rfl, rfl, rfl, rfl, rfl, rfl⟩⟩

/-- CGEN with a valid tree comes to its end with the codes of the tree (R152). -/
theorem bodyCgen_done (hv : s.status.treeValid = true) :
    ∃ ct, codesOf s.tree = some ct ∧ bodyCgen s = .done (markCodeValid ((clearCodeValid s).setCode ct)) := by
  obtain ⟨ct, hct⟩ := treeOk_codesOf_isSome (h.tree hv)
  refine ⟨ct, hct, ?_⟩
  rw [bodyCgen, needTree_pass (by exact hv), Ran.andThen_done]
  have : codesOf (clearCodeValid s).tree = some ct := hct
  rw [this]

theorem bodyCgen_keeps : (bodyCgen s).Safe (Keeps s) := by
  cases hv : s.status.treeValid with
  | false =>
    rw [bodyCgen, needTree_fail (by exact hv), Ran.andThen_raised]
    exact clearCodeValid_keeps h
  | true =>
    obtain ⟨ct, hct, hb⟩ := bodyCgen_done h hv
    rw [hb]
    exact ⟨⟨h.params, h.table, h.tree, fun _ => ⟨hv, hct⟩, h.packer, h.ibuf, h.obuf⟩,
      ⟨⟨rfl, rfl, rfl, rfl, rfl, rfl, rfl, rfl, rfl⟩, rfl, rfl, rfl, rfl, rfl, rfl⟩⟩

theorem bodyPinit_keeps : (bodyPinit s).Safe (Keeps s) := (bodyPinit_pack s).mono fun _ k => k.keeps h
theorem bodyPbit_keeps (imm : Byte) : (bodyPbit imm s).Safe (Keeps s) := (bodyPbit_pack imm s).mono fun _ k => k.keeps h
theorem bodyPsym_keeps (sym : Byte) : (bodyPsym sym s).Safe (Keeps s) := (bodyPsym_pack sym s).mono fun _ k => k.keeps h
theorem bodyPack_keeps : (bodyPack s).Safe (Keeps s) := (bodyPack_pack s).mono fun _ k => k.keeps h
theorem bodyPflush_keeps : (bodyPflush s).Safe (Keeps s) := (bodyPflush_pack s).mono fun _ k => k.keeps h
theorem bodyUinit_keeps : (bodyUinit s).Safe (Keeps s) := (bodyUinit_unpack s).mono fun _ k => k.keeps h
theorem bodyUsym_keeps : (bodyUsym s).Safe (Keeps s) := (bodyUsym_unpack s).mono fun _ k => k.keeps h
theorem bodyUnpk_keeps : (bodyUnpk s).Safe (Keeps s) := (bodyUnpk_unpack s).mono fun _ k => k.keeps h
theorem bodyHget_keeps : (bodyHget s).Safe (Keeps s) := (bodyHget_step s).mono fun _ k => k.keeps h

theorem setOutLen_keeps (v : Word) : Keeps s (s.setOutLen v) :=
  ⟨⟨h.params, h.table, h.tree, h.code, h.packer, h.ibuf, h.obuf⟩,
    ⟨⟨rfl, rfl, rfl, rfl, rfl, rfl, rfl, rfl, rfl⟩, rfl, rfl, rfl, rfl, rfl, rfl⟩⟩

theorem setUnpacker_keeps (v : Unpacker) : Keeps s (s.setUnpacker v) :=
  ⟨⟨h.params, h.table, h.tree, h.code, h.packer, h.ibuf, h.obuf⟩,
    ⟨⟨rfl, rfl, rfl, rfl, rfl, rfl, rfl, rfl, rfl⟩, rfl, rfl, rfl, rfl, rfl, rfl⟩⟩

theorem bodyHput_keeps : (bodyHput s).Safe (Keeps s) := by
  have k₁ := setOutLen_keeps h 0#32
  have k₂ := (emptyPacker_pack (s.setOutLen 0#32)).keeps k₁.1
  exact (bodyHput_pack s).mono fun _ k => k₁.trans (k₂.trans (k.keeps k₂.1))

end

/-- Two bodies that keep the invariant, one after the other. -/
theorem Ran.Safe.keepsThen {s : State} {r : Ran} {f : State → Ran} (hr : r.Safe (Keeps s))
    (hf : ∀ t, CoreInv t → (f t).Safe (Keeps t)) : (r.andThen f).Safe (Keeps s) :=
  hr.andThen (fun t ht => (hf t ht.1).mono fun _ hu => ht.trans hu) fun _ => id

theorem bodyComp_keeps {s : State} (h : CoreInv s) : (bodyComp s).Safe (Keeps s) := by
  refine checkIn_andThen_safe ⟨h, Runs.refl s⟩ ((bodyFclr_keeps h).keepsThen fun t ht =>
    (bodyFacc_keeps ht).keepsThen fun u hu => ?_)
  split
  · exact bodyHput_keeps hu
  · exact (bodyTbld_keeps hu).keepsThen fun v hv => (bodyCgen_keeps hv).keepsThen fun w hw =>
      (bodyHput_keeps hw).keepsThen fun x hx => (bodyPack_keeps hx).keepsThen fun y hy => bodyPflush_keeps hy

theorem bodyDecomp_keeps {s : State} (h : CoreInv s) : (bodyDecomp s).Safe (Keeps s) := by
  have k₁ := setOutLen_keeps h 0#32
  refine Ran.Safe.andThen (P := Keeps s) ((bodyHget_keeps k₁.1).mono fun _ k => k₁.trans k) (fun t ht => ?_) fun _ => id
  split
  · exact ht.trans (setUnpacker_keeps ht.1 _)
  · exact ((bodyTbld_keeps ht.1).keepsThen fun u hu => (bodyUinit_keeps hu).keepsThen fun v hv =>
      bodyUnpk_keeps hv).mono fun _ hu => ht.trans hu

/-! ### The envelope -/

theorem accept_coreInv {s : State} (h : CoreInv s) : CoreInv (accept s) :=
  ⟨h.params, h.table, h.tree, h.code, h.packer, h.ibuf, h.obuf⟩

theorem finishDone_coreInv {s : State} (h : CoreInv s) : CoreInv (finishDone s) :=
  ⟨h.params, h.table, h.tree, h.code, h.packer, h.ibuf, h.obuf⟩

theorem errorEntry_coreInv {s : State} (h : CoreInv s) (e : Raise) : CoreInv (errorEntry e s) :=
  ⟨h.params, h.table, h.tree, h.code, h.packer, h.ibuf, bufferOk_forget _ _⟩

theorem markDrop_inv {s : State} (h : Inv s) : Inv (markDrop s) :=
  ⟨h.idle, h.oneFlag, h.noCode,
    ⟨h.core.params, h.core.table, h.core.tree, h.core.code, h.core.packer, h.core.ibuf, h.core.obuf⟩⟩

/-- A command whose body keeps the invariant keeps it, and does not fault (R230, R262). -/
theorem runCommand_inv {body : State → Ran} (hb : ∀ s, CoreInv s → (body s).Safe (Keeps s)) {s : State} (h : Inv s) :
    ∃ t, runCommand body s = .next t ∧ Inv t := by
  cases he : s.status.err with
  | true => exact ⟨_, runCommand_dropped (.inr he) body, markDrop_inv h⟩
  | false =>
    have hready : Ready s := ⟨h.idle, he⟩
    have hs := hb (accept s) (accept_coreInv h.core)
    cases hr : body (accept s) with
    | done u =>
      rw [hr] at hs
      obtain ⟨i, r⟩ := hs
      have hu : u.status.err = false := r.err.trans he
      refine ⟨_, runCommand_done hready hr, rfl, ?_, fun _ => ?_, finishDone_coreInv i⟩
      · rintro ⟨_, h₂⟩; rw [show (finishDone u).status.err = false from hu] at h₂; cases h₂
      · exact ⟨r.errCode.trans (h.noCode he).1, r.errInfo.trans (h.noCode he).2⟩
    | raised e u =>
      rw [hr] at hs
      obtain ⟨i, r⟩ := hs
      refine ⟨_, runCommand_raised hready hr, rfl, ?_, (fun h₂ => nomatch h₂), errorEntry_coreInv i e⟩
      rintro ⟨h₁, _⟩
      have : u.status.done = false := r.done
      rw [show (errorEntry e u).status.done = u.status.done from rfl, this] at h₁
      cases h₁
    | stuck f => rw [hr] at hs; exact hs.elim

/-- The reset table keeps the invariant: it clears everything (R22, R54). -/
theorem resetTable_inv {s : State} (hp : s.params.wf = true) {i o : Buffer} (hi : BufferOk i s.params.ibufSize)
    (ho : BufferOk o s.params.obufSize) : Inv (resetTable i o s) :=
  ⟨rfl, (fun h => nomatch h.1), fun _ => ⟨rfl, rfl⟩, ⟨hp, zero_tableOk, (fun e => nomatch e), (fun e => nomatch e),
    packerOk_empty, hi, ho⟩⟩

theorem execEclr_inv {s : State} (h : Inv s) : ∃ t, execEclr s = .next t ∧ Inv t :=
  ⟨_, runAlways_idle h.idle _ _, rfl, (fun e => nomatch e.2), fun _ => ⟨rfl, rfl⟩,
    ⟨h.core.params, h.core.table, h.core.tree, h.core.code, h.core.packer, h.core.ibuf, h.core.obuf⟩⟩

theorem execSrst_inv {s : State} (h : Inv s) : ∃ t, execSrst s = .next t ∧ Inv t := by
  refine ⟨_, runAlways_idle h.idle _ _, ?_⟩
  have := resetTable_inv (s := accept s) h.core.params h.core.ibuf h.core.obuf
  exact ⟨rfl, this.oneFlag, this.noCode, ⟨this.core.params, this.core.table, this.core.tree, this.core.code,
    this.core.packer, this.core.ibuf, this.core.obuf⟩⟩

/-- Every command keeps the invariant and does not fault. -/
theorem exec_inv (i : Instr) {s : State} (h : Inv s) : ∃ t, exec i s = .next t ∧ Inv t := by
  cases i with
  | nop => exact runCommand_inv (fun _ h => bodyNop_keeps h) h
  | fclr => exact runCommand_inv (fun _ h => bodyFclr_keeps h) h
  | faccb imm => exact runCommand_inv (fun _ h => bodyFaccb_keeps h imm) h
  | facc => exact runCommand_inv (fun _ h => bodyFacc_keeps h) h
  | tbld => exact runCommand_inv (fun _ h => bodyTbld_keeps h) h
  | cgen => exact runCommand_inv (fun _ h => bodyCgen_keeps h) h
  | pinit => exact runCommand_inv (fun _ h => bodyPinit_keeps h) h
  | pbit imm => exact runCommand_inv (fun _ h => bodyPbit_keeps h imm) h
  | psym imm => exact runCommand_inv (fun _ h => bodyPsym_keeps h imm) h
  | pack => exact runCommand_inv (fun _ h => bodyPack_keeps h) h
  | pflush => exact runCommand_inv (fun _ h => bodyPflush_keeps h) h
  | uinit => exact runCommand_inv (fun _ h => bodyUinit_keeps h) h
  | usym => exact runCommand_inv (fun _ h => bodyUsym_keeps h) h
  | unpk => exact runCommand_inv (fun _ h => bodyUnpk_keeps h) h
  | hput => exact runCommand_inv (fun _ h => bodyHput_keeps h) h
  | hget => exact runCommand_inv (fun _ h => bodyHget_keeps h) h
  | comp => exact runCommand_inv (fun _ h => bodyComp_keeps h) h
  | decomp => exact runCommand_inv (fun _ h => bodyDecomp_keeps h) h
  | eclr => exact execEclr_inv h
  | srst => exact execSrst_inv h

theorem execIllegal_inv (c : Word) {s : State} (h : Inv s) : ∃ t, execIllegal c s = .next t ∧ Inv t :=
  runCommand_inv (body := .raised ⟨.illegalCommand, c⟩) (fun s h => ⟨h, Runs.refl s⟩) h

/-! ### The host's moves -/

theorem reg_store_inv (r : Reg) (v : Word) {s : State} (h : Inv s) : Inv (r.store s v) := by
  have same : ∀ t : State, t.status = s.status → t.errCode = s.errCode → t.errInfo = s.errInfo →
      t.params = s.params → t.table = s.table → t.tree = s.tree → t.code = s.code → t.packer = s.packer →
      t.ibuf = s.ibuf → t.obuf = s.obuf → Inv t := by
    intro t h₁ h₂ h₃ h₄ h₅ h₆ h₇ h₈ h₉ h₁₀
    obtain ⟨a, b, c, ⟨d, e, f, g, i, j, k⟩⟩ := h
    refine ⟨by rw [h₁]; exact a, by rw [h₁]; exact b, by rw [h₁, h₂, h₃]; exact c, ⟨by rw [h₄]; exact d,
      by rw [h₅]; exact e, by rw [h₁, h₅, h₆]; exact f, by rw [h₁, h₆, h₇]; exact g, by rw [h₈]; exact i,
      by rw [h₉, h₄]; exact j, by rw [h₁₀, h₄]; exact k⟩⟩
  cases r with
  | status =>
    refine ⟨h.idle, fun e => h.oneFlag ⟨?_, e.2⟩, h.noCode, ⟨h.core.params, h.core.table, h.core.tree, h.core.code,
      h.core.packer, h.core.ibuf, h.core.obuf⟩⟩
    have := e.1
    simp only [Reg.store, State.setStatus_status, Status.clearBy, Bool.and_eq_true] at this
    exact this.1
  | ctrl | inLen | inPtr | outLen | csel | nsel => exact same _ rfl rfl rfl rfl rfl rfl rfl rfl rfl rfl
  | _ => exact h

theorem answer_inv (o : Option Word) {s : State} (h : Inv s) : Inv (s.answer o) := by
  cases o with
  | some v | none =>
    exact ⟨h.idle, h.oneFlag, h.noCode, ⟨h.core.params, h.core.table, h.core.tree, h.core.code, h.core.packer,
      h.core.ibuf, h.core.obuf⟩⟩

theorem setInbox_inv (l : List HostMove) {s : State} (h : Inv s) : Inv (s.setInbox l) :=
  ⟨h.idle, h.oneFlag, h.noCode, ⟨h.core.params, h.core.table, h.core.tree, h.core.code, h.core.packer,
    h.core.ibuf, h.core.obuf⟩⟩

theorem issueWord_inv (c : Word) {s : State} (h : Inv s) : ∃ t, issueWord c s = .next t ∧ Inv t := by
  unfold issueWord
  split
  · exact exec_inv _ h
  · exact execIllegal_inv c h

theorem writeReg_inv (r : Reg) (v : Word) {s : State} (h : Inv s) : ∃ t, writeReg r v s = .next t ∧ Inv t := by
  by_cases hr : r = .cmd
  · subst hr; exact issueWord_inv v h
  · have : writeReg r v s = .next (r.store s v) := by
      unfold writeReg
      split
      · exact absurd rfl hr
      · rw [h.idle]; rfl
    exact ⟨_, this, reg_store_inv r v h⟩

/-- A move of the host inside the interface keeps the invariant; no move faults. -/
theorem hostMove_inv (m : HostMove) {s : State} (h : Inv s) :
    (∃ t, hostMove m s = .next t ∧ Inv t) ∨ hostMove m s = .refused .hostAccessOutside := by
  cases m with
  | regWrite off v =>
    unfold hostMove
    cases hr : Reg.at off with
    | some r => left; simp only [hr]; exact writeReg_inv r v h
    | none => right; simp only [hr]
  | regRead off =>
    unfold hostMove
    cases hr : Reg.at off with
    | some r => left; simp only [hr]; exact ⟨_, rfl, answer_inv _ h⟩
    | none => right; simp only [hr]
  | ibufWrite a b =>
    rw [show hostMove (.ibufWrite a b) s = inside a s.params.ibufSize (writeIdle s (s.setIbuf (s.ibuf.store a b))) from rfl, inside]
    split
    · rename_i ha
      rw [writeIdle, if_neg (by simp [h.idle])]
      exact .inl ⟨_, rfl, h.idle, h.oneFlag, h.noCode, ⟨h.core.params, h.core.table, h.core.tree, h.core.code,
        h.core.packer, bufferOk_store h.core.ibuf ha b, h.core.obuf⟩⟩
    · exact .inr rfl
  | obufWrite a b =>
    rw [show hostMove (.obufWrite a b) s = inside a s.params.obufSize (writeIdle s (s.setObuf (s.obuf.store a b))) from rfl, inside]
    split
    · rename_i ha
      rw [writeIdle, if_neg (by simp [h.idle])]
      exact .inl ⟨_, rfl, h.idle, h.oneFlag, h.noCode, ⟨h.core.params, h.core.table, h.core.tree, h.core.code,
        h.core.packer, h.core.ibuf, bufferOk_store h.core.obuf ha b⟩⟩
    · exact .inr rfl
  | ibufRead a =>
    rw [show hostMove (.ibufRead a) s = inside a s.params.ibufSize (.next (readByte (s.ibufByte a) s)) from rfl, inside]
    split
    · refine .inl ⟨_, rfl, ?_⟩
      rw [readByte, if_neg (by simp [h.idle])]
      exact answer_inv _ h
    · exact .inr rfl
  | obufRead a =>
    rw [show hostMove (.obufRead a) s = inside a s.params.obufSize (.next (readByte (s.obufByte a) s)) from rfl, inside]
    split
    · refine .inl ⟨_, rfl, ?_⟩
      rw [readByte, if_neg (by simp [h.idle])]
      exact answer_inv _ h
    · exact .inr rfl
  | rst => exact .inl ⟨_, rfl, resetTable_inv h.core.params (bufferOk_forget _ _) (bufferOk_forget _ _)⟩

end Sys2Proof.Machine
end

