-- ==== Sys2Proof/Laws/Bodies.lean ====
section
/-! SUPPORT. Every body changes only what its command writes (R21, R27, R40, R49, R51, R52, R61), whichever way it ends and
in every state. -/

namespace Sys2Proof.Machine

open Sys2Proof Sys2Proof.Safety

/-- The body of each command. -/
def bodyOf : Instr → State → Ran
  | .nop => bodyNop
  | .fclr => bodyFclr
  | .faccb imm => bodyFaccb imm
  | .facc => bodyFacc
  | .tbld => bodyTbld
  | .cgen => bodyCgen
  | .pinit => bodyPinit
  | .pbit imm => bodyPbit imm
  | .psym imm => bodyPsym imm
  | .pack => bodyPack
  | .pflush => bodyPflush
  | .uinit => bodyUinit
  | .usym => bodyUsym
  | .unpk => bodyUnpk
  | .hput => bodyHput
  | .hget => bodyHget
  | .comp => bodyComp
  | .decomp => bodyDecomp
  | .eclr => bodyEclr
  | .srst => bodySrst

/-- Every command but ECLR and SRST is its body in the common envelope (R230). -/
theorem exec_bodyOf {i : Instr} (h : i ≠ .eclr) (h' : i ≠ .srst) (s : State) : exec i s = runCommand (bodyOf i) s := by
  cases i <;> first | rfl | contradiction

/-- A ready machine ends a command normally where its body comes to its end (R230). -/
theorem exec_done {i : Instr} (hi : i ≠ .eclr) (hi' : i ≠ .srst) {s u : State} (h : Ready s)
    (hb : bodyOf i (accept s) = .done u) : exec i s = .next (finishDone u) := by
  rw [exec_bodyOf hi hi', runCommand_done h hb]

/-- A ready machine ends a command in error entry where its body raises (R230, R262). -/
theorem exec_raised {i : Instr} (hi : i ≠ .eclr) (hi' : i ≠ .srst) {s u : State} (h : Ready s) {e : Raise}
    (hb : bodyOf i (accept s) = .raised e u) : exec i s = .next (errorEntry e u) := by
  rw [exec_bodyOf hi hi', runCommand_raised h hb]

/-- A ready machine's command that raises before it writes anything (R262). -/
theorem exec_failed {i : Instr} (hi : i ≠ .eclr) (hi' : i ≠ .srst) {s : State} (h : Ready s) {k : ErrorKind}
    {code info : Word} (hk : k.code = code) (hb : bodyOf i (accept s) = .raised ⟨k, info⟩ (accept s)) :
    exec i s = .next (failed s code info) := by
  rw [exec_bodyOf hi hi', runCommand_failed h hb, hk]

/-- What the body of a command may change. -/
structure Writes (i : Instr) (s t : State) : Prop where
  runs : Runs s t
  table : writesTable i = false → t.table = s.table
  tree : writesTree i = false → t.tree = s.tree
  code : writesCode i = false → t.code = s.code
  treeValid : writesTable i = false → writesTree i = false → t.status.treeValid = s.status.treeValid
  codeValid : writesTable i = false → writesTree i = false → writesCode i = false →
    t.status.codeValid = s.status.codeValid
  madeTree : t.status.treeValid = true → s.status.treeValid = true ∨ i = .tbld ∨ i = .comp ∨ i = .decomp
  madeCode : t.status.codeValid = true → s.status.codeValid = true ∨ i = .cgen ∨ i = .comp
  packer : writesPacker i = false → t.packer = s.packer
  bidx : writesBidx i = false → t.unpacker.bidx = s.unpacker.bidx
  walk : writesWalk i = false → t.unpacker.cur = s.unpacker.cur ∧ t.unpacker.rem = s.unpacker.rem
  inPtr : writesInPtr i = false → t.inPtr = s.inPtr
  output : writesObuf i = false → t.obuf = s.obuf ∧ t.outLen = s.outLen
  beyond : ∀ a, t.outLen.toNat ≤ a → t.obufByte a = s.obufByte a
  appended : startsObuf i = false → OnlyAppended s t

/-- A body that leaves every field alone. -/
theorem Writes.refl (i : Instr) (s : State) : Writes i s s where
  runs := Runs.refl s
  table _ := rfl
  tree _ := rfl
  code _ := rfl
  treeValid _ _ := rfl
  codeValid _ _ _ := rfl
  madeTree := .inl
  madeCode := .inl
  packer _ := rfl
  bidx _ := rfl
  walk _ := ⟨rfl, rfl⟩
  inPtr _ := rfl
  output _ := ⟨rfl, rfl⟩
  beyond _ _ := rfl
  appended _ := onlyAppended_refl s

/-! ### IN_PTR under the packer's bodies -/

theorem outByte_inPtr (v : Byte) (s : State) : (outByte v s).Post fun t => t.inPtr = s.inPtr := by
  unfold outByte; split <;> rfl

theorem outBytes_inPtr (vs : List Byte) (s : State) : (outBytes vs s).Post fun t => t.inPtr = s.inPtr := by
  induction vs generalizing s with
  | nil => exact rfl
  | cons v vs ih =>
    exact (outByte_inPtr v s).andThen (fun t ht => (ih t).mono fun u hu => hu.trans ht) fun _ => id

theorem pushBit_inPtr (b : Bool) (s : State) : (pushBit b s).Post fun t => t.inPtr = s.inPtr := by
  unfold pushBit
  split
  · exact (outByte_inPtr _ s).andThen (fun t ht => ht) fun _ => id
  · exact rfl

theorem pushCodeBits_inPtr (bits : CodeBits) (l : Nat) (s : State) :
    (pushCodeBits bits l s).Post fun t => t.inPtr = s.inPtr := by
  induction l generalizing s with
  | zero => exact rfl
  | succ l ih => exact (pushBit_inPtr _ s).andThen (fun t ht => (ih t).mono fun u hu => hu.trans ht) fun _ => id

theorem pushCode_inPtr (sym : Byte) (s : State) : (pushCode sym s).Post fun t => t.inPtr = s.inPtr := by
  unfold pushCode
  split
  · exact rfl
  · exact pushCodeBits_inPtr _ _ s

theorem guardRaise_andThen_post {P : State → Prop} {s : State} (h : P s) (bad : Bool) (k : ErrorKind) (info : Word)
    {f : State → Ran} (hf : (f s).Post P) : ((guardRaise bad k info s).andThen f).Post P := by
  cases bad
  · exact hf
  · exact h

theorem Ran.Safe.post {P : State → Prop} {r : Ran} (h : r.Safe P) : r.Post P := by
  cases r with
  | done s => exact h
  | raised e s => exact h
  | stuck e => exact h.elim

theorem Ran.Post.and {P Q : State → Prop} {r : Ran} (h : r.Post P) (k : r.Post Q) : r.Post fun s => P s ∧ Q s := by
  cases r with
  | done s => exact ⟨h, k⟩
  | raised e s => exact ⟨h, k⟩
  | stuck e => trivial

/-! ### Steps as `Writes` -/

/-- A packer body that leaves IN_PTR alone, or belongs to PACK. -/
theorem PackStep.writes {s t : State} (k : PackStep s t) {i : Instr} (hp : writesPacker i = true)
    (ho : writesObuf i = true ∨ (t.obuf = s.obuf ∧ t.outLen = s.outLen)) (hi : writesInPtr i = true ∨ t.inPtr = s.inPtr) :
    Writes i s t := by
  obtain ⟨m, u⟩ := k.model
  exact
    { runs := k.runs
      table := fun _ => m.table
      tree := fun _ => m.tree
      code := fun _ => m.code
      treeValid := fun _ _ => m.treeValid
      codeValid := fun _ _ _ => m.codeValid
      madeTree := fun h => .inl (m.treeValid ▸ h)
      madeCode := fun h => .inl (m.codeValid ▸ h)
      packer := fun h => by rw [hp] at h; cases h
      bidx := fun _ => by rw [u]
      walk := fun _ => by rw [u]; exact ⟨rfl, rfl⟩
      inPtr := fun h => by
        obtain e | e := hi
        · rw [e] at h; cases h
        · exact e
      output := fun h => by
        obtain e | e := ho
        · rw [e] at h; cases h
        · exact e
      beyond := fun a ha => k.appended.2 a (.inr ha)
      appended := fun _ => k.appended }

theorem UnpackStep.writes {s t : State} (k : UnpackStep s t) {i : Instr} (hb : writesBidx i = true)
    (hw : writesWalk i = true) (ho : writesObuf i = true ∨ (t.obuf = s.obuf ∧ t.outLen = s.outLen))
    (hi : writesInPtr i = true ∨ t.inPtr = s.inPtr) : Writes i s t := by
  obtain ⟨m, u⟩ := k.model
  exact
    { runs := k.runs
      table := fun _ => m.table
      tree := fun _ => m.tree
      code := fun _ => m.code
      treeValid := fun _ _ => m.treeValid
      codeValid := fun _ _ _ => m.codeValid
      madeTree := fun h => .inl (m.treeValid ▸ h)
      madeCode := fun h => .inl (m.codeValid ▸ h)
      packer := fun _ => u
      bidx := fun h => by rw [hb] at h; cases h
      walk := fun h => by rw [hw] at h; cases h
      inPtr := fun h => by
        obtain e | e := hi
        · rw [e] at h; cases h
        · exact e
      output := fun h => by
        obtain e | e := ho
        · rw [e] at h; cases h
        · exact e
      beyond := fun a ha => k.appended.2 a (.inr ha)
      appended := fun _ => k.appended }

/-- A body that writes the table and IN_PTR and clears the valid flags. -/
theorem tableStep_writes {i : Instr} (ht : writesTable i = true) (s : State) (ft : FreqTable) (p : Word)
    (hi : writesInPtr i = true ∨ p = s.inPtr) : Writes i s ((clearValid (s.setTable ft)).setInPtr p) where
  runs := ⟨⟨rfl, rfl, rfl, rfl, rfl, rfl, rfl, rfl, rfl⟩, rfl, rfl, rfl, rfl, rfl, rfl⟩
  table h := by rw [ht] at h; cases h
  tree _ := rfl
  code _ := rfl
  treeValid h := by rw [ht] at h; cases h
  codeValid h := by rw [ht] at h; cases h
  madeTree h := flag_absurd h
  madeCode h := flag_absurd h
  packer _ := rfl
  bidx _ := rfl
  walk _ := ⟨rfl, rfl⟩
  inPtr h := by
    obtain e | e := hi
    · rw [e] at h; cases h
    · exact e
  output _ := ⟨rfl, rfl⟩
  beyond _ _ := rfl
  appended _ := ⟨le_refl _, fun _ _ => rfl⟩

theorem HeaderStep.writes {s t : State} (k : HeaderStep s t) : Writes .hget s t := by
  have base : ∀ (ft : FreqTable) (a : Nat), Writes .hget s ((readAt a (startHeader s)).setTable ft) := fun ft a =>
    { runs := ⟨⟨rfl, rfl, rfl, rfl, rfl, rfl, rfl, rfl, rfl⟩, rfl, rfl, rfl, rfl, rfl, rfl⟩
      table := fun h => flag_absurd h.symm
      tree := fun _ => rfl
      code := fun _ => rfl
      treeValid := fun h => flag_absurd h.symm
      codeValid := fun h => flag_absurd h.symm
      madeTree := fun h => flag_absurd h
      madeCode := fun h => flag_absurd h
      packer := fun _ => rfl
      bidx := fun h => flag_absurd h.symm
      walk := fun _ => ⟨rfl, rfl⟩
      inPtr := fun h => flag_absurd h.symm
      output := fun _ => ⟨rfl, rfl⟩
      beyond := fun _ _ => rfl
      appended := fun _ => ⟨le_refl _, fun _ _ => rfl⟩ }
  cases k with
  | tooLong => exact tableStep_writes rfl s s.table s.inPtr (.inr rfl)
  | cleared a => exact base FreqTable.zero a
  | loaded a ft h => exact base ft a

theorem tbld_writes (s : State) : Writes .tbld s (markTreeValid ((clearValid s).setTree (buildTree s.table s.tree))) where
  runs := ⟨⟨rfl, rfl, rfl, rfl, rfl, rfl, rfl, rfl, rfl⟩, rfl, rfl, rfl, rfl, rfl, rfl⟩
  table _ := rfl
  tree h := flag_absurd h.symm
  code _ := rfl
  treeValid _ h := flag_absurd h.symm
  codeValid _ h := flag_absurd h.symm
  madeTree _ := .inr (.inl rfl)
  madeCode h := flag_absurd h
  packer _ := rfl
  bidx _ := rfl
  walk _ := ⟨rfl, rfl⟩
  inPtr _ := rfl
  output _ := ⟨rfl, rfl⟩
  beyond _ _ := rfl
  appended _ := ⟨le_refl _, fun _ _ => rfl⟩

/-- A body that writes CODE_VALID and the code table. -/
theorem codeStep_writes (s : State) (v : Bool) (ct : CodeTable) :
    Writes .cgen s ((s.setStatus { s.status with codeValid := v }).setCode ct) where
  runs := ⟨⟨rfl, rfl, rfl, rfl, rfl, rfl, rfl, rfl, rfl⟩, rfl, rfl, rfl, rfl, rfl, rfl⟩
  table _ := rfl
  tree _ := rfl
  code h := flag_absurd h.symm
  treeValid _ _ := rfl
  codeValid _ _ h := flag_absurd h.symm
  madeTree := .inl
  madeCode _ := .inr (.inl rfl)
  packer _ := rfl
  bidx _ := rfl
  walk _ := ⟨rfl, rfl⟩
  inPtr _ := rfl
  output _ := ⟨rfl, rfl⟩
  beyond _ _ := rfl
  appended _ := ⟨le_refl _, fun _ _ => rfl⟩

theorem bodyCgen_writes (s : State) : (bodyCgen s).Post (Writes .cgen s) := by
  refine guardRaise_andThen_post (codeStep_writes s false s.code) _ _ _ ?_
  show Ran.Post (Writes .cgen s) (match codesOf s.tree with
    | some ct => .done (markCodeValid ((clearCodeValid s).setCode ct))
    | none => .stuck .walkTooDeep)
  cases codesOf s.tree with
  | none => trivial
  | some ct => exact codeStep_writes s true ct

theorem bodyFacc_writes (s : State) : (bodyFacc s).Post (Writes .facc s) := by
  by_cases hin : s.inLen ≤ s.params.ibufSize
  · by_cases hm : s.table.total.toNat + s.inLen.toNat ≤ Config.maxLen
    · rw [bodyFacc_done hin hm]
      exact tableStep_writes rfl s _ _ (.inl rfl)
    · rw [bodyFacc, checkIn_pass hin, Ran.andThen_done, guardRaise_fail (by simpa using hm), Ran.andThen_raised]
      exact .refl _ s
  · rw [bodyFacc, checkIn_fail (BitVec.not_le.1 hin), Ran.andThen_raised]
    exact .refl _ s

theorem bodyFaccb_writes (sym : Byte) (s : State) : (bodyFaccb sym s).Post (Writes (.faccb sym) s) :=
  guardRaise_andThen_post (.refl _ s) _ _ _ (tableStep_writes rfl s (s.table.add sym) s.inPtr (.inr rfl))

theorem emptied_runs (s : State) : Runs s (emptyPacker (s.setOutLen 0#32)) :=
  ⟨⟨rfl, rfl, rfl, rfl, rfl, rfl, rfl, rfl, rfl⟩, rfl, rfl, rfl, rfl, rfl, rfl⟩

theorem bodyHput_writes (s : State) : (bodyHput s).Post (Writes .hput s) := by
  have h := (bodyHput_pack s).post
  have k : (bodyHput s).Post fun t => t.inPtr = s.inPtr := by rw [bodyHput_eq]; exact outBytes_inPtr _ _
  refine (h.and k).mono fun t ⟨ht, hk⟩ => ?_
  obtain ⟨m, u⟩ := ht.model
  exact
    { runs := (emptied_runs s).trans ht.runs
      table := fun _ => m.table
      tree := fun _ => m.tree
      code := fun _ => m.code
      treeValid := fun _ _ => m.treeValid
      codeValid := fun _ _ _ => m.codeValid
      madeTree := fun h => .inl (m.treeValid ▸ h)
      madeCode := fun h => .inl (m.codeValid ▸ h)
      packer := fun h => flag_absurd h.symm
      bidx := fun _ => by rw [u]; rfl
      walk := fun _ => by rw [u]; exact ⟨rfl, rfl⟩
      inPtr := fun _ => hk
      output := fun h => flag_absurd h.symm
      beyond := fun a ha => ht.appended.2 a (.inr ha)
      appended := fun h => flag_absurd h.symm }

/-! ### The macro commands -/

/-- What the parts of COMP before HPUT leave alone. -/
structure Silent (s t : State) : Prop where
  runs : Runs s t
  unpacker : t.unpacker = s.unpacker
  obuf : t.obuf = s.obuf
  outLen : t.outLen = s.outLen

theorem Silent.refl (s : State) : Silent s s := ⟨Runs.refl s, rfl, rfl, rfl⟩

theorem Silent.trans {s t u : State} (h : Silent s t) (k : Silent t u) : Silent s u :=
  ⟨h.runs.trans k.runs, k.unpacker.trans h.unpacker, k.obuf.trans h.obuf, k.outLen.trans h.outLen⟩

theorem Writes.silent {s t : State} {i : Instr} (k : Writes i s t) (ho : writesObuf i = false)
    (hb : writesBidx i = false) (hw : writesWalk i = false) : Silent s t := by
  obtain ⟨o₁, o₂⟩ := k.output ho
  refine ⟨k.runs, ?_, o₁, o₂⟩
  have e₁ := k.bidx hb
  have e₂ := k.walk hw
  cases hu : t.unpacker
  cases ht : s.unpacker
  rw [hu, ht] at e₁ e₂
  simp only at e₁ e₂
  rw [e₁, e₂.1, e₂.2]

/-- What the parts of COMP up to any point leave alone. -/
structure CompStep (s t : State) : Prop where
  runs : Runs s t
  unpacker : t.unpacker = s.unpacker
  beyond : ∀ a, t.outLen.toNat ≤ a → t.obufByte a = s.obufByte a

theorem CompStep.pack {s t u : State} (h : CompStep s t) (k : PackStep t u) : CompStep s u :=
  ⟨h.runs.trans k.runs, k.model.2.trans h.unpacker, fun a ha => by
    rw [k.appended.2 a (.inr ha)]
    exact h.beyond a (le_trans k.appended.1 ha)⟩

theorem Silent.bytes {s t : State} (h : Silent s t) (a : Nat) : t.obufByte a = s.obufByte a := by
  simp [State.obufByte, h.obuf]

theorem Silent.comp {s t : State} (h : Silent s t) : CompStep s t := ⟨h.runs, h.unpacker, fun a _ => h.bytes a⟩

theorem Silent.hput {s t u : State} (h : Silent s t) (k : PackStep (emptyPacker (t.setOutLen 0#32)) u) :
    CompStep s u :=
  ⟨h.runs.trans ((emptied_runs t).trans k.runs), k.model.2.trans h.unpacker, fun a ha =>
    (k.appended.2 a (.inr ha)).trans (h.bytes a)⟩

theorem bodyComp_step (s : State) : (bodyComp s).Post (CompStep s) := by
  refine guardRaise_andThen_post (Silent.refl s).comp _ _ _ ?_
  refine Ran.Post.andThen (P := Silent s) ((tableStep_writes (i := .fclr) rfl s FreqTable.zero s.inPtr
    (.inr rfl)).silent rfl rfl rfl) (fun t ht => ?_) fun _ => Silent.comp
  refine Ran.Post.andThen (P := Silent s) ((bodyFacc_writes t).mono fun u k => ht.trans (k.silent rfl rfl rfl))
    (fun u hu => ?_) fun _ => Silent.comp
  have put : ∀ v, Silent s v → (bodyHput v).Post (CompStep s) := fun v hv =>
    (bodyHput_pack v).post.mono fun w k => hv.hput k
  split
  · exact put u hu
  · refine Ran.Post.andThen (P := Silent s) (hu.trans ((tbld_writes u).silent rfl rfl rfl)) (fun v hv => ?_)
      fun _ => Silent.comp
    refine Ran.Post.andThen (P := Silent s) ((bodyCgen_writes v).mono fun w k => hv.trans (k.silent rfl rfl rfl))
      (fun w hw => ?_) fun _ => Silent.comp
    refine Ran.Post.andThen (P := CompStep s) (put w hw) (fun x hx => ?_) fun _ => id
    exact Ran.Post.andThen (P := CompStep s) ((bodyPack_pack x).post.mono fun y k => hx.pack k)
      (fun y hy => (bodyPflush_pack y).post.mono fun z k => hy.pack k) fun _ => id

/-- What the parts of DECOMP leave alone. -/
structure DecompStep (s t : State) : Prop where
  runs : Runs s t
  packer : t.packer = s.packer
  code : t.code = s.code
  codeValid : t.status.codeValid = true → s.status.codeValid = true
  beyond : ∀ a, t.outLen.toNat ≤ a → t.obufByte a = s.obufByte a

theorem DecompStep.unpack {s t u : State} (h : DecompStep s t) (k : UnpackStep t u) : DecompStep s u :=
  ⟨h.runs.trans k.runs, k.model.2.trans h.packer, k.model.1.code.trans h.code,
    fun e => h.codeValid (k.model.1.codeValid ▸ e), fun a ha => by
    rw [k.appended.2 a (.inr ha)]
    exact h.beyond a (le_trans k.appended.1 ha)⟩

theorem DecompStep.silent {s t u : State} (h : DecompStep s t) {i : Instr} (k : Writes i t u)
    (ho : writesObuf i = false) (hp : writesPacker i = false) (hc : writesCode i = false) : DecompStep s u := by
  obtain ⟨o₁, o₂⟩ := k.output ho
  refine ⟨h.runs.trans k.runs, (k.packer hp).trans h.packer, (k.code hc).trans h.code, fun e => ?_, fun a ha => ?_⟩
  · obtain e | rfl | rfl := k.madeCode e
    · exact h.codeValid e
    · cases hc
    · cases hc
  · rw [o₂] at ha
    rw [← h.beyond a ha]
    simp [State.obufByte, o₁]

theorem bodyDecomp_step (s : State) : (bodyDecomp s).Post (DecompStep s) := by
  have h₀ : DecompStep s (s.setOutLen 0#32) :=
    ⟨⟨⟨rfl, rfl, rfl, rfl, rfl, rfl, rfl, rfl, rfl⟩, rfl, rfl, rfl, rfl, rfl, rfl⟩, rfl, rfl, id, fun _ _ => rfl⟩
  refine Ran.Post.andThen (P := DecompStep s) ((bodyHget_step _).post.mono fun t k => h₀.silent k.writes rfl rfl rfl)
    (fun t ht => ?_) fun _ => id
  split
  · exact ht.unpack (.setUnpacker t _)
  · refine Ran.Post.andThen (P := DecompStep s) (ht.silent (tbld_writes t) rfl rfl rfl) (fun u hu => ?_) fun _ => id
    exact Ran.Post.andThen (P := DecompStep s) ((bodyUinit_unpack u).post.mono fun v k => hu.unpack k)
      (fun v hv => (bodyUnpk_unpack v).post.mono fun w k => hv.unpack k) fun _ => id

/-- Every body changes only what its command writes. -/
theorem bodyOf_writes {i : Instr} (h : i ≠ .eclr) (h' : i ≠ .srst) (s : State) : (bodyOf i s).Post (Writes i s) := by
  cases i with
  | nop => exact .refl _ s
  | fclr => exact tableStep_writes rfl s FreqTable.zero s.inPtr (.inr rfl)
  | faccb sym => exact bodyFaccb_writes sym s
  | facc => exact bodyFacc_writes s
  | tbld => exact tbld_writes s
  | cgen => exact bodyCgen_writes s
  | pinit => exact (PackStep.setPacker s _ fun _ => packerOk_empty).writes rfl (.inr ⟨rfl, rfl⟩) (.inr rfl)
  | pbit imm =>
    exact ((bodyPbit_pack imm s).post.and (pushBit_inPtr _ s)).mono fun t k => k.1.writes rfl (.inl rfl) (.inr k.2)
  | psym sym =>
    exact ((bodyPsym_pack sym s).post.and (guardRaise_andThen_post (P := fun t => t.inPtr = s.inPtr) rfl _ _ _
      (pushCode_inPtr sym s))).mono
      fun t k => k.1.writes rfl (.inl rfl) (.inr k.2)
  | pack => exact (bodyPack_pack s).post.mono fun t k => k.writes rfl (.inl rfl) (.inl rfl)
  | pflush =>
    refine ((bodyPflush_pack s).post.and ?_).mono fun t k => k.1.writes rfl (.inl rfl) (.inr k.2)
    unfold bodyPflush
    split
    · exact rfl
    · exact (outByte_inPtr _ s).andThen (fun t ht => ht) fun _ => id
  | uinit =>
    exact guardRaise_andThen_post (.refl _ s) _ _ _
      ((UnpackStep.setUnpacker s _).writes rfl rfl (.inr ⟨rfl, rfl⟩) (.inr rfl))
  | usym => exact (bodyUsym_unpack s).post.mono fun t k => k.writes rfl rfl (.inl rfl) (.inl rfl)
  | unpk => exact (bodyUnpk_unpack s).post.mono fun t k => k.writes rfl rfl (.inl rfl) (.inl rfl)
  | hput => exact bodyHput_writes s
  | hget => exact (bodyHget_step s).post.mono fun t k => k.writes
  | comp =>
    exact (bodyComp_step s).mono fun t k =>
      { runs := k.runs
        table := fun h => flag_absurd h.symm
        tree := fun h => flag_absurd h.symm
        code := fun h => flag_absurd h.symm
        treeValid := fun h => flag_absurd h.symm
        codeValid := fun h => flag_absurd h.symm
        madeTree := fun _ => .inr (.inr (.inl rfl))
        madeCode := fun _ => .inr (.inr rfl)
        packer := fun h => flag_absurd h.symm
        bidx := fun _ => by rw [k.unpacker]
        walk := fun _ => by rw [k.unpacker]; exact ⟨rfl, rfl⟩
        inPtr := fun h => flag_absurd h.symm
        output := fun h => flag_absurd h.symm
        beyond := k.beyond
        appended := fun h => flag_absurd h.symm }
  | decomp =>
    exact (bodyDecomp_step s).mono fun t k =>
      { runs := k.runs
        table := fun h => flag_absurd h.symm
        tree := fun h => flag_absurd h.symm
        code := fun _ => k.code
        treeValid := fun h => flag_absurd h.symm
        codeValid := fun h => flag_absurd h.symm
        madeTree := fun _ => .inr (.inr (.inr rfl))
        madeCode := fun h => .inl (k.codeValid h)
        packer := fun _ => k.packer
        bidx := fun h => flag_absurd h.symm
        walk := fun h => flag_absurd h.symm
        inPtr := fun h => flag_absurd h.symm
        output := fun h => flag_absurd h.symm
        beyond := k.beyond
        appended := fun h => flag_absurd h.symm }
  | eclr => exact absurd rfl h
  | srst => exact absurd rfl h'

/-- What the answer of an accepted or dropped command is, for every command but ECLR and SRST (R230). -/
theorem exec_cases {i : Instr} (h : i ≠ .eclr) (h' : i ≠ .srst) {s t : State} (he : exec i s = .next t) :
    ((s.status.busy = true ∨ s.status.err = true) ∧ t = markDrop s) ∨
      (Ready s ∧ ∃ u, Writes i (accept s) u ∧ (t = finishDone u ∨ ∃ e, t = errorEntry e u)) := by
  rw [exec_bodyOf h h'] at he
  have hw := bodyOf_writes h h' (accept s)
  obtain k | ⟨hr, ⟨u, hb, rfl⟩ | ⟨e, u, hb, rfl⟩⟩ := runCommand_cases he
  · exact .inl k
  · rw [hb] at hw; exact .inr ⟨hr, u, hw, .inl rfl⟩
  · rw [hb] at hw; exact .inr ⟨hr, u, hw, .inr ⟨e, rfl⟩⟩

/-- The error entry of a raise in the body of an accepted command (R262). -/
theorem errorEnd_of_raised {i : Instr} (hi : i ≠ .eclr) (hi' : i ≠ .srst) {s u : State} {k : ErrorKind}
    {info : Word} (hb : bodyOf i (accept s) = .raised ⟨k, info⟩ u) :
    ErrorEnd (errorEntry ⟨k, info⟩ u) k.code info := by
  have hw := bodyOf_writes hi hi' (accept s)
  rw [hb] at hw
  exact ⟨rfl, rfl, hw.runs.done, rfl, rfl, rfl⟩

/-- What the answer of ECLR is (R230, R241). -/
theorem exec_eclr_cases {s t : State} (h : exec .eclr s = .next t) :
    t = markDrop s ∨ t = finishDone (errorReturn (accept s)) := by
  have e : exec .eclr s = runAlways bodyEclr finishDone s := rfl
  rw [e] at h
  cases hb : s.status.busy with
  | true => rw [runAlways_dropped hb] at h; cases h; exact .inl rfl
  | false => rw [runAlways_idle hb] at h; cases h; exact .inr rfl

/-- What the answer of SRST is (R230, R242). -/
theorem exec_srst_cases {s t : State} (h : exec .srst s = .next t) :
    t = markDrop s ∨ t = finishQuiet (resetTable s.ibuf s.obuf (accept s)) := by
  have e : exec .srst s = runAlways bodySrst finishQuiet s := rfl
  rw [e] at h
  cases hb : s.status.busy with
  | true => rw [runAlways_dropped hb] at h; cases h; exact .inl rfl
  | false => rw [runAlways_idle hb] at h; cases h; exact .inr rfl

end Sys2Proof.Machine
end

