-- ==== Sys2Proof/Laws/Paths.lean ====
section
/-! SUPPORT. Paths of a tree: what CGEN records (R97, R152), what the unpacker's walk follows in any node store (R190), the
Kraft sum (R154) and the payload length (R96). -/

namespace Sys2Proof.Machine

open Sys2Proof Sys2Proof.Safety

/-! ### Following a path -/

@[simp] theorem followPath_nil (t : Tree) (h : Handle) : followPath t h [] = h := rfl

theorem followPath_cons (t : Tree) (h : Handle) (b : Bool) (bs : List Bool) :
    followPath t h (b :: bs) = followPath t (if b then t.right h else t.left h) bs := rfl

theorem prefix_cons_iff {b : Bool} {p bs : List Bool} : p <+: b :: bs ↔ p = [] ∨ ∃ q, p = b :: q ∧ q <+: bs := by
  cases p with
  | nil => simp
  | cons c q =>
    rw [List.cons_prefix_cons]
    constructor
    · rintro ⟨rfl, h⟩; exact .inr ⟨q, rfl, h⟩
    · rintro (h | ⟨r, h, k⟩)
      · cases h
      · cases h; exact ⟨rfl, k⟩

/-- A path of the represented tree leads to its leaf, through internal nodes (R97). -/
theorem Rep.followPath_path {t : Tree} {h : Handle} {T : HTree} (hT : Rep t h T) {e : Byte × List Bool}
    (he : e ∈ T.paths) :
    followPath t h e.2 = leafHandle e.1 ∧ ∀ p, p <+: e.2 → p ≠ e.2 → isLeaf (followPath t h p) = false := by
  induction hT generalizing e with
  | leaf s =>
    simp only [HTree.paths, List.mem_singleton] at he
    subst he
    refine ⟨rfl, fun p hp hne => absurd (List.prefix_nil.1 hp) hne⟩
  | node k l r hk hl hr ihl ihr =>
    have step : ∀ (b : Bool) (q : Byte × List Bool) (c : Handle),
        (if b then t.right (nodeHandle k) else t.left (nodeHandle k)) = c →
        (followPath t c q.2 = leafHandle q.1 ∧ ∀ p, p <+: q.2 → p ≠ q.2 → isLeaf (followPath t c p) = false) →
        followPath t (nodeHandle k) (b :: q.2) = leafHandle q.1 ∧
          ∀ p, p <+: b :: q.2 → p ≠ b :: q.2 → isLeaf (followPath t (nodeHandle k) p) = false := by
      rintro b q c rfl ⟨h₁, h₂⟩
      refine ⟨by rw [followPath_cons]; exact h₁, fun p hp hne => ?_⟩
      obtain rfl | ⟨r, rfl, hr⟩ := prefix_cons_iff.1 hp
      · exact isLeaf_nodeHandle k
      · rw [followPath_cons]
        exact h₂ r hr fun e => hne (by rw [e])
    simp only [HTree.paths, List.mem_append, List.mem_map] at he
    obtain ⟨q, hq, rfl⟩ | ⟨q, hq, rfl⟩ := he
    · exact step false q _ (by simp) (ihl hq)
    · exact step true q _ (by simp) (ihr hq)

theorem Rep.leaf_handle {t : Tree} {h : Handle} {b : Byte} (hT : Rep t h (.leaf b)) : h = leafHandle b := by
  generalize hU : HTree.leaf b = U at hT
  cases hT with
  | leaf s => cases hU; rfl
  | node k l r => cases hU

theorem Rep.node_handle {t : Tree} {h : Handle} {k : Byte} {l r : HTree} (hT : Rep t h (.node k l r)) :
    h = nodeHandle k := by
  generalize hU : HTree.node k l r = U at hT
  cases hT with
  | leaf s => cases hU
  | node k l r => cases hU; rfl

/-! ### The code table -/

/-- A code table with the codes of the represented tree holds the paths of the leaves (R49, R97, R152). -/
theorem CodesTree.codesOk {ft : FreqTable} {t : Tree} {ct : CodeTable} {T : HTree} (hT : Rep t t.root T)
    (hl : T.leaves.Perm (presentSymbols ft)) (h : CodesTree ct T) : CodesOk ft t ct := by
  intro sym
  by_cases hs : sym ∈ T.leaves
  · have hmem := h.mem_codes hs
    have hlen := h.len _ hmem
    have hbits := h.bits _ hmem
    simp only at hlen hbits
    have hc : ft.count sym ≠ 0#32 := mem_presentSymbols.1 (hl.subset hs)
    refine ⟨fun i hi => ?_, ?_⟩
    · rw [hbits, foldl_appendBit_getLsbD, dif_neg (by omega)]
      simp
    · rw [if_neg hc]
      cases hT' : T with
      | leaf b =>
        subst hT'
        rw [hT.leaf_handle, if_pos (isLeaf_leafHandle _)]
        simp only [HTree.codes, List.mem_singleton, Prod.mk.injEq] at hmem
        exact hmem.2
      | node k l r =>
        subst hT'
        have hr : isLeaf t.root = false := by rw [hT.node_handle]; exact isLeaf_nodeHandle k
        rw [hr, if_neg (by simp)]
        exact hT.followPath_path hmem
  · obtain ⟨h₁, h₂⟩ := h.absent sym hs
    have hc : ft.count sym = 0#32 := by
      by_contra hc
      exact hs (hl.symm.subset (mem_presentSymbols.2 hc))
    refine ⟨fun i _ => by rw [h₂]; simp, ?_⟩
    rw [if_pos hc]; exact h₁

/-- CGEN on a tree TBLD left fills the code table with its paths (R152). -/
theorem treeOk_codesOk {ft : FreqTable} {t : Tree} (h : TreeOk ft t) :
    ∃ ct, codesOf t = some ct ∧ CodesOk ft t ct := by
  cases hne : t.nonempty with
  | true =>
    obtain ⟨T, ct, hT, hl, hct, hc⟩ := treeOk_codesOf h hne
    exact ⟨ct, hct, hc.codesOk hT hl⟩
  | false =>
    refine ⟨CodeTable.zero, by rw [codesOf, hne]; rfl, fun sym => ⟨fun i _ => by simp, ?_⟩⟩
    have hr := h.root
    unfold RootOk at hr
    have hn : presentSymbols ft = [] := by
      by_contra hn
      rw [if_neg hn] at hr
      rw [hr.1] at hne; cases hne
    have hc : ft.count sym = 0#32 := by
      by_contra hc
      have := mem_presentSymbols.2 hc
      rw [hn] at this; cases this
    rw [if_pos hc, zero_len]

/-! ### The walk in any node store -/

/-- The walk follows the bits at the cursor to the first leaf on their way. -/
theorem walkToLeaf_follow (bits : List Bool) {s : State} {rest : List Bool} (hc : cursorBits s = bits ++ rest)
    (hn : ∀ p, p <+: bits → p ≠ bits → isLeaf (followPath s.tree s.unpacker.cur p) = false)
    (hl : isLeaf (followPath s.tree s.unpacker.cur bits) = true) :
    walkToLeaf (cursorBits s).length s =
      .done (setCur (followPath s.tree s.unpacker.cur bits) (moved bits.length s)) := by
  induction bits generalizing s with
  | nil => rw [walkToLeaf_leaf hl, List.length_nil, moved_zero]; rfl
  | cons b bits ih =>
    have h0 := hn [] (List.nil_prefix) (by simp)
    rw [walkToLeaf_cons h0 (bs := bits ++ rest) (by rw [hc]; rfl)]
    have hle : cursorPos s + 1 ≤ 8 * s.inLen.toNat := by
      have := cursorPos_le (p := [b]) (q := bits ++ rest) hc (by simp)
      simpa using this
    have hc' : cursorBits (descend b (moved 1 s)) = bits ++ rest := by
      rw [cursorBits_descend]
      exact cursorBits_moved_append (p := [b]) hc
    have hd : ∀ p, followPath (descend b (moved 1 s)).tree (descend b (moved 1 s)).unpacker.cur p =
        followPath s.tree s.unpacker.cur (b :: p) := fun p => by rw [followPath_cons]; cases b <;> rfl
    have := ih hc' (fun p hp hne => by
        rw [hd]
        exact hn _ (List.cons_prefix_cons.2 ⟨rfl, hp⟩) fun e => hne (List.cons.inj e).2) (by rw [hd]; exact hl)
    rw [hc'] at this
    rw [this, hd, descend, moved_setCur, setCur_setCur, moved_moved hle, List.length_cons, Nat.add_comm 1]

/-- The walk where the bits end before a leaf is reached (R187). -/
theorem walkToLeaf_runsOut (bits : List Bool) {s : State} (hc : cursorBits s = bits)
    (hn : ∀ p, p <+: bits → isLeaf (followPath s.tree s.unpacker.cur p) = false) :
    walkToLeaf (cursorBits s).length s =
      .raised ⟨.corruptExhausted, s.unpacker.rem⟩
        (setCur (followPath s.tree s.unpacker.cur bits) (moved bits.length s)) := by
  induction bits generalizing s with
  | nil => rw [walkToLeaf_nil (hn [] (List.nil_prefix)) hc, List.length_nil, moved_zero]; rfl
  | cons b bits ih =>
    rw [walkToLeaf_cons (hn [] (List.nil_prefix)) hc]
    have hle : cursorPos s + 1 ≤ 8 * s.inLen.toNat := by
      have := cursorPos_le (p := [b]) (q := bits) hc (by simp)
      simpa using this
    have hc' : cursorBits (descend b (moved 1 s)) = bits := by
      rw [cursorBits_descend]
      exact cursorBits_moved_append (p := [b]) hc
    have hd : ∀ p, followPath (descend b (moved 1 s)).tree (descend b (moved 1 s)).unpacker.cur p =
        followPath s.tree s.unpacker.cur (b :: p) := fun p => by rw [followPath_cons]; cases b <;> rfl
    have := ih hc' fun p hp => by rw [hd]; exact hn _ (List.cons_prefix_cons.2 ⟨rfl, hp⟩)
    rw [hc'] at this
    rw [this, hd, descend, moved_setCur, setCur_setCur, moved_moved hle, List.length_cons, Nat.add_comm 1]
    rfl

/-- The walk of one symbol where the bits at the cursor begin with a path (R189, R190). -/
theorem walkSymbol_path {s : State} {sym : Byte} {bits rest : List Bool} (hc : cursorBits s = bits ++ rest)
    (hp : if isLeaf s.tree.root then s.tree.root = leafHandle sym ∧ bits = [false] else IsPath s.tree bits sym) :
    walkSymbol s = .done (setCur (leafHandle sym) (moved bits.length s)) := by
  unfold walkSymbol
  cases hl : isLeaf s.tree.root with
  | true =>
    rw [hl, if_pos rfl] at hp
    obtain ⟨hr, rfl⟩ := hp
    rw [if_pos rfl, singleLeafBit, getBit_cons (b := false) (bs := rest) (by rw [cursorBits_setCur, hc]; rfl),
      guardRaise_pass rfl, hr, moved_setCur]
    rfl
  | false =>
    rw [hl, if_neg (by simp)] at hp
    rw [if_neg (by simp)]
    have hc' : cursorBits (setCur s.tree.root s) = bits ++ rest := by rw [cursorBits_setCur]; exact hc
    have hfl : bitsLeft s = (cursorBits (setCur s.tree.root s)).length := by rw [bitsLeft_eq, cursorBits_setCur]
    rw [hfl, walkToLeaf_follow bits hc' hp.2 (by
      show isLeaf (followPath s.tree s.tree.root bits) = true
      rw [hp.1]; exact isLeaf_leafHandle sym)]
    show Ran.done (setCur (followPath s.tree s.tree.root bits) _) = _
    rw [hp.1, moved_setCur, setCur_setCur]

/-- The walk of one symbol where the bits end before a leaf is reached (R187, R190). -/
theorem walkSymbol_runsOut {s : State}
    (hn : if isLeaf s.tree.root then cursorBits s = []
      else ∀ p, p <+: cursorBits s → isLeaf (followPath s.tree s.tree.root p) = false) :
    walkSymbol s = .raised ⟨.corruptExhausted, s.unpacker.rem⟩
      (setCur (followPath s.tree s.tree.root (cursorBits s)) (moved (cursorBits s).length s)) := by
  unfold walkSymbol
  cases hl : isLeaf s.tree.root with
  | true =>
    rw [hl, if_pos rfl] at hn
    rw [if_pos rfl, singleLeafBit, getBit_nil (by rw [cursorBits_setCur]; exact hn), hn, List.length_nil, moved_zero]
    rfl
  | false =>
    rw [hl, if_neg (by simp)] at hn
    rw [if_neg (by simp)]
    have hfl : bitsLeft s = (cursorBits (setCur s.tree.root s)).length := by rw [bitsLeft_eq, cursorBits_setCur]
    have h := walkToLeaf_runsOut (s := setCur s.tree.root s) (cursorBits s) (cursorBits_setCur _ _) hn
    rw [moved_setCur, setCur_setCur] at h
    rw [hfl, h]
    rfl

/-! ### The Kraft sum -/

/-- The paths of a strict binary tree have Kraft sum 1 (R154). -/
theorem HTree.kraft (T : HTree) : (T.paths.map fun e => (1 / 2 : ℚ) ^ e.2.length).sum = 1 := by
  induction T with
  | leaf s => simp [paths]
  | node k l r ihl ihr =>
    have half : ∀ (b : Bool) (L : List (Byte × List Bool)),
        (L.map fun e : Byte × List Bool => (1 / 2 : ℚ) ^ e.2.length).sum = 1 →
        ((L.map fun e : Byte × List Bool => (e.1, b :: e.2)).map
          fun e : Byte × List Bool => (1 / 2 : ℚ) ^ e.2.length).sum = 1 / 2 := by
      intro b L hL
      rw [List.map_map]
      have : ((fun e : Byte × List Bool => (1 / 2 : ℚ) ^ e.2.length) ∘ fun e : Byte × List Bool => (e.1, b :: e.2)) =
          fun e : Byte × List Bool => (1 / 2 : ℚ) ^ e.2.length * (1 / 2) := by
        funext e
        simp only [Function.comp, List.length_cons, pow_succ]
      rw [this, List.sum_map_mul_right, hL, one_mul]
    rw [paths, List.map_append, List.sum_append, half false _ ihl, half true _ ihr]
    norm_num

/-- Every bit string that is long enough begins with a path (R154). -/
theorem HTree.paths_cover (T : HTree) (bits : List Bool) (h : T.depth ≤ bits.length) : ∃ e ∈ T.paths, e.2 <+: bits := by
  induction T generalizing bits with
  | leaf s => exact ⟨(s, []), by simp [paths], List.nil_prefix⟩
  | node k l r ihl ihr =>
    rw [depth] at h
    cases bits with
    | nil => rw [List.length_nil] at h; omega
    | cons b bits =>
      rw [List.length_cons] at h
      cases b with
      | false =>
        obtain ⟨e, he, hp⟩ := ihl bits (by omega)
        exact ⟨(e.1, false :: e.2), List.mem_append_left _ (List.mem_map.2 ⟨e, he, rfl⟩), List.cons_prefix_cons.2 ⟨rfl, hp⟩⟩
      | true =>
        obtain ⟨e, he, hp⟩ := ihr bits (by omega)
        exact ⟨(e.1, true :: e.2), List.mem_append_right _ (List.mem_map.2 ⟨e, he, rfl⟩), List.cons_prefix_cons.2 ⟨rfl, hp⟩⟩

/-! ### The payload length -/

theorem codeBits_length (ct : CodeTable) (sym : Byte) : (codeBits ct sym).length = (ct.len sym).toNat := by
  simp [codeBits]

/-- The payload of a counted sequence has Σ FREQ[s]·CLEN[s] bits (R96, R153). -/
theorem payloadBits_length {ft : FreqTable} {bs : List Byte} (h : Counts ft bs) (ct : CodeTable) :
    (payloadBits ct bs).length =
      ((presentSymbols ft).map fun sym => (ft.count sym).toNat * (ct.len sym).toNat).sum := by
  have h₁ : (payloadBits ct bs).length = (bs.map fun b => (ct.len b).toNat).sum := by
    simp [payloadBits, List.length_flatMap, codeBits_length]
  have h₂ : ∀ (l : List Byte), l.Nodup → ∀ bs : List Byte, (∀ b ∈ bs, b ∈ l) →
      (bs.map fun b => (ct.len b).toNat).sum = (l.map fun sym => bs.count sym * (ct.len sym).toNat).sum := by
    intro l hl bs
    induction bs with
    | nil => intro _; simp
    | cons b bs ih =>
      intro hb
      rw [List.map_cons, List.sum_cons, ih fun x hx => hb x (List.mem_cons_of_mem _ hx)]
      have hb' := hb b (List.mem_cons_self ..)
      clear ih h₁ hb
      induction l with
      | nil => cases hb'
      | cons a l ihl =>
        rw [List.nodup_cons] at hl
        simp only [List.map_cons, List.sum_cons]
        by_cases e : b = a
        · subst e
          have : ∀ x ∈ l, (b :: bs).count x = bs.count x := fun x hx =>
            List.count_cons_of_ne fun e => hl.1 (by rw [e]; exact hx)
          rw [List.map_congr_left (f := fun sym => (b :: bs).count sym * (ct.len sym).toNat)
            (g := fun sym => bs.count sym * (ct.len sym).toNat) (fun x hx => by rw [this x hx]), List.count_cons_self]
          ring
        · rw [List.count_cons_of_ne e, ← ihl hl.2 (List.mem_of_ne_of_mem e hb')]
          omega
  rw [h₁, h₂ _ (presentSymbols_nodup ft) bs fun b hb => (counts_mem h b).2 hb]
  congr 1
  exact List.map_congr_left fun sym _ => by rw [h.1]

/-- What is known of the code table of a tree: the codes of its leaves, or no code where there is no leaf (R152, R153). -/
theorem treeOk_codes_cases {ft : FreqTable} {t : Tree} (h : TreeOk ft t) {ct : CodeTable} (hct : codesOf t = some ct) :
    (∃ T, Rep t t.root T ∧ T.leaves.Perm (presentSymbols ft) ∧ CodesTree ct T) ∨
      (presentSymbols ft = [] ∧ ct = CodeTable.zero) := by
  cases hne : t.nonempty with
  | true =>
    obtain ⟨T, ct', hT, hl, hct', hc⟩ := treeOk_codesOf h hne
    rw [hct] at hct'; cases hct'
    exact .inl ⟨T, hT, hl, hc⟩
  | false =>
    right
    have hr := h.root
    unfold RootOk at hr
    rw [codesOf, hne] at hct
    refine ⟨?_, by simpa using hct.symm⟩
    by_contra hn
    rw [if_neg hn] at hr
    rw [hr.1] at hne; cases hne

end Sys2Proof.Machine
end

