-- ==== Sys2Proof/Laws/Macro.lean ====
section
/-! SUPPORT. What COMP and DECOMP compute. -/

namespace Sys2Proof.Machine

open Sys2Proof Sys2Proof.Safety

theorem payloadBits_length_pos {ct : CodeTable} {bs : List Byte} (h : bs ≠ []) (hc : ∀ b ∈ bs, ct.len b ≠ 0#8) :
    payloadBits ct bs ≠ [] := by
  cases bs with
  | nil => exact absurd rfl h
  | cons b bs =>
    have hb : (ct.len b).toNat ≠ 0 := fun e => hc b (List.mem_cons_self ..) (BitVec.eq_of_toNat_eq e)
    intro e
    have := congrArg List.length e
    rw [payloadBits_cons, List.length_append, codeBits, List.length_map, List.length_range, List.length_nil] at this
    omega

/-! ### The header and the payload, packed -/

/-- HPUT with room (R210). -/
theorem bodyHput_spec {s : State} (hr : headerLen s.table.entries.length ≤ s.params.obufSize.toNat) :
    ∃ t, bodyHput s = .done t ∧ Appended (emptyPacker (s.setOutLen 0#32)) t ∧ t.packer = ⟨0#8, 0#3⟩ ∧
      t.outLen.toNat = headerLen s.table.entries.length ∧ outputBytes t = headerBytes s.table := by
  have hlen := headerBytes_length s.table
  obtain ⟨t, h₁, h₂, h₃, h₄, h₅⟩ := outBytes_spec (headerBytes s.table) (s := emptyPacker (s.setOutLen 0#32)) (by
    show 0 + _ ≤ s.params.obufSize.toNat; omega)
  refine ⟨t, (bodyHput_eq s).trans h₁, h₂, h₃, ?_, ?_⟩
  · rw [h₄, hlen]; exact Nat.zero_add _
  · have := h₅ 0 (Nat.zero_le _)
    rwa [show (emptyPacker (s.setOutLen 0#32)).outLen.toNat = 0 from rfl, obufSlice_self, List.nil_append] at this

theorem bodyHput_full {s : State} (hr : s.params.obufSize.toNat < headerLen s.table.entries.length) :
    ∃ u, bodyHput s = .raised ⟨.capObuf, s.params.obufSize⟩ u := by
  have hlen := headerBytes_length s.table
  rw [bodyHput_eq]
  exact outBytes_full (headerBytes s.table) (s := emptyPacker (s.setOutLen 0#32))
    (by rw [BitVec.le_def]; exact Nat.zero_le _) (by show _ < 0 + _; rw [hlen]; exact (Nat.zero_add _).symm ▸ hr)

/-- PACK and then PFLUSH, with room for the whole payload (R96, R173). -/
theorem packFlush_spec {s : State} (hp : s.packer = ⟨0#8, 0#3⟩) (hin : s.inLen ≤ s.params.ibufSize)
    (hv : s.status.codeValid = true) (hc : ∀ b ∈ inputBytes s, s.code.len b ≠ 0#8)
    (hr : s.outLen.toNat + ((payloadBits s.code (inputBytes s)).length + 7) / 8 ≤ s.params.obufSize.toNat) :
    ∃ t, (bodyPack s).andThen bodyPflush = .done t ∧ Appended (s.setInPtr s.inLen) t ∧ t.packer = ⟨0#8, 0#3⟩ ∧
      ∃ payload, PacksTo (payloadBits s.code (inputBytes s)) payload ∧
        t.outLen.toNat = s.outLen.toNat + payload.length ∧
        ∀ p, p ≤ s.outLen.toNat → obufSlice t p t.outLen.toNat = obufSlice s p s.outLen.toNat ++ payload := by
  have hnb : s.packer.nb.toNat = 0 := by rw [hp]; rfl
  have hi0 : (s.setInPtr 0#32).inPtr.toNat = 0 := rfl
  have hsl : ibufSlice (s.setInPtr 0#32) (s.setInPtr 0#32).inPtr.toNat ((s.setInPtr 0#32).inPtr.toNat + s.inLen.toNat) =
      inputBytes s := by rw [hi0, Nat.zero_add]; rfl
  have hpok : PackerOk (s.setInPtr 0#32).packer := by
    show PackerOk s.packer
    rw [hp]; exact packerOk_empty
  obtain ⟨u, h₁, h₂, h₃, h₄, h₅⟩ := packBytes_spec s.inLen.toNat (s := s.setInPtr 0#32) hpok
    (by rw [hi0]; have := s.inLen.isLt; omega) (by rw [hsl]; exact hc)
    (by
      rw [hsl]
      intro _
      show s.outLen.toNat + (s.packer.nb.toNat + (payloadBits s.code (inputBytes s)).length) / 8 ≤
        s.params.obufSize.toNat
      omega)
  rw [hsl] at h₄ h₅
  rw [hi0, Nat.zero_add, BitVec.ofNat_toNat, BitVec.setWidth_eq] at h₂
  have h₄' : 8 * u.outLen.toNat + u.packer.nb.toNat =
      8 * s.outLen.toNat + (payloadBits s.code (inputBytes s)).length := by
    have : 8 * u.outLen.toNat + u.packer.nb.toNat = 8 * s.outLen.toNat + s.packer.nb.toNat +
      (payloadBits s.code (inputBytes s)).length := h₄
    omega
  have hunb := u.packer.nb.isLt
  have hpar : u.params = s.params := h₂.fields.1
  obtain ⟨t, k₁, k₂, k₃, k₄, k₅⟩ := bodyPflush_spec h₃ (by
    by_cases h0 : u.packer.nb = 0#3
    · exact .inl h0
    · have : u.packer.nb.toNat ≠ 0 := fun e => h0 (BitVec.eq_of_toNat_eq e)
      right; rw [BitVec.lt_def, hpar]; omega)
  have hgrow : s.outLen.toNat ≤ u.outLen.toNat := h₂.grows
  refine ⟨t, ?_, h₂.trans k₂, k₃, obufSlice t s.outLen.toNat t.outLen.toNat, ?_, ?_, fun p hpp => ?_⟩
  · rw [bodyPack, checkIn_pass hin, Ran.andThen_done, needCode_pass hv, Ran.andThen_done, h₁, Ran.andThen_done, k₁]
  · obtain ⟨pad, hpad, e⟩ := k₅ s.outLen.toNat hgrow
    refine ⟨pad, hpad, ?_⟩
    rw [e, h₅ s.outLen.toNat (le_refl s.outLen.toNat)]
    have : streamFrom s.outLen.toNat (s.setInPtr 0#32) = [] := by
      show (obufSlice s s.outLen.toNat s.outLen.toNat).flatMap byteBits ++ pendingBits s.packer = []
      rw [obufSlice_self, hp]; rfl
    rw [this]
    rfl
  · rw [obufSlice_length]; have := k₂.grows; omega
  · rw [obufSlice_append t hpp (by have := k₂.grows; omega)]
    congr 1
    refine obufSlice_congr fun i _ hi => ?_
    rw [k₂.outside i (by omega), h₂.outside i (.inl hi)]
    rfl

/-- PACK and then PFLUSH without room for the payload (R260). -/
theorem packFlush_full {s : State} (hp : s.packer = ⟨0#8, 0#3⟩) (hin : s.inLen ≤ s.params.ibufSize)
    (hv : s.status.codeValid = true) (hc : ∀ b ∈ inputBytes s, s.code.len b ≠ 0#8) (h₀ : s.outLen ≤ s.params.obufSize)
    (hr : s.params.obufSize.toNat < s.outLen.toNat + ((payloadBits s.code (inputBytes s)).length + 7) / 8) :
    ∃ u, (bodyPack s).andThen bodyPflush = .raised ⟨.capObuf, s.params.obufSize⟩ u := by
  have hnb : s.packer.nb.toNat = 0 := by rw [hp]; rfl
  have hi0 : (s.setInPtr 0#32).inPtr.toNat = 0 := rfl
  have hsl : ibufSlice (s.setInPtr 0#32) (s.setInPtr 0#32).inPtr.toNat ((s.setInPtr 0#32).inPtr.toNat + s.inLen.toNat) =
      inputBytes s := by rw [hi0, Nat.zero_add]; rfl
  have hpok : PackerOk (s.setInPtr 0#32).packer := by
    show PackerOk s.packer
    rw [hp]; exact packerOk_empty
  have hbp : bodyPack s = packBytes s.inLen.toNat (s.setInPtr 0#32) := by
    rw [bodyPack, checkIn_pass hin, Ran.andThen_done, needCode_pass hv, Ran.andThen_done]
  by_cases hroom : RoomForBits (payloadBits s.code (inputBytes s)).length s
  · obtain ⟨u, h₁, h₂, h₃, h₄, h₅⟩ := packBytes_spec s.inLen.toNat (s := s.setInPtr 0#32) hpok
      (by rw [hi0]; have := s.inLen.isLt; omega) (by rw [hsl]; exact hc)
      (by rw [hsl]; exact hroom)
    rw [hsl] at h₄
    have h₄' : 8 * u.outLen.toNat + u.packer.nb.toNat =
        8 * s.outLen.toNat + (payloadBits s.code (inputBytes s)).length := by
      have : 8 * u.outLen.toNat + u.packer.nb.toNat = 8 * s.outLen.toNat + s.packer.nb.toNat +
        (payloadBits s.code (inputBytes s)).length := h₄
      omega
    have hunb := u.packer.nb.isLt
    have hpar : u.params = s.params := h₂.fields.1
    rw [BitVec.le_def] at h₀
    have hle : s.outLen.toNat + (payloadBits s.code (inputBytes s)).length / 8 ≤ s.params.obufSize.toNat := by
      by_cases h8 : 8 ≤ s.packer.nb.toNat + (payloadBits s.code (inputBytes s)).length
      · have := hroom h8; omega
      · omega
    have h0 : u.packer.nb ≠ 0#3 := by
      intro e
      have : u.packer.nb.toNat = 0 := by rw [e]; rfl
      omega
    have hfull : u.outLen = u.params.obufSize := by
      apply BitVec.eq_of_toNat_eq
      rw [hpar]
      omega
    refine ⟨u, ?_⟩
    rw [hbp, h₁, Ran.andThen_done, bodyPflush, if_neg h0, outByte_full (by rw [hfull]; exact BitVec.le_refl _),
      Ran.andThen_raised, hfull, hpar]
  · obtain ⟨u, hu⟩ := packBytes_full s.inLen.toNat (s := s.setInPtr 0#32) hpok
      (by rw [hi0]; have := s.inLen.isLt; omega) (by rw [hsl]; exact hc)
      (by rw [hsl]; exact hroom)
    exact ⟨u, by rw [hbp, hu, Ran.andThen_raised, fullAt_of_lt (by exact h₀)]; rfl⟩

/-! ### COMP -/

/-- Two output parts in a row, the second after PACK moved IN_PTR to IN_LEN, as one record. -/
theorem put_record {u v t : State} {l l' : Word} {p p' : Packer} {o o' : Buffer}
    (hv : v = ((u.setPacker p).setObuf o).setOutLen l)
    (ht : t = (((v.setInPtr v.inLen).setPacker p').setObuf o').setOutLen l') :
    t = { u with inPtr := u.inLen, outLen := l', packer := p', obuf := o' } := by
  subst hv
  cases u
  exact ht

/-- HPUT, PACK and PFLUSH in a row: the whole artifact, or CapacityError(OBUF) (R231). -/
theorem putArtifact {u : State} (hin : u.inLen ≤ u.params.ibufSize) (hv : u.status.codeValid = true)
    (hc : ∀ b ∈ inputBytes u, u.code.len b ≠ 0#8) {payload : List Byte}
    (hpay : PacksTo (payloadBits u.code (inputBytes u)) payload) :
    ((headerBytes u.table ++ payload).length ≤ u.params.obufSize.toNat →
      ∃ t, ((bodyHput u).andThen fun s => (bodyPack s).andThen bodyPflush) = .done t ∧
        outputBytes t = headerBytes u.table ++ payload ∧
        t.outLen.toNat = (headerBytes u.table ++ payload).length ∧
        t = { u with inPtr := u.inLen, outLen := t.outLen, packer := ⟨0#8, 0#3⟩, obuf := t.obuf } ∧
        ∀ a, t.outLen.toNat ≤ a → t.obufByte a = u.obufByte a) ∧
    (u.params.obufSize.toNat < (headerBytes u.table ++ payload).length →
      ∃ w, ((bodyHput u).andThen fun s => (bodyPack s).andThen bodyPflush) =
        .raised ⟨.capObuf, u.params.obufSize⟩ w) := by
  have hplen := packsTo_length hpay
  rw [List.length_append, headerBytes_length]
  by_cases hroom : headerLen u.table.entries.length ≤ u.params.obufSize.toNat
  swap
  · refine ⟨fun hr => absurd (le_trans (Nat.le_add_right _ _) hr) hroom, fun _ => ?_⟩
    obtain ⟨w, hw⟩ := bodyHput_full (not_le.1 hroom)
    exact ⟨w, by rw [hw, Ran.andThen_raised]⟩
  obtain ⟨v, h₁, h₂, h₃, h₄, h₅⟩ := bodyHput_spec hroom
  obtain ⟨hpar, hst, _, _, _, hil, _, _, _, hcode, _, _, _, hib, _⟩ := h₂.fields
  have hpar : v.params = u.params := hpar
  have hst : v.status = u.status := hst
  have hil : v.inLen = u.inLen := hil
  have hcode : v.code = u.code := hcode
  have hib : v.ibuf = u.ibuf := hib
  have hinp : inputBytes v = inputBytes u := by unfold inputBytes; rw [hil]; exact ibufSlice_congr hib _ _
  rw [h₁, Ran.andThen_done]
  constructor
  · intro hr
    obtain ⟨t, k₁, k₂, k₃, p, k₄, k₅, k₆⟩ := packFlush_spec (s := v) h₃ (by rw [hpar, hil]; exact hin)
      (by rw [hst]; exact hv) (by rw [hinp, hcode]; exact hc) (by rw [hinp, hcode, hpar, h₄, ← hplen]; exact hr)
    rw [hinp, hcode] at k₄
    obtain rfl := packsTo_unique k₄ hpay
    refine ⟨t, k₁, ?_, by rw [k₅, h₄], ?_, fun a ha => ?_⟩
    · have := k₆ 0 (Nat.zero_le _)
      have e : obufSlice v 0 v.outLen.toNat = headerBytes u.table := h₅
      rw [e] at this
      exact this
    · have e := put_record h₂.only k₂.only
      rw [k₃] at e
      exact e
    · have hg : v.outLen.toNat ≤ t.outLen.toNat := k₂.grows
      rw [k₂.outside a (.inr ha)]
      exact h₂.outside a (.inr (le_trans hg ha))
  · intro hr
    obtain ⟨w, hw⟩ := packFlush_full (s := v) h₃ (by rw [hpar, hil]; exact hin) (by rw [hst]; exact hv)
      (by rw [hinp, hcode]; exact hc) (by rw [BitVec.le_def, hpar, h₄]; exact hroom)
      (by rw [hinp, hcode, hpar, h₄, ← hplen]; exact hr)
    exact ⟨w, by rw [hw, hpar]⟩

/-- The state after TBLD and CGEN inside COMP. -/
theorem builtCodes_record (s : State) (bt : Tree) (ct : CodeTable) :
    markCodeValid ((clearCodeValid (markTreeValid ((clearValid s).setTree bt))).setCode ct) =
      { s with status := { s.status with treeValid := true, codeValid := true }, tree := bt, code := ct } := rfl

/-- COMP after counting a non-empty input (R231). -/
theorem compressCounted_spec {s : State} (h : TableOk s.table) (hin : s.inLen ≤ s.params.ibufSize)
    (hcnt : Counts s.table (inputBytes s)) (hne : inputBytes s ≠ []) :
    ∃ ct payload, codesOf (buildTree s.table Tree.zero) = some ct ∧ PacksTo (payloadBits ct (inputBytes s)) payload ∧
      ((headerBytes s.table ++ payload).length ≤ s.params.obufSize.toNat →
        ∃ t, compressCounted s = .done t ∧ outputBytes t = headerBytes s.table ++ payload ∧
          t.outLen.toNat = (headerBytes s.table ++ payload).length ∧
          t = { s with
            status := { s.status with treeValid := true, codeValid := true }, inPtr := s.inLen, outLen := t.outLen,
            tree := buildTree s.table s.tree, code := ct, packer := ⟨0#8, 0#3⟩, obuf := t.obuf } ∧
          ∀ a, t.outLen.toNat ≤ a → t.obufByte a = s.obufByte a) ∧
      (s.params.obufSize.toNat < (headerBytes s.table ++ payload).length →
        ∃ u, compressCounted s = .raised ⟨.capObuf, s.params.obufSize⟩ u) := by
  have htree := buildTree_ok h s.tree
  have hpresent : ∀ b, b ∈ presentSymbols s.table ↔ b ∈ inputBytes s := counts_mem hcnt
  have hnonempty : (buildTree s.table s.tree).nonempty = true := by
    obtain ⟨b, hb⟩ := List.exists_mem_of_ne_nil _ hne
    have hr := htree.root
    unfold RootOk at hr
    rw [if_neg (fun e => by have := (hpresent b).2 hb; rw [e] at this; cases this)] at hr
    exact hr.1
  obtain ⟨T, ct, hT, hl, hct, hcodes⟩ := treeOk_codesOf htree hnonempty
  have hlen0 : ∀ b ∈ inputBytes s, ct.len b ≠ 0#8 := by
    intro b hb e
    have hmem := hcodes.mem_codes (hl.symm.subset ((hpresent b).2 hb))
    have h₁ := hcodes.len _ hmem
    have h₂ := HTree.codes_ne_nil hmem
    simp only [e] at h₁
    exact h₂ (List.eq_nil_of_length_eq_zero h₁.symm)
  obtain ⟨payload, hpay⟩ := packsTo_exists (payloadBits ct (inputBytes s))
  have hbuild : compressCounted s = (bodyHput (markCodeValid ((clearCodeValid (markTreeValid ((clearValid s).setTree
      (buildTree s.table s.tree)))).setCode ct))).andThen fun s => (bodyPack s).andThen bodyPflush := by
    have e₁ : bodyTbld s = .done (markTreeValid ((clearValid s).setTree (buildTree s.table s.tree))) := rfl
    have e₂ : bodyCgen (markTreeValid ((clearValid s).setTree (buildTree s.table s.tree))) =
        .done (markCodeValid ((clearCodeValid (markTreeValid ((clearValid s).setTree
          (buildTree s.table s.tree)))).setCode ct)) := by
      rw [bodyCgen, needTree_pass (by rfl), Ran.andThen_done]
      have : codesOf (clearCodeValid (markTreeValid ((clearValid s).setTree (buildTree s.table s.tree)))).tree =
        some ct := hct
      rw [this]
    rw [compressCounted, e₁, Ran.andThen_done, e₂, Ran.andThen_done]
  refine ⟨ct, payload, (codesOf_buildTree h _ _).trans hct, hpay, ?_⟩
  rw [hbuild, builtCodes_record]
  generalize buildTree s.table s.tree = bt
  have := putArtifact (u := { s with
    status := { s.status with treeValid := true, codeValid := true }, tree := bt, code := ct }) hin rfl hlen0 hpay
  exact this

theorem isArtifact_nil {ft : FreqTable} (h : Counts ft []) : IsArtifact [] (headerBytes ft) := by
  obtain ⟨ct, hct⟩ := treeOk_codesOf_isSome (buildTree_ok (counts_tableOk h (Nat.zero_le _)) Tree.zero)
  exact ⟨ft, ct, [], h, hct, ⟨0, by omega, rfl⟩, by simp⟩

/-- COMP on an input that fits IBUF: the artifact of the input, or CapacityError(OBUF) (R231, R232). -/
theorem bodyComp_spec {s : State} (hin : s.inLen ≤ s.params.ibufSize) :
    ∃ out, IsArtifact (inputBytes s) out ∧
      (out.length ≤ s.params.obufSize.toNat →
        ∃ t, bodyComp s = .done t ∧ outputBytes t = out ∧ t.outLen.toNat = out.length ∧
          Counts t.table (inputBytes s) ∧
          t = { s with
            status := { s.status with treeValid := s.inLen != 0#32, codeValid := s.inLen != 0#32 }, inPtr := s.inLen,
            outLen := t.outLen, table := t.table, tree := t.tree, code := t.code, packer := ⟨0#8, 0#3⟩,
            obuf := t.obuf } ∧
          (s.inLen = 0#32 → t.tree = s.tree ∧ t.code = s.code) ∧
          (s.inLen ≠ 0#32 → t.tree = buildTree t.table s.tree ∧ codesOf t.tree = some t.code) ∧
          ∀ a, t.outLen.toNat ≤ a → t.obufByte a = s.obufByte a) ∧
      (s.params.obufSize.toNat < out.length → ∃ u, bodyComp s = .raised ⟨.capObuf, s.params.obufSize⟩ u) := by
  have hlen : (inputBytes s).length = s.inLen.toNat := ibufSlice_length s 0 _
  have hmax : (inputBytes s).length ≤ Config.maxLen := by
    have := s.inLen.isLt
    unfold Config.maxLen
    omega
  have hcnt := addAll_zero_counts hmax
  have htab := counts_tableOk hcnt hmax
  have e₁ : bodyFclr s = .done (clearValid (s.setTable FreqTable.zero)) := rfl
  have e₂ := bodyFacc_done (s := clearValid (s.setTable FreqTable.zero)) (by exact hin) (by
    show 0 + s.inLen.toNat ≤ Config.maxLen; omega)
  have e₃ : inputBytes (clearValid (s.setTable FreqTable.zero)) = inputBytes s := rfl
  rw [e₃] at e₂
  have hbody : bodyComp s =
      if (FreqTable.zero.addAll (inputBytes s)).total = 0#32 then
        bodyHput ((clearValid ((clearValid (s.setTable FreqTable.zero)).setTable
          (FreqTable.zero.addAll (inputBytes s)))).setInPtr s.inLen)
      else compressCounted ((clearValid ((clearValid (s.setTable FreqTable.zero)).setTable
          (FreqTable.zero.addAll (inputBytes s)))).setInPtr s.inLen) := by
    rw [bodyComp, checkIn_pass hin, Ran.andThen_done, e₁, Ran.andThen_done, e₂, Ran.andThen_done]
    rfl
  have hrec : (clearValid ((clearValid (s.setTable FreqTable.zero)).setTable
      (FreqTable.zero.addAll (inputBytes s)))).setInPtr s.inLen =
      { s with status := { s.status with treeValid := false, codeValid := false }, inPtr := s.inLen,
               table := FreqTable.zero.addAll (inputBytes s) } := rfl
  rw [hrec] at hbody
  generalize FreqTable.zero.addAll (inputBytes s) = ft at *
  by_cases h0 : s.inLen = 0#32
  · have hnil : inputBytes s = [] := List.eq_nil_of_length_eq_zero (by rw [hlen, h0]; rfl)
    have ht0 : ft.total = 0#32 := BitVec.eq_of_toNat_eq (by rw [hcnt.2.1, hnil]; rfl)
    rw [if_pos ht0] at hbody
    rw [hnil] at hcnt ⊢
    rw [hbody]
    refine ⟨_, isArtifact_nil hcnt, fun hr => ?_, fun hr => ?_⟩
    · rw [headerBytes_length] at hr
      obtain ⟨t, p₁, p₂, p₃, p₄, p₅⟩ := bodyHput_spec (s := { s with
        status := { s.status with treeValid := false, codeValid := false }, inPtr := s.inLen, table := ft }) hr
      have hf := p₂.fields
      have q₁ : t.table = ft := hf.2.2.2.2.2.2.2.1
      have q₂ : t.tree = s.tree := hf.2.2.2.2.2.2.2.2.1
      have q₃ : t.code = s.code := hf.2.2.2.2.2.2.2.2.2.1
      refine ⟨t, p₁, p₅, by rw [p₄, headerBytes_length], q₁ ▸ hcnt, ?_, fun _ => ⟨q₂, q₃⟩,
        fun e => absurd h0 e, fun a ha => ?_⟩
      · have e := p₂.only
        rw [p₃] at e
        rw [q₁, q₂, q₃]
        exact e.trans (by
          rw [show (s.inLen != 0#32) = false by rw [h0]; rfl]
          cases s
          rfl)
      · exact p₂.outside a (.inr ha)
    · rw [headerBytes_length] at hr
      exact bodyHput_full (s := { s with
        status := { s.status with treeValid := false, codeValid := false }, inPtr := s.inLen, table := ft }) hr
  · have hnn : s.inLen.toNat ≠ 0 := fun e => h0 (BitVec.eq_of_toNat_eq e)
    have hne : inputBytes s ≠ [] := fun e => by rw [e] at hlen; exact hnn hlen.symm
    have ht0 : ft.total ≠ 0#32 := fun e => by
      have := hcnt.2.1
      rw [e, hlen] at this
      exact hnn this.symm
    rw [if_neg ht0] at hbody
    have hb : (s.inLen != 0#32) = true := by simpa using h0
    obtain ⟨ct, payload, p₁, p₂, p₃, p₄⟩ := compressCounted_spec (s := { s with
      status := { s.status with treeValid := false, codeValid := false }, inPtr := s.inLen, table := ft }) htab hin
      hcnt hne
    rw [hbody, hb]
    refine ⟨headerBytes ft ++ payload, ⟨ft, ct, payload, hcnt, p₁, p₂, rfl⟩, fun hr => ?_, p₄⟩
    obtain ⟨t, q₁, q₂, q₃, q₄, q₅⟩ := p₃ hr
    have r₁ : t.table = ft := by rw [q₄]
    have r₂ : t.tree = buildTree ft s.tree := by rw [q₄]
    have r₃ : t.code = ct := by rw [q₄]
    refine ⟨t, q₁, q₂, q₃, r₁ ▸ hcnt, ?_, fun e => absurd e h0, fun _ => ⟨by rw [r₁, r₂], ?_⟩, q₅⟩
    swap
    · rw [r₂, r₃, codesOf_buildTree htab Tree.zero, p₁]
    rw [r₁, r₂, r₃]
    exact q₄

/-! ### DECOMP -/

/-- The cursor at a byte address: the bits of the bytes from there to IN_LEN. -/
theorem cursorBits_at {s : State} (hb : s.unpacker.bidx = 0#3) :
    cursorBits s = (ibufSlice s s.inPtr.toNat s.inLen.toNat).flatMap byteBits := by
  unfold cursorBits
  rw [hb]
  rfl

/-- The state DECOMP decodes from, after HGET, TBLD and UINIT (R233). -/
def decodeStart (s : State) (ft : FreqTable) (hlen : Nat) : State :=
  { s with
    status := { s.status with treeValid := true, codeValid := false }, outLen := 0#32, inPtr := BitVec.ofNat 32 hlen,
    table := ft, tree := buildTree ft s.tree, unpacker := ⟨0#3, (buildTree ft s.tree).root, ft.total⟩ }

/-- DECOMP on an input that starts with the header of a table (R233). -/
theorem bodyDecomp_header {s : State} {ft : FreqTable} (hft : TableOk ft) (hin : s.inLen ≤ s.params.ibufSize)
    (hl : headerLen ft.entries.length ≤ s.inLen.toNat)
    (h : ibufSlice s 0 (headerLen ft.entries.length) = headerBytes ft) :
    bodyDecomp s =
      if ft.total = 0#32 then
        .done { s with
          status := { s.status with treeValid := false, codeValid := false }, outLen := 0#32,
          inPtr := BitVec.ofNat 32 (headerLen ft.entries.length), table := ft,
          unpacker := ⟨0#3, s.unpacker.cur, 0#32⟩ }
      else decodeMany ft.total.toNat (decodeStart s ft (headerLen ft.entries.length)) := by
  have e := bodyHget_header (s := s.setOutLen 0#32) hft hin hl h
  rw [bodyDecomp, e, Ran.andThen_done]
  have ht : ((readAt (headerLen ft.entries.length) (startHeader (s.setOutLen 0#32))).setTable ft).table = ft := rfl
  rw [ht]
  split
  · rfl
  · rw [decompressRead, bodyTbld, Ran.andThen_done, bodyUinit, needTree_pass (by rfl), Ran.andThen_done, Ran.andThen_done,
      bodyUnpk_ready (by exact hin) (by rfl)]
    rfl

/-- The input split at the header. -/
theorem input_split {s : State} {a b : List Byte} (h : inputBytes s = a ++ b) :
    a.length ≤ s.inLen.toNat ∧ ibufSlice s 0 a.length = a ∧ ibufSlice s a.length s.inLen.toNat = b := by
  have hl := congrArg List.length h
  rw [inputBytes, ibufSlice_length, List.length_append] at hl
  have hle : a.length ≤ s.inLen.toNat := by omega
  rw [inputBytes, ibufSlice_append s (Nat.zero_le a.length) hle] at h
  obtain ⟨h₁, h₂⟩ := List.append_inj h (by rw [ibufSlice_length]; omega)
  exact ⟨hle, h₁, h₂⟩

/-- What a counted non-empty sequence makes of the tree DECOMP builds: codes for its bytes. -/
theorem decodeStart_tree {ft : FreqTable} {bs : List Byte} (hcnt : Counts ft bs) (hmax : bs.length ≤ Config.maxLen)
    (hne : bs ≠ []) (t : Tree) {ct : CodeTable} (hct : codesOf (buildTree ft Tree.zero) = some ct) :
    ∃ T, (buildTree ft t).nonempty = true ∧ Rep (buildTree ft t) (buildTree ft t).root T ∧ CodesTree ct T ∧
      ∀ b ∈ bs, b ∈ T.leaves := by
  have hft := counts_tableOk hcnt hmax
  have htree := buildTree_ok hft t
  have hpresent := counts_mem hcnt
  have hnonempty : (buildTree ft t).nonempty = true := by
    obtain ⟨b, hb⟩ := List.exists_mem_of_ne_nil _ hne
    have hr := htree.root
    unfold RootOk at hr
    rw [if_neg (fun e => by have := (hpresent b).2 hb; rw [e] at this; cases this)] at hr
    exact hr.1
  obtain ⟨T, ct', hT, hl, hct', hcodes⟩ := treeOk_codesOf htree hnonempty
  rw [codesOf_buildTree hft Tree.zero t, hct] at hct'
  obtain rfl := Option.some.inj hct'
  exact ⟨T, hnonempty, hT, hcodes, fun b hb => hl.symm.subset ((hpresent b).2 hb)⟩

/-- DECOMP on the artifact of a sequence, whatever follows it in the input (R192, R233, R234). -/
theorem bodyDecomp_artifact {s : State} (hin : s.inLen ≤ s.params.ibufSize) {bs out rest : List Byte}
    (hmax : bs.length ≤ Config.maxLen) (ha : IsArtifact bs out) (hi : inputBytes s = out ++ rest) :
    (bs.length ≤ s.params.obufSize.toNat →
      ∃ t, bodyDecomp s = .done t ∧ outputBytes t = bs ∧ t.outLen.toNat = bs.length ∧ Counts t.table bs ∧
        t.unpacker.rem = 0#32 ∧
        t = { s with
          status := { s.status with treeValid := bs != [], codeValid := false }, inPtr := t.inPtr, outLen := t.outLen,
          table := t.table, tree := t.tree, unpacker := t.unpacker, obuf := t.obuf } ∧
        (bs = [] → t.tree = s.tree) ∧ (bs ≠ [] → t.tree = buildTree t.table s.tree) ∧
        ∀ a, t.outLen.toNat ≤ a → t.obufByte a = s.obufByte a) ∧
    (s.params.obufSize.toNat < bs.length → ∃ u, bodyDecomp s = .raised ⟨.capObuf, s.params.obufSize⟩ u) := by
  obtain ⟨ft, ct, payload, hcnt, hct, hpay, rfl⟩ := ha
  have hft := counts_tableOk hcnt hmax
  rw [List.append_assoc] at hi
  obtain ⟨hl, hh, hp⟩ := input_split hi
  rw [headerBytes_length] at hl hh hp
  have hbody := bodyDecomp_header hft hin hl hh
  by_cases hne : bs = []
  · subst hne
    have ht0 : ft.total = 0#32 := BitVec.eq_of_toNat_eq hcnt.2.1
    rw [if_pos ht0] at hbody
    refine ⟨fun _ => ⟨_, hbody, obufSlice_self _ 0, rfl, hcnt, rfl, rfl, fun _ => rfl,
      fun e => absurd rfl e, fun _ _ => rfl⟩, fun h => ?_⟩
    exact absurd h (Nat.not_lt_zero _)
  · have ht0 : ft.total ≠ 0#32 := fun e => by
      have := hcnt.2.1
      rw [e] at this
      exact hne (List.eq_nil_of_length_eq_zero this.symm)
    rw [if_neg ht0, hcnt.2.1] at hbody
    obtain ⟨T, hnonempty, hT, hcodes, hb⟩ := decodeStart_tree hcnt hmax hne s.tree hct
    obtain ⟨pad, hpad, hpb⟩ := hpay
    have hl32 := s.inLen.isLt
    have hip : (decodeStart s ft (headerLen ft.entries.length)).inPtr.toNat = headerLen ft.entries.length := by
      show (BitVec.ofNat 32 _).toNat = _
      rw [BitVec.toNat_ofNat]; omega
    have hc : cursorBits (decodeStart s ft (headerLen ft.entries.length)) =
        payloadBits ct bs ++ (List.replicate pad false ++ rest.flatMap byteBits) := by
      rw [cursorBits_at rfl, hip, ibufSlice_congr (s := s) (t := decodeStart s ft (headerLen ft.entries.length)) rfl]
      show (ibufSlice s _ s.inLen.toNat).flatMap byteBits = _
      rw [hp, List.flatMap_append, hpb, List.append_assoc]
    rw [hbody]
    constructor
    · intro hr
      obtain ⟨t, k₁, k₂, k₃, k₄, k₅⟩ := Rep.decodeMany_payload hcodes bs
        (s := decodeStart s ft (headerLen ft.entries.length)) hT hnonempty hb hc (.inr (by
          show 0 + _ ≤ s.params.obufSize.toNat; omega))
      have q₁ : t.table = ft := by rw [k₂]; rfl
      have q₂ : t.unpacker.rem = ft.total - BitVec.ofNat 32 bs.length := by rw [k₂]; rfl
      have hne' : (bs != []) = true := by simpa using hne
      refine ⟨t, k₁, ?_, by rw [k₃]; exact Nat.zero_add _, q₁ ▸ hcnt, ?_, ?_, fun e => absurd e hne,
        fun _ => by rw [q₁, k₂]; rfl, fun a ha => ?_⟩
      · have := k₅ 0 (Nat.zero_le _)
        rwa [show (decodeStart s ft (headerLen ft.entries.length)).outLen.toNat = 0 from rfl, obufSlice_self,
          List.nil_append] at this
      · rw [q₂, ← hcnt.2.1, BitVec.ofNat_toNat, BitVec.setWidth_eq, BitVec.sub_self]
      · have r₁ : t.tree = buildTree ft s.tree := by rw [k₂]; rfl
        have r₂ : t.inPtr = (moved (payloadBits ct bs).length (decodeStart s ft (headerLen ft.entries.length))).inPtr := by
          rw [k₂]; rfl
        have r₃ : t.unpacker = _ := congrArg State.unpacker k₂
        rw [q₁, r₁, r₂, r₃, hne']
        generalize t.obuf = o at k₂ ⊢
        generalize t.outLen = l at k₂ ⊢
        rw [k₂]
        rfl
      · exact k₄ a (.inr ha)
    · intro hr
      obtain ⟨u, hu⟩ := Rep.decodeMany_full hcodes bs (s := decodeStart s ft (headerLen ft.entries.length)) hT hnonempty
        hb hc hne (by show s.params.obufSize.toNat < 0 + _; omega)
      rw [fullAt_of_lt (by rw [BitVec.le_def]; exact Nat.zero_le _)] at hu
      exact ⟨u, hu⟩

/-- DECOMP on an artifact whose payload is cut short (R193, R214). -/
theorem bodyDecomp_truncated {s : State} (hin : s.inLen ≤ s.params.ibufSize) {bs out : List Byte}
    (hmax : bs.length ≤ Config.maxLen) (ha : IsArtifact bs out) (hi : inputBytes s <+: out)
    (hlt : s.inLen.toNat < out.length) (hh : headerLen bs.dedup.length ≤ s.inLen.toNat)
    (hr : bs.length ≤ s.params.obufSize.toNat) :
    ∃ u k, bodyDecomp s = .raised ⟨.corruptExhausted, BitVec.ofNat 32 (bs.length - k)⟩ u ∧ k < bs.length ∧
      u.inPtr = s.inLen ∧ u.unpacker.rem = BitVec.ofNat 32 (bs.length - k) := by
  obtain ⟨ft, ct, payload, hcnt, hct, hpay, rfl⟩ := ha
  have hft := counts_tableOk hcnt hmax
  have hn : bs.dedup.length = ft.entries.length := hcnt.2.2.symm.trans hft.2
  rw [hn] at hh
  have hilen : (inputBytes s).length = s.inLen.toNat := ibufSlice_length s 0 _
  have hsplit : inputBytes s = headerBytes ft ++ ibufSlice s (headerLen ft.entries.length) s.inLen.toNat ∧
      ibufSlice s (headerLen ft.entries.length) s.inLen.toNat <+: payload := by
    have e : inputBytes s = ibufSlice s 0 (headerLen ft.entries.length) ++
        ibufSlice s (headerLen ft.entries.length) s.inLen.toNat := ibufSlice_append s (Nat.zero_le _) hh
    rw [e] at hi ⊢
    have e₂ : ibufSlice s 0 (headerLen ft.entries.length) = headerBytes ft := by
      have p₁ : ibufSlice s 0 (headerLen ft.entries.length) <+: headerBytes ft ++ payload :=
        (List.prefix_append _ _).trans hi
      exact (List.prefix_of_prefix_length_le p₁ (List.prefix_append _ _) (by
        rw [ibufSlice_length, headerBytes_length]; omega)).eq_of_length (by
        rw [ibufSlice_length, headerBytes_length]; omega)
    rw [e₂] at hi ⊢
    exact ⟨rfl, (List.prefix_append_right_inj _).1 hi⟩
  obtain ⟨hi', hpre⟩ := hsplit
  obtain ⟨hl, hh', hp⟩ := input_split hi'
  rw [headerBytes_length] at hl hh' hp
  have hbody := bodyDecomp_header hft hin hl hh'
  rw [List.length_append, headerBytes_length] at hlt
  have hplen := packsTo_length hpay
  have hne : bs ≠ [] := by
    rintro rfl
    have : payload.length = 0 := by rw [hplen, show payloadBits ct [] = [] from rfl, List.length_nil]
    omega
  have ht0 : ft.total ≠ 0#32 := fun e => by
    have := hcnt.2.1
    rw [e] at this
    exact hne (List.eq_nil_of_length_eq_zero this.symm)
  rw [if_neg ht0, hcnt.2.1] at hbody
  obtain ⟨T, hnonempty, hT, hcodes, hb⟩ := decodeStart_tree hcnt hmax hne s.tree hct
  obtain ⟨pad, hpad, hpb⟩ := hpay
  have hl32 := s.inLen.isLt
  have hip : (decodeStart s ft (headerLen ft.entries.length)).inPtr.toNat = headerLen ft.entries.length := by
    show (BitVec.ofNat 32 _).toNat = _
    rw [BitVec.toNat_ofNat]; omega
  have hc : cursorBits (decodeStart s ft (headerLen ft.entries.length)) =
      (ibufSlice s (headerLen ft.entries.length) s.inLen.toNat).flatMap byteBits := by
    rw [cursorBits_at rfl, hip, ibufSlice_congr (s := s) (t := decodeStart s ft (headerLen ft.entries.length)) rfl]
    rfl
  have hclen : (cursorBits (decodeStart s ft (headerLen ft.entries.length))).length =
      8 * (s.inLen.toNat - headerLen ft.entries.length) := by
    rw [hc, flatMap_byteBits_length, ibufSlice_length]
  have hcpre : cursorBits (decodeStart s ft (headerLen ft.entries.length)) <+: payloadBits ct bs := by
    have p₁ : cursorBits (decodeStart s ft (headerLen ft.entries.length)) <+:
        payloadBits ct bs ++ List.replicate pad false := by
      rw [hc, ← hpb]
      obtain ⟨q, hq⟩ := hpre
      exact ⟨q.flatMap byteBits, by rw [← List.flatMap_append, hq]⟩
    exact List.prefix_of_prefix_length_le p₁ (List.prefix_append _ _) (by rw [hclen]; omega)
  obtain ⟨u, k, k₁, k₂, k₃, k₄, k₅, k₆⟩ := Rep.decodeMany_short hcodes bs
    (s := decodeStart s ft (headerLen ft.entries.length)) hT hnonempty hb hcpre (by rw [hclen]; omega) (by
      show 0 + _ ≤ s.params.obufSize.toNat; omega)
  have hrem : (decodeStart s ft (headerLen ft.entries.length)).unpacker.rem - BitVec.ofNat 32 k =
      BitVec.ofNat 32 (bs.length - k) := by
    have : (decodeStart s ft (headerLen ft.entries.length)).unpacker.rem = BitVec.ofNat 32 bs.length := by
      show ft.total = _
      rw [← hcnt.2.1, BitVec.ofNat_toNat, BitVec.setWidth_eq]
    rw [this]
    apply BitVec.eq_of_toNat_eq
    unfold Config.maxLen at hmax
    rw [BitVec.toNat_sub, BitVec.toNat_ofNat, BitVec.toNat_ofNat, BitVec.toNat_ofNat]
    omega
  rw [hrem] at k₁ k₆
  refine ⟨u, k, by rw [hbody, k₁], k₂, ?_, k₆⟩
  rw [← k₅]
  apply BitVec.eq_of_toNat_eq
  show (BitVec.ofNat 32 ((cursorPos (decodeStart s ft (headerLen ft.entries.length)) + _) / 8)).toNat = _
  have hpos : cursorPos (decodeStart s ft (headerLen ft.entries.length)) = 8 * headerLen ft.entries.length := by
    unfold cursorPos
    rw [hip]
    rfl
  rw [hpos, hclen, BitVec.toNat_ofNat]
  omega

/-- The tree TBLD builds from a table of one symbol is that symbol's leaf (R47, R137). -/
theorem buildTree_single {ft : FreqTable} (hft : TableOk ft) (hn : ft.nsym = 1#32) (t : Tree) :
    ∃ sym, (buildTree ft t).nonempty = true ∧ (buildTree ft t).root = leafHandle sym := by
  have htree := buildTree_ok hft t
  have hlen : (presentSymbols ft).length = 1 := by
    rw [presentSymbols_length, ← hft.2, hn]; rfl
  have hr := htree.root
  unfold RootOk at hr
  rw [if_neg (fun e => by rw [e] at hlen; cases hlen)] at hr
  obtain ⟨T, hT, hl⟩ := treeOk_rep htree hr.1
  have hone := hl.length_eq.trans hlen
  generalize (buildTree ft t).root = r at hT
  cases hT with
  | leaf sym => exact ⟨sym, hr.1, rfl⟩
  | node k l r =>
    have h₁ := List.length_pos_of_ne_nil l.leaves_ne_nil
    have h₂ := List.length_pos_of_ne_nil r.leaves_ne_nil
    rw [HTree.leaves, List.length_append] at hone
    omega

/-- DECOMP on the header of one symbol and a payload of `m` zeros and a 1, with symbols still due (R189, R233). -/
theorem bodyDecomp_badbit {s : State} {ft : FreqTable} (hin : s.inLen ≤ s.params.ibufSize) (hft : TableOk ft)
    (hn : ft.nsym = 1#32) {payload : List Byte} (hi : inputBytes s = headerBytes ft ++ payload) {m : Nat}
    (hm : m < ft.total.toNat) {rest : List Bool}
    (hp : payload.flatMap byteBits = List.replicate m false ++ true :: rest) (hr : m ≤ s.params.obufSize.toNat) :
    ∃ u, bodyDecomp s = .raised ⟨.corruptBadbit, ft.total - BitVec.ofNat 32 m⟩ u ∧
      u.unpacker.rem = ft.total - BitVec.ofNat 32 m := by
  obtain ⟨hl, hh, hpl⟩ := input_split hi
  rw [headerBytes_length] at hl hh hpl
  have hbody := bodyDecomp_header hft hin hl hh
  rw [if_neg (fun e => by rw [e] at hm; cases hm)] at hbody
  obtain ⟨sym, hne, hroot⟩ := buildTree_single hft hn s.tree
  have hl32 := s.inLen.isLt
  have hc : cursorBits (decodeStart s ft (headerLen ft.entries.length)) = List.replicate m false ++ true :: rest := by
    have hip : (decodeStart s ft (headerLen ft.entries.length)).inPtr.toNat = headerLen ft.entries.length := by
      show (BitVec.ofNat 32 _).toNat = _
      rw [BitVec.toNat_ofNat]; omega
    rw [cursorBits_at rfl, hip, ibufSlice_congr (s := s) (t := decodeStart s ft (headerLen ft.entries.length)) rfl, ← hp,
      ← hpl]
    rfl
  obtain ⟨u, k₁, k₂, -⟩ := decodeMany_badbit m (ft.total.toNat - m - 1)
    (s := decodeStart s ft (headerLen ft.entries.length)) hroot hne hc
    (.inr (by show 0 + _ ≤ s.params.obufSize.toNat; omega))
  rw [show m + (ft.total.toNat - m - 1 + 1) = ft.total.toNat by omega] at k₁
  exact ⟨u, hbody.trans k₁, k₂⟩

/-! ### HGET does not look at OUT_LEN -/

/-- The same end in another state. -/
def Ran.mapState (f : State → State) : Ran → Ran
  | .done s => .done (f s)
  | .raised e s => .raised e (f s)
  | .stuck e => .stuck e

theorem Ran.mapState_andThen {f : State → State} {r r' : Ran} {g g' : State → Ran} (hr : r' = r.mapState f)
    (hg : ∀ s, g' (f s) = (g s).mapState f) : r'.andThen g' = (r.andThen g).mapState f := by
  subst hr
  cases r with
  | done s => exact hg s
  | raised e s => rfl
  | stuck e => rfl

theorem guardRaise_mapState (f : State → State) (bad : Bool) (k : ErrorKind) (info : Word) (s : State) :
    guardRaise bad k info (f s) = (guardRaise bad k info s).mapState f := by cases bad <;> rfl

theorem checkMagic_setOutLen (v : Word) (l : List Byte) (j : Nat) (s : State) :
    checkMagic l j (s.setOutLen v) = (checkMagic l j s).mapState (·.setOutLen v) := by
  induction l generalizing j s with
  | nil => rfl
  | cons m ms ih =>
    unfold checkMagic
    have e : inByte (s.setOutLen v) = inByte s := rfl
    rw [e]
    split
    · exact ih (j + 1) (pastByte s)
    · rfl

theorem getInt_setOutLen (v : Word) (k : Nat) (s : State) :
    (getInt k (s.setOutLen v)).1 = (getInt k s).1 ∧ (getInt k (s.setOutLen v)).2 = (getInt k s).2.setOutLen v := by
  have key : ∀ n w (t : State), getIntFrom n w (t.setOutLen v) =
      ((getIntFrom n w t).1, (getIntFrom n w t).2.setOutLen v) := by
    intro n
    induction n with
    | zero => intro w t; rfl
    | succ n ih => intro w t; exact ih (256 * w + (inByte t).toNat) (pastByte t)
  exact ⟨(Prod.mk.inj (key k 0 s)).1, (Prod.mk.inj (key k 0 s)).2⟩

theorem getEntries_setOutLen (v : Word) {rest : HeaderLocals → State → Ran}
    (hrest : ∀ l s, rest l (s.setOutLen v) = (rest l s).mapState (·.setOutLen v)) (n i : Nat) (l : HeaderLocals)
    (s : State) :
    getEntries n i l (s.setOutLen v) rest = (getEntries n i l s rest).mapState (·.setOutLen v) := by
  induction n generalizing i l s with
  | zero => exact hrest l s
  | succ n ih =>
    unfold getEntries
    have e₁ : inByte (s.setOutLen v) = inByte s := rfl
    have e₂ : pastByte (s.setOutLen v) = (pastByte s).setOutLen v := rfl
    obtain ⟨h₁, h₂⟩ := getInt_setOutLen v 4 (pastByte s)
    simp only [e₁, e₂, h₁, h₂]
    exact Ran.mapState_andThen (guardRaise_mapState (·.setOutLen v) _ _ _ _) fun t =>
      Ran.mapState_andThen (guardRaise_mapState (·.setOutLen v) _ _ _ _) fun u => ih _ _ u

theorem bodyHget_setOutLen (v : Word) (s : State) :
    bodyHget (s.setOutLen v) = (bodyHget s).mapState (·.setOutLen v) := by
  refine Ran.mapState_andThen (guardRaise_mapState (·.setOutLen v) _ _ _ (clearValid s)) fun s =>
    Ran.mapState_andThen (guardRaise_mapState (·.setOutLen v) _ _ _ (startHeader s)) fun s =>
      Ran.mapState_andThen (checkMagic_setOutLen v _ _ s) fun s =>
        Ran.mapState_andThen (guardRaise_mapState (·.setOutLen v) _ _ _ s) fun s => ?_
  obtain ⟨h₁, h₂⟩ := getInt_setOutLen v 4 s
  obtain ⟨h₃, h₄⟩ := getInt_setOutLen v 2 (getInt 4 s).2
  unfold parseFields
  simp only [h₁, h₂, h₃, h₄]
  exact Ran.mapState_andThen (guardRaise_mapState (·.setOutLen v) _ _ _ _) fun s =>
    Ran.mapState_andThen (guardRaise_mapState (·.setOutLen v) _ _ _ s) fun s =>
      getEntries_setOutLen v (fun l s =>
        Ran.mapState_andThen (guardRaise_mapState (·.setOutLen v) _ _ _ s) fun _ => rfl) _ _ _ s

/-- An input that HGET turns away ends DECOMP with HGET's error (R233). -/
theorem bodyDecomp_raised {s u : State} {e : Raise} (h : bodyHget s = .raised e u) :
    bodyDecomp s = .raised e (u.setOutLen 0#32) := by
  rw [bodyDecomp, bodyHget_setOutLen, h]
  rfl

end Sys2Proof.Machine
end

