-- ==== Sys2Proof/Laws/Sequences.lean ====
section
/-! SUPPORT. Commands issued one after the other: an error stops all that follow, and the packing commands append their
bits. -/

namespace Sys2Proof.Machine

open Sys2Proof Sys2Proof.Safety

/-- A sequence of commands in two parts. -/
theorem execAll_append (is js : List Instr) {s t : State} (h : execAll is s = .next t) :
    execAll (is ++ js) s = execAll js t := by
  induction is generalizing s with
  | nil => simp only [execAll, Host.Outcome.next.injEq] at h; subst h; rfl
  | cons i is ih =>
    rw [List.cons_append, execAll]
    rw [execAll] at h
    cases he : exec i s with
    | next u => rw [he] at h; exact ih h
    | fault f => rw [he] at h; cases h
    | refused r => rw [he] at h; cases h

/-- An error stays until ECLR or SRST (R266). -/
theorem execAll_err (is : List Instr) (hi : ∀ i ∈ is, i ≠ .eclr ∧ i ≠ .srst) {s t : State}
    (he : s.status.err = true) (h : execAll is s = .next t) : t.status.err = true := by
  induction is generalizing s with
  | nil => cases h; exact he
  | cons i is ih =>
    have hh := hi i (List.mem_cons_self ..)
    rw [execAll, exec_bodyOf hh.1 hh.2, runCommand_dropped (.inr he)] at h
    exact ih (fun j hj => hi j (List.mem_cons_of_mem _ hj)) (s := markDrop s) he h

/-- A command that ends without an error leaves the machine ready (R27, R230). -/
theorem ready_after {i : Instr} (hi : i ≠ .eclr) (hi' : i ≠ .srst) {s u : State} (hs : Ready s)
    (hb : bodyOf i (accept s) = .done u) : Ready (finishDone u) := by
  have hw := bodyOf_writes hi hi' (accept s)
  rw [hb] at hw
  exact ⟨rfl, hw.runs.err.trans hs.2⟩

/-- The next command's body starts in the state the last body left (R230). -/
theorem accept_after {i : Instr} (hi : i ≠ .eclr) (hi' : i ≠ .srst) {s u : State}
    (hb : bodyOf i (accept s) = .done u) : accept (finishDone u) = u := by
  have hw := bodyOf_writes hi hi' (accept s)
  rw [hb] at hw
  have b₁ : u.status.busy = true := hw.runs.busy
  have b₂ : u.status.done = false := hw.runs.done
  cases u with
  | mk p st =>
    cases st
    simp only at b₁ b₂
    subst b₁
    subst b₂
    rfl

/-- The first command of a sequence that ends without an error: its body came to its end, and the rest runs from there,
its own bodies in the state that body left. -/
theorem execAll_step {i : Instr} {is : List Instr} (hi : ∀ j ∈ i :: is, j ≠ .eclr ∧ j ≠ .srst) {s t : State}
    (hs : Ready s) (h : execAll (i :: is) s = .next t) (ht : t.status.err = false) :
    ∃ u, bodyOf i (accept s) = .done u ∧ execAll is (finishDone u) = .next t ∧ Ready (finishDone u) ∧
      accept (finishDone u) = u := by
  have hh := hi i (List.mem_cons_self ..)
  rw [execAll] at h
  cases hb : bodyOf i (accept s) with
  | done u =>
    rw [exec_done hh.1 hh.2 hs hb] at h
    exact ⟨u, rfl, h, ready_after hh.1 hh.2 hs hb, accept_after hh.1 hh.2 hb⟩
  | raised e u =>
    rw [exec_raised hh.1 hh.2 hs hb] at h
    have := execAll_err is (fun j hj => hi j (List.mem_cons_of_mem _ hj)) (s := errorEntry e u) rfl h
    rw [ht] at this
    cases this
  | stuck f =>
    rw [exec_bodyOf hh.1 hh.2, runCommand_ready hs, hb] at h
    cases h

/-- What a packing command reads and does not write, as it stands in another state. -/
structure SamePacking (s u : State) : Prop where
  params : u.params = s.params
  code : u.code = s.code
  codeValid : u.status.codeValid = s.status.codeValid
  inLen : u.inLen = s.inLen
  ibuf : u.ibuf = s.ibuf

/-- What a packing command leaves: its bits appended to the stream, every other byte of OBUF as it was. -/
structure Packed (bits : List Bool) (u t : State) : Prop where
  ready : Ready t
  packerOk : PackerOk t.packer
  size : 8 * t.outLen.toNat + t.packer.nb.toNat = 8 * u.outLen.toNat + u.packer.nb.toNat + bits.length
  grows : u.outLen.toNat ≤ t.outLen.toNat
  outside : ∀ a, a < u.outLen.toNat ∨ t.outLen.toNat ≤ a → t.obufByte a = u.obufByte a
  stream : ∀ p, p ≤ u.outLen.toNat → streamFrom p t = streamFrom p u ++ bits

/-- A body that appended `bits`, ended normally. -/
theorem packed_of_appended {s u v t : State} {bits : List Bool} (hu : Ready u) (hs : SamePacking s u)
    (hv : SamePacking u v) (hve : v.status.err = u.status.err) (hvo : v.outLen = u.outLen) (hvb : v.obuf = u.obuf)
    (hvp : v.packer = u.packer) (h : Appended v t) (hp : PackerOk t.packer)
    (hl : 8 * t.outLen.toNat + t.packer.nb.toNat = 8 * v.outLen.toNat + v.packer.nb.toNat + bits.length)
    (hst : ∀ p, p ≤ v.outLen.toNat → streamFrom p t = streamFrom p v ++ bits) :
    SamePacking s (finishDone t) ∧ Packed bits u (finishDone t) := by
  have f := h.fields
  have hg := h.grows
  rw [hvo] at hg hl
  rw [hvp] at hl
  refine ⟨⟨f.1.trans (hv.params.trans hs.params), f.2.2.2.2.2.2.2.2.2.1.trans (hv.code.trans hs.code), ?_,
    f.2.2.2.2.2.1.trans (hv.inLen.trans hs.inLen), f.2.2.2.2.2.2.2.2.2.2.2.2.2.1.trans (hv.ibuf.trans hs.ibuf)⟩,
    ⟨rfl, ?_⟩, hp, hl, hg, fun a ha => ?_, fun p hpp => ?_⟩
  · show t.status.codeValid = _
    rw [f.2.1, hv.codeValid, hs.codeValid]
  · show t.status.err = false
    rw [f.2.1, hve, hu.2]
  · have := h.outside a (by rw [hvo]; exact ha)
    refine (show (finishDone t).obufByte a = t.obufByte a from rfl).trans (this.trans ?_)
    unfold State.obufByte
    rw [hvb]
  · have := hst p (by rw [hvo]; exact hpp)
    refine (show streamFrom p (finishDone t) = streamFrom p t from rfl).trans (this.trans ?_)
    unfold streamFrom
    rw [hvp, hvo, obufSlice_congr (s := u) (t := v) fun i _ _ => by unfold State.obufByte; rw [hvb]]

/-- One packing command with room for its bits, in a state that has the code table and input of `s` (R169 to R171). -/
theorem exec_packs {s u : State} {i : Instr} (hu : Ready u) (hs : SamePacking s u) (hc : CanPack s i)
    (hp : PackerOk u.packer) (hr : RoomForBits (bitsOf s i).length u) :
    ∃ t, exec i u = .next t ∧ SamePacking s t ∧ Packed (bitsOf s i) u t := by
  cases i <;> try exact hc.elim
  case pbit imm =>
    obtain ⟨t, k₁, k₂, k₃, k₄, k₅⟩ := pushBit_spec (immBit imm) (s := accept u) hp hr
    have := packed_of_appended (v := accept u) (bits := [immBit imm]) hu hs ⟨rfl, rfl, rfl, rfl, rfl⟩ rfl rfl rfl rfl k₂
      k₃ k₄ k₅
    exact ⟨_, exec_done (i := .pbit imm) (by simp) (by simp) hu k₁, this⟩
  case psym sym =>
    have hb : bodyOf (.psym sym) (accept u) = pushBits (codeBits s.code sym) (accept u) := by
      show bodyPsym sym (accept u) = _
      rw [bodyPsym, needCode_pass (by show u.status.codeValid = true; rw [hs.codeValid]; exact hc.1), Ran.andThen_done,
        pushCode_eq (by show u.code.len _ ≠ _; rw [hs.code]; exact hc.2)]
      show pushBits (codeBits u.code sym) _ = _
      rw [hs.code]
    obtain ⟨t, k₁, k₂, k₃, k₄, k₅⟩ := pushBits_spec (codeBits s.code sym) (s := accept u) hp hr
    have := packed_of_appended (v := accept u) hu hs ⟨rfl, rfl, rfl, rfl, rfl⟩ rfl rfl rfl rfl k₂ k₃ k₄ k₅
    exact ⟨_, exec_done (i := .psym sym) (by simp) (by simp) hu (hb.trans k₁), this⟩
  case pack =>
    have hb : bodyOf .pack (accept u) = packBytes s.inLen.toNat ((accept u).setInPtr 0#32) := by
      show bodyPack (accept u) = _
      rw [bodyPack, checkIn_pass (by show u.inLen ≤ u.params.ibufSize; rw [hs.inLen, hs.params]; exact hc.1),
        Ran.andThen_done, needCode_pass (by show u.status.codeValid = true; rw [hs.codeValid]; exact hc.2.1),
        Ran.andThen_done]
      show packBytes u.inLen.toNat _ = _
      rw [hs.inLen]
    have hsl : ibufSlice ((accept u).setInPtr 0#32) ((accept u).setInPtr 0#32).inPtr.toNat
        (((accept u).setInPtr 0#32).inPtr.toNat + s.inLen.toNat) = inputBytes s := by
      show ibufSlice ((accept u).setInPtr 0#32) 0 (0 + _) = _
      rw [Nat.zero_add]
      exact ibufSlice_congr hs.ibuf _ _
    have hcode : ((accept u).setInPtr 0#32).code = s.code := hs.code
    have hlt := s.inLen.isLt
    obtain ⟨t, k₁, k₂, k₃, k₄, k₅⟩ := packBytes_spec s.inLen.toNat (s := (accept u).setInPtr 0#32) hp
      (by show 0 + _ < _; omega) (by rw [hsl, hcode]; exact hc.2.2) (by rw [hsl, hcode]; exact hr)
    rw [hsl, hcode] at k₄ k₅
    have := packed_of_appended (v := (accept u).setInPtr (BitVec.ofNat 32
      (((accept u).setInPtr 0#32).inPtr.toNat + s.inLen.toNat))) hu hs ⟨rfl, rfl, rfl, rfl, rfl⟩ rfl rfl rfl rfl k₂ k₃
      k₄ k₅
    exact ⟨_, exec_done (i := .pack) (by simp) (by simp) hu (hb.trans k₁), this⟩

/-- A sequence of packing commands with room for all their bits (R173). -/
theorem execAll_packs {s : State} (is : List Instr) {u : State} (hu : Ready u) (hs : SamePacking s u)
    (hc : ∀ i ∈ is, CanPack s i) (hp : PackerOk u.packer) (hr : RoomForBits (is.flatMap (bitsOf s)).length u) :
    ∃ t, execAll is u = .next t ∧ SamePacking s t ∧ Packed (is.flatMap (bitsOf s)) u t := by
  induction is generalizing u with
  | nil => exact ⟨u, rfl, hs, hu, hp, by simp, Nat.le_refl _, fun _ _ => rfl, by simp⟩
  | cons i is ih =>
    rw [List.flatMap_cons, List.length_append] at hr
    have hunb := u.packer.nb.isLt
    unfold RoomForBits at hr
    obtain ⟨v, e, sv, kv⟩ := exec_packs hu hs (hc i (List.mem_cons_self ..)) hp (by unfold RoomForBits; omega)
    have hvnb := v.packer.nb.isLt
    have hsize := kv.size
    have hgrow := kv.grows
    obtain ⟨t, f, st, kt⟩ := ih kv.ready sv (fun j hj => hc j (List.mem_cons_of_mem _ hj)) kv.packerOk (by
      unfold RoomForBits
      rw [sv.params]
      rw [hs.params] at hr
      omega)
    have hsize' := kt.size
    have hgrow' := kt.grows
    refine ⟨t, by rw [execAll, e]; exact f, st, kt.ready, kt.packerOk, ?_, by omega, fun a ha => ?_, fun p hpp => ?_⟩
    · rw [List.flatMap_cons, List.length_append]; omega
    · rw [kt.outside a (by omega), kv.outside a (by omega)]
    · rw [kt.stream p (by omega), kv.stream p hpp, List.flatMap_cons, List.append_assoc]

end Sys2Proof.Machine
end

