-- ==== Sys2Proof/Laws/Commands.lean ====
section
/-! SUPPORT. What is left of a body once its tests pass (R69, R259), whole results of TBLD and CGEN, a run of FACCB
commands, and where the cursor stands when the bits run out. -/

namespace Sys2Proof.Machine

open Sys2Proof Sys2Proof.Safety

/-- The whole of TBLD on a ready machine (R137). -/
theorem exec_tbld_done {s : State} (h : Ready s) :
    exec .tbld s = .next { s with
      status := { ended s.status with treeValid := true, codeValid := false }, tree := buildTree s.table s.tree } :=
  runCommand_done (body := bodyTbld) h rfl

/-- The whole of CGEN on a ready machine with a valid tree (R152). -/
theorem exec_cgen_done {s : State} (h : Ready s) (hv : s.status.treeValid = true) {ct : CodeTable}
    (hc : codesOf s.tree = some ct) :
    exec .cgen s = .next { s with status := { ended s.status with codeValid := true }, code := ct } := by
  refine runCommand_done (body := bodyCgen) (u := markCodeValid ((clearCodeValid (accept s)).setCode ct)) h ?_
  rw [bodyCgen, needTree_pass (by exact hv), Ran.andThen_done]
  show (match codesOf s.tree with
    | some ct => Ran.done (markCodeValid ((clearCodeValid (accept s)).setCode ct))
    | none => .stuck .walkTooDeep) = _
  rw [hc]

/-- PACK past its tests (R171). -/
theorem bodyPack_ready {s : State} (hin : s.inLen ≤ s.params.ibufSize) (hv : s.status.codeValid = true) :
    bodyPack s = packBytes s.inLen.toNat (s.setInPtr 0#32) := by
  rw [bodyPack, checkIn_pass hin, Ran.andThen_done, needCode_pass hv, Ran.andThen_done]

/-- USYM past its tests (R190). -/
theorem bodyUsym_ready {s : State} (hin : s.inLen ≤ s.params.ibufSize) (hv : s.status.treeValid = true)
    (hr : s.unpacker.rem ≠ 0#32) (hne : s.tree.nonempty = true) :
    bodyUsym s = (walkSymbol s).andThen emitSymbol := by
  rw [bodyUsym, checkIn_pass hin, Ran.andThen_done, needTree_pass hv, Ran.andThen_done,
    guardRaise_pass (by simpa using hr), Ran.andThen_done, decodeOne, guardRaise_pass (by simp [hne]), Ran.andThen_done]

/-- UNPK with symbols due is USYM, then UNPK from where USYM ended if that was no error (R191). -/
theorem exec_unpk_usym {s t : State} (h : Ready s) (hr : s.unpacker.rem ≠ 0#32) (he : exec .usym s = .next t) :
    exec .unpk s = if t.status.err then .next t else exec .unpk t := by
  obtain ⟨n, hn⟩ : ∃ n, s.unpacker.rem.toNat = n + 1 :=
    Nat.exists_eq_succ_of_ne_zero fun e => hr (BitVec.eq_of_toNat_eq e)
  have same : ∀ {e u}, bodyUsym (accept s) = .raised e u → bodyUnpk (accept s) = .raised e u →
      exec .unpk s = if t.status.err then .next t else exec .unpk t := by
    intro e u h₁ h₂
    have hd := exec_raised (i := .usym) (by simp) (by simp) h h₁
    rw [he] at hd
    cases hd
    exact exec_raised (i := .unpk) (by simp) (by simp) h h₂
  by_cases hin : s.inLen ≤ s.params.ibufSize
  · cases hv : s.status.treeValid with
    | false =>
      refine same (e := ⟨.seqNotree, 0#32⟩) (u := accept s) ?_ ?_
      · rw [bodyUsym, checkIn_pass (by exact hin), Ran.andThen_done, needTree_fail (by exact hv), Ran.andThen_raised]
      · rw [bodyUnpk, checkIn_pass (by exact hin), Ran.andThen_done, needTree_fail (by exact hv), Ran.andThen_raised]
    | true =>
      have hs : bodyUsym (accept s) = decodeOne (accept s) := by
        rw [bodyUsym, checkIn_pass (by exact hin), Ran.andThen_done, needTree_pass (by exact hv), Ran.andThen_done,
          guardRaise_pass (bad := (accept s).unpacker.rem == 0#32) (beq_eq_false_iff_ne.2 hr), Ran.andThen_done]
      have hm : bodyUnpk (accept s) = (decodeOne (accept s)).andThen (decodeMany n) := by
        rw [bodyUnpk_ready (s := accept s) hin hv,
          show (accept s).unpacker.rem.toNat = n + 1 from hn]; rfl
      cases hb : decodeOne (accept s) with
      | done u =>
        rw [hb] at hs hm
        have hd := exec_done (i := .usym) (by simp) (by simp) h hs
        rw [he] at hd
        cases hd
        have hr₁ : Ready (finishDone u) := ready_after (i := .usym) (by simp) (by simp) h hs
        have hw := bodyOf_writes (i := .usym) (by simp) (by simp) (accept s)
        rw [show bodyOf .usym (accept s) = _ from hs] at hw
        rw [if_neg (by rw [hr₁.2]; simp), exec_bodyOf (by simp) (by simp), exec_bodyOf (by simp) (by simp),
          runCommand_ready h, runCommand_ready hr₁, accept_after (i := .usym) (by simp) (by simp) hs]
        refine congrArg (concludeWith finishDone) (hm.trans ?_)
        have hrem : u.unpacker.rem.toNat = n := by
          rw [decodeOne_rem hb, show (accept s).unpacker.rem = s.unpacker.rem from rfl, BitVec.toNat_sub, hn]
          have := s.unpacker.rem.isLt
          simp; omega
        rw [Ran.andThen_done, ← hrem]
        refine (bodyUnpk_ready ?_ ?_).symm
        · rw [hw.runs.setup.inLen, hw.runs.setup.params]; exact hin
        · rw [hw.treeValid rfl rfl]; exact hv
      | raised e u => rw [hb] at hs hm; exact same hs hm
      | stuck f =>
        rw [hb] at hs
        rw [exec_bodyOf (by simp) (by simp), runCommand_ready h, show bodyOf .usym (accept s) = _ from hs] at he
        cases he
  · have hc := checkIn_fail (s := accept s) (BitVec.not_le.1 hin)
    exact same (by rw [bodyUsym, hc, Ran.andThen_raised]) (by rw [bodyUnpk, hc, Ran.andThen_raised])

/-- DECOMP ends as UNPK does after HGET, TBLD and UINIT (R233). -/
theorem exec_decomp_unpk {s t : State} (h : Ready s)
    (hx : execAll [.hget, .tbld, .uinit] { s with outLen := 0#32 } = .next t) (ht : t.status.err = false)
    (hn : t.table.total ≠ 0#32) : exec .decomp s = exec .unpk t := by
  obtain ⟨u₁, b₁, hx, r₁, a₁⟩ := execAll_step (by simp) (s := { s with outLen := 0#32 }) h hx ht
  obtain ⟨u₂, b₂, hx, r₂, a₂⟩ := execAll_step (by simp) r₁ hx ht
  obtain ⟨u₃, b₃, hx, r₃, a₃⟩ := execAll_step (by simp) r₂ hx ht
  cases hx
  rw [a₁] at b₂
  rw [a₂] at b₃
  have w₂ := bodyOf_writes (i := .tbld) (by simp) (by simp) u₁
  have w₃ := bodyOf_writes (i := .uinit) (by simp) (by simp) u₂
  rw [b₂] at w₂
  rw [b₃] at w₃
  have htab : u₃.table = u₁.table := (w₃.table rfl).trans (w₂.table rfl)
  rw [show (finishDone u₃).table = _ from htab] at hn
  rw [exec_bodyOf (by simp) (by simp), exec_bodyOf (by simp) (by simp), runCommand_ready h, runCommand_ready r₃, a₃]
  refine congrArg (concludeWith finishDone) ?_
  change bodyHget ((accept s).setOutLen 0#32) = .done u₁ at b₁
  change bodyTbld u₁ = .done u₂ at b₂
  change bodyUinit u₂ = .done u₃ at b₃
  show bodyDecomp (accept s) = bodyUnpk u₃
  rw [bodyDecomp, b₁, Ran.andThen_done, if_neg hn, decompressRead, b₂, Ran.andThen_done, b₃, Ran.andThen_done]

/-- FACCB of the bytes of a list, one after the other, counts the list (R117, R120). -/
theorem execAll_faccb (bs : List Byte) {u : State} (h : Ready u) (hm : u.table.total.toNat + bs.length ≤ Config.maxLen) :
    ∃ v, execAll (bs.map .faccb) u = .next v ∧ Ready v ∧ v.table = u.table.addAll bs := by
  induction bs generalizing u with
  | nil => exact ⟨u, rfl, h, rfl⟩
  | cons b bs ih =>
    rw [List.length_cons] at hm
    have hb : bodyFaccb b (accept u) = .done ((clearValid (accept u)).setTable (u.table.add b)) := by
      rw [bodyFaccb, guardRaise_pass]
      · rfl
      · simp only [beq_eq_false_iff_ne]
        show u.table.total.toNat ≠ _
        omega
    have he : exec (.faccb b) u = _ := runCommand_done h hb
    have ht : (u.table.add b).total.toNat = u.table.total.toNat + 1 := by
      rw [add_total]; exact word_add_one_toNat (n := Config.maxLen) (by omega) (by decide)
    obtain ⟨v, h₁, h₂, h₃⟩ := ih (u := finishDone ((clearValid (accept u)).setTable (u.table.add b))) ⟨rfl, h.2⟩ (by
      show (u.table.add b).total.toNat + _ ≤ _; rw [ht]; omega)
    refine ⟨v, ?_, h₂, h₃⟩
    rw [List.map_cons, execAll, he]
    exact h₁

/-- Past all the bits IN_PTR stands at IN_LEN, or where it stood if it was past it (R187). -/
theorem moved_end_inPtr (s : State) :
    (moved (cursorBits s).length s).inPtr = if s.inLen ≤ s.inPtr then s.inPtr else s.inLen := by
  by_cases hl : s.inLen ≤ s.inPtr
  · rw [if_pos hl, cursorBits_eq_nil.2 hl, List.length_nil, moved_zero]
  · rw [if_neg hl]
    have hlen : (cursorBits s).length = 8 * s.inLen.toNat - cursorPos s := by rw [cursorBits_eq s]; simp
    have hlt : s.inPtr.toNat < s.inLen.toNat := by rw [BitVec.le_def] at hl; omega
    have hbx := s.unpacker.bidx.isLt
    have hcc : cursorPos s + (cursorBits s).length = 8 * s.inLen.toNat := by rw [hlen]; unfold cursorPos; omega
    have hcp := cursorPos_moved (n := (cursorBits s).length) (s := s) (by omega)
    rw [hcc] at hcp
    apply BitVec.eq_of_toNat_eq
    have := (moved (cursorBits s).length s).unpacker.bidx.isLt
    unfold cursorPos at hcp
    omega

end Sys2Proof.Machine
end

