-- ==== Sys2Proof/Laws/Greedy.lean ====
section
/-! SUPPORT. TBLD's merges are the greedy ones: each removes the two lowest keys of LIVE (R134, R135, R137). -/

namespace Sys2Proof.Machine

open Sys2Proof Sys2Proof.Safety

theorem keyBelow_iff {ft : FreqTable} {t : Tree} {a b : Handle} : keyBelow ft t a b = true ↔ KeyLess ft t a b := by
  simp [keyBelow, KeyLess]

theorem keyLess_trans {ft : FreqTable} {t : Tree} {a b c : Handle} (h : KeyLess ft t a b) (k : KeyLess ft t b c) :
    KeyLess ft t a c := by
  unfold KeyLess at *
  simp only [BitVec.lt_def, ← BitVec.toNat_inj] at *
  omega

theorem keyLess_total {ft : FreqTable} {t : Tree} {a b : Handle} (h : a ≠ b) :
    KeyLess ft t a b ∨ KeyLess ft t b a := by
  unfold KeyLess
  simp only [BitVec.lt_def, ← BitVec.toNat_inj, ne_eq] at *
  omega

theorem keyLess_irrefl {ft : FreqTable} {t : Tree} (a : Handle) : ¬KeyLess ft t a a := by
  unfold KeyLess
  simp only [BitVec.lt_def]
  omega

/-- The minimum is below every other member (R135). -/
theorem minFrom_least (ft : FreqTable) (t : Tree) (m : Handle) (hs : List Handle) :
    ∀ h ∈ m :: hs, h ≠ minFrom ft t m hs → KeyLess ft t (minFrom ft t m hs) h := by
  induction hs generalizing m with
  | nil => intro h hh hne; simp [minFrom] at hh hne; exact absurd hh hne
  | cons x xs ih =>
    intro h hh hne
    rw [minFrom] at hne ⊢
    cases hb : keyBelow ft t x m with
    | true =>
      rw [hb] at hne
      rw [if_pos rfl] at hne ⊢
      by_cases hm : h = m
      · subst hm
        have hlt : KeyLess ft t x h := keyBelow_iff.1 hb
        by_cases hx : x = minFrom ft t x xs
        · rw [← hx]; exact hlt
        · exact keyLess_trans (ih x x (List.mem_cons_self ..) hx) hlt
      · refine ih x h ?_ hne
        rw [List.mem_cons] at hh
        exact hh.resolve_left hm
    | false =>
      rw [hb] at hne
      simp only [Bool.false_eq_true, if_false] at hne ⊢
      by_cases hx : h = x
      · subst hx
        by_cases hm : m = minFrom ft t m xs
        · rw [← hm] at hne ⊢
          refine (keyLess_total hne).resolve_left fun hl => ?_
          rw [keyBelow_iff.2 hl] at hb
          cases hb
        · have h₁ := ih m m (List.mem_cons_self ..) hm
          by_cases hmx : m = h
          · rw [← hmx]; exact h₁
          · refine keyLess_trans h₁ ((keyLess_total hmx).resolve_right fun hl => ?_)
            rw [keyBelow_iff.2 hl] at hb
            cases hb
      · refine ih m h ?_ hne
        simp only [List.mem_cons] at hh ⊢
        tauto

/-- What `a <- min(LIVE); LIVE <- LIVE \ {a}` does (R135, R137). -/
theorem takeMin_spec {ft : FreqTable} {t : Tree} {live rest : List Handle} {a : Handle}
    (h : takeMin ft t live = some (a, rest)) (hnd : live.Nodup) :
    a ∈ live ∧ (∀ x ∈ live, x ≠ a → KeyLess ft t a x) ∧ rest.Nodup ∧ ∀ x, x ∈ rest ↔ x ∈ live ∧ x ≠ a := by
  have hp := takeMin_perm h
  have hnd' := hp.nodup_iff.1 hnd
  rw [List.nodup_cons] at hnd'
  refine ⟨hp.symm.subset (List.mem_cons_self ..), ?_, hnd'.2, fun x => ?_⟩
  · cases live with
    | nil => simp [takeMin] at h
    | cons m hs =>
      simp only [takeMin, Option.some.injEq, Prod.mk.injEq] at h
      obtain ⟨rfl, _⟩ := h
      exact minFrom_least ft t m hs
  · rw [hp.mem_iff, List.mem_cons]
    constructor
    · intro hx
      exact ⟨.inr hx, fun e => hnd'.1 (e ▸ hx)⟩
    · rintro ⟨rfl | hx, hne⟩
      · exact absurd rfl hne
      · exact hx

/-- What the merge loop keeps beside the forest: the live list is LIVE, and every merge so far was a greedy one. -/
structure Greedy (ft : FreqTable) (live : List Handle) (t : Tree) : Prop where
  nodup : live.Nodup
  live : ∀ h, h ∈ live ↔ LiveAt ft t t.nint.toNat h
  merges : ∀ k : Byte, k < t.nint → MergesLowest ft t k

theorem Greedy.start (ft : FreqTable) (t : Tree) : Greedy ft (liveLeaves ft) { t with nint := 0#8 } where
  nodup := by
    have : liveLeaves ft = (presentSymbols ft).map leafHandle := by simp [liveLeaves, presentSymbols]
    rw [this]
    exact (presentSymbols_nodup ft).map fun a b h => leafHandle_injective h
  live := by
    intro h
    have : liveLeaves ft = (presentSymbols ft).map leafHandle := by simp [liveLeaves, presentSymbols]
    rw [this, List.mem_map]
    constructor
    · rintro ⟨s, hs, rfl⟩
      refine ⟨by simpa [Names] using mem_presentSymbols.1 hs, fun j hj => ?_⟩
      have : ¬j.toNat < 0 := Nat.not_lt_zero _
      exact absurd hj this
    · rintro ⟨hn, _⟩
      unfold Names at hn
      cases hl : isLeaf h with
      | true =>
        rw [hl, if_pos rfl] at hn
        exact ⟨lowByte h, mem_presentSymbols.2 hn, leafHandle_lowByte hl⟩
      | false =>
        rw [hl] at hn
        exact absurd hn (Nat.not_lt_zero _)
  merges := fun k hk => absurd hk (by simp [BitVec.lt_def])

/-- A later arena with the same earlier entries has the same keys and the same earlier live sets. -/
theorem Agree.keyLess {ft : FreqTable} {t u : Tree} (he : ∀ k : Byte, k < t.nint → u.entry k = t.entry k) {a b : Handle}
    (ha : Names ft t.nint.toNat a) (hb : Names ft t.nint.toNat b) : KeyLess ft u a b ↔ KeyLess ft t a b := by
  have node : ∀ {c : Handle}, Names ft t.nint.toNat c →
      nodeWeight ft u c = nodeWeight ft t c ∧ nodeLsym u c = nodeLsym t c := by
    intro c hc
    unfold Names at hc
    by_cases hl : isLeaf c = true
    · simp [nodeWeight, nodeLsym, hl]
    · rw [if_neg hl] at hc
      simp [nodeWeight, nodeLsym, hl, he _ (BitVec.lt_def.2 hc)]
  unfold KeyLess
  rw [(node ha).1, (node ha).2, (node hb).1, (node hb).2]

theorem liveAt_congr {ft : FreqTable} {t u : Tree} (he : ∀ k : Byte, k < t.nint → u.entry k = t.entry k) {n : Nat}
    (hn : n ≤ t.nint.toNat) (h : Handle) : LiveAt ft u n h ↔ LiveAt ft t n h := by
  unfold LiveAt
  refine and_congr_right fun _ => forall_congr' fun j => imp_congr_right fun hj => ?_
  rw [he j (BitVec.lt_def.2 (by omega))]

theorem names_mono {ft : FreqTable} {m n : Nat} (h : m ≤ n) {c : Handle} (hc : Names ft m c) : Names ft n c := by
  unfold Names at *
  split
  · rename_i hl; rwa [if_pos hl] at hc
  · rename_i hl; rw [if_neg hl] at hc; omega

theorem mergesLowest_congr {ft : FreqTable} {t u : Tree} (he : ∀ k : Byte, k < t.nint → u.entry k = t.entry k) {k : Byte}
    (hk : k < t.nint) (h : MergesLowest ft t k) : MergesLowest ft u k := by
  have hk' := BitVec.lt_def.1 hk
  obtain ⟨h₁, h₂, h₃, h₄⟩ := h
  have live := fun c => liveAt_congr (ft := ft) he (n := k.toNat) (by omega) c
  have nm : ∀ {c}, LiveAt ft t k.toNat c → Names ft t.nint.toNat c := fun hc => names_mono (by omega) hc.1
  unfold MergesLowest
  rw [he k hk, live, live]
  refine ⟨h₁, h₂, fun c hc hne => ?_, fun c hc hne hne' => ?_⟩
  · rw [live] at hc
    exact (Agree.keyLess he (nm h₁) (nm hc)).2 (h₃ c hc hne)
  · rw [live] at hc
    exact (Agree.keyLess he (nm h₂) (nm hc)).2 (h₄ c hc hne hne')

/-- One pass of the loop is greedy (R137). -/
theorem Greedy.merge {ft : FreqTable} {live live₁ live₂ : List Handle} {t : Tree} {a b : Handle}
    (hF : Forest ft live t) (h : Greedy ft live t) (ha : takeMin ft t live = some (a, live₁))
    (hb : takeMin ft t live₁ = some (b, live₂)) : Greedy ft (nodeHandle t.nint :: live₂) (t.merge ft a b) := by
  obtain ⟨a₁, a₂, a₃, a₄⟩ := takeMin_spec ha h.nodup
  obtain ⟨b₁, b₂, b₃, b₄⟩ := takeMin_spec hb a₃
  have hlen : live₂.length + 2 = live.length := by
    rw [(takeMin_perm ha).length_eq, List.length_cons, (takeMin_perm hb).length_eq, List.length_cons]
  have hlt : t.nint.toNat < 255 := by
    have := hF.size
    have := presentSymbols_length_le ft
    omega
  have hk' : (t.merge ft a b).nint.toNat = t.nint.toNat + 1 := merge_nint_toNat hlt
  have hold : ∀ k, k < t.nint → (t.merge ft a b).entry k = t.entry k := fun k hk => merge_entry_old a b hk
  have hnew := merge_entry_new (ft := ft) (t := t) a b hlt
  have hmem : ∀ x, x ∈ live₂ ↔ (x ∈ live ∧ x ≠ a) ∧ x ≠ b := fun x => by rw [b₄, a₄]
  have hb₁ : b ∈ live ∧ b ≠ a := (a₄ b).1 b₁
  refine ⟨?_, fun x => ?_, fun k hk => ?_⟩
  · rw [List.nodup_cons]
    refine ⟨fun hx => ?_, b₃⟩
    have := hF.names ((hmem _).1 hx).1.1
    simp [Names] at this
  · rw [List.mem_cons, hmem, h.live, hk']
    constructor
    · rintro (rfl | ⟨⟨⟨h₁, h₂⟩, h₃⟩, h₄⟩)
      · refine ⟨by simp [Names], fun j hj => ?_⟩
        have nm : ∀ {c}, Names ft t.nint.toNat c → c ≠ nodeHandle t.nint := by
          rintro c hc rfl
          simp [Names] at hc
        rcases Nat.lt_succ_iff_lt_or_eq.1 hj with hj | hj
        · rw [hold j (BitVec.lt_def.2 hj)]
          have := hF.entries j (BitVec.lt_def.2 hj)
          exact ⟨nm (names_mono (by omega) this.1), nm (names_mono (by omega) this.2.1)⟩
        · obtain rfl : j = t.nint := BitVec.eq_of_toNat_eq hj
          rw [hnew]
          exact ⟨nm (hF.names a₁), nm (hF.names hb₁.1)⟩
      · refine ⟨names_mono (by omega) h₁, fun j hj => ?_⟩
        rcases Nat.lt_succ_iff_lt_or_eq.1 hj with hj | hj
        · rw [hold j (BitVec.lt_def.2 hj)]; exact h₂ j hj
        · obtain rfl : j = t.nint := BitVec.eq_of_toNat_eq hj
          rw [hnew]
          exact ⟨Ne.symm h₃, Ne.symm h₄⟩
    · rintro ⟨h₁, h₂⟩
      by_cases hx : x = nodeHandle t.nint
      · exact .inl hx
      · right
        have hn : Names ft t.nint.toNat x := by
          unfold Names at h₁ ⊢
          split
          · rename_i hl; rwa [if_pos hl] at h₁
          · rename_i hl
            rw [if_neg hl] at h₁
            have : (lowByte x).toNat ≠ t.nint.toNat := fun e => hx (by
              rw [← nodeHandle_lowByte (h := x) (by simpa using hl), BitVec.eq_of_toNat_eq e])
            omega
        have hlast := h₂ t.nint (by omega)
        rw [hnew] at hlast
        refine ⟨⟨⟨hn, fun j hj => ?_⟩, fun e => hlast.1 e.symm⟩, fun e => hlast.2 e.symm⟩
        have := h₂ j (by omega)
        rwa [hold j (BitVec.lt_def.2 hj)] at this
  · rcases Nat.lt_succ_iff_lt_or_eq.1 (hk' ▸ BitVec.lt_def.1 hk) with hj | hj
    · exact mergesLowest_congr hold (BitVec.lt_def.2 hj) (h.merges k (BitVec.lt_def.2 hj))
    · obtain rfl : k = t.nint := BitVec.eq_of_toNat_eq hj
      have live := fun c => (liveAt_congr (ft := ft) hold (n := t.nint.toNat) (le_refl _) c).trans (h.live c).symm
      unfold MergesLowest
      rw [hnew, live, live]
      refine ⟨a₁, hb₁.1, fun c hc hne => ?_, fun c hc hne hne' => ?_⟩
      · rw [live] at hc
        exact (Agree.keyLess hold (hF.names a₁) (hF.names hc)).2 (a₂ c hc hne)
      · rw [live] at hc
        exact (Agree.keyLess hold (hF.names hb₁.1) (hF.names hc)).2 (b₂ c ((a₄ c).2 ⟨hc, hne⟩) hne')

theorem mergeLoop_greedy {ft : FreqTable} (hft : TableOk ft) (fuel : Nat) {live : List Handle} {t : Tree}
    (hF : Forest ft live t) (h : Greedy ft live t) :
    Greedy ft (mergeLoop ft fuel live t).1 (mergeLoop ft fuel live t).2 := by
  induction fuel generalizing live t with
  | zero => exact h
  | succ fuel ih =>
    rw [mergeLoop]
    cases ha : takeMin ft t live with
    | none => exact h
    | some p =>
      obtain ⟨a, live₁⟩ := p
      simp only
      cases hb : takeMin ft t live₁ with
      | none => exact h
      | some q =>
        obtain ⟨b, live₂⟩ := q
        exact ih (hF.merge hft ha hb) (h.merge hF ha hb)

/-- TBLD's merges are greedy, and what is left over at the end is ROOT (R137). -/
theorem buildTree_greedy {ft : FreqTable} (hft : TableOk ft) (t : Tree) :
    (∀ k : Byte, k < (buildTree ft t).nint → MergesLowest ft (buildTree ft t) k) ∧
      ∀ h, LiveAt ft (buildTree ft t) (buildTree ft t).nint.toNat h ↔
        (buildTree ft t).nonempty = true ∧ h = (buildTree ft t).root := by
  obtain ⟨hF, hlen⟩ := mergeLoop_spec hft (liveLeaves ft).length (Forest.start ft t) (by omega)
  have hG := mergeLoop_greedy hft (liveLeaves ft).length (Forest.start ft t) (Greedy.start ft t)
  have hb : buildTree ft t = (mergeLoop ft (liveLeaves ft).length (liveLeaves ft) { t with nint := 0#8 }).2.setRoot
      (mergeLoop ft (liveLeaves ft).length (liveLeaves ft) { t with nint := 0#8 }).1 := rfl
  rw [hb]
  generalize (mergeLoop ft (liveLeaves ft).length (liveLeaves ft) { t with nint := 0#8 }).2 = u at *
  generalize (mergeLoop ft (liveLeaves ft).length (liveLeaves ft) { t with nint := 0#8 }).1 = l at *
  have he : ∀ k : Byte, k < u.nint → (u.setRoot l).entry k = u.entry k := fun k _ => setRoot_entry u l k
  refine ⟨fun k hk => ?_, fun h => ?_⟩
  · rw [setRoot_nint] at hk
    exact mergesLowest_congr he hk (hG.merges k hk)
  · rw [setRoot_nint, liveAt_congr he (le_refl _), ← hG.live]
    match l, hlen with
    | [], _ => simp [Tree.setRoot]
    | [x], _ => simp [Tree.setRoot]
    | _ :: _ :: _, hlen => exact absurd hlen (by simp)

end Sys2Proof.Machine
end

