-- ==== Sys2Proof/Laws/PerInstr.lean ====
section
/-! SUPPORT. The per-instruction family `EncodingFields`: the three fields of every command word (R85). -/

namespace Sys2Proof.Laws

open Sys2Proof

/-- Bit k of a command word, by the field it lies in (R85). -/
theorem encode_getLsbD (i : Instr) (k : Nat) :
    (encode i).getLsbD k =
      if k < 8 then (opcode i).getLsbD k else if k < 16 then (operand i).getLsbD (k - 8) else false := by
  have h : (encode i).getLsbD k = ((0#16 ++ operand i : BitVec (16 + 8)) ++ opcode i : BitVec (16 + 8 + 8)).getLsbD k :=
    rfl
  rw [h, BitVec.getLsbD_append, BitVec.getLsbD_append, BitVec.getLsbD_zero]
  by_cases h₁ : k < 8
  · simp [h₁]
  · by_cases h₂ : k < 16
    · have : k - 8 < 8 := by omega
      simp [h₁, h₂, this]
    · have : ¬k - 8 < 8 := by omega
      simp [h₁, h₂, this]

theorem encode_fields (i : Instr) :
    opField (encode i) = opcode i ∧ immField (encode i) = operand i ∧ zeroField (encode i) = 0#16 := by
  refine ⟨?_, ?_, ?_⟩
  · apply BitVec.eq_of_getLsbD_eq; intro k hk
    simp only [opField, BitVec.getLsbD_extractLsb', encode_getLsbD, Nat.zero_add, hk, decide_true, Bool.true_and, if_true]
  · apply BitVec.eq_of_getLsbD_eq; intro k hk
    have h₁ : ¬8 + k < 8 := by omega
    have h₂ : 8 + k < 16 := by omega
    simp only [immField, BitVec.getLsbD_extractLsb', encode_getLsbD, hk, h₁, h₂, decide_true, Bool.true_and, if_true,
      if_false, Nat.add_sub_cancel_left]
  · apply BitVec.eq_of_getLsbD_eq; intro k hk
    have h₁ : ¬16 + k < 8 := by omega
    have h₂ : ¬16 + k < 16 := by omega
    simp only [zeroField, BitVec.getLsbD_extractLsb', encode_getLsbD, h₁, h₂, if_false, Bool.and_false,
      BitVec.getLsbD_zero]

namespace EncodingFields

/-- The word of a command holds its opcode in bits 7:0, its operand in bits 15:8 and zeros above. -/
def Statement (i : Instr) : Prop :=
  opField (encode i) = opcode i ∧ immField (encode i) = operand i ∧ zeroField (encode i) = 0#16

theorem nop : Statement .nop := encode_fields _
theorem fclr : Statement .fclr := encode_fields _
theorem faccb (imm : Byte) : Statement (.faccb imm) := encode_fields _
theorem facc : Statement .facc := encode_fields _
theorem tbld : Statement .tbld := encode_fields _
theorem cgen : Statement .cgen := encode_fields _
theorem pinit : Statement .pinit := encode_fields _
theorem pbit (imm : Byte) : Statement (.pbit imm) := encode_fields _
theorem psym (imm : Byte) : Statement (.psym imm) := encode_fields _
theorem pack : Statement .pack := encode_fields _
theorem pflush : Statement .pflush := encode_fields _
theorem uinit : Statement .uinit := encode_fields _
theorem usym : Statement .usym := encode_fields _
theorem unpk : Statement .unpk := encode_fields _
theorem hput : Statement .hput := encode_fields _
theorem hget : Statement .hget := encode_fields _
theorem comp : Statement .comp := encode_fields _
theorem decomp : Statement .decomp := encode_fields _
theorem eclr : Statement .eclr := encode_fields _
theorem srst : Statement .srst := encode_fields _

end EncodingFields

end Sys2Proof.Laws
end

