-- ==== Sys2Proof/Laws/Raises.lean ====
section
/-! SUPPORT. Which errors each body can raise (R256 to R261). -/

namespace Sys2Proof.Machine

open Sys2Proof Sys2Proof.Safety

/-- Where the body raises, the error is one of a list. -/
def Ran.RaisesIn (l : List ErrorKind) : Ran → Prop
  | .done _ => True
  | .raised e _ => e.kind ∈ l
  | .stuck _ => True

@[simp] theorem Ran.raisesIn_done (l : List ErrorKind) (s : State) : (Ran.done s).RaisesIn l = True := rfl
@[simp] theorem Ran.raisesIn_raised (l : List ErrorKind) (e : Raise) (s : State) :
    (Ran.raised e s).RaisesIn l = (e.kind ∈ l) := rfl

theorem Ran.RaisesIn.mono {l m : List ErrorKind} {r : Ran} (h : r.RaisesIn l) (hlm : ∀ k ∈ l, k ∈ m) : r.RaisesIn m := by
  cases r with
  | done s => trivial
  | raised e s => exact hlm _ h
  | stuck e => trivial

/-- Two parts, the second in a state with a property the first one leaves. -/
theorem Ran.RaisesIn.andThenOf {l : List ErrorKind} {P : State → Prop} {r : Ran} {f : State → Ran} (h : r.RaisesIn l)
    (hp : r.Post P) (hf : ∀ s, P s → (f s).RaisesIn l) : (r.andThen f).RaisesIn l := by
  cases r with
  | done s => exact hf s hp
  | raised e s => exact h
  | stuck e => trivial

theorem Ran.RaisesIn.andThen {l : List ErrorKind} {r : Ran} {f : State → Ran} (h : r.RaisesIn l)
    (hf : ∀ s, (f s).RaisesIn l) : (r.andThen f).RaisesIn l := by
  cases r with
  | done s => exact hf s
  | raised e s => exact h
  | stuck e => trivial

theorem guardRaise_raisesIn {l : List ErrorKind} (bad : Bool) {k : ErrorKind} (h : k ∈ l) (info : Word) (s : State) :
    (guardRaise bad k info s).RaisesIn l := by
  cases bad
  · trivial
  · exact h

theorem outByte_raisesIn {l : List ErrorKind} (h : ErrorKind.capObuf ∈ l) (v : Byte) (s : State) :
    (outByte v s).RaisesIn l := by
  unfold outByte
  split
  · exact h
  · trivial

theorem outBytes_raisesIn {l : List ErrorKind} (h : ErrorKind.capObuf ∈ l) (vs : List Byte) (s : State) :
    (outBytes vs s).RaisesIn l := by
  induction vs generalizing s with
  | nil => trivial
  | cons v vs ih => exact (outByte_raisesIn h v s).andThen ih

theorem pushBit_raisesIn {l : List ErrorKind} (h : ErrorKind.capObuf ∈ l) (b : Bool) (s : State) :
    (pushBit b s).RaisesIn l := by
  unfold pushBit
  split
  · exact (outByte_raisesIn h _ s).andThen fun _ => trivial
  · trivial

theorem pushCode_raisesIn {l : List ErrorKind} (h : ErrorKind.capObuf ∈ l) (h' : ErrorKind.noCode ∈ l) (sym : Byte)
    (s : State) : (pushCode sym s).RaisesIn l := by
  have key : ∀ bits n (t : State), (pushCodeBits bits n t).RaisesIn l := by
    intro bits n
    induction n with
    | zero => intro t; trivial
    | succ n ih => intro t; exact (pushBit_raisesIn h _ t).andThen ih
  unfold pushCode
  split
  · exact h'
  · exact key _ _ s

theorem packBytes_raisesIn {l : List ErrorKind} (h : ErrorKind.capObuf ∈ l) (h' : ErrorKind.noCode ∈ l) (n : Nat)
    (s : State) : (packBytes n s).RaisesIn l := by
  induction n generalizing s with
  | zero => trivial
  | succ n ih => exact (pushCode_raisesIn h h' _ _).andThen ih

theorem getBit_raisesIn {l : List ErrorKind} (h : ErrorKind.corruptExhausted ∈ l) {rest : Bool → State → Ran}
    (hr : ∀ b s, (rest b s).RaisesIn l) (s : State) : (getBit s rest).RaisesIn l := by
  unfold getBit
  split
  · exact h
  · exact hr _ _

theorem walkToLeaf_raisesIn {l : List ErrorKind} (h : ErrorKind.corruptExhausted ∈ l) (n : Nat) (s : State) :
    (walkToLeaf n s).RaisesIn l := by
  induction n generalizing s with
  | zero =>
    unfold walkToLeaf
    split
    · trivial
    · exact h
  | succ n ih =>
    unfold walkToLeaf
    split
    · trivial
    · exact getBit_raisesIn h (fun b t => ih _) s

/-- The errors of a walk and of the byte it emits (R190). -/
theorem walkSymbol_raisesIn {l : List ErrorKind} (h : ErrorKind.corruptExhausted ∈ l)
    (h' : ErrorKind.corruptBadbit ∈ l) (s : State) : (walkSymbol s).RaisesIn l := by
  unfold walkSymbol
  split
  · exact getBit_raisesIn h (fun b t => guardRaise_raisesIn b h' _ t) _
  · exact walkToLeaf_raisesIn h _ _

theorem decodeOne_raisesIn {l : List ErrorKind} (h : ErrorKind.corruptExhausted ∈ l)
    (h' : ErrorKind.corruptBadbit ∈ l) (ho : ErrorKind.capObuf ∈ l) (s : State)
    (he : ErrorKind.seqEmptytree ∈ l ∨ s.tree.nonempty = true) : (decodeOne s).RaisesIn l := by
  have step : ∀ t, ((walkSymbol t).andThen emitSymbol).RaisesIn l := fun t =>
    (walkSymbol_raisesIn h h' t).andThen fun u => (outByte_raisesIn ho _ u).andThen fun _ => trivial
  obtain he | he := he
  · exact (guardRaise_raisesIn _ he _ s).andThen step
  · rw [decodeOne, guardRaise_pass (by rw [he]; rfl), Ran.andThen_done]
    exact step s

theorem decodeMany_raisesIn {l : List ErrorKind} (h : ErrorKind.corruptExhausted ∈ l)
    (h' : ErrorKind.corruptBadbit ∈ l) (ho : ErrorKind.capObuf ∈ l) (n : Nat) (s : State)
    (he : ErrorKind.seqEmptytree ∈ l ∨ s.tree.nonempty = true) : (decodeMany n s).RaisesIn l := by
  induction n generalizing s with
  | zero => trivial
  | succ n ih =>
    refine (decodeOne_raisesIn h h' ho s he).andThenOf (decodeOne_unpack s).post fun t k => ih t ?_
    rw [(k.model).1.tree]
    exact he

theorem ErrorKind.format_mem {k : ErrorKind} (h : k.cause = 1) :
    k ∈ [ErrorKind.formatShort, .formatMagic, .formatSymcount, .formatOrder, .formatZerocount, .formatSum] := by
  revert h
  cases k <;> decide

/-- HGET's errors: CapacityError(INLEN) and the six FormatErrors (R256). -/
theorem bodyHget_raisesIn {l : List ErrorKind}
    (h : ∀ k ∈ [ErrorKind.capInlen, .formatShort, .formatMagic, .formatSymcount, .formatOrder, .formatZerocount,
      .formatSum], k ∈ l) (s : State) : (bodyHget s).RaisesIn l := by
  obtain e | ⟨e, a, hb, hc⟩ | ⟨_, _, _, _, _, _, hb⟩ := bodyHget_cases s
  · rw [e]; exact h _ (List.mem_cons_self ..)
  · rw [hb]; exact h _ (List.mem_cons_of_mem _ (ErrorKind.format_mem hc))
  · rw [hb]; trivial

/-- COMP raises CapacityError alone (R231). -/
theorem bodyComp_raisesIn (s : State) : (bodyComp s).RaisesIn [.capInlen, .capObuf] := by
  by_cases hin : s.inLen ≤ s.params.ibufSize
  · obtain ⟨out, _, hfit, hfull⟩ := bodyComp_spec hin
    rcases Nat.lt_or_ge s.params.obufSize.toNat out.length with hr | hr
    · obtain ⟨u, hu⟩ := hfull hr
      rw [hu]; exact List.mem_cons_of_mem _ (List.mem_cons_self ..)
    · obtain ⟨t, ht, _⟩ := hfit hr
      rw [ht]; trivial
  · rw [bodyComp, checkIn_fail (BitVec.not_le.1 hin), Ran.andThen_raised]
    exact List.mem_cons_self ..

/-- DECOMP raises HGET's errors, CorruptionError and CapacityError(OBUF), never a SequenceError (R233). -/
theorem bodyDecomp_raisesIn (s : State) :
    (bodyDecomp s).RaisesIn [.capInlen, .formatShort, .formatMagic, .formatSymcount, .formatOrder, .formatZerocount,
      .formatSum, .corruptExhausted, .corruptBadbit, .capObuf] := by
  obtain e | ⟨e, a, hb, hc⟩ | ⟨h₁, h₂, h₃, h₄, h₅, h₆, hb⟩ := bodyHget_cases (s.setOutLen 0#32)
  · rw [bodyDecomp, e, Ran.andThen_raised]
    exact List.mem_cons_self ..
  · rw [bodyDecomp, hb, Ran.andThen_raised]
    have := ErrorKind.format_mem hc
    simp only [Ran.raisesIn_raised, List.mem_cons, List.not_mem_nil, or_false] at this ⊢
    tauto
  · rw [bodyDecomp, hb, Ran.andThen_done]
    have hft := headerTable_ok h₃ h₅ h₆
    generalize hu : (readAt (10 + 5 * (headerCount (s.setOutLen 0#32)).toNat)
      (startHeader (s.setOutLen 0#32))).setTable (headerTable (s.setOutLen 0#32)
        (headerCount (s.setOutLen 0#32)).toNat) = u
    have htab : TableOk u.table := by rw [← hu]; exact hft
    have hin : u.inLen ≤ u.params.ibufSize := by rw [← hu]; exact h₁
    split
    · trivial
    · rename_i ht0
      have hne : (buildTree u.table u.tree).nonempty = true := by
        have hr := (buildTree_ok htab u.tree).root
        unfold RootOk at hr
        by_contra hn
        have hnil : presentSymbols u.table = [] := by
          by_contra hp
          rw [if_neg hp] at hr
          exact hn hr.1
        have := htab.1
        rw [freq_sum_present, hnil] at this
        exact ht0 (BitVec.eq_of_toNat_eq this)
      rw [decompressRead, bodyTbld, Ran.andThen_done, bodyUinit, needTree_pass (by rfl), Ran.andThen_done,
        Ran.andThen_done, bodyUnpk_ready (by exact hin) (by rfl)]
      exact decodeMany_raisesIn (by decide) (by decide) (by decide) _ _ (.inr hne)

/-- Every error a command's body raises is one that R256 to R261 let it raise. -/
theorem bodyOf_raises {i : Instr} {s u : State} {e : Raise} (hb : bodyOf i s = .raised e u) :
    e.kind.code ∈ errorsOf i := by
  have key : ∀ l : List ErrorKind, (bodyOf i s).RaisesIn l → e.kind ∈ l := by
    intro l h
    rw [hb] at h
    exact h
  have fin : ∀ l : List ErrorKind, l.map ErrorKind.code = errorsOf i → (bodyOf i s).RaisesIn l →
      e.kind.code ∈ errorsOf i := fun l hl h => hl ▸ List.mem_map_of_mem (key l h)
  cases i with
  | nop => exact fin [] (by decide) trivial
  | fclr => exact fin [] (by decide) trivial
  | faccb imm =>
    exact fin [.capCount] (by simp [errorsOf]) ((guardRaise_raisesIn _ (by decide) _ s).andThen fun _ => trivial)
  | facc =>
    exact fin [.capInlen, .capCount] (by decide) ((guardRaise_raisesIn _ (by decide) _ s).andThen fun t =>
      (guardRaise_raisesIn _ (by decide) _ t).andThen fun _ => trivial)
  | tbld => exact fin [] (by decide) trivial
  | cgen =>
    refine fin [.seqNotree] (by decide) ((guardRaise_raisesIn _ (by decide) _ (clearCodeValid s)).andThen fun t => ?_)
    split <;> trivial
  | pinit => exact fin [] (by decide) trivial
  | pbit imm => exact fin [.capObuf] (by simp [errorsOf]) (pushBit_raisesIn (by decide) _ s)
  | psym sym =>
    exact fin [.seqNocodetable, .noCode, .capObuf] (by simp [errorsOf]) ((guardRaise_raisesIn _ (by decide) _ s).andThen fun t =>
      pushCode_raisesIn (by decide) (by decide) sym t)
  | pack =>
    exact fin [.capInlen, .seqNocodetable, .noCode, .capObuf] (by decide)
      ((guardRaise_raisesIn _ (by decide) _ s).andThen fun t => (guardRaise_raisesIn _ (by decide) _ t).andThen fun u =>
        packBytes_raisesIn (by decide) (by decide) _ _)
  | pflush =>
    refine fin [.capObuf] (by decide) ?_
    show (bodyPflush s).RaisesIn _
    unfold bodyPflush
    split
    · trivial
    · exact (outByte_raisesIn (by decide) _ s).andThen fun _ => trivial
  | uinit => exact fin [.seqNotree] (by decide) ((guardRaise_raisesIn _ (by decide) _ s).andThen fun _ => trivial)
  | usym =>
    exact fin [.capInlen, .seqNotree, .seqRemzero, .seqEmptytree, .corruptExhausted, .corruptBadbit, .capObuf] (by decide)
      ((guardRaise_raisesIn _ (by decide) _ s).andThen fun t => (guardRaise_raisesIn _ (by decide) _ t).andThen fun u =>
        (guardRaise_raisesIn _ (by decide) _ u).andThen fun v =>
          decodeOne_raisesIn (by decide) (by decide) (by decide) v (.inl (by decide)))
  | unpk =>
    exact fin [.capInlen, .seqNotree, .seqEmptytree, .corruptExhausted, .corruptBadbit, .capObuf] (by decide)
      ((guardRaise_raisesIn _ (by decide) _ s).andThen fun t => (guardRaise_raisesIn _ (by decide) _ t).andThen fun u =>
        decodeMany_raisesIn (by decide) (by decide) (by decide) _ u (.inl (by decide)))
  | hput =>
    refine fin [.capObuf] (by decide) ?_
    show (bodyHput s).RaisesIn _
    rw [bodyHput_eq]
    exact outBytes_raisesIn (by decide) _ _
  | hget =>
    exact fin [.capInlen, .formatShort, .formatMagic, .formatSymcount, .formatOrder, .formatZerocount, .formatSum]
      (by decide) (bodyHget_raisesIn (fun _ h => h) s)
  | comp => exact fin [.capInlen, .capObuf] (by decide) (bodyComp_raisesIn s)
  | decomp =>
    exact fin [.capInlen, .formatShort, .formatMagic, .formatSymcount, .formatOrder, .formatZerocount, .formatSum,
      .corruptExhausted, .corruptBadbit, .capObuf] (by decide) (bodyDecomp_raisesIn s)
  | eclr => exact fin [] (by decide) trivial
  | srst => exact fin [] (by decide) trivial

end Sys2Proof.Machine
end

