-- ==== Sys2Proof/Laws/Unread.lean ====
section
/-! SUPPORT. No command and no host access reads an unspecified element of the tree or of the code table (R54, R259,
R302): states that differ only there stay so, with equal answers. -/

namespace Sys2Proof.Machine

open Sys2Proof Sys2Proof.Safety

/-- The state with another tree and another code table. -/
def State.swap (T : Tree) (C : CodeTable) (s : State) : State := { s with tree := T, code := C }

theorem sameSpecified_swap {s : State} {T : Tree} {C : CodeTable}
    (ht : s.status.treeValid = true → SameTree s.tree T) (hc : s.status.codeValid = true → C = s.code) :
    SameSpecified s (s.swap T C) := ⟨rfl, ht, hc⟩

theorem sameSpecified_elim {s u : State} (h : SameSpecified s u) : ∃ T C, u = s.swap T C ∧
    (s.status.treeValid = true → SameTree s.tree T) ∧ (s.status.codeValid = true → C = s.code) :=
  ⟨u.tree, u.code, h.rest, h.tree, h.code⟩

theorem sameTree_refl (t : Tree) : SameTree t t := ⟨rfl, rfl, rfl, fun _ _ => rfl⟩

theorem sameSpecified_refl (s : State) : SameSpecified s s := ⟨rfl, fun _ => sameTree_refl _, fun _ => rfl⟩

theorem sameTree_agree {t u : Tree} (h : SameTree t u) : Agree t u := ⟨h.nint, h.entries⟩

/-- Two parts that end alike, in states that agree on all that is specified. -/
def Ran.Same : Ran → Ran → Prop
  | .done s, .done u => SameSpecified s u
  | .raised e s, .raised f u => f = e ∧ SameSpecified s u
  | .stuck e, .stuck f => f = e
  | _, _ => False

theorem Ran.Same.andThen {P : State → Prop} {r r' : Ran} {f g : State → Ran} (h : Ran.Same r r') (hp : r.Safe P)
    (hf : ∀ s u, P s → SameSpecified s u → Ran.Same (f s) (g u)) : Ran.Same (r.andThen f) (r'.andThen g) := by
  cases r with
  | done s =>
    cases r' with
    | done u => exact hf s u hp h
    | raised e u => exact h.elim
    | stuck e => exact h.elim
  | raised e s =>
    cases r' with
    | done u => exact h.elim
    | raised f u => exact h
    | stuck e => exact h.elim
  | stuck e => exact hp.elim

/-- A part that does the same on another tree and code table, and makes neither valid. -/
theorem Ran.Same.of_swap {s : State} {T : Tree} {C : CodeTable} {r r' : Ran} (h : r' = r.mapState (State.swap T C))
    (ht : s.status.treeValid = true → SameTree s.tree T) (hc : s.status.codeValid = true → C = s.code)
    (hp : r.Post fun t => (t.status.treeValid = true → s.status.treeValid = true ∧ t.tree = s.tree) ∧
      (t.status.codeValid = true → s.status.codeValid = true ∧ t.code = s.code)) : Ran.Same r r' := by
  subst h
  have key : ∀ t : State, ((t.status.treeValid = true → s.status.treeValid = true ∧ t.tree = s.tree) ∧
      (t.status.codeValid = true → s.status.codeValid = true ∧ t.code = s.code)) → SameSpecified t (t.swap T C) :=
    fun t k => sameSpecified_swap (fun h => by rw [(k.1 h).2]; exact ht (k.1 h).1) (fun h => by rw [(k.2 h).2]; exact hc (k.2 h).1)
  cases r with
  | done t => exact key t hp
  | raised e t => exact ⟨rfl, key t hp⟩
  | stuck e => rfl

/-! ### The parts that use neither -/

theorem outByte_swap (T : Tree) (C : CodeTable) (v : Byte) (s : State) :
    outByte v (s.swap T C) = (outByte v s).mapState (State.swap T C) := by
  show (if s.params.obufSize ≤ s.outLen then _ else _) = _
  unfold outByte
  split <;> rfl

theorem outBytes_swap (T : Tree) (C : CodeTable) (vs : List Byte) (s : State) :
    outBytes vs (s.swap T C) = (outBytes vs s).mapState (State.swap T C) := by
  induction vs generalizing s with
  | nil => rfl
  | cons v vs ih => exact Ran.mapState_andThen (outByte_swap T C v s) ih

theorem pushBit_swap (T : Tree) (C : CodeTable) (b : Bool) (s : State) :
    pushBit b (s.swap T C) = (pushBit b s).mapState (State.swap T C) := by
  show (if s.packer.nb = 7#3 then _ else _) = _
  unfold pushBit
  split
  · exact Ran.mapState_andThen (outByte_swap T C _ s) fun _ => rfl
  · rfl

theorem pushCodeBits_swap (T : Tree) (C : CodeTable) (bits : CodeBits) (l : Nat) (s : State) :
    pushCodeBits bits l (s.swap T C) = (pushCodeBits bits l s).mapState (State.swap T C) := by
  induction l generalizing s with
  | zero => rfl
  | succ l ih => exact Ran.mapState_andThen (pushBit_swap T C _ s) ih

theorem bodyPflush_swap (T : Tree) (C : CodeTable) (s : State) :
    bodyPflush (s.swap T C) = (bodyPflush s).mapState (State.swap T C) := by
  show (if s.packer.nb = 0#3 then _ else _) = _
  unfold bodyPflush
  split
  · rfl
  · exact Ran.mapState_andThen (outByte_swap T C _ s) fun _ => rfl

theorem countBytes_swap (T : Tree) (C : CodeTable) (n : Nat) (s : State) :
    countBytes n (s.swap T C) = (countBytes n s).swap T C := by
  induction n generalizing s with
  | zero => rfl
  | succ n ih => exact ih (countByte s)

theorem bodyFacc_swap (T : Tree) (C : CodeTable) (s : State) :
    bodyFacc (s.swap T C) = (bodyFacc s).mapState (State.swap T C) :=
  Ran.mapState_andThen (guardRaise_mapState (State.swap T C) _ _ _ s) fun s =>
    Ran.mapState_andThen (guardRaise_mapState (State.swap T C) _ _ _ s) fun s =>
      congrArg Ran.done (countBytes_swap T C s.inLen.toNat ((clearValid s).setInPtr 0#32))

theorem putEntries_swap (T : Tree) (C : CodeTable) (l : List (Byte × Word)) (s : State) :
    putEntries l (s.swap T C) = (putEntries l s).mapState (State.swap T C) := by
  induction l generalizing s with
  | nil => rfl
  | cons e l ih =>
    exact Ran.mapState_andThen (outByte_swap T C e.1 s) fun s =>
      Ran.mapState_andThen (outBytes_swap T C (bigEndian 4 e.2) s) ih

theorem bodyHput_swap (T : Tree) (C : CodeTable) (s : State) :
    bodyHput (s.swap T C) = (bodyHput s).mapState (State.swap T C) :=
  Ran.mapState_andThen (outBytes_swap T C Config.magic (emptyPacker (s.setOutLen 0#32))) fun s =>
    Ran.mapState_andThen (outBytes_swap T C (bigEndian 4 s.table.total) s) fun s =>
      Ran.mapState_andThen (outBytes_swap T C (bigEndian 2 s.table.nsym) s) fun s =>
        putEntries_swap T C s.table.entries s

theorem checkMagic_swap (T : Tree) (C : CodeTable) (l : List Byte) (j : Nat) (s : State) :
    checkMagic l j (s.swap T C) = (checkMagic l j s).mapState (State.swap T C) := by
  induction l generalizing j s with
  | nil => rfl
  | cons m ms ih =>
    rw [checkMagic, checkMagic, show inByte (s.swap T C) = inByte s from rfl]
    split
    · exact ih (j + 1) (pastByte s)
    · rfl

theorem getInt_swap (T : Tree) (C : CodeTable) (k : Nat) (s : State) :
    (getInt k (s.swap T C)).1 = (getInt k s).1 ∧ (getInt k (s.swap T C)).2 = (getInt k s).2.swap T C := by
  have key : ∀ n w (t : State), getIntFrom n w (t.swap T C) =
      ((getIntFrom n w t).1, (getIntFrom n w t).2.swap T C) := by
    intro n
    induction n with
    | zero => intro w t; rfl
    | succ n ih => intro w t; exact ih (256 * w + (inByte t).toNat) (pastByte t)
  exact ⟨(Prod.mk.inj (key k 0 s)).1, (Prod.mk.inj (key k 0 s)).2⟩

theorem getEntries_swap (T : Tree) (C : CodeTable) {rest : HeaderLocals → State → Ran}
    (hrest : ∀ l s, rest l (s.swap T C) = (rest l s).mapState (State.swap T C)) (n i : Nat) (l : HeaderLocals)
    (s : State) : getEntries n i l (s.swap T C) rest = (getEntries n i l s rest).mapState (State.swap T C) := by
  induction n generalizing i l s with
  | zero => exact hrest l s
  | succ n ih =>
    unfold getEntries
    have e₁ : inByte (s.swap T C) = inByte s := rfl
    have e₂ : pastByte (s.swap T C) = (pastByte s).swap T C := rfl
    obtain ⟨h₁, h₂⟩ := getInt_swap T C 4 (pastByte s)
    simp only [e₁, e₂, h₁, h₂]
    exact Ran.mapState_andThen (guardRaise_mapState (State.swap T C) _ _ _ _) fun t =>
      Ran.mapState_andThen (guardRaise_mapState (State.swap T C) _ _ _ _) fun u => ih _ _ u

theorem bodyHget_swap (T : Tree) (C : CodeTable) (s : State) :
    bodyHget (s.swap T C) = (bodyHget s).mapState (State.swap T C) := by
  refine Ran.mapState_andThen (guardRaise_mapState (State.swap T C) _ _ _ (clearValid s)) fun s =>
    Ran.mapState_andThen (guardRaise_mapState (State.swap T C) _ _ _ (startHeader s)) fun s =>
      Ran.mapState_andThen (checkMagic_swap T C _ _ s) fun s =>
        Ran.mapState_andThen (guardRaise_mapState (State.swap T C) _ _ _ s) fun s => ?_
  obtain ⟨h₁, h₂⟩ := getInt_swap T C 4 s
  obtain ⟨h₃, h₄⟩ := getInt_swap T C 2 (getInt 4 s).2
  unfold parseFields
  simp only [h₁, h₂, h₃, h₄]
  exact Ran.mapState_andThen (guardRaise_mapState (State.swap T C) _ _ _ _) fun s =>
    Ran.mapState_andThen (guardRaise_mapState (State.swap T C) _ _ _ s) fun s =>
      getEntries_swap T C (fun l s => Ran.mapState_andThen (guardRaise_mapState (State.swap T C) _ _ _ s) fun _ => rfl) _ _ _ s

/-! ### The parts that use the code table -/

theorem pushCode_swap (T : Tree) (sym : Byte) (s : State) :
    pushCode sym (s.swap T s.code) = (pushCode sym s).mapState (State.swap T s.code) := by
  show (if s.code.len sym = 0#8 then _ else _) = _
  unfold pushCode
  split
  · rfl
  · exact pushCodeBits_swap T s.code (s.code.bits sym) (s.code.len sym).toNat s

theorem Ran.mapState_andThenOf {P : State → Prop} {f : State → State} {r r' : Ran} {g g' : State → Ran}
    (hr : r' = r.mapState f) (hp : r.Post P) (hg : ∀ s, P s → g' (f s) = (g s).mapState f) :
    r'.andThen g' = (r.andThen g).mapState f := by
  subst hr
  cases r with
  | done s => exact hg s hp
  | raised e s => rfl
  | stuck e => rfl

theorem packBytes_swap (T : Tree) (n : Nat) (s : State) :
    packBytes n (s.swap T s.code) = (packBytes n s).mapState (State.swap T s.code) := by
  induction n generalizing s with
  | zero => rfl
  | succ n ih =>
    refine Ran.mapState_andThenOf (P := fun t => t.code = s.code) (pushCode_swap T (inByte s) (pastByte s)) ?_ ?_
    · exact (pushCode_pack (inByte s) (pastByte s)).post.mono fun t k => k.model.1.code
    · intro t ht
      have := ih t
      rw [ht] at this
      exact this

/-! ### The parts that use the tree -/

/-- CUR names a node: a leaf, or an internal node that exists. -/
def CurNamed (s : State) : Prop := isLeaf s.unpacker.cur = false → lowByte s.unpacker.cur < s.tree.nint

theorem names_lowByte {ft : FreqTable} {k : Nat} {h : Handle} (hn : Names ft k h) (hl : isLeaf h = false) :
    (lowByte h).toNat < k := by
  unfold Names at hn
  rwa [if_neg (by simp [hl])] at hn

theorem getBit_swap (T : Tree) (C : CodeTable) {rest rest' : Bool → State → Ran} (s : State)
    (h : rest' (cursorBit s) ((pastBit s).swap T C) = (rest (cursorBit s) (pastBit s)).mapState (State.swap T C)) :
    getBit (s.swap T C) rest' = (getBit s rest).mapState (State.swap T C) := by
  show (if s.inLen ≤ s.inPtr then _ else _) = _
  unfold getBit
  split
  · rfl
  · have hp : pastBit (s.swap T C) = (pastBit s).swap T C := by
      show (if s.unpacker.bidx = 7#3 then _ else _) = _
      unfold pastBit
      split <;> rfl
    rw [hp]
    exact h

theorem walkToLeaf_swap {ft : FreqTable} {t T : Tree} (hT : SameTree t T) (ht : ∀ k : Byte, k < t.nint → EntryOk ft t k)
    (C : CodeTable) (n : Nat) {s : State} (hs : s.tree = t) (hc : CurNamed s) :
    walkToLeaf n (s.swap T C) = (walkToLeaf n s).mapState (State.swap T C) := by
  induction n generalizing s with
  | zero =>
    show (if isLeaf s.unpacker.cur then _ else _) = _
    unfold walkToLeaf
    split <;> rfl
  | succ n ih =>
    rw [walkToLeaf, walkToLeaf, show (s.swap T C).unpacker = s.unpacker from rfl]
    split
    · rfl
    · rename_i hl
      have hk := hc (by simpa using hl)
      rw [hs] at hk
      have he := hT.entries _ hk
      have hok := ht _ hk
      have hcur : (pastBit s).unpacker.cur = s.unpacker.cur := by unfold pastBit; split <;> rfl
      have htree : (pastBit s).tree = t := by rw [← hs]; unfold pastBit; split <;> rfl
      refine getBit_swap T C s ?_
      have e₁ : T.right (pastBit s).unpacker.cur = (pastBit s).tree.right (pastBit s).unpacker.cur := by
        rw [hcur, htree, Tree.right, Tree.right, he]
      have e₂ : T.left (pastBit s).unpacker.cur = (pastBit s).tree.left (pastBit s).unpacker.cur := by
        rw [hcur, htree, Tree.left, Tree.left, he]
      have hd : descend (cursorBit s) ((pastBit s).swap T C) = (descend (cursorBit s) (pastBit s)).swap T C := by
        show setCur (if cursorBit s then T.right (pastBit s).unpacker.cur else T.left (pastBit s).unpacker.cur) _ = _
        rw [e₁, e₂]; rfl
      rw [hd]
      refine ih htree fun hl₂ => ?_
      have hn : Names ft (lowByte s.unpacker.cur).toNat (descend (cursorBit s) (pastBit s)).unpacker.cur := by
        show Names ft _ (if cursorBit s then (pastBit s).tree.right (pastBit s).unpacker.cur
          else (pastBit s).tree.left (pastBit s).unpacker.cur)
        rw [hcur, htree]
        split
        · exact hok.2.1
        · exact hok.1
      rw [show (descend (cursorBit s) (pastBit s)).tree = t from htree]
      exact BitVec.lt_def.2 ((names_lowByte hn hl₂).trans (BitVec.lt_def.1 hk))

theorem decodeOne_swap {ft : FreqTable} {t T : Tree} (hT : SameTree t T) (ht : TreeOk ft t) (C : CodeTable) {s : State}
    (hs : s.tree = t) : decodeOne (s.swap T C) = (decodeOne s).mapState (State.swap T C) := by
  have hr : T.root = s.tree.root := by rw [hs]; exact hT.root
  by_cases hn : s.tree.nonempty = true
  · have hn' : T.nonempty = true := by rw [hT.nonempty, ← hs]; exact hn
    have e₁ : decodeOne (s.swap T C) = (walkSymbol (s.swap T C)).andThen emitSymbol := by
      rw [decodeOne, guardRaise_pass (by show (!T.nonempty) = false; rw [hn']; rfl)]; rfl
    have e₂ : decodeOne s = (walkSymbol s).andThen emitSymbol := by
      rw [decodeOne, guardRaise_pass (by rw [hn]; rfl)]; rfl
    rw [e₁, e₂]
    refine Ran.mapState_andThenOf (P := fun u => u.tree = t) ?_ ?_ fun u hu => ?_
    · have e : setCur T.root (s.swap T C) = (setCur s.tree.root s).swap T C := by rw [hr]; rfl
      show (if isLeaf T.root then singleLeafBit (setCur T.root (s.swap T C))
        else walkToLeaf (bitsLeft s) (setCur T.root (s.swap T C))) = _
      rw [e, hr, walkSymbol]
      split
      · exact getBit_swap T C _ (guardRaise_mapState (State.swap T C) _ _ _ _)
      · refine walkToLeaf_swap hT ht.entries C (bitsLeft s) (s := setCur s.tree.root s) hs fun hl' => ?_
        show lowByte s.tree.root < s.tree.nint
        rw [hs] at hn hl' ⊢
        have hl₂ : isLeaf t.root = false := hl'
        obtain ⟨H, hH, hl⟩ := treeOk_rep ht hn
        have := names_lowByte (hH.names fun sym hsym => mem_presentSymbols.1 (hl.subset hsym)) hl₂
        exact BitVec.lt_def.2 this
    · have hw : ∀ n u, u.tree = t → (walkToLeaf n u).Post (fun v => v.tree = t) := fun n u hu =>
        (walkToLeaf_unpack n u).post.mono fun v k => k.model.1.tree.trans hu
      unfold walkSymbol
      split
      · unfold singleLeafBit getBit
        split
        · exact hs
        · refine guardRaise_post ?_ _ _ _
          show (pastBit (setCur s.tree.root s)).tree = t
          rw [← hs]; unfold pastBit; split <;> rfl
      · exact hw _ _ hs
    · refine Ran.mapState_andThenOf (P := fun v => v.tree = t) (outByte_swap T C _ u) ?_ fun v hv => ?_
      · exact (outByte_unpack _ u).post.mono fun v k => k.model.1.tree.trans hu
      · show Ran.done (State.setUnpacker _ ⟨_, T.root, _⟩) = Ran.done ((State.setUnpacker v ⟨_, v.tree.root, _⟩).swap T C)
        rw [hr, hs, hv]; rfl
  · have hn' : s.tree.nonempty = false := by simpa using hn
    have hn'' : T.nonempty = false := by rw [hT.nonempty, ← hs]; exact hn'
    rw [decodeOne, decodeOne, guardRaise_fail (by show (!T.nonempty) = true; rw [hn'']; rfl),
      guardRaise_fail (by rw [hn']; rfl)]
    rfl

theorem decodeMany_swap {ft : FreqTable} {t T : Tree} (hT : SameTree t T) (ht : TreeOk ft t) (C : CodeTable) (n : Nat)
    {s : State} (hs : s.tree = t) : decodeMany n (s.swap T C) = (decodeMany n s).mapState (State.swap T C) := by
  induction n generalizing s with
  | zero => rfl
  | succ n ih =>
    exact Ran.mapState_andThenOf (P := fun u => u.tree = t) (decodeOne_swap hT ht C hs)
      ((decodeOne_unpack s).post.mono fun v k => k.model.1.tree.trans hs) fun u hu => ih hu

theorem codesOf_swap {ft : FreqTable} {t T : Tree} (hT : SameTree t T) (ht : TreeOk ft t) : codesOf T = codesOf t := by
  unfold codesOf
  rw [hT.nonempty, hT.root]
  split
  · rename_i h
    obtain ⟨H, hH, hl⟩ := treeOk_rep ht h
    have hd : H.depth < walkFuel := Rep.depth_lt hl
    have w₁ := hH.walk_eq hd [] CodeTable.zero
    have w₂ := ((sameTree_agree hT).rep hH).walk_eq hd [] CodeTable.zero
    simp only [List.length_nil, List.foldl_nil] at w₁ w₂
    rw [w₁, w₂]
  · rfl

/-! ### The bodies -/

theorem bodyTbld_same {s : State} (hc : TableOk s.table) (T : Tree) (C : CodeTable) :
    Ran.Same (bodyTbld s) (bodyTbld (s.swap T C)) := by
  obtain ⟨h₁, h₂, h₃⟩ := buildTree_agree hc s.tree T
  exact ⟨rfl, fun _ => ⟨h₁.nint, h₂, h₃, h₁.entries⟩, fun e => Bool.noConfusion (show false = true from e)⟩

theorem bodyCgen_same {s u : State} (hc : CoreInv s) (h : SameSpecified s u) : Ran.Same (bodyCgen s) (bodyCgen u) := by
  obtain ⟨T, C, rfl, hT, _⟩ := sameSpecified_elim h
  by_cases hv : s.status.treeValid = true
  · obtain ⟨ct, hct, hb⟩ := bodyCgen_done hc hv
    have hct' : codesOf T = some ct := by rw [codesOf_swap (hT hv) (hc.tree hv)]; exact hct
    have hb' : bodyCgen (s.swap T C) = .done (markCodeValid ((clearCodeValid (s.swap T C)).setCode ct)) := by
      rw [bodyCgen, needTree_pass (by exact hv), Ran.andThen_done]
      show (match codesOf T with | some ct => Ran.done _ | none => .stuck .walkTooDeep) = _
      rw [hct']
    rw [hb, hb']
    exact ⟨rfl, fun _ => hT hv, fun _ => rfl⟩
  · have hv' : s.status.treeValid = false := by simpa using hv
    rw [bodyCgen, bodyCgen, needTree_fail (by exact hv'), needTree_fail (by exact hv')]
    exact ⟨rfl, rfl, fun e => absurd e hv, fun e => Bool.noConfusion (show false = true from e)⟩

/-- A command that uses neither the tree nor the code table. -/
theorem bodyOf_same {i : Instr} (ht : writesTree i = false) (hc : writesCode i = false)
    {s : State} {T : Tree} {C : CodeTable} (hT : s.status.treeValid = true → SameTree s.tree T)
    (hC : s.status.codeValid = true → C = s.code) (h : bodyOf i (s.swap T C) = (bodyOf i s).mapState (State.swap T C)) :
    Ran.Same (bodyOf i s) (bodyOf i (s.swap T C)) := by
  refine Ran.Same.of_swap h hT hC ?_
  by_cases h1 : i = .eclr
  · subst h1; exact ⟨fun e => ⟨e, rfl⟩, fun e => ⟨e, rfl⟩⟩
  by_cases h2 : i = .srst
  · subst h2; cases ht
  refine (bodyOf_writes h1 h2 s).mono fun t k => ⟨fun e => ⟨?_, k.tree ht⟩, fun e => ⟨?_, k.code hc⟩⟩
  · rcases k.madeTree e with e | rfl | rfl | rfl
    · exact e
    all_goals cases ht
  · rcases k.madeCode e with e | rfl | rfl
    · exact e
    all_goals cases hc

theorem bodyPsym_swap {s : State} (T : Tree) {C : CodeTable} (hC : s.status.codeValid = true → C = s.code) (sym : Byte) :
    bodyPsym sym (s.swap T C) = (bodyPsym sym s).mapState (State.swap T C) := by
  by_cases hv : s.status.codeValid = true
  · rw [hC hv, bodyPsym, bodyPsym, needCode_pass (by exact hv), needCode_pass (by exact hv)]
    exact pushCode_swap T sym s
  · have hv' : s.status.codeValid = false := by simpa using hv
    rw [bodyPsym, bodyPsym, needCode_fail (by exact hv'), needCode_fail (by exact hv')]
    rfl

theorem bodyPack_swap {s : State} (T : Tree) {C : CodeTable} (hC : s.status.codeValid = true → C = s.code) :
    bodyPack (s.swap T C) = (bodyPack s).mapState (State.swap T C) := by
  refine Ran.mapState_andThenOf (P := fun t => t = s) (guardRaise_mapState (State.swap T C) _ _ _ s)
    (guardRaise_post (P := fun t => t = s) rfl _ _ _) ?_
  intro t ht
  subst t
  by_cases hv : s.status.codeValid = true
  · rw [hC hv, needCode_pass (by exact hv), needCode_pass (by exact hv)]
    exact packBytes_swap T s.inLen.toNat (s.setInPtr 0#32)
  · have hv' : s.status.codeValid = false := by simpa using hv
    rw [needCode_fail (by exact hv'), needCode_fail (by exact hv')]
    rfl

/-- A part that runs where TREE_VALID is 1, after the test for it. -/
theorem needTree_swap {s : State} {T : Tree} {C : CodeTable} {f : State → Ran}
    (h : s.status.treeValid = true → f (s.swap T C) = (f s).mapState (State.swap T C)) :
    (needTree (s.swap T C)).andThen f = ((needTree s).andThen f).mapState (State.swap T C) := by
  by_cases hv : s.status.treeValid = true
  · rw [needTree_pass (by exact hv), needTree_pass (by exact hv)]
    exact h hv
  · have hv' : s.status.treeValid = false := by simpa using hv
    rw [needTree_fail (by exact hv'), needTree_fail (by exact hv')]
    rfl

theorem bodyUinit_swap {s : State} {T : Tree} (hT : s.status.treeValid = true → SameTree s.tree T) (C : CodeTable) :
    bodyUinit (s.swap T C) = (bodyUinit s).mapState (State.swap T C) := by
  refine needTree_swap fun hv => ?_
  show Ran.done (State.setUnpacker (s.swap T C) ⟨0#3, T.root, s.table.total⟩) = _
  rw [(hT hv).root]; rfl

theorem bodyUsym_swap {s : State} (hc : CoreInv s) {T : Tree} (hT : s.status.treeValid = true → SameTree s.tree T)
    (C : CodeTable) : bodyUsym (s.swap T C) = (bodyUsym s).mapState (State.swap T C) := by
  refine Ran.mapState_andThenOf (P := fun t => t = s) (guardRaise_mapState (State.swap T C) _ _ _ s)
    (guardRaise_post (P := fun t => t = s) rfl _ _ _) ?_
  intro t ht
  subst t
  refine needTree_swap fun hv => Ran.mapState_andThenOf (P := fun t => t = s)
    (guardRaise_mapState (State.swap T C) _ _ _ s) (guardRaise_post (P := fun t => t = s) rfl _ _ _) ?_
  intro t ht
  subst t
  exact decodeOne_swap (hT hv) (hc.tree hv) C rfl

theorem bodyUnpk_swap {s : State} (hc : CoreInv s) {T : Tree} (hT : s.status.treeValid = true → SameTree s.tree T)
    (C : CodeTable) : bodyUnpk (s.swap T C) = (bodyUnpk s).mapState (State.swap T C) := by
  refine Ran.mapState_andThenOf (P := fun t => t = s) (guardRaise_mapState (State.swap T C) _ _ _ s)
    (guardRaise_post (P := fun t => t = s) rfl _ _ _) ?_
  intro t ht
  subst t
  exact needTree_swap fun hv => decodeMany_swap (hT hv) (hc.tree hv) C _ rfl

theorem bodyComp_same {s u : State} (hc : CoreInv s)
    (one : ∀ i : Instr, i ∈ [Instr.fclr, .facc, .tbld, .cgen, .hput, .pack, .pflush] →
      ∀ s u, CoreInv s → SameSpecified s u → Ran.Same (bodyOf i s) (bodyOf i u))
    (h : SameSpecified s u) : Ran.Same (bodyComp s) (bodyComp u) := by
  obtain ⟨T, C, rfl, hT, hC⟩ := sameSpecified_elim h
  have hk : Ran.Same (checkIn s) (checkIn (s.swap T C)) := by
    by_cases hl : s.params.ibufSize < s.inLen
    · rw [checkIn_fail (by exact hl), checkIn_fail (by exact hl)]; exact ⟨rfl, h⟩
    · have hl' : s.inLen ≤ s.params.ibufSize := BitVec.not_lt.1 hl
      rw [checkIn_pass (by exact hl'), checkIn_pass (by exact hl')]; exact h
  refine hk.andThen (P := CoreInv) (guardRaise_safe hc _ _ _) fun s u hc h => ?_
  refine (one .fclr (by simp) s u hc h).andThen (P := CoreInv) ((bodyFclr_keeps hc).mono fun _ k => k.1) fun s u hc h => ?_
  refine (one .facc (by simp) s u hc h).andThen (P := CoreInv) ((bodyFacc_keeps hc).mono fun _ k => k.1) fun s u hc h => ?_
  have e : u.table = s.table := by rw [h.rest]
  rw [e]
  split
  · exact one .hput (by simp) s u hc h
  refine (one .tbld (by simp) s u hc h).andThen (P := CoreInv) ((bodyTbld_keeps hc).mono fun _ k => k.1) fun s u hc h => ?_
  refine (one .cgen (by simp) s u hc h).andThen (P := CoreInv) ((bodyCgen_keeps hc).mono fun _ k => k.1) fun s u hc h => ?_
  refine (one .hput (by simp) s u hc h).andThen (P := CoreInv) ((bodyHput_keeps hc).mono fun _ k => k.1) fun s u hc h => ?_
  exact (one .pack (by simp) s u hc h).andThen (P := CoreInv) ((bodyPack_keeps hc).mono fun _ k => k.1) fun s u hc h =>
    one .pflush (by simp) s u hc h

theorem bodyDecomp_same {s u : State} (hc : CoreInv s)
    (one : ∀ i : Instr, i ∈ [Instr.hget, .tbld, .uinit, .unpk] →
      ∀ s u, CoreInv s → SameSpecified s u → Ran.Same (bodyOf i s) (bodyOf i u))
    (h : SameSpecified s u) : Ran.Same (bodyDecomp s) (bodyDecomp u) := by
  obtain ⟨T, C, rfl, hT, hC⟩ := sameSpecified_elim h
  have hc' : CoreInv (s.setOutLen 0#32) := (setOutLen_keeps hc 0#32).1
  have h' : SameSpecified (s.setOutLen 0#32) ((s.swap T C).setOutLen 0#32) := ⟨rfl, hT, hC⟩
  refine (one .hget (by simp) _ _ hc' h').andThen (P := CoreInv) ((bodyHget_keeps hc').mono fun _ k => k.1)
    fun s u hc h => ?_
  have e : u.table = s.table := by rw [h.rest]
  rw [e]
  split
  · obtain ⟨T, C, rfl, hT, hC⟩ := sameSpecified_elim h
    exact ⟨rfl, hT, hC⟩
  refine (one .tbld (by simp) s u hc h).andThen (P := CoreInv) ((bodyTbld_keeps hc).mono fun _ k => k.1) fun s u hc h => ?_
  exact (one .uinit (by simp) s u hc h).andThen (P := CoreInv) ((bodyUinit_keeps hc).mono fun _ k => k.1)
    fun s u hc h => one .unpk (by simp) s u hc h

theorem bodyOf_unread {i : Instr} (h1 : i ≠ .comp) (h2 : i ≠ .decomp) (h3 : i ≠ .srst) {s u : State} (hc : CoreInv s)
    (h : SameSpecified s u) : Ran.Same (bodyOf i s) (bodyOf i u) := by
  by_cases h4 : i = .tbld
  · subst h4
    obtain ⟨T, C, rfl, _⟩ := sameSpecified_elim h
    exact bodyTbld_same hc.table T C
  by_cases h5 : i = .cgen
  · subst h5
    exact bodyCgen_same hc h
  obtain ⟨T, C, rfl, hT, hC⟩ := sameSpecified_elim h
  have ht : writesTree i = false := by cases i <;> first | rfl | contradiction
  have hw : writesCode i = false := by cases i <;> first | rfl | contradiction
  refine bodyOf_same ht hw hT hC ?_
  cases i with
  | nop => rfl
  | fclr => rfl
  | faccb imm => exact Ran.mapState_andThen (guardRaise_mapState (State.swap T C) _ _ _ s) fun _ => rfl
  | facc => exact bodyFacc_swap T C s
  | tbld => contradiction
  | cgen => contradiction
  | pinit => rfl
  | pbit imm => exact pushBit_swap T C _ s
  | psym imm => exact bodyPsym_swap T hC imm
  | pack => exact bodyPack_swap T hC
  | pflush => exact bodyPflush_swap T C s
  | uinit => exact bodyUinit_swap hT C
  | usym => exact bodyUsym_swap hc hT C
  | unpk => exact bodyUnpk_swap hc hT C
  | hput => exact bodyHput_swap T C s
  | hget => exact bodyHget_swap T C s
  | comp => contradiction
  | decomp => contradiction
  | eclr => rfl
  | srst => contradiction

/-- Every body ends alike in states that agree on all that is specified (R54, R259). -/
theorem bodyOf_sameSpecified {i : Instr} (h3 : i ≠ .srst) {s u : State} (hc : CoreInv s) (h : SameSpecified s u) :
    Ran.Same (bodyOf i s) (bodyOf i u) := by
  by_cases h1 : i = .comp
  · subst h1
    refine bodyComp_same hc (fun i hi s u hc h => bodyOf_unread ?_ ?_ ?_ hc h) h <;> rintro rfl <;> simp at hi
  by_cases h2 : i = .decomp
  · subst h2
    refine bodyDecomp_same hc (fun i hi s u hc h => bodyOf_unread ?_ ?_ ?_ hc h) h <;> rintro rfl <;> simp at hi
  exact bodyOf_unread h1 h2 h3 hc h

/-! ### The step -/

/-- Two outcomes alike. -/
def SameOutcome : Host.Outcome State Fault Refusal → Host.Outcome State Fault Refusal → Prop
  | .next s, .next u => SameSpecified s u
  | .fault f, .fault g => g = f
  | .refused r, .refused q => q = r
  | _, _ => False

theorem concludeWith_same {finish : State → State} (hf : ∀ s u, SameSpecified s u → SameSpecified (finish s) (finish u))
    {r r' : Ran} (h : Ran.Same r r') : SameOutcome (concludeWith finish r) (concludeWith finish r') := by
  cases r with
  | done s =>
    cases r' with
    | done u => exact hf s u h
    | raised e u => exact h.elim
    | stuck e => exact h.elim
  | raised e s =>
    cases r' with
    | done u => exact h.elim
    | raised f u =>
      obtain ⟨rfl, h⟩ := h
      obtain ⟨T, C, rfl, hT, hC⟩ := sameSpecified_elim h
      exact ⟨rfl, hT, hC⟩
    | stuck e => exact h.elim
  | stuck e =>
    cases r' with
    | done u => exact h.elim
    | raised f u => exact h.elim
    | stuck f => exact h

theorem runCommand_same {body : State → Ran}
    (hb : ∀ s u, CoreInv s → SameSpecified s u → Ran.Same (body s) (body u)) {s u : State} (hc : CoreInv s)
    (h : SameSpecified s u) : SameOutcome (runCommand body s) (runCommand body u) := by
  obtain ⟨T, C, rfl, hT, hC⟩ := sameSpecified_elim h
  show SameOutcome _ (if s.status.busy || s.status.err then _ else _)
  unfold runCommand
  split
  · exact ⟨rfl, hT, hC⟩
  · refine concludeWith_same (fun s u h => ?_) (hb _ _ (accept_coreInv hc) ⟨rfl, hT, hC⟩)
    obtain ⟨T, C, rfl, hT, hC⟩ := sameSpecified_elim h
    exact ⟨rfl, hT, hC⟩

theorem exec_same (i : Instr) {s u : State} (hc : CoreInv s) (h : SameSpecified s u) :
    SameOutcome (exec i s) (exec i u) := by
  by_cases h1 : i = .eclr
  · subst h1
    obtain ⟨T, C, rfl, hT, hC⟩ := sameSpecified_elim h
    show SameOutcome (runAlways bodyEclr finishDone s) (if s.status.busy then _ else _)
    unfold runAlways
    split <;> exact ⟨rfl, hT, hC⟩
  by_cases h2 : i = .srst
  · subst h2
    obtain ⟨T, C, rfl, hT, hC⟩ := sameSpecified_elim h
    show SameOutcome (runAlways bodySrst finishQuiet s) (if s.status.busy then _ else _)
    unfold runAlways
    split
    · exact ⟨rfl, hT, hC⟩
    · exact sameSpecified_refl _
  rw [exec_bodyOf h1 h2, exec_bodyOf h1 h2]
  exact runCommand_same (fun s u => bodyOf_sameSpecified h2) hc h

theorem issueWord_same (c : Word) {s u : State} (hc : CoreInv s) (h : SameSpecified s u) :
    SameOutcome (issueWord c s) (issueWord c u) := by
  unfold issueWord
  cases decode c with
  | ok i => exact exec_same i hc h
  | error e => exact runCommand_same (body := .raised ⟨.illegalCommand, c⟩) (fun s u _ h => ⟨rfl, h⟩) hc h

theorem value_same (r : Reg) {s u : State} (h : SameSpecified s u) : r.value u = r.value s := by
  obtain ⟨T, C, rfl, hT, hC⟩ := sameSpecified_elim h
  have hn : (s.swap T C).selectedNode = s.selectedNode := by
    show (if s.status.treeValid && decide (s.nsel < T.nint) then some (T.entry s.nsel) else none) = _
    unfold State.selectedNode
    cases hv : s.status.treeValid with
    | false => rfl
    | true =>
      rw [(hT hv).nint]
      by_cases hl : s.nsel < s.tree.nint
      · simp [hl, (hT hv).entries _ hl]
      · simp [hl]
  cases r with
  | root =>
    show whenSet s.status.treeValid (T.root.setWidth 32 ||| flagBit T.nonempty 31) = whenSet _ _
    cases hv : s.status.treeValid with
    | false => rfl
    | true => rw [(hT hv).root, (hT hv).nonempty]
  | nintr =>
    show whenSet s.status.treeValid (T.nint.setWidth 32) = whenSet _ _
    cases hv : s.status.treeValid with
    | false => rfl
    | true => rw [(hT hv).nint]
  | clenr =>
    show whenSet s.status.codeValid ((C.len s.csel).setWidth 32) = whenSet _ _
    cases hv : s.status.codeValid with
    | false => rfl
    | true => rw [hC hv]
  | cbitsr j =>
    show whenSet s.status.codeValid (((C.bits s.csel).setWidth 256).extractLsb' (32 * j.val) 32) = whenSet _ _
    cases hv : s.status.codeValid with
    | false => rfl
    | true => rw [hC hv]
  | nweight => show (s.swap T C).selectedNode.map _ = _; rw [hn]; rfl
  | nlink => show (s.swap T C).selectedNode.map _ = _; rw [hn]; rfl
  | nlsym => show (s.swap T C).selectedNode.map _ = _; rw [hn]; rfl
  | _ => rfl

theorem answer_same (o : Option Word) {s u : State} (h : SameSpecified s u) : SameSpecified (s.answer o) (u.answer o) := by
  obtain ⟨T, C, rfl, hT, hC⟩ := sameSpecified_elim h
  cases o <;> exact ⟨rfl, hT, hC⟩

theorem writeReg_same (r : Reg) (v : Word) {s u : State} (hc : CoreInv s) (h : SameSpecified s u) :
    SameOutcome (writeReg r v s) (writeReg r v u) := by
  by_cases hr : r = .cmd
  · subst hr; exact issueWord_same v hc h
  · obtain ⟨T, C, rfl, hT, hC⟩ := sameSpecified_elim h
    have e : ∀ t : State, writeReg r v t = if t.status.busy && r.writable then .next (markDrop t) else .next (r.store t v) := by
      intro t
      cases r <;> first | rfl | contradiction
    rw [e, e]
    show SameOutcome _ (if s.status.busy && r.writable then _ else _)
    split
    · exact ⟨rfl, hT, hC⟩
    · cases r <;> exact ⟨rfl, hT, hC⟩

theorem inside_same {a : Nat} {size : Word} {o q : Host.Outcome State Fault Refusal} (h : SameOutcome o q) :
    SameOutcome (inside a size o) (inside a size q) := by
  unfold inside
  split
  · exact h
  · rfl

/-- No move of the host tells an unspecified element of the tree or the code table (R302). -/
theorem hostMove_same (m : HostMove) {s u : State} (hc : CoreInv s) (h : SameSpecified s u) :
    SameOutcome (hostMove m s) (hostMove m u) := by
  have hb : u.status = s.status := by rw [h.rest]
  have read : ∀ v, SameSpecified (readByte v s) (readByte v u) := by
    intro v
    obtain ⟨T, C, rfl, hT, hC⟩ := sameSpecified_elim h
    show SameSpecified _ (if s.status.busy then _ else _)
    unfold readByte
    split
    · exact ⟨rfl, hT, hC⟩
    · exact answer_same _ ⟨rfl, hT, hC⟩
  cases m with
  | regWrite off v =>
    simp only [hostMove]
    cases Reg.at off with
    | some r => exact writeReg_same r v hc h
    | none => rfl
  | regRead off =>
    simp only [hostMove]
    cases Reg.at off with
    | some r =>
      have e : r.valueNow u = r.valueNow s := by rw [Reg.valueNow, Reg.valueNow, hb, value_same r h]
      show SameSpecified _ (u.answer (r.valueNow u))
      rw [e]
      exact answer_same _ h
    | none => rfl
  | ibufWrite a b =>
    obtain ⟨T, C, rfl, hT, hC⟩ := sameSpecified_elim h
    refine inside_same ?_
    show SameOutcome (if s.status.busy then _ else _) (if s.status.busy then _ else _)
    split
    · rfl
    · exact ⟨rfl, hT, hC⟩
  | ibufRead a =>
    have e : u.ibufByte a = s.ibufByte a := by rw [h.rest]; rfl
    have e' : u.params = s.params := by rw [h.rest]
    show SameOutcome (inside a s.params.ibufSize _) (inside a u.params.ibufSize (.next (readByte (u.ibufByte a) u)))
    rw [e, e']
    exact inside_same (read _)
  | obufWrite a b =>
    obtain ⟨T, C, rfl, hT, hC⟩ := sameSpecified_elim h
    refine inside_same ?_
    show SameOutcome (if s.status.busy then _ else _) (if s.status.busy then _ else _)
    split
    · rfl
    · exact ⟨rfl, hT, hC⟩
  | obufRead a =>
    have e : u.obufByte a = s.obufByte a := by rw [h.rest]; rfl
    have e' : u.params = s.params := by rw [h.rest]
    show SameOutcome (inside a s.params.obufSize _) (inside a u.params.obufSize (.next (readByte (u.obufByte a) u)))
    rw [e, e']
    exact inside_same (read _)
  | rst =>
    obtain ⟨T, C, rfl, hT, hC⟩ := sameSpecified_elim h
    exact sameSpecified_refl _

end Sys2Proof.Machine
end

