-- ==== Sys2Proof/Tests/Slice0.lean ====
section
/-! SUPPORT. Own tests: the well-formedness check, the words of the opcode map, one step of each command against the
worked examples of the spec, and a witness for the hypotheses of each obligation. -/

namespace Sys2Proof.Tests

-- One declaration after the other: the kernel checks of this file side by side need more memory than a check may use.
set_option Elab.async false

open Sys2Proof Sys2Proof.Machine Sys2Proof.Safety

/-! ### Sample states -/

/-- A state with these input bytes. -/
def input (bs : List Byte) (s : State) : State :=
  { s with ibuf := ⟨(List.range bs.length).zip bs, 0⟩, inLen := BitVec.ofNat 32 bs.length }

/-- A state with these capacities. -/
def sized (i o : Word) (s : State) : State := { s with params := ⟨i, o⟩ }

/-- The table, the tree and the code table of some bytes (R118, R137, R152). -/
@[irreducible] def tableOf (bs : List Byte) : FreqTable := FreqTable.zero.addAll bs
@[irreducible] def treeOf (bs : List Byte) : Tree := buildTree (tableOf bs) Tree.zero
@[irreducible] def codeOf (bs : List Byte) : CodeTable := (codesOf (treeOf bs)).getD CodeTable.zero

/-- A state with the table of some bytes, its tree and its code table, all valid. -/
def modelled (bs : List Byte) (s : State) : State :=
  { s with
    table := tableOf bs, tree := treeOf bs, code := codeOf bs,
    status := { s.status with treeValid := true, codeValid := true } }

/-- AAABBC, the input of R118's example and of vector V1. -/
def text : List Byte := [0x41, 0x41, 0x41, 0x42, 0x42, 0x43]

/-- The artifact of AAABBC (vector V1). -/
def artifact : List Byte :=
  [0x48, 0x55, 0x46, 0x31, 0, 0, 0, 6, 0, 3, 0x41, 0, 0, 0, 3, 0x42, 0, 0, 0, 2, 0x43, 0, 0, 0, 1, 0x1F, 0x00]

/-- A test on the next state of one command. -/
def after (i : Instr) (s : State) (p : State → Bool) : Bool :=
  match exec i s with
  | .next t => p t
  | .fault _ => false
  | .refused _ => false

/-! ### Well-formedness and decoding -/

theorem test_pbit_two_is_ill_formed : WellFormed (.pbit 2) = false := by decide
theorem test_pbit_one_is_well_formed : WellFormed (.pbit 1) = true := by decide
theorem test_decode_nop : decode 0b00000000000000000000000000000000 = .ok .nop := by decide
theorem test_decode_fclr : decode 0b00000000000000000000000000000001 = .ok .fclr := by decide
theorem test_decode_faccb : decode 0b00000000000000001010010100000010 = .ok (.faccb 0xA5) := by decide
theorem test_decode_facc : decode 0b00000000000000000000000000000011 = .ok .facc := by decide
theorem test_decode_tbld : decode 0b00000000000000000000000000000100 = .ok .tbld := by decide
theorem test_decode_cgen : decode 0b00000000000000000000000000000101 = .ok .cgen := by decide
theorem test_decode_pinit : decode 0b00000000000000000000000000000110 = .ok .pinit := by decide
theorem test_decode_pbit : decode 0b00000000000000000000000100000111 = .ok (.pbit 1) := by decide
theorem test_decode_psym : decode 0b00000000000000001010010100001000 = .ok (.psym 0xA5) := by decide
theorem test_decode_pack : decode 0b00000000000000000000000000001001 = .ok .pack := by decide
theorem test_decode_pflush : decode 0b00000000000000000000000000001010 = .ok .pflush := by decide
theorem test_decode_uinit : decode 0b00000000000000000000000000001011 = .ok .uinit := by decide
theorem test_decode_usym : decode 0b00000000000000000000000000001100 = .ok .usym := by decide
theorem test_decode_unpk : decode 0b00000000000000000000000000001101 = .ok .unpk := by decide
theorem test_decode_hput : decode 0b00000000000000000000000000001110 = .ok .hput := by decide
theorem test_decode_hget : decode 0b00000000000000000000000000001111 = .ok .hget := by decide
theorem test_decode_comp : decode 0b00000000000000000000000000010000 = .ok .comp := by decide
theorem test_decode_decomp : decode 0b00000000000000000000000000010001 = .ok .decomp := by decide
theorem test_decode_eclr : decode 0b00000000000000000000000000010010 = .ok .eclr := by decide
theorem test_decode_srst : decode 0b00000000000000000000000000010011 = .ok .srst := by decide
theorem test_illegal_opcode : decode 0x00000014 = .error .reservedOpcode := by decide
theorem test_illegal_zero_field : decode 0x00010000 = .error .zeroFieldSet := by decide
theorem test_illegal_imm : decode 0x00000101 = .error .immNotZero := by decide
theorem test_illegal_bit : decode 0x00000207 = .error .bitOperandTooWide := by decide

/-! ### One step of each command, from the spec's worked examples -/

/-- R240's example. -/
theorem test_nop : exec .nop State.reset =
    .next { State.reset with status := { State.reset.status with done := true } } := rfl
/-- R116's example: after FACCB 'A'. -/
theorem test_fclr : after .fclr (modelled [0x41] State.reset) (fun t =>
    t.table.count 0x41 == 0 && t.table.total == 0 && t.table.nsym == 0 && !t.status.treeValid) = true := by decide +kernel
/-- R117's example: the third FACCB 0x41. -/
theorem test_faccb : after (.faccb 0x41) (modelled [0x41, 0x41] State.reset) (fun t =>
    t.table.count 0x41 == 3 && t.table.total == 3 && t.table.nsym == 1 && !t.status.codeValid) = true := by decide +kernel
/-- R118's example. -/
theorem test_facc : after .facc (input text State.reset) (fun t =>
    t.table.count 0x41 == 3 && t.table.count 0x42 == 2 && t.table.count 0x43 == 1 && t.table.total == 6 &&
      t.table.nsym == 3 && t.inPtr == 6) = true := by decide +kernel
/-- R137's example. -/
theorem test_tbld : after .tbld { State.reset with table := tableOf text } (fun t =>
    t.tree.entry 0 == ⟨3, 0x043, 0x042, 0x43⟩ && t.tree.entry 1 == ⟨6, 0x041, 0x100, 0x41⟩ && t.tree.nint == 2 &&
      t.tree.root == 0x101 && t.status.treeValid) = true := by decide +kernel
/-- R152's example. -/
theorem test_cgen : after .cgen (modelled text State.reset) (fun t =>
    t.code.len 0x41 == 1 && t.code.bits 0x41 == 0 && t.code.len 0x43 == 2 && t.code.bits 0x43 == 0b10 &&
      t.code.len 0x42 == 2 && t.code.bits 0x42 == 0b11 && t.code.len 0x44 == 0) = true := by decide +kernel
/-- R168's example. -/
theorem test_pinit : after .pinit { State.reset with packer := ⟨0x80, 1⟩, outLen := 5 } (fun t =>
    t.packer == ⟨0, 0⟩ && t.outLen == 5) = true := by decide +kernel
/-- R169's example, the eighth bit of "00011111". -/
theorem test_pbit : after (.pbit 1) { State.reset with packer := ⟨0x1E, 7⟩ } (fun t =>
    t.obufByte 0 == 0x1F && t.outLen == 1 && t.packer == ⟨0, 0⟩) = true := by decide +kernel
/-- R170's example: PSYM 'C'. -/
theorem test_psym : after (.psym 0x43) (modelled text State.reset) (fun t => t.packer == ⟨0x80, 2⟩) = true := by
  decide +kernel
/-- R171's example. -/
theorem test_pack : after .pack (input text (modelled text State.reset)) (fun t =>
    t.obufByte 0 == 0x1F && t.outLen == 1 && t.packer == ⟨0, 1⟩ && t.inPtr == 6) = true := by decide +kernel
/-- R172's example. -/
theorem test_pflush : after .pflush { State.reset with packer := ⟨0, 1⟩, outLen := 1 } (fun t =>
    t.obufByte 1 == 0 && t.outLen == 2 && t.packer == ⟨0, 0⟩) = true := by decide +kernel
/-- R188's example. -/
theorem test_uinit : after .uinit { modelled text State.reset with inPtr := 25 } (fun t =>
    t.inPtr == 25 && t.unpacker == ⟨0, 0x101, 6⟩) = true := by decide +kernel
/-- R190's example: two 1 bits lead to 0x42. -/
theorem test_usym : after .usym { input artifact (modelled text State.reset) with inPtr := 25, unpacker := ⟨3, 0x101, 3⟩ }
    (fun t => t.obufByte 0 == 0x42 && t.inPtr == 25 && t.unpacker == ⟨5, 0x101, 2⟩) = true := by decide +kernel
/-- R191's example. -/
theorem test_unpk : after .unpk { input artifact (modelled text State.reset) with inPtr := 25, unpacker := ⟨0, 0x101, 6⟩ }
    (fun t => outputBytes t == text && t.inPtr == 26 && t.unpacker == ⟨1, 0x101, 0⟩) = true := by decide +kernel
/-- R191, D31: a UNPK with REM = 0 succeeds and does nothing, even where IN_PTR ≥ IN_LEN: CUR stays, here not the root. -/
theorem test_unpk_none : after .unpk (modelled text State.reset) (fun t =>
    t.status.done && t.outLen == 0 && t.inPtr == 0 && t.unpacker == ⟨0, 0, 0⟩) = true := by decide +kernel
/-- R210's example. -/
theorem test_hput : after .hput (modelled text State.reset) (fun t => outputBytes t == artifact.take 25) = true := by
  decide +kernel
/-- R212's example. -/
theorem test_hget : after .hget (input artifact State.reset) (fun t =>
    t.table.count 0x41 == 3 && t.table.count 0x42 == 2 && t.table.count 0x43 == 1 && t.table.total == 6 &&
      t.table.nsym == 3 && t.inPtr == 25) = true := by decide +kernel
/-- R27: HGET clears both valid flags on error too, here CapacityError(INLEN), code 0x305 (R260). -/
theorem test_hget_inlen : after .hget { modelled text State.reset with inLen := 4097 } (fun t =>
    t.errCode == 0x305 && !t.status.treeValid && !t.status.codeValid) = true := by decide +kernel
/-- R231's example. -/
theorem test_comp : after .comp (input text State.reset) (fun t => outputBytes t == artifact && t.outLen == 27) = true := by
  decide +kernel
/-- R233's example. -/
theorem test_decomp : after .decomp (input artifact State.reset) (fun t => outputBytes t == text && t.outLen == 6) = true := by
  decide +kernel
/-- R233's example with IN_LEN = 26, and vector V1t. -/
theorem test_decomp_truncated : after .decomp (input (artifact.take 26) State.reset) (fun t =>
    t.status.err && t.errCode == 0x0102 && t.errInfo == 1 && t.outLen == 0 && t.unpacker.cur == 0x100) = true := by
  decide +kernel
/-- R241's example. -/
theorem test_eclr : after .eclr { State.reset with
    status := ⟨false, false, true, true, false, false⟩, errCode := 0x0102, errInfo := 1 } (fun t =>
    !t.status.err && t.errCode == 0 && t.errInfo == 0 && t.status.done) = true := by decide +kernel
/-- R242's example. -/
theorem test_srst : after .srst { input artifact (modelled text State.reset) with outLen := 6, inPtr := 26 } (fun t =>
    t.status.word == 0 && t.table.total == 0 && t.table.count 0x41 == 0 && t.inLen == 0 && t.inPtr == 0 && t.outLen == 0 &&
      t.ibufByte 0 == 0x48) = true := by decide +kernel
/-- R258 on the word 0x00000014. -/
theorem test_illegal_command : (match step (State.reset.withFetchWord 32 0x14) with
    | .next t => t.status.err && t.errCode == 0x0003 && t.errInfo == 0x14
    | .fault _ => false
    | .refused _ => false) = true := by decide +kernel

/-! ### Witnesses: for each obligation with hypotheses, states and operands that meet them, one for each clause -/

theorem after_next {i : Instr} {s : State} {p : State → Bool} (h : after i s p = true) :
    ∃ t, exec i s = .next t ∧ p t = true := by
  unfold after at h
  cases he : exec i s with
  | next t => rw [he] at h; exact ⟨t, rfl, h⟩
  | fault f => rw [he] at h; cases h
  | refused r => rw [he] at h; cases h

/-- A test on the state a sequence of commands ends in. -/
def afterAll (is : List Instr) (s : State) (p : State → Bool) : Bool :=
  match execAll is s with
  | .next t => p t
  | .fault _ => false
  | .refused _ => false

theorem afterAll_next {is : List Instr} {s : State} {p : State → Bool} (h : afterAll is s p = true) :
    ∃ t, execAll is s = .next t ∧ p t = true := by
  unfold afterAll at h
  cases he : execAll is s with
  | next t => rw [he] at h; exact ⟨t, rfl, h⟩
  | fault f => rw [he] at h; cases h
  | refused r => rw [he] at h; cases h

theorem tableOf_ok {bs : List Byte} (h : bs.length ≤ Config.maxLen) : TableOk (tableOf bs) := by
  unfold tableOf; exact (addAll_spec zero_tableOk (by simpa using h)).1

theorem tableOf_counts {bs : List Byte} (h : bs.length ≤ Config.maxLen) : Counts (tableOf bs) bs := by
  unfold tableOf; exact addAll_zero_counts h

theorem treeOf_ok {bs : List Byte} (h : bs.length ≤ Config.maxLen) : TreeOk (tableOf bs) (treeOf bs) := by
  unfold treeOf; exact buildTree_ok (tableOf_ok h) _

theorem codeOf_eq {bs : List Byte} (h : bs.length ≤ Config.maxLen) : codesOf (treeOf bs) = some (codeOf bs) := by
  obtain ⟨ct, hct⟩ := treeOk_codesOf_isSome (treeOf_ok h)
  rw [codeOf, hct]; rfl

theorem codeOf_built {bs : List Byte} (h : bs.length ≤ Config.maxLen) :
    codesOf (buildTree (tableOf bs) Tree.zero) = some (codeOf bs) := by
  have := codeOf_eq h
  rwa [treeOf] at this

theorem text_short : text.length ≤ Config.maxLen := by decide
theorem single_short : [(0x41 : Byte)].length ≤ Config.maxLen := by decide
theorem nil_short : ([] : List Byte).length ≤ Config.maxLen := by decide

/-- V1: the artifact of AAABBC. -/
theorem artifact_isArtifact : IsArtifact text artifact := by
  have h : [(0x1F : Byte), 0x00].flatMap byteBits =
      payloadBits (codeOf text) text ++ List.replicate 7 false := by decide +kernel
  have k : artifact = headerBytes (tableOf text) ++ [0x1F, 0x00] := by decide +kernel
  exact ⟨_, _, _, tableOf_counts text_short, codeOf_built text_short, ⟨7, by decide, h⟩, k⟩

theorem reset_inv : Inv State.reset := by
  refine ⟨rfl, fun h => Bool.noConfusion (show false = true from h.1), fun _ => ⟨rfl, rfl⟩, ⟨by decide, zero_tableOk,
    fun e => Bool.noConfusion (show false = true from e), fun e => Bool.noConfusion (show false = true from e),
    packerOk_empty, ?_, ?_⟩⟩ <;>
    exact ⟨List.Pairwise.nil, fun c hc => nomatch hc⟩

theorem modelled_inv (bs : List Byte) (h : bs.length ≤ Config.maxLen) : Inv (modelled bs State.reset) := by
  refine ⟨rfl, fun h => Bool.noConfusion (show false = true from h.1), fun _ => ⟨rfl, rfl⟩,
    ⟨show State.reset.params.wf = true by decide, tableOf_ok h, fun _ => treeOf_ok h,
    fun _ => ⟨rfl, codeOf_eq h⟩, packerOk_empty, ?_, ?_⟩⟩ <;> exact ⟨List.Pairwise.nil, fun c hc => nomatch hc⟩

/-- A state with an error recorded. -/
def erred : State := { State.reset with status := ⟨false, false, true, false, false, false⟩, errCode := 0x0003, errInfo := 0x14 }

theorem test_witness_DecodeOfEncode : WellFormed (.pbit 1) = true ∧ WellFormed (.faccb 0xFF) = true ∧
    WellFormed .srst = true := by decide
theorem test_witness_DecodeTotal : decode 0x13 = .ok .srst ∧ (∃ e, decode 0x14 = .error e) ∧
    decode 0x107 = .ok (.pbit 1) ∧ ∃ e, decode 0x207 = .error e :=
  ⟨rfl, ⟨.reservedOpcode, rfl⟩, rfl, ⟨.bitOperandTooWide, rfl⟩⟩
theorem test_witness_StepRunsDecodedCommand : ∃ (s : State) (c : Word) (i : Instr) (rest : List HostMove),
    s.inbox = .regWrite 0 c :: rest ∧ decode c = .ok i :=
  ⟨{ State.reset with inbox := [.regWrite 0 0x13, .rst] }, 0x13, .srst, [.rst], rfl, rfl⟩
theorem test_witness_IllegalCommandResult : Ready State.reset ∧ decode 0x14 = .error .reservedOpcode ∧
    decode 0x10000 = .error .zeroFieldSet ∧ decode 0x100 = .error .immNotZero ∧
    decode 0x207 = .error .bitOperandTooWide := ⟨⟨rfl, rfl⟩, rfl, rfl, rfl, rfl⟩
theorem test_witness_StepTakesOneHostMove : State.reset.inbox = [] ∧
    { State.reset with inbox := [.rst] }.inbox = [HostMove.rst] ∧ decodeTableWord 32 0x13 = some .srst ∧
    decodeTableWord 8 0x02 = some (.faccb 0) := ⟨rfl, rfl, rfl, rfl⟩
theorem test_witness_ErrorDropsCommands : erred.status.err = true ∧ erred.status.busy = false ∧
    (0x11#32 ≠ 0x12#32 ∧ 0x11#32 ≠ 0x13#32) ∧ 0x14#32 ≠ 0x12#32 ∧ 0x14#32 ≠ 0x13#32 := by decide
theorem test_witness_BusyDropsWrites : ∃ s : State, s.status.busy = true ∧
    0x068 ∈ [0x000, 0x004, 0x010, 0x014, 0x018, 0x01C, 0x040, 0x068] :=
  ⟨{ State.reset with status := ⟨true, false, false, false, false, false⟩ }, rfl, by decide⟩
theorem test_witness_NopResult : Ready State.reset ∧ erred.status.err = true := ⟨⟨rfl, rfl⟩, rfl⟩
theorem test_witness_EclrResult : erred.status.busy = false ∧ State.reset.status.busy = false := ⟨rfl, rfl⟩
theorem test_witness_SrstResult : erred.status.busy = false ∧ (modelled text State.reset).status.busy = false := ⟨rfl, rfl⟩
theorem test_witness_FclrResult : Ready (modelled text State.reset) := ⟨rfl, rfl⟩
theorem test_witness_FaccbResult : (∃ s : State, Ready s ∧ s.table.total ≠ 0xFFFFFFFF#32) ∧
    (∃ s : State, Ready s ∧ s.table.total = 0xFFFFFFFE#32 ∧ s.table.total ≠ 0xFFFFFFFF#32) ∧
    ∃ s : State, Ready s ∧ s.table.total = 0xFFFFFFFF#32 :=
  ⟨⟨State.reset, ⟨rfl, rfl⟩, by decide⟩, ⟨{ State.reset with table := ⟨FreqTable.zero.freq, 0xFFFFFFFE, 1⟩ }, ⟨rfl, rfl⟩, rfl, by decide⟩,
    ⟨{ State.reset with table := ⟨FreqTable.zero.freq, 0xFFFFFFFF, 1⟩ }, ⟨rfl, rfl⟩, rfl⟩⟩

/-- A table that one more count fills. -/
def almostFull : FreqTable := ⟨FreqTable.zero.freq.set 0 0xFFFFFFFE, 0xFFFFFFFE, 1⟩
theorem almostFull_ok : TableOk almostFull := by unfold TableOk; decide +kernel

theorem test_witness_FaccResult :
    (∃ s : State, Ready s ∧ s.params.ibufSize < s.inLen) ∧
    (∃ s : State, Ready s ∧ s.inLen ≤ s.params.ibufSize ∧ 2 ^ 32 - 1 < s.table.total.toNat + s.inLen.toNat) ∧
    ∃ s : State, Ready s ∧ s.inLen ≤ s.params.ibufSize ∧ s.table.total.toNat + s.inLen.toNat ≤ 2 ^ 32 - 1 ∧
      TableOk s.table :=
  ⟨⟨{ State.reset with inLen := 4097 }, ⟨rfl, rfl⟩, by decide⟩,
    ⟨{ input [1, 2] State.reset with table := almostFull }, ⟨rfl, rfl⟩, by decide, by decide⟩,
    ⟨{ input [1] State.reset with table := almostFull }, ⟨rfl, rfl⟩, by decide, by decide, almostFull_ok⟩⟩
theorem test_witness_CountingInAnyOrder : ∃ (s u : State) (bs : List Byte), Ready s ∧ Ready u ∧
    s.inLen ≤ s.params.ibufSize ∧ s.table.total = 0#32 ∧ s.table.nsym = 0#32 ∧ (∀ sym, s.table.count sym = 0#32) ∧
    bs ≠ inputBytes s ∧ bs.Perm (inputBytes s) :=
  ⟨input [0x41, 0x42, 0x41] State.reset, erred.setStatus State.reset.status, [0x42, 0x41, 0x41], ⟨rfl, rfl⟩, ⟨rfl, rfl⟩,
    by decide, rfl, rfl, fun sym => zero_count sym, by decide +kernel, by decide +kernel⟩
theorem test_witness_TbldResult : Ready (modelled text State.reset) ∧ TableOk (modelled text State.reset).table ∧
    Ready State.reset ∧ TableOk State.reset.table :=
  ⟨⟨rfl, rfl⟩, tableOf_ok text_short, ⟨rfl, rfl⟩, zero_tableOk⟩
theorem test_witness_TbldMergesTheTwoLowest : Ready (modelled text State.reset) ∧
    TableOk (modelled text State.reset).table ∧
    after .tbld (modelled text State.reset) (fun t => t.tree.nint == 2) = true ∧
    after .tbld State.reset (fun t => !t.tree.nonempty) = true :=
  ⟨⟨rfl, rfl⟩, tableOf_ok text_short, by decide +kernel, by decide +kernel⟩
theorem test_witness_TbldFunctionOfFreq : ∃ s u : State, s ≠ u ∧ Ready s ∧ Ready u ∧ TableOk s.table ∧
    s.table.freq = u.table.freq :=
  ⟨modelled text State.reset, { State.reset with table := tableOf text },
    fun e => absurd (congrArg (fun s : State => s.status.treeValid) e) (by decide), ⟨rfl, rfl⟩, ⟨rfl, rfl⟩,
    tableOf_ok text_short, rfl⟩
theorem test_witness_TieBreakExample : ∃ s : State, Ready s ∧ ∀ sym, s.table.count sym =
    if sym = 0x09#8 then 1#32 else if sym = 0x05#8 then 2#32 else if sym = 0x07#8 then 3#32 else 0#32 :=
  ⟨modelled [9, 5, 5, 7, 7, 7] State.reset, ⟨rfl, rfl⟩, fun sym => by
    apply BitVec.eq_of_toNat_eq
    show ((tableOf [9, 5, 5, 7, 7, 7]).count sym).toNat = _
    rw [(tableOf_counts (by decide)).1 sym]
    revert sym
    decide +kernel⟩
theorem test_witness_CgenResult : (∃ s : State, Ready s ∧ s.status.treeValid = true ∧ TreeOk s.table s.tree) ∧
    ∃ s : State, Ready s ∧ s.status.treeValid = false :=
  ⟨⟨modelled text State.reset, ⟨rfl, rfl⟩, rfl, treeOf_ok text_short⟩, ⟨State.reset, ⟨rfl, rfl⟩, rfl⟩⟩
theorem test_witness_CodesPrefixFree :
    (∃ s : State, Ready s ∧ TableOk s.table ∧ s.status.treeValid = true ∧ TreeOk s.table s.tree ∧ Counts s.table text) ∧
    ∃ s : State, Ready s ∧ TableOk s.table ∧ s.status.treeValid = true ∧ TreeOk s.table s.tree ∧ s.table.nsym = 1#32 :=
  ⟨⟨modelled text State.reset, ⟨rfl, rfl⟩, tableOf_ok text_short, rfl, treeOf_ok text_short,
      tableOf_counts text_short⟩,
    ⟨modelled [0x41] State.reset, ⟨rfl, rfl⟩, tableOf_ok single_short, rfl, treeOf_ok single_short,
      by decide +kernel⟩⟩
theorem test_witness_KraftSum :
    (∃ s : State, Ready s ∧ TableOk s.table ∧ s.status.treeValid = true ∧ TreeOk s.table s.tree ∧ s.table.nsym = 2#32) ∧
    (∃ s : State, Ready s ∧ TableOk s.table ∧ s.status.treeValid = true ∧ TreeOk s.table s.tree ∧ s.table.nsym = 1#32) ∧
    255 ≤ (List.replicate 255 true).length :=
  ⟨⟨modelled [0x41, 0x42] State.reset, ⟨rfl, rfl⟩, tableOf_ok (by decide), rfl, treeOf_ok (by decide),
      by decide +kernel⟩,
    ⟨modelled [0x41] State.reset, ⟨rfl, rfl⟩, tableOf_ok single_short, rfl, treeOf_ok single_short,
      by decide +kernel⟩, by rw [List.length_replicate]⟩
theorem test_witness_PinitResult : ∃ s : State, Ready s ∧ s.packer ≠ ⟨0#8, 0#3⟩ :=
  ⟨{ State.reset with packer := ⟨0x80, 1⟩ }, ⟨rfl, rfl⟩, by decide⟩
theorem test_witness_PbitResult : (∃ s : State, Ready s ∧ s.packer.nb = 6#3 ∧ s.packer.nb ≠ 7#3) ∧
    (∃ s : State, Ready s ∧ s.packer.nb = 7#3 ∧ s.outLen < s.params.obufSize) ∧
    ∃ s : State, Ready s ∧ s.packer.nb = 7#3 ∧ s.params.obufSize ≤ s.outLen :=
  ⟨⟨{ State.reset with packer := ⟨0xFC, 6⟩ }, ⟨rfl, rfl⟩, rfl, by decide⟩,
    ⟨{ State.reset with packer := ⟨0xFE, 7⟩, outLen := 4095 }, ⟨rfl, rfl⟩, rfl, by decide⟩,
    ⟨{ State.reset with packer := ⟨0xFE, 7⟩, outLen := 4096 }, ⟨rfl, rfl⟩, rfl, by decide⟩⟩
theorem test_witness_PsymResult : (∃ s : State, Ready s ∧ s.status.codeValid = false) ∧
    (∃ (s : State) (sym : Byte), Ready s ∧ s.status.codeValid = true ∧ s.code.len sym = 0#8) ∧
    (∃ (s : State) (sym : Byte), Ready s ∧ s.status.codeValid = true ∧ s.code.len sym ≠ 0#8 ∧ PackerOk s.packer ∧
      RoomForBits (s.code.len sym).toNat s) ∧
    ∃ (s : State) (sym : Byte), Ready s ∧ s.status.codeValid = true ∧ s.code.len sym ≠ 0#8 ∧ PackerOk s.packer ∧
      ¬RoomForBits (s.code.len sym).toNat s := by
  refine ⟨⟨State.reset, ⟨rfl, rfl⟩, rfl⟩, ⟨modelled text State.reset, 0x44, ⟨rfl, rfl⟩, rfl, by decide +kernel⟩,
    ⟨{ modelled text State.reset with packer := ⟨0xFC, 6⟩, outLen := 4095 }, 0x42, ⟨rfl, rfl⟩, rfl, by decide +kernel,
      ?_, ?_⟩,
    ⟨{ modelled text State.reset with packer := ⟨0xFC, 6⟩, outLen := 4096 }, 0x42, ⟨rfl, rfl⟩, rfl, by decide +kernel,
      ?_, ?_⟩⟩
  · unfold PackerOk; decide
  · unfold RoomForBits; decide +kernel
  · unfold PackerOk; decide
  · unfold RoomForBits; decide +kernel
theorem test_witness_PackResult : (∃ s : State, Ready s ∧ s.params.ibufSize < s.inLen) ∧
    (∃ s : State, Ready s ∧ s.inLen ≤ s.params.ibufSize ∧ s.status.codeValid = false) ∧
    (∃ s : State, Ready s ∧ s.inLen ≤ s.params.ibufSize ∧ s.status.codeValid = true ∧ PackerOk s.packer ∧
      (∀ b ∈ inputBytes s, s.code.len b ≠ 0#8) ∧ RoomForBits (payloadBits s.code (inputBytes s)).length s) ∧
    (∃ (s : State) (m : Nat), Ready s ∧ s.inLen ≤ s.params.ibufSize ∧ s.status.codeValid = true ∧ PackerOk s.packer ∧
      m < s.inLen.toNat ∧ (∀ b ∈ ibufSlice s 0 m, s.code.len b ≠ 0#8) ∧
      RoomForBits (payloadBits s.code (ibufSlice s 0 m)).length s ∧ s.code.len (s.ibufByte m) = 0#8) ∧
    ∃ (s : State) (m : Nat), Ready s ∧ s.inLen ≤ s.params.ibufSize ∧ s.status.codeValid = true ∧ PackerOk s.packer ∧
      m ≤ s.inLen.toNat ∧ (∀ b ∈ ibufSlice s 0 m, s.code.len b ≠ 0#8) ∧
      ¬RoomForBits (payloadBits s.code (ibufSlice s 0 m)).length s := by
  refine ⟨⟨{ State.reset with inLen := 4097 }, ⟨rfl, rfl⟩, by decide⟩,
    ⟨State.reset, ⟨rfl, rfl⟩, by decide, rfl⟩,
    ⟨input text (modelled text State.reset), ⟨rfl, rfl⟩, by decide, rfl, packerOk_empty, by decide +kernel, ?_⟩,
    ⟨input [0x41, 0x42, 0x44] (modelled text State.reset), 2, ⟨rfl, rfl⟩, by decide, rfl, packerOk_empty, by decide,
      by decide +kernel, ?_, by decide +kernel⟩,
    ⟨{ input text (modelled text State.reset) with outLen := 4096 }, 6, ⟨rfl, rfl⟩, by decide, rfl, packerOk_empty,
      by decide, by decide +kernel, ?_⟩⟩ <;> unfold RoomForBits <;> decide +kernel
theorem test_witness_PflushResult : (∃ s : State, Ready s ∧ s.packer.nb = 0#3) ∧
    (∃ s : State, Ready s ∧ s.packer.nb ≠ 0#3 ∧ s.outLen < s.params.obufSize) ∧
    ∃ s : State, Ready s ∧ s.packer.nb ≠ 0#3 ∧ s.params.obufSize ≤ s.outLen :=
  ⟨⟨State.reset, ⟨rfl, rfl⟩, rfl⟩,
    ⟨{ State.reset with packer := ⟨0xFE, 7⟩, outLen := 4095 }, ⟨rfl, rfl⟩, by decide, by decide⟩,
    ⟨{ State.reset with packer := ⟨0x80, 1⟩, outLen := 4096 }, ⟨rfl, rfl⟩, by decide, by decide⟩⟩
theorem test_witness_ByteCountLaw : ∃ (s : State) (is : List Instr), Ready s ∧ s.packer = ⟨0#8, 0#3⟩ ∧
    (∀ i ∈ is, CanPack s i) ∧ is = [.pbit 1, .psym 0x42, .pack] ∧
    s.outLen.toNat + ((is.flatMap (bitsOf s)).length + 7) / 8 = s.params.obufSize.toNat := by
  refine ⟨{ input text (modelled text State.reset) with outLen := 4094 }, [.pbit 1, .psym 0x42, .pack], ⟨rfl, rfl⟩, rfl,
    ?_, rfl, by decide +kernel⟩
  intro i hi
  simp only [List.mem_cons, List.not_mem_nil, or_false] at hi
  rcases hi with rfl | rfl | rfl
  · trivial
  · exact ⟨rfl, by decide +kernel⟩
  · exact ⟨by decide, rfl, by decide +kernel⟩
theorem test_witness_InlenErrors : ∃ s : State, Ready s ∧ s.params.ibufSize < s.inLen :=
  ⟨{ State.reset with inLen := 4097 }, ⟨rfl, rfl⟩, by decide⟩
theorem test_witness_PreconditionErrors :
    (∃ s : State, Ready s ∧ s.status.treeValid = false ∧ s.inLen ≤ s.params.ibufSize) ∧
    (∃ s : State, Ready s ∧ s.status.codeValid = false ∧ s.inLen ≤ s.params.ibufSize) ∧
    (∃ s : State, Ready s ∧ s.inLen ≤ s.params.ibufSize ∧ s.status.treeValid = true ∧ s.unpacker.rem = 0#32) ∧
    ∃ s : State, Ready s ∧ s.inLen ≤ s.params.ibufSize ∧ s.status.treeValid = true ∧ s.unpacker.rem ≠ 0#32 ∧
      s.tree.nonempty = false :=
  ⟨⟨State.reset, ⟨rfl, rfl⟩, rfl, by decide⟩, ⟨{ State.reset with inLen := 4096 }, ⟨rfl, rfl⟩, rfl, by decide⟩,
    ⟨modelled text State.reset, ⟨rfl, rfl⟩, by decide, rfl, rfl⟩,
    ⟨{ modelled [] State.reset with unpacker := ⟨0, 0, 1⟩ }, ⟨rfl, rfl⟩, by decide, rfl, by decide, by decide +kernel⟩⟩
theorem test_witness_UinitResult : (∃ s : State, Ready s ∧ s.status.treeValid = true) ∧
    ∃ s : State, Ready s ∧ s.status.treeValid = false :=
  ⟨⟨modelled text State.reset, ⟨rfl, rfl⟩, rfl⟩, ⟨State.reset, ⟨rfl, rfl⟩, rfl⟩⟩

/-- The state before R190's example: the payload of V1 with the cursor at its fourth bit, OUT_LEN as given. -/
def midPayload (out : Word) : State :=
  { input artifact (modelled text State.reset) with inPtr := 25, unpacker := ⟨3, 0x101, 3⟩, outLen := out }

/-- A single-leaf tree with these input bytes, one symbol to decode. -/
def oneLeaf (bs : List Byte) (out : Word) : State :=
  { input bs (modelled [0x41] State.reset) with unpacker := ⟨0, 0x041, 1⟩, outLen := out }

theorem isPath_of_inits {t : Tree} {bits : List Bool} {sym : Byte} (h : followPath t t.root bits = leafHandle sym)
    (k : ∀ p ∈ bits.inits, p ≠ bits → isLeaf (followPath t t.root p) = false) : IsPath t bits sym :=
  ⟨h, fun p hp => k p ((List.mem_inits p bits).2 hp)⟩

theorem test_witness_UsymResult :
    (∃ (s : State) (sym : Byte) (bits rest : List Bool), Ready s ∧ s.inLen ≤ s.params.ibufSize ∧
      s.status.treeValid = true ∧ s.unpacker.rem ≠ 0#32 ∧ s.tree.nonempty = true ∧ cursorBits s = bits ++ rest ∧
      isLeaf s.tree.root = false ∧ IsPath s.tree bits sym ∧ s.outLen < s.params.obufSize) ∧
    (∃ (s : State) (sym : Byte) (bits rest : List Bool), Ready s ∧ s.inLen ≤ s.params.ibufSize ∧
      s.status.treeValid = true ∧ s.unpacker.rem ≠ 0#32 ∧ s.tree.nonempty = true ∧ cursorBits s = bits ++ rest ∧
      isLeaf s.tree.root = false ∧ IsPath s.tree bits sym ∧ s.params.obufSize ≤ s.outLen) ∧
    ∃ (s : State) (sym : Byte) (bits rest : List Bool), Ready s ∧ s.inLen ≤ s.params.ibufSize ∧
      s.status.treeValid = true ∧ s.unpacker.rem ≠ 0#32 ∧ s.tree.nonempty = true ∧ cursorBits s = bits ++ rest ∧
      isLeaf s.tree.root = true ∧ (s.tree.root = leafHandle sym ∧ bits = [false]) ∧ s.outLen < s.params.obufSize :=
  ⟨⟨midPayload 4095, 0x42, [true, true], (cursorBits (midPayload 4095)).drop 2, ⟨rfl, rfl⟩, by decide, rfl, by decide,
      by decide +kernel, by decide +kernel, by decide +kernel, isPath_of_inits (by decide +kernel) (by decide +kernel),
      by decide⟩,
    ⟨midPayload 4096, 0x42, [true, true], (cursorBits (midPayload 4096)).drop 2, ⟨rfl, rfl⟩, by decide, rfl, by decide,
      by decide +kernel, by decide +kernel, by decide +kernel, isPath_of_inits (by decide +kernel) (by decide +kernel),
      by decide⟩,
    ⟨oneLeaf [0x00] 4095, 0x41, [false], List.replicate 7 false, ⟨rfl, rfl⟩, by decide, rfl, by decide, by decide +kernel,
      by decide +kernel, by decide +kernel, ⟨by decide +kernel, rfl⟩, by decide⟩⟩

/-- Vector V1t at its last symbol: two bits of the payload are missing but one. -/
def cutPayload : State :=
  { input (artifact.take 26) (modelled text State.reset) with inPtr := 25, unpacker := ⟨7, 0x101, 1⟩ }

theorem test_witness_UsymErrors :
    (∃ s : State, Ready s ∧ s.inLen ≤ s.params.ibufSize ∧ s.status.treeValid = true ∧ s.unpacker.rem ≠ 0#32 ∧
      s.tree.nonempty = true ∧ isLeaf s.tree.root = false ∧ cursorBits s = [true] ∧
      ∀ p, p <+: cursorBits s → isLeaf (followPath s.tree s.tree.root p) = false) ∧
    (∃ s : State, Ready s ∧ s.inLen ≤ s.params.ibufSize ∧ s.status.treeValid = true ∧ s.unpacker.rem ≠ 0#32 ∧
      s.tree.nonempty = true ∧ isLeaf s.tree.root = true ∧ cursorBits s = []) ∧
    ∃ (s : State) (rest : List Bool), Ready s ∧ s.inLen ≤ s.params.ibufSize ∧ s.status.treeValid = true ∧
      s.unpacker.rem ≠ 0#32 ∧ s.tree.nonempty = true ∧ isLeaf s.tree.root = true ∧ cursorBits s = true :: rest := by
  have hk : ∀ p ∈ (cursorBits cutPayload).inits, isLeaf (followPath cutPayload.tree cutPayload.tree.root p) = false := by
    decide +kernel
  exact ⟨⟨cutPayload, ⟨rfl, rfl⟩, by decide, rfl, by decide, by decide +kernel, by decide +kernel, by decide +kernel,
      fun p hp => hk p ((List.mem_inits p _).2 hp)⟩,
    ⟨oneLeaf [] 0, ⟨rfl, rfl⟩, by decide, rfl, by decide, by decide +kernel, by decide +kernel, by decide +kernel⟩,
    ⟨oneLeaf [0x80] 0, List.replicate 7 false, ⟨rfl, rfl⟩, by decide, rfl, by decide, by decide +kernel,
      by decide +kernel, by decide +kernel⟩⟩

/-- The unpacker at the payload of V1, of which `n` bytes of the artifact are there. -/
def payloadOf (n : Nat) (out : Word) : State :=
  { input (artifact.take n) (modelled text State.reset) with inPtr := 25, unpacker := ⟨0, 0x101, 6⟩, outLen := out }

/-- The hypotheses that the clauses of UnpkResult share. -/
def Unpacks (s : State) : Prop := Ready s ∧ s.inLen ≤ s.params.ibufSize ∧ s.status.treeValid = true

/-- The hypotheses of its clauses on codes: these symbols stand at the cursor, `rest` after them. -/
def HasCodes (s : State) (ct : CodeTable) (bs : List Byte) (rest : List Bool) : Prop :=
  Unpacks s ∧ TableOk s.table ∧ TreeOk s.table s.tree ∧ codesOf s.tree = some ct ∧
    (∀ b ∈ bs, s.table.count b ≠ 0#32) ∧ cursorBits s = payloadBits ct bs ++ rest

theorem hasCodes_text {s : State} {bs : List Byte} {rest : List Bool} (h : Unpacks s) (ht : s.table = tableOf text)
    (hr : s.tree = treeOf text) (hb : ∀ b ∈ bs, (tableOf text).count b ≠ 0#32)
    (hc : cursorBits s = payloadBits (codeOf text) bs ++ rest) : HasCodes s (codeOf text) bs rest :=
  ⟨h, ht ▸ tableOf_ok text_short, by rw [ht, hr]; exact treeOf_ok text_short, hr ▸ codeOf_eq text_short, ht ▸ hb, hc⟩

/-- The single-leaf tree, three symbols due, with one payload byte. -/
def threeDue (b : Byte) (out : Word) : State :=
  { input [b] (modelled [0x41] State.reset) with unpacker := ⟨0, 0x041, 3⟩, outLen := out }

theorem test_witness_UnpkResult_step :
    (∃ s t : State, Ready s ∧ s.unpacker.rem ≠ 0#32 ∧ exec .usym s = .next t ∧ t.status.err = false) ∧
    (∃ s t : State, Ready s ∧ s.unpacker.rem ≠ 0#32 ∧ exec .usym s = .next t ∧ t.status.err = true) ∧
    (∃ s : State, Unpacks s ∧ s.unpacker.rem = 0#32 ∧ s.unpacker.cur ≠ s.tree.root) ∧
    (∃ (s : State) (rest : List Bool), Unpacks s ∧ s.tree.nonempty = true ∧ isLeaf s.tree.root = true ∧
      0 < s.unpacker.rem.toNat ∧ cursorBits s = List.replicate 0 false ++ true :: rest ∧ s.params.obufSize ≤ s.outLen) ∧
    ∃ (s : State) (rest : List Bool), Unpacks s ∧ s.tree.nonempty = true ∧ isLeaf s.tree.root = true ∧
      2 < s.unpacker.rem.toNat ∧ cursorBits s = List.replicate 2 false ++ true :: rest ∧
      s.outLen.toNat + 2 = s.params.obufSize.toNat := by
  obtain ⟨t, ht, hp⟩ := after_next (i := .usym) (s := midPayload 0) (p := fun t => !t.status.err) (by decide +kernel)
  obtain ⟨u, hu, hq⟩ := after_next (i := .usym) (s := threeDue 0x80 0) (p := fun t => t.status.err) (by decide +kernel)
  exact ⟨⟨_, t, ⟨rfl, rfl⟩, by decide, ht, by simpa using hp⟩, ⟨_, u, ⟨rfl, rfl⟩, by decide, hu, hq⟩,
    ⟨modelled text State.reset, ⟨⟨rfl, rfl⟩, by decide, rfl⟩, rfl, by decide +kernel⟩,
    ⟨threeDue 0x80 4096, List.replicate 7 false, ⟨⟨rfl, rfl⟩, by decide, rfl⟩, by decide +kernel, by decide +kernel,
      by decide, by decide +kernel, by decide⟩,
    ⟨threeDue 0x20 4094, List.replicate 5 false, ⟨⟨rfl, rfl⟩, by decide, rfl⟩, by decide +kernel, by decide +kernel,
      by decide, by decide +kernel, by decide⟩⟩

theorem test_witness_UnpkResult :
    (∃ s ct bs rest, HasCodes s ct bs rest ∧ s.unpacker.rem.toNat = bs.length ∧ bs ≠ [] ∧
      s.outLen.toNat + bs.length = s.params.obufSize.toNat) ∧
    (∃ s ct rest, HasCodes s ct [] rest ∧ s.unpacker.rem.toNat = 0 ∧ s.params.obufSize.toNat < s.outLen.toNat) ∧
    (∃ s ct bs rest, HasCodes s ct bs rest ∧ bs.length = s.unpacker.rem.toNat ∧ bs ≠ [] ∧
      s.params.obufSize.toNat + 1 = s.outLen.toNat + bs.length) ∧
    (∃ s ct bs, HasCodes s ct bs [true] ∧ bs.length < s.unpacker.rem.toNat ∧ bs ≠ [] ∧
      s.params.obufSize.toNat + 1 = s.outLen.toNat + bs.length) ∧
    (∃ s ct bs, HasCodes s ct bs [true] ∧ s.table.count 0x43 ≠ 0#32 ∧ bs.length < s.unpacker.rem.toNat ∧
      [true] <+: codeBits ct 0x43 ∧ [true] ≠ codeBits ct 0x43 ∧ s.outLen.toNat + bs.length = s.params.obufSize.toNat) ∧
    ∃ s ct, HasCodes s ct [] [true] ∧ s.table.count 0x43 ≠ 0#32 ∧ 0 < s.unpacker.rem.toNat ∧
      [true] <+: codeBits ct 0x43 ∧ [true] ≠ codeBits ct 0x43 ∧ s.params.obufSize ≤ s.outLen := by
  refine ⟨⟨payloadOf 27 4090, _, text, List.replicate 7 false, hasCodes_text ⟨⟨rfl, rfl⟩, by decide, rfl⟩ rfl rfl ?_ ?_,
      by decide, by decide, by decide⟩,
    ⟨{ modelled text State.reset with outLen := 4097 }, _, [], hasCodes_text ⟨⟨rfl, rfl⟩, by decide, rfl⟩ rfl rfl ?_ ?_,
      by decide, by decide⟩,
    ⟨payloadOf 27 4091, _, text, List.replicate 7 false, hasCodes_text ⟨⟨rfl, rfl⟩, by decide, rfl⟩ rfl rfl ?_ ?_,
      by decide, by decide, by decide⟩,
    ⟨payloadOf 26 4092, _, text.take 5, hasCodes_text ⟨⟨rfl, rfl⟩, by decide, rfl⟩ rfl rfl ?_ ?_, by decide, by decide,
      by decide⟩,
    ⟨payloadOf 26 4091, _, text.take 5, hasCodes_text ⟨⟨rfl, rfl⟩, by decide, rfl⟩ rfl rfl ?_ ?_, by decide +kernel,
      by decide, by decide +kernel, by decide +kernel, by decide⟩,
    ⟨{ cutPayload with outLen := 4096 }, _, hasCodes_text ⟨⟨rfl, rfl⟩, by decide, rfl⟩ rfl rfl ?_ ?_, by decide +kernel,
      by decide, by decide +kernel, by decide +kernel, by decide⟩⟩ <;> decide +kernel
theorem test_witness_HputResult :
    (∃ s : State, Ready s ∧ 10 + 5 * (presentSymbols s.table).length = s.params.obufSize.toNat) ∧
    ∃ s : State, Ready s ∧ s.params.obufSize.toNat + 1 = 10 + 5 * (presentSymbols s.table).length :=
  ⟨⟨sized 1 25 (modelled text State.reset), ⟨rfl, rfl⟩, by decide +kernel⟩,
    ⟨sized 1 24 (modelled text State.reset), ⟨rfl, rfl⟩, by decide +kernel⟩⟩

theorem entryGood_first {s : State} (h : entryCount s 0 ≠ 0#32) : EntryGood s 0 := ⟨fun j hj => by omega, h⟩
theorem entryGood_next {s : State} {i : Nat} (h : entrySymbol s i < entrySymbol s (i + 1)) (k : entryCount s (i + 1) ≠ 0#32) :
    EntryGood s (i + 1) := ⟨fun j hj => by obtain rfl : j = i := by omega
                                           exact h, k⟩

/-- A header of two entries with these symbols and counts and this OriginalLength. -/
def header2 (len a b m n : Byte) : List Byte :=
  [0x48, 0x55, 0x46, 0x31, 0, 0, 0, len, 0, 2, a, 0, 0, 0, m, b, 0, 0, 0, n]

theorem test_witness_HgetResult :
    (∃ (s : State) (n : Nat), Ready s ∧ s.inLen ≤ s.params.ibufSize ∧ n = (headerCount s).toNat ∧ n ≤ 256 ∧
      10 + 5 * n ≤ s.inLen.toNat ∧ HasMagic s ∧ (∀ i, i < n → EntryGood s i) ∧
      ((List.range n).map fun i => (entryCount s i).toNat).sum = (headerOriginal s).toNat ∧ n = 2) ∧
    ∃ (s : State) (n : Nat), Ready s ∧ s.inLen ≤ s.params.ibufSize ∧ n = (headerCount s).toNat ∧ n ≤ 256 ∧
      10 + 5 * n ≤ s.inLen.toNat ∧ HasMagic s ∧ (∀ i, i < n → EntryGood s i) ∧
      ((List.range n).map fun i => (entryCount s i).toNat).sum = (headerOriginal s).toNat ∧ n = 0 := by
  refine ⟨⟨input (header2 3 0x41 0x42 2 1) State.reset, 2, ⟨rfl, rfl⟩, by decide, by decide +kernel, by decide, by decide,
      by unfold HasMagic; decide +kernel, fun i hi => ?_, by decide +kernel, rfl⟩,
    ⟨input ((header2 0 0 0 0 0).set 9 0 |>.take 10) State.reset, 0, ⟨rfl, rfl⟩, by decide, by decide +kernel, by decide,
      by decide, by unfold HasMagic; decide +kernel, fun i hi => by omega, by decide +kernel, rfl⟩⟩
  interval_cases i
  · exact entryGood_first (by decide +kernel)
  · exact entryGood_next (i := 0) (by decide +kernel) (by decide +kernel)

/-- The hypotheses that HgetErrors shares. -/
def Parses (s : State) : Prop := Ready s ∧ s.inLen ≤ s.params.ibufSize

theorem test_witness_HgetErrors :
    (∃ s, Parses s ∧ s.inLen.toNat = 3) ∧
    (∃ s, Parses s ∧ s.inLen.toNat = 4 ∧ (∀ k, k < 3 → some (s.ibufByte k) = Config.magic[k]?) ∧
      some (s.ibufByte 3) ≠ Config.magic[3]?) ∧
    (∃ s, Parses s ∧ s.inLen.toNat = 4 ∧ some (s.ibufByte 0) ≠ Config.magic[0]?) ∧
    (∃ s, Parses s ∧ 4 ≤ s.inLen.toNat ∧ HasMagic s ∧ s.inLen.toNat = 9) ∧
    (∃ s, Parses s ∧ s.inLen.toNat = 10 ∧ HasMagic s ∧ (headerCount s).toNat = 257) ∧
    (∃ s, Parses s ∧ 10 ≤ s.inLen.toNat ∧ HasMagic s ∧ (headerCount s).toNat ≤ 256 ∧
      s.inLen.toNat + 1 = 10 + 5 * (headerCount s).toNat) ∧
    (∃ s, Parses s ∧ 10 ≤ s.inLen.toNat ∧ HasMagic s ∧ (headerCount s).toNat = 2 ∧ s.inLen.toNat = 20 ∧
      (∀ k, k < 1 → EntryGood s k) ∧ entrySymbol s 1 = entrySymbol s 0) ∧
    (∃ s, Parses s ∧ 10 ≤ s.inLen.toNat ∧ HasMagic s ∧ (headerCount s).toNat = 2 ∧ s.inLen.toNat = 20 ∧
      (∀ k, k < 1 → EntryGood s k) ∧ entrySymbol s 0 < entrySymbol s 1 ∧ entryCount s 1 = 0#32) ∧
    ∃ s, Parses s ∧ 10 ≤ s.inLen.toNat ∧ HasMagic s ∧ (headerCount s).toNat = 2 ∧ s.inLen.toNat = 20 ∧
      (∀ i, i < 2 → EntryGood s i) ∧
      ((List.range 2).map fun i => (entryCount s i).toNat).sum ≠ (headerOriginal s).toNat := by
  have ready : ∀ bs, bs.length ≤ 4096 → Parses (input bs State.reset) := by
    intro bs h
    refine ⟨⟨rfl, rfl⟩, ?_⟩
    show BitVec.ofNat 32 bs.length ≤ 4096#32
    rw [BitVec.le_def, BitVec.toNat_ofNat, Nat.mod_eq_of_lt (by omega)]
    exact h
  refine ⟨⟨_, ready (artifact.take 3) (by decide), by decide⟩,
    ⟨_, ready [0x48, 0x55, 0x46, 0x32] (by decide), by decide, by decide +kernel, by decide +kernel⟩,
    ⟨_, ready [0, 0x55, 0x46, 0x31] (by decide), by decide, by decide +kernel⟩,
    ⟨_, ready (artifact.take 9) (by decide), by decide, by unfold HasMagic; decide +kernel, by decide⟩,
    ⟨_, ready [0x48, 0x55, 0x46, 0x31, 0, 0, 0, 0, 1, 1] (by decide), by decide, by unfold HasMagic; decide +kernel,
      by decide +kernel⟩,
    ⟨_, ready (artifact.take 24) (by decide), by decide, by unfold HasMagic; decide +kernel, by decide +kernel,
      by decide +kernel⟩,
    ⟨_, ready (header2 3 0x41 0x41 2 1) (by decide), by decide, by unfold HasMagic; decide +kernel, by decide +kernel,
      by decide, fun k hk => ?_, by decide +kernel⟩,
    ⟨_, ready (header2 3 0x41 0x42 2 0) (by decide), by decide, by unfold HasMagic; decide +kernel, by decide +kernel,
      by decide, fun k hk => ?_, by decide +kernel, by decide +kernel⟩,
    ⟨_, ready (header2 4 0x41 0x42 2 1) (by decide), by decide, by unfold HasMagic; decide +kernel, by decide +kernel,
      by decide, fun k hk => ?_, by decide +kernel⟩⟩
  · obtain rfl : k = 0 := by omega
    exact entryGood_first (by decide +kernel)
  · obtain rfl : k = 0 := by omega
    exact entryGood_first (by decide +kernel)
  · interval_cases k
    · exact entryGood_first (by decide +kernel)
    · exact entryGood_next (i := 0) (by decide +kernel) (by decide +kernel)
theorem test_witness_HgetAcceptsOnlyHeaders : ∃ s t : State, Ready s ∧ exec .hget s = .next t ∧ t.status.err = false := by
  obtain ⟨t, ht, hp⟩ := after_next (i := .hget) (s := input artifact State.reset) (p := fun t => !t.status.err)
    (by decide +kernel)
  exact ⟨_, t, ⟨rfl, rfl⟩, ht, by simpa using hp⟩
theorem test_witness_HeaderRoundTrip : ∃ s u t : State, Ready s ∧ Ready u ∧ TableOk s.table ∧
    10 + 5 * (presentSymbols s.table).length ≤ s.params.obufSize.toNat ∧ exec .hput s = .next t ∧
    u.inLen ≤ u.params.ibufSize ∧ t.outLen ≤ u.inLen ∧ ibufSlice u 0 t.outLen.toNat = outputBytes t := by
  obtain ⟨t, ht, hp⟩ := after_next (i := .hput) (s := modelled text State.reset) (p := fun t => decide (t.outLen ≤ 25) &&
    ibufSlice (input (artifact.take 25) State.reset) 0 t.outLen.toNat == outputBytes t) (by decide +kernel)
  simp only [Bool.and_eq_true, decide_eq_true_eq, beq_iff_eq] at hp
  exact ⟨_, input (artifact.take 25) State.reset, t, ⟨rfl, rfl⟩, ⟨rfl, rfl⟩, tableOf_ok text_short,
    by decide +kernel, ht, by decide, hp.1, hp.2⟩
theorem test_witness_ArtifactOfBytes : text.length ≤ 2 ^ 32 - 1 ∧ IsArtifact text artifact :=
  ⟨by decide, artifact_isArtifact⟩
theorem test_witness_CompResult : (∃ s : State, Ready s ∧ s.params.ibufSize < s.inLen) ∧
    (∃ s : State, Ready s ∧ s.inLen ≤ s.params.ibufSize ∧ IsArtifact (inputBytes s) artifact ∧
      artifact.length = s.params.obufSize.toNat ∧ s.inLen ≠ 0#32) ∧
    (∃ s : State, Ready s ∧ s.inLen ≤ s.params.ibufSize ∧ IsArtifact (inputBytes s) artifact ∧
      s.params.obufSize.toNat + 1 = artifact.length) ∧
    ∃ s : State, Ready s ∧ s.inLen ≤ s.params.ibufSize ∧ s.inLen = 0#32 :=
  ⟨⟨{ State.reset with inLen := 4097 }, ⟨rfl, rfl⟩, by decide⟩,
    ⟨sized 6 27 (input text State.reset), ⟨rfl, rfl⟩, by decide,
      (show inputBytes (sized 6 27 (input text State.reset)) = text by decide +kernel) ▸ artifact_isArtifact, by decide,
      by decide⟩,
    ⟨sized 6 26 (input text State.reset), ⟨rfl, rfl⟩, by decide,
      (show inputBytes (sized 6 26 (input text State.reset)) = text by decide +kernel) ▸ artifact_isArtifact, by decide⟩,
    ⟨State.reset, ⟨rfl, rfl⟩, by decide, rfl⟩⟩
theorem test_witness_DecompResult :
    (∃ (s : State) (bs out rest : List Byte), Ready s ∧ s.inLen ≤ s.params.ibufSize ∧ bs.length ≤ 2 ^ 32 - 1 ∧
      IsArtifact bs out ∧ inputBytes s = out ++ rest ∧ rest ≠ [] ∧ bs ≠ [] ∧ bs.length = s.params.obufSize.toNat) ∧
    (∃ (s : State) (out : List Byte), Ready s ∧ s.inLen ≤ s.params.ibufSize ∧ IsArtifact [] out ∧ inputBytes s = out) ∧
    (∃ (s : State) (bs out : List Byte), Ready s ∧ s.inLen ≤ s.params.ibufSize ∧ bs.length ≤ 2 ^ 32 - 1 ∧
      IsArtifact bs out ∧ inputBytes s = out ∧ s.params.obufSize.toNat + 1 = bs.length) ∧
    (∃ (s : State) (ft : FreqTable) (payload : List Byte) (rest : List Bool), Ready s ∧ s.inLen ≤ s.params.ibufSize ∧
      TableOk ft ∧ ft.nsym = 1#32 ∧ inputBytes s = headerBytes ft ++ payload ∧ 2 < ft.total.toNat ∧
      payload.flatMap byteBits = List.replicate 2 false ++ true :: rest ∧ 2 = s.params.obufSize.toNat) ∧
    ∃ s t : State, Ready s ∧ s.inLen ≤ s.params.ibufSize ∧ exec .hget s = .next t ∧ t.status.err = true := by
  obtain ⟨t, ht, hp⟩ := after_next (i := .hget) (s := State.reset) (p := fun t => t.status.err) (by decide +kernel)
  exact ⟨⟨sized 29 6 (input (artifact ++ [0xFF, 0xFF]) State.reset), text, artifact, [0xFF, 0xFF], ⟨rfl, rfl⟩, by decide,
      by decide, artifact_isArtifact, by decide +kernel, by decide, by decide, by decide⟩,
    ⟨input [0x48, 0x55, 0x46, 0x31, 0, 0, 0, 0, 0, 0] State.reset, _, ⟨rfl, rfl⟩, by decide,
      isArtifact_nil (tableOf_counts nil_short), by decide +kernel⟩,
    ⟨sized 27 5 (input artifact State.reset), text, artifact, ⟨rfl, rfl⟩, by decide, by decide, artifact_isArtifact,
      by decide +kernel, by decide⟩,
    ⟨sized 27 2 (input (headerBytes (tableOf [0x41, 0x41, 0x41]) ++ [0x20]) State.reset), tableOf [0x41, 0x41, 0x41],
      [0x20], List.replicate 5 false, ⟨rfl, rfl⟩, by decide +kernel, tableOf_ok (by decide), by decide +kernel,
      by decide +kernel, by decide +kernel, by decide +kernel, by decide⟩,
    ⟨State.reset, t, ⟨rfl, rfl⟩, by decide, ht, hp⟩⟩
theorem test_witness_MacrosRunTheirBodies :
    (∃ s t : State, Ready s ∧ t.status.err = false ∧ s.inLen ≠ 0#32 ∧
      execAll [.fclr, .facc, .tbld, .cgen, .hput, .pack, .pflush] s = .next t) ∧
    (∃ s t : State, Ready s ∧ t.status.err = false ∧ s.inLen = 0#32 ∧ execAll [.fclr, .facc, .hput] s = .next t) ∧
    (∃ s t : State, Ready s ∧ t.status.err = false ∧ t.table.total ≠ 0#32 ∧
      execAll [.hget, .tbld, .uinit, .unpk] { s with outLen := 0#32 } = .next t) ∧
    (∃ s t : State, Ready s ∧ t.status.err = false ∧ t.table.total ≠ 0#32 ∧
      execAll [.hget, .tbld, .uinit] { s with outLen := 0#32 } = .next t) ∧
    ∃ s t : State, Ready s ∧ t.status.err = false ∧ t.table.total = 0#32 ∧
      execAll [.hget] { s with outLen := 0#32 } = .next t := by
  obtain ⟨t₁, h₁, k₁⟩ := afterAll_next (is := [.fclr, .facc, .tbld, .cgen, .hput, .pack, .pflush])
    (s := input text State.reset) (p := fun t => !t.status.err) (by decide +kernel)
  obtain ⟨t₂, h₂, k₂⟩ := afterAll_next (is := [.fclr, .facc, .hput]) (s := State.reset) (p := fun t => !t.status.err)
    (by decide +kernel)
  obtain ⟨t₃, h₃, k₃⟩ := afterAll_next (is := [.hget, .tbld, .uinit, .unpk])
    (s := { input artifact State.reset with outLen := 0#32 }) (p := fun t => !t.status.err && t.table.total != 0#32)
    (by decide +kernel)
  obtain ⟨t₅, h₅, k₅⟩ := afterAll_next (is := [.hget, .tbld, .uinit])
    (s := { input (artifact.take 26) State.reset with outLen := 0#32 })
    (p := fun t => !t.status.err && t.table.total != 0#32) (by decide +kernel)
  obtain ⟨t₄, h₄, k₄⟩ := afterAll_next (is := [.hget])
    (s := { input [0x48, 0x55, 0x46, 0x31, 0, 0, 0, 0, 0, 0] State.reset with outLen := 0#32 })
    (p := fun t => !t.status.err && t.table.total == 0#32) (by decide +kernel)
  simp only [Bool.and_eq_true, Bool.not_eq_true', bne_iff_ne, ne_eq, beq_iff_eq] at k₁ k₂ k₃ k₄ k₅
  exact ⟨⟨_, t₁, ⟨rfl, rfl⟩, k₁, by decide, h₁⟩, ⟨_, t₂, ⟨rfl, rfl⟩, k₂, rfl, h₂⟩,
    ⟨input artifact State.reset, t₃, ⟨rfl, rfl⟩, k₃.1, k₃.2, h₃⟩,
    ⟨input (artifact.take 26) State.reset, t₅, ⟨rfl, rfl⟩, k₅.1, k₅.2, h₅⟩, ⟨input _ State.reset, t₄, ⟨rfl, rfl⟩, k₄.1, k₄.2, h₄⟩⟩
theorem test_witness_RoundTrip : ∃ s u t : State, Ready s ∧ Ready u ∧ s.inLen ≤ s.params.ibufSize ∧
    (∀ out, IsArtifact (inputBytes s) out → out.length ≤ s.params.obufSize.toNat) ∧ exec .comp s = .next t ∧
    u.inLen = t.outLen ∧ inputBytes u = outputBytes t ∧ u.inLen ≤ u.params.ibufSize ∧ s.inLen ≤ u.params.obufSize := by
  obtain ⟨t, ht, hp⟩ := after_next test_comp
  simp only [Bool.and_eq_true, beq_iff_eq] at hp
  refine ⟨_, input artifact State.reset, t, ⟨rfl, rfl⟩, ⟨rfl, rfl⟩, by decide, fun out ho => ?_, ht, hp.2.symm, ?_, by decide,
    by decide⟩
  · rw [show inputBytes (input text State.reset) = text by decide +kernel] at ho
    rw [isArtifact_unique ho artifact_isArtifact]; decide
  · rw [hp.1]; decide +kernel
theorem test_witness_TruncatedArtifact :
    (∃ (s : State) (bs out : List Byte), Ready s ∧ s.inLen ≤ s.params.ibufSize ∧ bs.length ≤ 2 ^ 32 - 1 ∧
      IsArtifact bs out ∧ inputBytes s <+: out ∧ s.inLen.toNat + 1 = out.length ∧
      headerLen bs.dedup.length ≤ s.inLen.toNat ∧ bs.length ≤ s.params.obufSize.toNat) ∧
    ∃ (s : State) (bs out : List Byte), Ready s ∧ s.inLen ≤ s.params.ibufSize ∧ bs.length ≤ 2 ^ 32 - 1 ∧
      IsArtifact bs out ∧ inputBytes s <+: out ∧ s.inLen.toNat < out.length ∧
      headerLen bs.dedup.length = s.inLen.toNat ∧ bs.length ≤ s.params.obufSize.toNat :=
  ⟨⟨input (artifact.take 26) State.reset, text, artifact, ⟨rfl, rfl⟩, by decide, by decide, artifact_isArtifact,
      by decide +kernel, by decide, by decide +kernel, by decide⟩,
    ⟨input (artifact.take 25) State.reset, text, artifact, ⟨rfl, rfl⟩, by decide, by decide, artifact_isArtifact,
      by decide +kernel, by decide, by decide +kernel, by decide⟩⟩
theorem test_witness_ResetValues : State.reset.status.busy = false ∧ erred.status.busy = false := ⟨rfl, rfl⟩
theorem test_witness_ErrorEntryWrites :
    (∃ (i : Instr) (s t : State), Ready s ∧ i ≠ .srst ∧ exec i s = .next t ∧ t.status.err = true) ∧
    ∃ (i : Instr) (s t : State), Ready s ∧ i ≠ .srst ∧ i ≠ .eclr ∧ exec i s = .next t ∧ t.status.done = true := by
  obtain ⟨t, ht, hp⟩ := after_next (i := .cgen) (s := State.reset) (p := fun t => t.status.err) (by decide +kernel)
  exact ⟨⟨.cgen, State.reset, t, ⟨rfl, rfl⟩, by decide, ht, hp⟩, ⟨.nop, State.reset, _, ⟨rfl, rfl⟩, by decide, by decide, rfl, rfl⟩⟩
theorem test_witness_IrqLine : ∃ (i : Instr) (s t : State), Ready s ∧ exec i s = .next t ∧ s.ctrl = ⟨true, true⟩ ∧
    t.irq = true :=
  ⟨.nop, { State.reset with ctrl := ⟨true, true⟩ }, _, ⟨rfl, rfl⟩, rfl, rfl, rfl⟩
theorem test_witness_FrameSetup : ∃ (i : Instr) (s t : State), exec i s = .next t ∧ i ≠ .srst :=
  ⟨.pinit, State.reset, _, rfl, by decide⟩
theorem test_witness_FrameModel :
    (∃ (i : Instr) (s t : State), exec i s = .next t ∧ writesTable i = false ∧ writesTree i = false ∧
      writesCode i = false) ∧
    ∃ s t : State, exec .hget s = .next t ∧ Ready s ∧ s.status.treeValid = true ∧ s.status.codeValid = true ∧
      s.params.ibufSize < s.inLen :=
  ⟨⟨.pinit, modelled text State.reset, _, rfl, rfl, rfl, rfl⟩,
    ⟨{ modelled text State.reset with inLen := 4097#32 }, _, rfl, ⟨rfl, rfl⟩, rfl, rfl, by decide⟩⟩
theorem test_witness_FrameCursors : ∃ (i : Instr) (s t : State), exec i s = .next t ∧ writesPacker i = false ∧
    writesBidx i = false ∧ writesWalk i = false ∧ writesInPtr i = false :=
  ⟨.fclr, midPayload 0, _, rfl, rfl, rfl, rfl, rfl⟩
theorem test_witness_FrameOutput :
    (∃ (i : Instr) (s t : State), i ≠ .srst ∧ exec i s = .next t ∧ t.status.err = s.status.err ∧ writesObuf i = false) ∧
    ∃ (i : Instr) (s t : State), i ≠ .srst ∧ exec i s = .next t ∧ t.status.err = s.status.err ∧ writesObuf i = true ∧
      startsObuf i = false ∧ s.outLen ≠ t.outLen := by
  obtain ⟨t, ht, hp⟩ := after_next (i := .usym) (s := midPayload 4095) (p := fun t => !t.status.err && t.outLen == 4096)
    (by decide +kernel)
  simp only [Bool.and_eq_true, Bool.not_eq_true', beq_iff_eq] at hp
  exact ⟨⟨.fclr, midPayload 0, _, by decide, rfl, rfl, rfl⟩,
    ⟨.usym, midPayload 4095, t, by decide, ht, hp.1, rfl, rfl, by rw [hp.2]; decide⟩⟩
theorem test_witness_FrameErrors : (∃ (i : Instr) (s t : State), i ≠ .eclr ∧ i ≠ .srst ∧ exec i s = .next t ∧ Ready s) ∧
    ∃ (i : Instr) (s t : State), i ≠ .eclr ∧ i ≠ .srst ∧ exec i s = .next t ∧ s.status.err = true :=
  ⟨⟨.fclr, State.reset, _, by decide, by decide, rfl, rfl, rfl⟩, ⟨.fclr, erred, _, by decide, by decide, rfl, rfl⟩⟩
theorem test_witness_StepKeepsInvariant : ∃ s t : State, Inv s ∧ s.status.treeValid = true ∧ s.inbox ≠ [] ∧
    step s = .next t := by
  exact ⟨(modelled text State.reset).setInbox [.regWrite 0 0x06], _, setInbox_inv _ (modelled_inv text text_short), rfl,
    List.cons_ne_nil _ _, rfl⟩
theorem test_witness_EveryCommandEnds : Inv State.reset ∧ Inv (modelled text State.reset) :=
  ⟨reset_inv, modelled_inv text text_short⟩
theorem test_witness_UnspecifiedStateNotRead : ∃ s t u : State, Inv s ∧ SameSpecified s u ∧ u.tree.root ≠ s.tree.root ∧
    step s = .next t :=
  ⟨State.reset, _, State.reset.swap { Tree.zero with root := 7 } CodeTable.zero, reset_inv,
    ⟨rfl, fun e => Bool.noConfusion (show false = true from e), fun e => Bool.noConfusion (show false = true from e)⟩,
    by decide, rfl⟩
theorem test_witness_RegisterWrites : (∃ s : State, s.status.busy = false) ∧ ∃ off, off % 4 = 0 ∧ off < 0x800 ∧
    off ∉ [0x000, 0x004, 0x010, 0x014, 0x018, 0x01C, 0x040, 0x068] := ⟨⟨State.reset, rfl⟩, 0x7FC, by decide⟩
theorem test_witness_RegisterReads : (∃ s : State, s.status.busy = false ∧ s.status.codeValid = true ∧
      s.status.treeValid = true ∧ s.nsel < s.tree.nint) ∧ (0x3FC % 4 = 0 ∧ 0x07C ≤ 0x3FC ∧ 0x3FC < 0x400) ∧
    0x07C % 4 = 0 :=
  ⟨⟨{ modelled text State.reset with nsel := 1 }, rfl, rfl, rfl, by decide +kernel⟩, by decide, by decide⟩
theorem test_witness_HostAccess : ∃ s : State, s.status.busy = false ∧ 4095 < s.params.ibufSize.toNat ∧
    s.params.ibufSize.toNat ≤ 4096 ∧ 4095 < s.params.obufSize.toNat ∧ s.params.obufSize.toNat ≤ 4096 ∧
    (0x7FC % 4 = 0 ∧ 0x7FC < 0x800) ∧ 0x002 % 4 ≠ 0 ∧ 0x800 ≤ 0x800 := ⟨State.reset, rfl, by decide⟩

end Sys2Proof.Tests
end

section
/-! What one step does with the host's next move (R10, R26, R280, R291), and the obligation of 00_scope.md. -/

namespace Sys2Proof.Machine

open Sys2Proof

/-! ### The step, by what stands in the inbox -/

theorem step_of_inbox_nil {s : State} (h : s.inbox = []) : step s = .next s := by
  simp only [step, takeMove, h]

theorem step_of_inbox_cons {s : State} {m : HostMove} {rest : List HostMove} (h : s.inbox = m :: rest) :
    step s = hostMove m { s with inbox := rest } := by
  simp only [step, takeMove, h, State.setInbox]

/-! ### A command word: written to CMD, or placed in front of the inbox -/

/-- Offset 0 is CMD (R35), and a write to it is Issue of the word (R26). -/
@[simp] theorem hostMove_writeCmd (c : Word) (s : State) : hostMove (.regWrite 0 c) s = issueWord c s := rfl

theorem issueWord_of_decode {c : Word} {i : Instr} (h : decode c = .ok i) (s : State) : issueWord c s = exec i s := by
  simp only [issueWord, h]

theorem decode_of_decodeTableWord {nbits w : Nat} {i : Instr} (h : decodeTableWord nbits w = some i) :
    decode (tableWord nbits w) = .ok i := by
  unfold decodeTableWord at h
  cases hd : decode (tableWord nbits w) with
  | error e => simp [hd, Except.toOption] at h
  | ok j => simpa [hd, Except.toOption] using h

/-- Taking the placed move gives the inbox back as it was, so the word is issued at the state it was placed in. -/
theorem step_placeCommand (c : Word) (s : State) : step (placeCommand c s) = issueWord c s :=
  have front : (placeCommand c s).inbox = .regWrite 0 c :: s.inbox := State.setInbox_inbox s _
  calc step (placeCommand c s)
      _ = hostMove (.regWrite 0 c) s := step_of_inbox_cons front
      _ = issueWord c s := hostMove_writeCmd c s

theorem step_withFetchWord {nbits w : Nat} {i : Instr} (h : decodeTableWord nbits w = some i) (s : State) :
    step (s.withFetchWord nbits w) = exec i s :=
  calc step (s.withFetchWord nbits w)
      _ = issueWord (tableWord nbits w) s := step_placeCommand _ s
      _ = exec i s := issueWord_of_decode (decode_of_decodeTableWord h) s

/-- Settles O6: each clause is the rule above for its case. -/
theorem stepTakesOneHostMove : Obligations.StepTakesOneHostMove :=
  ⟨fun _ h => step_of_inbox_nil h, fun _ _ _ h => step_of_inbox_cons h, fun s c => hostMove_writeCmd c s,
    fun s _ _ _ h => step_withFetchWord h s⟩

end Sys2Proof.Machine
end

section
/-! Every step keeps the invariant of the machine, and none reads what the spec leaves unspecified (10_state.md: R22, R27,
R46 to R51, R54). -/

namespace Sys2Proof.Machine

open Sys2Proof Sys2Proof.Safety

/-- The move taken from the inbox is made in a state that still meets the invariant. -/
theorem step_inv {s t : State} (h : Inv s) (hs : step s = .next t) : Inv t := by
  cases hi : s.inbox with
  | nil =>
    rw [step_of_inbox_nil hi] at hs
    exact Host.Outcome.next.inj hs ▸ h
  | cons m rest =>
    rw [step_of_inbox_cons hi] at hs
    obtain ⟨u, hu, hInv⟩ | href := hostMove_inv m (setInbox_inv rest h)
    · exact Host.Outcome.next.inj (hu.symm.trans hs) ▸ hInv
    · exact nomatch href.symm.trans hs

/-- Settles O55: no move of the host breaks the invariant. -/
theorem stepKeepsInvariant : Obligations.StepKeepsInvariant := fun _ _ => step_inv

theorem reset_eq_resetTable : State.reset = resetTable State.reset.ibuf State.reset.obuf State.reset := rfl

/-- Settles O54: the reset state is the reset table over buffers that list no byte. -/
theorem resetInvariant : Obligations.ResetInvariant := by
  have hparams : State.reset.params.wf = true := by decide
  unfold Obligations.ResetInvariant
  rw [reset_eq_resetTable]
  exact resetTable_inv hparams reset_buffers_ok.1 reset_buffers_ok.2

theorem sameSpecified_inbox {s u : State} (h : SameSpecified s u) : u.inbox = s.inbox := by rw [h.rest]

theorem setInbox_sameSpecified (l : List HostMove) {s u : State} (h : SameSpecified s u) :
    SameSpecified (s.setInbox l) (u.setInbox l) := by
  obtain ⟨T, C, rfl, hT, hC⟩ := sameSpecified_elim h
  exact ⟨rfl, hT, hC⟩

theorem sameOutcome_next {s : State} {o : Host.Outcome State Fault Refusal} (h : SameOutcome (.next s) o) :
    ∃ u, o = .next u ∧ SameSpecified s u := by
  cases o with
  | next u => exact ⟨u, rfl, h⟩
  | fault f => exact h.elim
  | refused r => exact h.elim

/-- Both states make the same move, so a step tells them apart only where a move does (R302). -/
theorem step_same {s u : State} (hc : CoreInv s) (h : SameSpecified s u) : SameOutcome (step s) (step u) := by
  have hi := sameSpecified_inbox h
  cases hs : s.inbox with
  | nil =>
    rw [step_of_inbox_nil hs, step_of_inbox_nil (hi.trans hs)]
    exact h
  | cons m rest =>
    rw [step_of_inbox_cons hs, step_of_inbox_cons (hi.trans hs)]
    exact hostMove_same m ⟨hc.params, hc.table, hc.tree, hc.code, hc.packer, hc.ibuf, hc.obuf⟩
      (setInbox_sameSpecified rest h)

/-- Settles O57: a step of one state that ends in a next state is matched by the other's. -/
theorem unspecifiedStateNotRead : Obligations.UnspecifiedStateNotRead :=
  fun _ _ _ hInv h hs => sameOutcome_next (hs ▸ step_same hInv.core h)

end Sys2Proof.Machine
end

section
/-! What every command leaves alone of the model, the cursors and the error registers (10_state.md: R21, R27 to R29, R40,
R49, R51, R52). -/

namespace Sys2Proof.Machine

open Sys2Proof Sys2Proof.Safety

/-! ### Every command is a body between two changes of the envelope -/

/-- What the envelope of a command and ECLR leave alone (R230, R241, R262): all but STATUS's other flags, the error
registers and the output. -/
structure SameCursors (s t : State) : Prop extends SameModel s t where
  packer : t.packer = s.packer
  unpacker : t.unpacker = s.unpacker
  inPtr : t.inPtr = s.inPtr

theorem sameCursors_refl (s : State) : SameCursors s s := ⟨⟨rfl, rfl, rfl, rfl, rfl⟩, rfl, rfl, rfl⟩
theorem sameCursors_accept (s : State) : SameCursors s (accept s) := ⟨⟨rfl, rfl, rfl, rfl, rfl⟩, rfl, rfl, rfl⟩
theorem sameCursors_markDrop (s : State) : SameCursors s (markDrop s) := ⟨⟨rfl, rfl, rfl, rfl, rfl⟩, rfl, rfl, rfl⟩
theorem sameCursors_finishDone (s : State) : SameCursors s (finishDone s) := ⟨⟨rfl, rfl, rfl, rfl, rfl⟩, rfl, rfl, rfl⟩

theorem sameCursors_errorEntry (e : Raise) (s : State) : SameCursors s (errorEntry e s) :=
  ⟨⟨rfl, rfl, rfl, rfl, rfl⟩, rfl, rfl, rfl⟩

theorem sameCursors_eclr (s : State) : SameCursors s (finishDone (errorReturn (accept s))) :=
  ⟨⟨rfl, rfl, rfl, rfl, rfl⟩, rfl, rfl, rfl⟩

/-- Every command but SRST, dropped, ended or in error entry, changes of the model and the cursors what its body may. -/
theorem exec_writes {i : Instr} {s t : State} (hi : i ≠ .srst) (he : exec i s = .next t) :
    ∃ u v, SameCursors s u ∧ Writes i u v ∧ SameCursors v t := by
  by_cases h : i = .eclr
  · subst h
    obtain rfl | rfl := exec_eclr_cases he
    · exact ⟨s, s, sameCursors_refl s, .refl _ s, sameCursors_markDrop s⟩
    · exact ⟨s, s, sameCursors_refl s, .refl _ s, sameCursors_eclr s⟩
  · obtain ⟨_, rfl⟩ | ⟨_, u, hw, rfl | ⟨e, rfl⟩⟩ := exec_cases h hi he
    · exact ⟨s, s, sameCursors_refl s, .refl _ s, sameCursors_markDrop s⟩
    · exact ⟨_, u, sameCursors_accept s, hw, sameCursors_finishDone u⟩
    · exact ⟨_, u, sameCursors_accept s, hw, sameCursors_errorEntry e u⟩

/-! ### The model -/

theorem HeaderStep.flags {s t : State} (k : HeaderStep s t) : t.status.treeValid = false ∧ t.status.codeValid = false := by
  cases k with
  | tooLong => exact ⟨rfl, rfl⟩
  | cleared a => exact ⟨rfl, rfl⟩
  | loaded a ft h => exact ⟨rfl, rfl⟩

/-- An accepted HGET leaves no valid flag, whichever way it ends (R27). -/
theorem exec_hget_flags {s t : State} (h : Ready s) (he : exec .hget s = .next t) :
    t.status.treeValid = false ∧ t.status.codeValid = false := by
  have hb := bodyHget_step (accept s)
  rw [show exec .hget s = _ from runCommand_ready h bodyHget] at he
  cases hr : bodyHget (accept s) with
  | done u => rw [hr] at hb he; cases he; exact hb.flags
  | raised e u => rw [hr] at hb he; cases he; exact hb.flags
  | stuck f => rw [hr] at hb; exact hb.elim

/-- SRST, accepted or dropped, makes no flag 1 (R242, R266). -/
theorem exec_srst_flags {s t : State} (he : exec .srst s = .next t) :
    (t.status.treeValid = true → s.status.treeValid = true) ∧ (t.status.codeValid = true → s.status.codeValid = true) := by
  obtain rfl | rfl := exec_srst_cases he
  · exact ⟨id, id⟩
  · exact ⟨flag_absurd, flag_absurd⟩

/-- Settles O50: SRST writes all of the model, the other commands what their bodies write. -/
theorem frameModel : Obligations.FrameModel := by
  intro i s t he
  have hget : Ready s → i = .hget → t.status.treeValid = false ∧ t.status.codeValid = false := by
    rintro h rfl
    exact exec_hget_flags h he
  by_cases hi : i = .srst
  · subst hi
    obtain ⟨ht, hc⟩ := exec_srst_flags he
    exact ⟨nofun, nofun, nofun, nofun, nofun, fun h => .inl (ht h), fun h => .inl (hc h), hget⟩
  · obtain ⟨u, v, hsu, hw, hvt⟩ := exec_writes hi he
    refine ⟨fun h => ?_, fun h => ?_, fun h => ?_, fun h h' => ?_, fun h h' h'' => ?_, fun h => ?_, fun h => ?_, hget⟩
    · rw [hvt.table, hw.table h, hsu.table]
    · rw [hvt.tree, hw.tree h, hsu.tree]
    · rw [hvt.code, hw.code h, hsu.code]
    · rw [hvt.treeValid, hw.treeValid h h', hsu.treeValid]
    · rw [hvt.codeValid, hw.codeValid h h' h'', hsu.codeValid]
    · rw [← hsu.treeValid]
      exact hw.madeTree (hvt.treeValid ▸ h)
    · rw [← hsu.codeValid]
      exact hw.madeCode (hvt.codeValid ▸ h)

/-! ### The cursors -/

/-- Settles O51: SRST writes every cursor, the other commands those their bodies write. -/
theorem frameCursors : Obligations.FrameCursors := by
  intro i s t he
  by_cases hi : i = .srst
  · subst hi
    exact ⟨nofun, nofun, nofun, nofun⟩
  · obtain ⟨u, v, hsu, hw, hvt⟩ := exec_writes hi he
    refine ⟨fun h => ?_, fun h => ?_, fun h => ?_, fun h => ?_⟩
    · rw [hvt.packer, hw.packer h, hsu.packer]
    · rw [hvt.unpacker, hw.bidx h, hsu.unpacker]
    · rw [hvt.unpacker, ← hsu.unpacker]
      exact hw.walk h
    · rw [hvt.inPtr, hw.inPtr h, hsu.inPtr]

/-! ### The error registers -/

/-- Settles O53: a drop writes DROP alone, a command without an error leaves all four registers, and error entry, which
writes ERRCODE and ERRINFO, sets ERR where it was 0. -/
theorem frameErrors : Obligations.FrameErrors := by
  intro i s t h h' he
  obtain ⟨hbusy, rfl⟩ | ⟨hr, u, hw, hu⟩ := exec_cases h h' he
  · refine ⟨id, fun _ => ⟨rfl, rfl⟩, fun hr => ?_, fun _ => rfl⟩
    simp [hr.1, hr.2] at hbusy
  · have herr : u.status.err = s.status.err := hw.runs.err
    have hdrop : u.status.drop = s.status.drop := hw.runs.drop
    obtain rfl | ⟨e, rfl⟩ := hu
    · exact ⟨fun k => herr.trans k, fun _ => ⟨hw.runs.errCode, hw.runs.errInfo⟩, fun _ => hdrop, fun k => hdrop.trans k⟩
    · have hset : (errorEntry e u).status.err ≠ s.status.err := by simp [hr.2, errorEntry]
      exact ⟨fun _ => rfl, fun k => absurd k hset, fun _ => hdrop, fun k => hdrop.trans k⟩

end Sys2Proof.Machine
end

section
/-! A command word and a register write at the CMD and the writable registers, and the reset values (10_state.md: R26, R36,
R54). -/

namespace Sys2Proof.Machine

open Sys2Proof Sys2Proof.Safety

/-- Settles O4: the step makes the CMD write, which issues the word, which runs its command. -/
theorem stepRunsDecodedCommand : Obligations.StepRunsDecodedCommand := fun s c i rest hi hd =>
  calc step s
      _ = hostMove (.regWrite 0 c) { s with inbox := rest } := step_of_inbox_cons hi
      _ = issueWord c { s with inbox := rest } := hostMove_writeCmd c _
      _ = exec i { s with inbox := rest } := issueWord_of_decode hd _

/-! ### Drops while BUSY is 1 -/

section

variable {s : State} (hb : s.status.busy = true)

include hb

theorem exec_busy (i : Instr) : exec i s = .next (markDrop s) := by
  by_cases h : i = .eclr
  · subst h; exact runAlways_dropped hb _ _
  by_cases h' : i = .srst
  · subst h'; exact runAlways_dropped hb _ _
  rw [exec_bodyOf h h', runCommand_dropped (.inl hb)]

theorem issueWord_busy (c : Word) : issueWord c s = .next (markDrop s) := by
  unfold issueWord
  split
  · exact exec_busy hb _
  · exact runCommand_dropped (.inl hb) _

theorem writeReg_busy {r : Reg} (hr : r = .cmd ∨ r.writable = true) (v : Word) : writeReg r v s = .next (markDrop s) := by
  unfold writeReg
  split
  · exact issueWord_busy hb v
  · have hw : r.writable = true := by tauto
    simp [hb, hw]

end

/-- CMD and the writable registers stand at the eight offsets of the statements (R35, R36). -/
theorem reg_at_written {off : Nat} (h : off ∈ [0x000, 0x004, 0x010, 0x014, 0x018, 0x01C, 0x040, 0x068]) :
    ∃ r, Reg.at off = some r ∧ (r = .cmd ∨ r.writable = true) := by
  fin_cases h
  · exact ⟨.cmd, rfl, .inl rfl⟩
  · exact ⟨.status, rfl, .inr rfl⟩
  · exact ⟨.ctrl, rfl, .inr rfl⟩
  · exact ⟨.inLen, rfl, .inr rfl⟩
  · exact ⟨.inPtr, rfl, .inr rfl⟩
  · exact ⟨.outLen, rfl, .inr rfl⟩
  · exact ⟨.csel, rfl, .inr rfl⟩
  · exact ⟨.nsel, rfl, .inr rfl⟩

theorem hostMove_regWrite {off : Nat} {r : Reg} (h : Reg.at off = some r) (v : Word) (s : State) :
    hostMove (.regWrite off v) s = writeReg r v s := by
  simp only [hostMove, h]

/-- Settles O8: the register at each of these offsets drops the write. -/
theorem busyDropsWrites : Obligations.BusyDropsWrites := by
  intro s v off hb hoff
  obtain ⟨r, hat, hr⟩ := reg_at_written hoff
  rw [hostMove_regWrite hat, writeReg_busy hb hr]
  rfl

/-! ### Reset -/

/-- The reset table gives every element its value (R54). -/
theorem resetTable_atReset (i o : Buffer) (s : State) : AtReset (resetTable i o s) where
  status := (by decide : State.reset.status.word = 0#32)
  errCode := rfl
  errInfo := rfl
  ctrl := (by decide : State.reset.ctrl.word = 0#32)
  inLen := rfl
  inPtr := rfl
  outLen := rfl
  total := rfl
  nsym := rfl
  freq := zero_count
  acc := rfl
  nb := rfl
  bidx := rfl
  cur := rfl
  rem := rfl
  csel := rfl
  nsel := rfl

/-- An accepted SRST ends in the reset table over the buffers as they were (R242). -/
theorem exec_srst_idle {s : State} (h : s.status.busy = false) :
    exec .srst s = .next (resetTable s.ibuf s.obuf s) := runAlways_idle h bodySrst finishQuiet

/-- Settles O46: hardware reset, the reset input and SRST all end in the reset table. -/
theorem resetValues : Obligations.ResetValues := by
  refine ⟨?_, fun s => ⟨_, rfl, ?_⟩, fun s h => ⟨_, exec_srst_idle h, ?_, rfl, rfl⟩, rfl, rfl⟩
  · exact reset_eq_resetTable ▸ resetTable_atReset _ _ _
  · exact resetTable_atReset _ _ _
  · exact resetTable_atReset _ _ _

end Sys2Proof.Machine
end

section
/-! The register map of the host: what a write to each register stores and what a read of each returns while BUSY is 0
(10_state.md: R23 to R36). -/

namespace Sys2Proof.Machine

open Sys2Proof Sys2Proof.Safety

/-! ### The registers that ignore a write -/

theorem store_of_not_writable {r : Reg} (h : r.writable = false) (v : Word) (s : State) : r.store s v = s := by
  cases r with
  | status | ctrl | inLen | inPtr | outLen | csel | nsel => exact flag_absurd h.symm
  | _ => rfl

theorem lowRegs_past {k : Nat} (h : 31 ≤ k) : (lowRegs[k]?).getD .reserved = .reserved := by
  rw [List.getElem?_eq_none h, Option.getD_none]

/-- The offsets below 0x400, as indices of the map R35: only CMD and the writable registers take a write. -/
theorem lowRegs_ignored {k : Nat} (h : k ∉ [0, 1, 4, 5, 6, 7, 16, 26]) :
    (lowRegs[k]?).getD .reserved ≠ .cmd ∧ ((lowRegs[k]?).getD .reserved).writable = false := by
  have listed : ∀ k < 31, k ∉ [0, 1, 4, 5, 6, 7, 16, 26] →
      (lowRegs[k]?).getD .reserved ≠ .cmd ∧ ((lowRegs[k]?).getD .reserved).writable = false := by decide
  by_cases hk : k < 31
  · exact listed k hk h
  · rw [lowRegs_past (Nat.not_lt.1 hk)]
    exact ⟨Reg.noConfusion, rfl⟩

theorem reg_at_low {off : Nat} (h4 : off % 4 = 0) (h : off < 0x400) :
    Reg.at off = some ((lowRegs[off / 4]?).getD .reserved) := by
  simp [Reg.at, h4, Nat.not_le.2 h, show ¬0x800 ≤ off by omega]

theorem reg_at_high {off : Nat} (h4 : off % 4 = 0) (h : 0x400 ≤ off) (h' : off < 0x800) :
    Reg.at off = some (.freq (BitVec.ofNat 8 ((off - 0x400) / 4))) := by
  simp [Reg.at, h4, h, Nat.not_le.2 h']

/-- Every other offset of the register space holds a register that ignores a write (R31, R36). -/
theorem reg_at_ignored {off : Nat} (h4 : off % 4 = 0) (hlt : off < 0x800)
    (h : off ∉ [0x000, 0x004, 0x010, 0x014, 0x018, 0x01C, 0x040, 0x068]) :
    ∃ r, Reg.at off = some r ∧ r ≠ .cmd ∧ r.writable = false := by
  by_cases hlow : off < 0x400
  · have hk : off / 4 ∉ [0, 1, 4, 5, 6, 7, 16, 26] := by
      simp only [List.mem_cons, List.not_mem_nil, or_false] at h ⊢
      omega
    exact ⟨_, reg_at_low h4 hlow, lowRegs_ignored hk⟩
  · exact ⟨_, reg_at_high h4 (Nat.not_lt.1 hlow) hlt, Reg.noConfusion, rfl⟩

/-! ### Writes -/

section

variable {s : State} (hb : s.status.busy = false)

include hb

/-- While BUSY is 0 a write to a register other than CMD stores (R36). -/
theorem hostMove_regWrite_idle {off : Nat} {r : Reg} (hat : Reg.at off = some r) (hr : r ≠ .cmd) (v : Word) :
    hostMove (.regWrite off v) s = .next (r.store s v) := by
  rw [hostMove_regWrite hat]
  unfold writeReg
  split
  · exact absurd rfl hr
  · simp [hb]

/-- While BUSY is 0 a read of a register the spec gives a value is recorded with that value (R36, log 6). -/
theorem hostMove_regRead_idle {off : Nat} {r : Reg} {v : Word} (hat : Reg.at off = some r) (hv : r.value s = some v) :
    hostMove (.regRead off) s = .next { s with hostData := v } := by
  simp [hostMove, hat, Reg.valueNow, hb, hv, State.answer]

end

/-- Settles O58: each writable register by its offset in the map, every other offset by `reg_at_ignored`. -/
theorem registerWrites : Obligations.RegisterWrites := by
  intro s v hb
  have store := fun {off : Nat} {r : Reg} (hat : Reg.at off = some r) (hr : r ≠ .cmd) =>
    hostMove_regWrite_idle hb hat hr v
  have hbyte : v.setWidth 8 = v.extractLsb' 0 8 := BitVec.setWidth_eq_extractLsb' (by decide)
  refine ⟨store (r := .status) rfl nofun, store (r := .ctrl) rfl nofun, store (r := .inLen) rfl nofun,
    store (r := .inPtr) rfl nofun, store (r := .outLen) rfl nofun, ?_, ?_, fun off h4 hlt hoff => ?_⟩
  · rw [← hbyte]; exact store (r := .csel) rfl nofun
  · rw [← hbyte]; exact store (r := .nsel) rfl nofun
  · obtain ⟨r, hat, hr, hw⟩ := reg_at_ignored h4 hlt hoff
    rw [store hat hr, store_of_not_writable hw]

/-! ### The values as fields, most significant first -/

/-- Leading zeros do not change a value. -/
theorem setWidth_zero_append (n : Nat) {m w : Nat} (x : BitVec w) : (0#m ++ x).setWidth n = x.setWidth n := by
  rw [BitVec.setWidth_append_eq_shiftLeft_setWidth_or]
  simp

/-- A field and another one shifted past it, as one word. -/
theorem or_shift_eq_append {v w : Nat} (y : BitVec v) (x : BitVec w) :
    x.setWidth (v + w) ||| (y.setWidth (v + w) <<< w) = y ++ x := by
  rw [BitVec.or_comm, ← BitVec.setWidth_append_eq_shiftLeft_setWidth_or, BitVec.setWidth_eq]

theorem packerWord_fields (p : Packer) :
    (p.acc.setWidth 32 ||| (p.nb.setWidth 32 <<< 8) : Word) = 0#21 ++ p.nb ++ p.acc := by
  rw [← setWidth_zero_append 32 (m := 21) p.nb]
  exact or_shift_eq_append (0#21 ++ p.nb) p.acc

theorem cursorWord_fields (u : Unpacker) :
    (u.cur.setWidth 32 ||| (u.bidx.setWidth 32 <<< 16) : Word) = 0#13 ++ u.bidx ++ (0#7 ++ u.cur) := by
  rw [← setWidth_zero_append 32 (m := 13) u.bidx, ← setWidth_zero_append 32 (m := 7) u.cur]
  exact or_shift_eq_append (0#13 ++ u.bidx) (0#7 ++ u.cur)

theorem linkWord_fields (l r : Handle) :
    ((l.setWidth 32 : Word) ||| ((r.setWidth 32 : Word) <<< 16)) = 0#7 ++ r ++ (0#7 ++ l) := by
  rw [← setWidth_zero_append 32 (m := 7) r, ← setWidth_zero_append 32 (m := 7) l]
  exact or_shift_eq_append (0#7 ++ r) (0#7 ++ l)

theorem flagBit_eq_shift (b : Bool) (n : Nat) : flagBit b n = (BitVec.ofBool b).setWidth 32 <<< n := by
  cases b with
  | false => simp [flagBit]
  | true => rfl

theorem rootWord_fields (h : Handle) (b : Bool) :
    (h.setWidth 32 ||| flagBit b 31 : Word) = BitVec.ofBool b ++ (0#22 ++ h) := by
  rw [flagBit_eq_shift, ← setWidth_zero_append 32 (m := 22) h]
  exact or_shift_eq_append (BitVec.ofBool b) (0#22 ++ h)

theorem ctrlWord_fields (c : Ctrl) : c.word = 0#30 ++ (BitVec.ofBool c.ieErr ++ BitVec.ofBool c.ieDone) := by
  have all : ∀ d e : Bool, Ctrl.word ⟨d, e⟩ = 0#30 ++ (BitVec.ofBool e ++ BitVec.ofBool d) := by decide
  exact all ..

theorem statusWord_fields (f : Status) : f.word = 0#26 ++ (BitVec.ofBool f.codeValid ++ (BitVec.ofBool f.treeValid ++
    (BitVec.ofBool f.drop ++ (BitVec.ofBool f.err ++ (BitVec.ofBool f.done ++ BitVec.ofBool f.busy))))) := by
  have all : ∀ b d e p t c : Bool, Status.word ⟨b, d, e, p, t, c⟩ = 0#26 ++ (BitVec.ofBool c ++ (BitVec.ofBool t ++
      (BitVec.ofBool p ++ (BitVec.ofBool e ++ (BitVec.ofBool d ++ BitVec.ofBool b))))) := by decide
  exact all ..

/-! ### Reads -/

theorem reg_at_freq (sym : Byte) : Reg.at (0x400 + 4 * sym.toNat) = some (.freq sym) := by
  have hsym := sym.isLt
  have hidx : (0x400 + 4 * sym.toNat - 0x400) / 4 = sym.toNat := by omega
  rw [reg_at_high (by omega) (by omega) (by omega), hidx, BitVec.ofNat_toNat, BitVec.setWidth_eq]

theorem reg_at_reserved {off : Nat} (h4 : off % 4 = 0) (h : 0x07C ≤ off) (h' : off < 0x400) :
    Reg.at off = some .reserved := by
  rw [reg_at_low h4 h', lowRegs_past (by omega)]

theorem reg_at_cbitsr : ∀ j : Fin 8, Reg.at (0x048 + 4 * j.val) = some (.cbitsr j) := by decide

theorem whenSet_pos {b : Bool} (h : b = true) (v : Word) : whenSet b v = some v := if_pos h

theorem selectedNode_pos {s : State} (h : s.status.treeValid = true) (hn : s.nsel < s.tree.nint) :
    s.selectedNode = some (s.tree.entry s.nsel) := if_pos (by simp [h, hn])

/-- Settles O59: each clause names the register at its offset and the value that register has. -/
theorem registerReads : Obligations.RegisterReads := by
  intro s hb
  have read := fun {off : Nat} {v : Word} (r : Reg) (hat : Reg.at off = some r) (hv : r.value s = some v) =>
    hostMove_regRead_idle hb hat hv
  refine ⟨fun off v h => ?_, fun sym => read _ (reg_at_freq sym) rfl,
    fun off h4 h h' => read _ (reg_at_reserved h4 h h') rfl, fun hc => ⟨?_, fun j hj => ?_⟩, fun ht => ⟨?_, ?_, fun hn => ?_⟩⟩
  · simp only [List.mem_cons, List.not_mem_nil, or_false, Prod.mk.injEq] at h
    obtain ⟨rfl, rfl⟩ | ⟨rfl, rfl⟩ | ⟨rfl, rfl⟩ | ⟨rfl, rfl⟩ | ⟨rfl, rfl⟩ | ⟨rfl, rfl⟩ | ⟨rfl, rfl⟩ | ⟨rfl, rfl⟩ |
      ⟨rfl, rfl⟩ | ⟨rfl, rfl⟩ | ⟨rfl, rfl⟩ | ⟨rfl, rfl⟩ | ⟨rfl, rfl⟩ | ⟨rfl, rfl⟩ | ⟨rfl, rfl⟩ | ⟨rfl, rfl⟩ |
      ⟨rfl, rfl⟩ := h
    · exact read .cmd rfl rfl
    · exact read .errcode rfl rfl
    · exact read .errinfo rfl rfl
    · exact read .inLen rfl rfl
    · exact read .inPtr rfl rfl
    · exact read .outLen rfl rfl
    · exact read .total rfl rfl
    · exact read .nsym rfl rfl
    · exact read .rem rfl rfl
    · exact read .id rfl rfl
    · exact read .magicr rfl rfl
    · exact read .csel rfl rfl
    · exact read .nsel rfl rfl
    · exact read .bwst rfl (congrArg some (packerWord_fields _))
    · exact read .brst rfl (congrArg some (cursorWord_fields _))
    · exact read .ctrl rfl (congrArg some (ctrlWord_fields _))
    · exact read .status rfl (congrArg some (statusWord_fields _))
  · exact read .clenr rfl (whenSet_pos hc _)
  · exact read _ (reg_at_cbitsr ⟨j, hj⟩) (whenSet_pos hc _)
  · exact read .root rfl ((whenSet_pos ht _).trans (congrArg some (rootWord_fields _ _)))
  · exact read .nintr rfl (whenSet_pos ht _)
  · have hnode := selectedNode_pos ht hn
    exact ⟨read .nweight rfl (congrArg (Option.map _) hnode),
      read .nlink rfl ((congrArg (Option.map _) hnode).trans (congrArg some (linkWord_fields _ _))),
      read .nlsym rfl (congrArg (Option.map _) hnode)⟩

end Sys2Proof.Machine
end

section
/-! What the commands leave alone of the setup and of the output, the first test of every command that reads IBUF, and the
host's accesses to the buffers (20_memory.md: R60, R61, R67, R69, R71, R73). -/

namespace Sys2Proof.Machine

open Sys2Proof Sys2Proof.Safety

/-! ### The setup -/

theorem sameSetup_markDrop (s : State) : SameSetup s (markDrop s) := ⟨rfl, rfl, rfl, rfl, rfl, rfl, rfl, rfl, rfl⟩
theorem sameSetup_accept (s : State) : SameSetup s (accept s) := ⟨rfl, rfl, rfl, rfl, rfl, rfl, rfl, rfl, rfl⟩
theorem sameSetup_finishDone (s : State) : SameSetup s (finishDone s) := ⟨rfl, rfl, rfl, rfl, rfl, rfl, rfl, rfl, rfl⟩

theorem sameSetup_errorEntry (e : Raise) (s : State) : SameSetup s (errorEntry e s) :=
  ⟨rfl, rfl, rfl, rfl, rfl, rfl, rfl, rfl, rfl⟩

theorem sameSetup_eclr (s : State) : SameSetup s (finishDone (errorReturn (accept s))) :=
  ⟨rfl, rfl, rfl, rfl, rfl, rfl, rfl, rfl, rfl⟩

/-- Neither the envelope nor a body other than SRST's writes the setup (R230, R262). -/
theorem exec_sameSetup {i : Instr} {s t : State} (hi : i ≠ .srst) (he : exec i s = .next t) : SameSetup s t := by
  by_cases h : i = .eclr
  · subst h
    obtain rfl | rfl := exec_eclr_cases he
    · exact sameSetup_markDrop s
    · exact sameSetup_eclr s
  · obtain ⟨_, rfl⟩ | ⟨_, u, hw, hu⟩ := exec_cases h hi he
    · exact sameSetup_markDrop s
    · have hsu : SameSetup s u := sameSetup_trans (sameSetup_accept s) hw.runs.setup
      obtain rfl | ⟨e, rfl⟩ := hu
      · exact sameSetup_trans hsu (sameSetup_finishDone u)
      · exact sameSetup_trans hsu (sameSetup_errorEntry e u)

/-- Settles O49: SRST, dropped or accepted, keeps the buffers and the model's own fields; the other commands keep all of
the setup. -/
theorem frameSetup : Obligations.FrameSetup := by
  intro i s t he
  by_cases hi : i = .srst
  · subst hi
    obtain rfl | rfl := exec_srst_cases he
    · exact ⟨fun _ => sameSetup_markDrop s, rfl, rfl, rfl, rfl, rfl, fun _ => rfl⟩
    · exact ⟨fun h => absurd rfl h, rfl, rfl, rfl, rfl, rfl, fun _ => rfl⟩
  · have hs := exec_sameSetup hi he
    exact ⟨fun _ => hs, hs.ibuf, hs.params, hs.inbox, hs.hostData, hs.freeCtr, fun h => absurd h hi⟩

/-! ### The output -/

theorem sameOutput_of_eq {s t : State} (ho : t.obuf = s.obuf) (hl : t.outLen = s.outLen) : SameOutput s t :=
  ⟨hl, fun a => by simp only [State.obufByte, ho]⟩

/-- A command that leaves ERR as it was left the output alone, or ended normally on a body that wrote what it may: error
entry is out, for it sets ERR, which was 0 at acceptance. -/
theorem exec_output_cases {i : Instr} {s t : State} (hi : i ≠ .srst) (he : exec i s = .next t)
    (herr : t.status.err = s.status.err) :
    (t.obuf = s.obuf ∧ t.outLen = s.outLen) ∨ ∃ u, Writes i (accept s) u ∧ t = finishDone u := by
  by_cases h : i = .eclr
  · subst h
    obtain rfl | rfl := exec_eclr_cases he
    · exact .inl ⟨rfl, rfl⟩
    · exact .inl ⟨rfl, rfl⟩
  · obtain ⟨_, rfl⟩ | ⟨hr, u, hw, rfl | ⟨e, rfl⟩⟩ := exec_cases h hi he
    · exact .inl ⟨rfl, rfl⟩
    · exact .inr ⟨u, hw, rfl⟩
    · exact flag_absurd (hr.2.symm.trans herr.symm)

/-- Settles O52: the output is untouched, or it is what the body wrote. -/
theorem frameOutput : Obligations.FrameOutput := by
  intro i s t hi he herr
  obtain ⟨ho, hl⟩ | ⟨u, hw, rfl⟩ := exec_output_cases hi he herr
  · have same := sameOutput_of_eq ho hl
    have appended : OnlyAppended s t := ⟨(congrArg BitVec.toNat hl).ge, fun a _ => same.bytes a⟩
    exact ⟨fun _ => same, fun _ => ⟨fun a _ => same.bytes a, fun _ => appended⟩⟩
  · refine ⟨fun h => ?_, fun _ => ⟨hw.beyond, hw.appended⟩⟩
    obtain ⟨ho, hl⟩ := hw.output h
    exact sameOutput_of_eq (t := finishDone u) ho hl

/-! ### The first test of a command that reads IBUF -/

/-- CheckIn stands first in the bodies that read IBUF, HGET's and DECOMP's apart (R69). -/
theorem bodyOf_checkIn {i : Instr} (hi : i ∈ [Instr.facc, .pack, .usym, .unpk, .comp]) :
    ∃ rest, ∀ s, bodyOf i s = (checkIn s).andThen rest := by
  fin_cases hi <;> exact ⟨_, fun _ => rfl⟩

/-- HGET and DECOMP clear the valid flags before CheckIn; OUT_LEN, which DECOMP clears too, error entry clears anyway
(R27, R262, log 9). -/
theorem bodyOf_inlen_cleared {i : Instr} (hi : i ∈ [Instr.hget, .decomp]) {s : State} (h : s.params.ibufSize < s.inLen) :
    ∃ u, bodyOf i s = .raised ⟨.capInlen, s.inLen⟩ u ∧ ∀ e, errorEntry e u = errorEntry e (clearValid s) := by
  fin_cases hi
  · exact ⟨_, bodyHget_inlen h, fun _ => rfl⟩
  · exact ⟨_, bodyDecomp_raised (bodyHget_inlen h), fun _ => rfl⟩

/-- A raise after the valid flags alone were cleared (R27, R262). -/
theorem errorEntry_clearValid_accept (s : State) (k : ErrorKind) (info : Word) :
    errorEntry ⟨k, info⟩ (clearValid (accept s)) = failed (clearValid s) k.code info := rfl

/-- Settles O29: CheckIn raises before any other write, or after the valid flags alone were cleared. -/
theorem inlenErrors : Obligations.InlenErrors := by
  intro s hr h
  refine ⟨fun i hi => ?_, fun i hi => ?_⟩
  · have hne : i ≠ .eclr := ne_of_mem_of_not_mem hi (by decide)
    have hne' : i ≠ .srst := ne_of_mem_of_not_mem hi (by decide)
    obtain ⟨rest, hb⟩ := bodyOf_checkIn hi
    have hraise : bodyOf i (accept s) = .raised ⟨.capInlen, s.inLen⟩ (accept s) := by
      rw [hb, checkIn_fail (s := accept s) h, Ran.andThen_raised]
      rfl
    exact exec_failed hne hne' hr ErrorKind.code_capInlen hraise
  · have hne : i ≠ .eclr := ne_of_mem_of_not_mem hi (by decide)
    have hne' : i ≠ .srst := ne_of_mem_of_not_mem hi (by decide)
    obtain ⟨u, hraise, hu⟩ := bodyOf_inlen_cleared hi (s := accept s) h
    rw [exec_raised hne hne' hr hraise, hu, errorEntry_clearValid_accept, ErrorKind.code_capInlen]
    rfl

/-! ### The host's accesses -/

theorem inside_of_lt {a : Nat} {size : Word} (h : a < size.toNat) (r : Host.Outcome State Fault Refusal) :
    inside a size r = r := if_pos h

theorem inside_of_le {a : Nat} {size : Word} (h : size.toNat ≤ a) (r : Host.Outcome State Fault Refusal) :
    inside a size r = .refused .hostAccessOutside := if_neg (Nat.not_lt.2 h)

theorem writeIdle_idle {s : State} (hb : s.status.busy = false) (t : State) : writeIdle s t = .next t := by
  simp only [writeIdle, hb, Bool.false_eq_true, if_false]

theorem readByte_idle {s : State} (hb : s.status.busy = false) (v : Byte) :
    readByte v s = { s with hostData := v.setWidth 32 } := by
  simp only [readByte, hb, Bool.false_eq_true, if_false, State.answer]

theorem ibufByte_setIbuf_store_same (s : State) (a : Nat) (b : Byte) :
    (s.setIbuf (s.ibuf.store a b)).ibufByte a = b := Buffer.byte_store_same ..

theorem ibufByte_setIbuf_store_other (s : State) {a a' : Nat} (b : Byte) (h : a' ≠ a) :
    (s.setIbuf (s.ibuf.store a b)).ibufByte a' = s.ibufByte a' := Buffer.byte_store_other _ _ _ h

theorem obufByte_setObuf_store_same (s : State) (a : Nat) (b : Byte) :
    (s.setObuf (s.obuf.store a b)).obufByte a = b := Buffer.byte_store_same ..

theorem obufByte_setObuf_store_other (s : State) {a a' : Nat} (b : Byte) (h : a' ≠ a) :
    (s.setObuf (s.obuf.store a b)).obufByte a' = s.obufByte a' := Buffer.byte_store_other _ _ _ h

/-- A read changes the model's record alone, whether the value is specified or free (R36, log 6). -/
theorem answer_record (s : State) (o : Option Word) : ∃ v n, s.answer o = { s with hostData := v, freeCtr := n } := by
  cases o with
  | some v => exact ⟨v, s.freeCtr, rfl⟩
  | none => exact ⟨_, _, rfl⟩

/-- Every word-aligned offset of the register space holds a register (R35). -/
theorem reg_at_aligned {off : Nat} (h4 : off % 4 = 0) (h : off < 0x800) : ∃ r, Reg.at off = some r := by
  by_cases hlow : off < 0x400
  · exact ⟨_, reg_at_low h4 hlow⟩
  · exact ⟨_, reg_at_high h4 (Nat.not_lt.1 hlow) h⟩

theorem reg_at_outside {off : Nat} (h : off % 4 ≠ 0 ∨ 0x800 ≤ off) : Reg.at off = none := if_pos h

/-- Settles O60: an access inside the sizes is its effect on an idle block, any other is turned away before it has one. -/
theorem hostAccess : Obligations.HostAccess := by
  intro s hb
  refine ⟨fun a b ha => ?_, fun a b ha => ?_, fun a ha => ?_, fun a ha => ?_, fun off h4 h => ?_, fun a b ha => ?_,
    fun a b ha => ?_, fun off v h => ?_⟩
  · exact ⟨_, (inside_of_lt ha _).trans (writeIdle_idle hb _), ibufByte_setIbuf_store_same s a b,
      fun _ h => ibufByte_setIbuf_store_other s b h, rfl⟩
  · exact ⟨_, (inside_of_lt ha _).trans (writeIdle_idle hb _), obufByte_setObuf_store_same s a b,
      fun _ h => obufByte_setObuf_store_other s b h, rfl⟩
  · exact (inside_of_lt ha _).trans (congrArg Host.Outcome.next (readByte_idle hb _))
  · exact (inside_of_lt ha _).trans (congrArg Host.Outcome.next (readByte_idle hb _))
  · obtain ⟨r, hat⟩ := reg_at_aligned h4 h
    obtain ⟨v, n, hv⟩ := answer_record s (r.valueNow s)
    exact ⟨v, n, by simp only [hostMove, hat, hv]⟩
  · exact ⟨inside_of_le ha _, inside_of_le ha _⟩
  · exact ⟨inside_of_le ha _, inside_of_le ha _⟩
  · have hnone := reg_at_outside h
    simp only [hostMove, hnone, and_self]

end Sys2Proof.Machine
end

section
/-! Decode and encode agree, and which words are ILLEGAL (30_encoding.md: R85 to R89). -/

namespace Sys2Proof

open Sys2Proof.Laws

/-! ### From a command to its word and back -/

/-- The opcode map read at a command's own fields gives the command. -/
theorem decodeFields_opcode_operand {i : Instr} (h : WellFormed i = true) :
    decodeFields (opcode i) (operand i) = .ok i := by
  cases i with
  | pbit imm => exact if_pos (eq_of_beq h)
  | _ => rfl

theorem decode_encode {i : Instr} (h : WellFormed i = true) : decode (encode i) = .ok i := by
  obtain ⟨hop, himm, hzero⟩ := encode_fields i
  rw [decode, if_pos hzero, hop, himm]
  exact decodeFields_opcode_operand h

/-- Settles O1: the fields of a command's word are its opcode and its operand. -/
theorem decodeOfEncode : Obligations.DecodeOfEncode := fun _ => decode_encode

theorem decode_of_encode_eq {i : Instr} {c : Word} (h : WellFormed i = true) (hc : encode i = c) : decode c = .ok i :=
  hc ▸ decode_encode h

/-- Settles O3: each word is the encoding of its command. -/
theorem specWordsDecode : Obligations.SpecWordsDecode := by
  have word := @decode_of_encode_eq
  exact ⟨word rfl rfl, word rfl rfl, word rfl rfl, word rfl rfl, word rfl rfl, word rfl rfl, word rfl rfl, word rfl rfl,
    word rfl rfl, word rfl rfl, word rfl rfl, word rfl rfl, word rfl rfl, word rfl rfl, word rfl rfl, word rfl rfl,
    word rfl rfl, word rfl rfl, word rfl rfl, word rfl rfl⟩

/-! ### The opcode map, by the lines of R88 -/

/-- The opcodes of the commands without an operand: all of R87 but FACCB, PBIT and PSYM. -/
def BareOpcode (op : Byte) : Prop := op ≤ 0x13#8 ∧ op ≠ 0x02#8 ∧ op ≠ 0x07#8 ∧ op ≠ 0x08#8

theorem opcode_cases (op : Byte) :
    0x13#8 < op ∨ op = 0x02#8 ∨ op = 0x07#8 ∨ op = 0x08#8 ∨ BareOpcode op := by
  unfold BareOpcode
  have := BitVec.not_lt (x := 0x13#8) (y := op)
  tauto

theorem decodeFields_reserved {op : Byte} (h : 0x13#8 < op) (imm : Byte) :
    decodeFields op imm = .error .reservedOpcode := by
  have hlt : 0x13 < op.toNat := h
  unfold decodeFields
  split
  case h_21 => rfl
  all_goals omega

theorem decodeFields_faccb (imm : Byte) : decodeFields 0x02#8 imm = .ok (.faccb imm) := rfl

theorem decodeFields_psym (imm : Byte) : decodeFields 0x08#8 imm = .ok (.psym imm) := rfl

theorem decodeFields_pbit (imm : Byte) :
    decodeFields 0x07#8 imm = if imm.extractLsb' 1 7 = 0#7 then .ok (.pbit imm) else .error .bitOperandTooWide := rfl

/-- A bare opcode stands for one command, and IMM is only checked. -/
theorem decodeFields_bare {op : Byte} (h : BareOpcode op) :
    ∃ i, (∀ imm, decodeFields op imm = noOperand imm i) ∧ opcode i = op ∧ operand i = 0#8 ∧ WellFormed i = true := by
  have hn : op.toNat ∈ [0x00, 0x01, 0x03, 0x04, 0x05, 0x06, 0x09, 0x0A, 0x0B, 0x0C, 0x0D, 0x0E, 0x0F, 0x10, 0x11, 0x12,
      0x13] := by
    obtain ⟨hle, h2, h7, h8⟩ := h
    simp only [List.mem_cons, List.not_mem_nil, or_false]
    bv_omega
  have hop : op = BitVec.ofNat 8 op.toNat := by simp
  generalize op.toNat = n at hn hop
  subst hop
  fin_cases hn
  all_goals exact ⟨_, fun _ => rfl, rfl, rfl, rfl⟩

/-- What a legal pair of fields decodes to has these fields. -/
theorem fields_of_decodeFields {op imm : Byte} {i : Instr} (h : decodeFields op imm = .ok i) :
    opcode i = op ∧ operand i = imm ∧ WellFormed i = true := by
  obtain hr | rfl | rfl | rfl | hb := opcode_cases op
  · rw [decodeFields_reserved hr] at h
    cases h
  · cases h
    exact ⟨rfl, rfl, rfl⟩
  · rw [decodeFields_pbit] at h
    split at h
    next hz => cases h; exact ⟨rfl, rfl, beq_iff_eq.2 hz⟩
    next => cases h
  · cases h
    exact ⟨rfl, rfl, rfl⟩
  · obtain ⟨j, hj, hop, hoperand, hw⟩ := decodeFields_bare hb
    rw [hj, noOperand] at h
    split at h
    next hz => cases h; exact ⟨hop, hoperand.trans hz.symm, hw⟩
    next => cases h

/-- The illegal pairs of fields (R88). -/
theorem decodeFields_error_iff (op imm : Byte) :
    (∃ e, decodeFields op imm = .error e) ↔
      0x13#8 < op ∨ (op = 0x07#8 ∧ imm.extractLsb' 1 7 ≠ 0#7) ∨
        (op ≠ 0x02#8 ∧ op ≠ 0x07#8 ∧ op ≠ 0x08#8 ∧ imm ≠ 0#8) := by
  obtain hr | rfl | rfl | rfl | hb := opcode_cases op
  · simp [decodeFields_reserved hr, hr]
  · simp [decodeFields_faccb]
  · by_cases hz : imm.extractLsb' 1 7 = 0#7 <;> simp [decodeFields_pbit, hz]
  · simp [decodeFields_psym]
  · obtain ⟨j, hj, -⟩ := decodeFields_bare hb
    obtain ⟨hle, h2, h7, h8⟩ := hb
    by_cases hz : imm = 0#8 <;> simp [hj, noOperand, hz, h2, h7, h8, hle]

/-! ### The word -/

/-- IMM[7:1] is bits 15:9 of the word. -/
theorem immField_high (c : Word) : (immField c).extractLsb' 1 7 = c.extractLsb' 9 7 := by
  ext k hk
  have hk' : 1 + k < 8 := by omega
  simp [immField, hk', ← Nat.add_assoc]

theorem decode_error_iff (c : Word) :
    (∃ e, decode c = .error e) ↔ zeroField c ≠ 0#16 ∨ ∃ e, decodeFields (opField c) (immField c) = .error e := by
  by_cases h : zeroField c = 0#16 <;> simp [decode, h]

theorem decode_eq_ok_iff {c : Word} {i : Instr} :
    decode c = .ok i ↔ zeroField c = 0#16 ∧ decodeFields (opField c) (immField c) = .ok i := by
  by_cases h : zeroField c = 0#16 <;> simp [decode, h]

/-- Settles O2: ZERO is checked first, then the line of R88 for the opcode. -/
theorem decodeTotal : Obligations.DecodeTotal := by
  refine fun c => ⟨?_, fun i h => fields_of_decodeFields (decode_eq_ok_iff.1 h).2⟩
  rw [decode_error_iff, decodeFields_error_iff, immField_high]
  rfl

end Sys2Proof
end

section
/-! The frequency accumulator: what FCLR, FACCB and FACC leave, and that the order of the counted bytes does not matter
(40_frequency.md: R115 to R120). -/

namespace Sys2Proof.Machine

open Sys2Proof Sys2Proof.Safety

/-! ### The ends of the three commands -/

/-- The end of a command that changed the table to `ft`: the valid flags cleared (R115), every other field as it was. -/
def retabled (s : State) (ft : FreqTable) : State :=
  { s with status := { ended s.status with treeValid := false, codeValid := false }, table := ft }

theorem exec_fclr_done {s : State} (h : Ready s) : exec .fclr s = .next (retabled s FreqTable.zero) :=
  exec_done (i := .fclr) nofun nofun h rfl

/-- FACCB below MAXLEN counts its symbol (R117). -/
theorem bodyFaccb_done {s : State} (h : s.table.total ≠ 0xFFFFFFFF#32) (sym : Byte) :
    bodyFaccb sym s = .done ((clearValid s).setTable (s.table.add sym)) := by
  have below : (s.table.total.toNat == Config.maxLen) = false :=
    beq_eq_false_iff_ne.2 fun e => h (BitVec.eq_of_toNat_eq e)
  rw [bodyFaccb, guardRaise_pass below, Ran.andThen_done]

/-- FACCB at MAXLEN raises before any write (R117). -/
theorem bodyFaccb_full {s : State} (h : s.table.total = 0xFFFFFFFF#32) (sym : Byte) :
    bodyFaccb sym s = .raised ⟨.capCount, s.table.total⟩ s := by
  have full : (s.table.total.toNat == Config.maxLen) = true := beq_iff_eq.2 (congrArg BitVec.toNat h)
  rw [bodyFaccb, guardRaise_fail full, Ran.andThen_raised]

theorem exec_faccb_done {s : State} (h : Ready s) (hm : s.table.total ≠ 0xFFFFFFFF#32) (sym : Byte) :
    exec (.faccb sym) s = .next (retabled s (s.table.add sym)) :=
  exec_done (i := .faccb sym) nofun nofun h (bodyFaccb_done (s := accept s) hm sym)

theorem exec_faccb_full {s : State} (h : Ready s) (hm : s.table.total = 0xFFFFFFFF#32) (sym : Byte) :
    exec (.faccb sym) s = .next (failed s 0x0105#32 s.table.total) :=
  exec_failed (i := .faccb sym) nofun nofun h ErrorKind.code_capCount (bodyFaccb_full (s := accept s) hm sym)

/-- FACC whose bytes would take TOTAL past MAXLEN raises before any write (R118). -/
theorem bodyFacc_full {s : State} (hin : s.inLen ≤ s.params.ibufSize)
    (hm : Config.maxLen < s.table.total.toNat + s.inLen.toNat) :
    bodyFacc s = .raised ⟨.capCount, s.table.total⟩ s := by
  rw [bodyFacc, checkIn_pass hin, Ran.andThen_done, guardRaise_fail (decide_eq_true hm), Ran.andThen_raised]

theorem exec_facc_done {s : State} (h : Ready s) (hin : s.inLen ≤ s.params.ibufSize)
    (hm : s.table.total.toNat + s.inLen.toNat ≤ Config.maxLen) :
    exec .facc s = .next { retabled s (s.table.addAll (inputBytes s)) with inPtr := s.inLen } :=
  exec_done (i := .facc) nofun nofun h (bodyFacc_done (s := accept s) hin hm)

theorem exec_facc_full {s : State} (h : Ready s) (hin : s.inLen ≤ s.params.ibufSize)
    (hm : Config.maxLen < s.table.total.toNat + s.inLen.toNat) :
    exec .facc s = .next (failed s 0x0105#32 s.table.total) :=
  exec_failed (i := .facc) nofun nofun h ErrorKind.code_capCount (bodyFacc_full (s := accept s) hin hm)

theorem exec_facc_inlen {s : State} (h : Ready s) (hin : s.params.ibufSize < s.inLen) :
    exec .facc s = .next (failed s 0x0305#32 s.inLen) :=
  (inlenErrors s h hin).1 .facc (List.mem_cons_self ..)

/-! ### What is counted -/

theorem inputBytes_length (s : State) : (inputBytes s).length = s.inLen.toNat := ibufSlice_length s 0 _

/-- IN_LEN is a 32-bit register, so the input alone never passes MAXLEN (R119). -/
theorem inputBytes_length_le (s : State) : (inputBytes s).length ≤ Config.maxLen :=
  inputBytes_length s ▸ Nat.le_pred_of_lt s.inLen.isLt

/-- NSYM is the number of the symbols present (R22). -/
theorem nsym_of_tableOk {ft : FreqTable} (h : TableOk ft) : ft.nsym.toNat = (presentSymbols ft).length :=
  h.2.trans (presentSymbols_length ft).symm

/-- Counting does not depend on the order of the bytes (R118, R120). -/
theorem counts_perm {ft : FreqTable} {bs cs : List Byte} (h : Counts ft bs) (hp : bs.Perm cs) : Counts ft cs := by
  obtain ⟨hcount, htotal, hnsym⟩ := h
  exact ⟨fun sym => (hcount sym).trans (hp.count_eq sym), htotal.trans hp.length_eq,
    hnsym.trans hp.dedup.length_eq⟩

/-- The two orders of a sequence give one table. -/
theorem addAll_zero_perm {bs cs : List Byte} (hp : bs.Perm cs) (hl : bs.length ≤ Config.maxLen) :
    FreqTable.zero.addAll bs = FreqTable.zero.addAll cs :=
  counts_unique (counts_perm (addAll_zero_counts hl) hp) (addAll_zero_counts (hp.length_eq ▸ hl))

/-- The word of FACCB as R117 writes it: the fields, joined by shifts and ORs. -/
theorem encode_faccb (sym : Byte) : encode (.faccb sym) = 0x00000002#32 ||| (sym.setWidth 32 <<< 8) := by
  rw [encode, operand, opcode]
  simp only [BitVec.append_def, BitVec.shiftLeftZeroExtend_eq, BitVec.setWidth'_eq]
  simp [BitVec.or_comm]

/-! ### The statements -/

/-- Settles O14: CheckIn comes before the COUNT test, and past both the loop counts the input bytes. -/
theorem faccResult : Obligations.FaccResult := by
  have word : decode 0x00000003#32 = .ok .facc := decode_of_encode_eq rfl rfl
  refine ⟨word, fun s hr => ⟨exec_facc_inlen hr, exec_facc_full hr, fun hin hm hok => ?_⟩⟩
  have room : s.table.total.toNat + (inputBytes s).length ≤ Config.maxLen := (inputBytes_length s).symm ▸ hm
  obtain ⟨hok', htotal, hcount⟩ := addAll_spec hok room
  rw [inputBytes_length] at htotal
  exact ⟨_, exec_facc_done hr hin hm, hcount, htotal, nsym_of_tableOk hok', rfl⟩

/-- Settles O15: both ways count the bytes from the clear table, and the order of the bytes does not matter. -/
theorem countingInAnyOrder : Obligations.CountingInAnyOrder := by
  intro s u bs hs hu hin htotal hnsym hcount hp
  have hclear : s.table = FreqTable.zero :=
    table_eq_of_count (fun sym => (hcount sym).trans (zero_count sym).symm) htotal hnsym
  have hlen : (inputBytes s).length ≤ Config.maxLen := inputBytes_length_le s
  have hlen' : bs.length ≤ Config.maxLen := hp.length_eq ▸ hlen
  have hfacc : exec .facc s = .next { retabled s (FreqTable.zero.addAll (inputBytes s)) with inPtr := s.inLen } :=
    hclear ▸ exec_facc_done hs hin (by rwa [htotal, BitVec.toNat_zero, Nat.zero_add, ← inputBytes_length])
  obtain ⟨v, hfaccb, -, hv⟩ := execAll_faccb bs (u := retabled u FreqTable.zero) ⟨rfl, hu.2⟩
    (by simpa only [retabled, zero_total, BitVec.toNat_zero, Nat.zero_add] using hlen')
  have hall : execAll (.fclr :: bs.map .faccb) u = .next v := by
    rw [execAll, exec_fclr_done hu]
    exact hfaccb
  exact ⟨_, v, hfacc, hall, addAll_zero_counts hlen, hv.trans (addAll_zero_perm hp hlen')⟩

/-- Settles O12: the table FCLR leaves is the clear one. -/
theorem fclrResult : Obligations.FclrResult := by
  have word : decode 0x00000001#32 = .ok .fclr := decode_of_encode_eq rfl rfl
  exact ⟨word, fun _ hr => ⟨_, exec_fclr_done hr, zero_count, zero_total, zero_nsym, rfl⟩⟩

/-- Settles O13: the guard lets the count through or raises before it. -/
theorem faccbResult : Obligations.FaccbResult := by
  intro s sym hr
  refine ⟨decode_of_encode_eq rfl (encode_faccb sym), fun hm => ?_, fun hm => exec_faccb_full hr hm sym⟩
  exact ⟨_, exec_faccb_done hr hm sym, add_count_same s.table sym, fun _ => add_count_other s.table,
    add_total s.table sym, rfl, rfl⟩

end Sys2Proof.Machine
end

section
/-! The tree builder: what TBLD leaves, the greedy rule it follows, what it depends on, and the worked tie-break
(41_tree.md: R130 to R141). -/

namespace Sys2Proof.Machine

open Sys2Proof Sys2Proof.Safety

/-! ### ROOT and TBLD with CGEN after it -/

/-- The empty tree has ROOT.handle = 0 and no internal node (R47, R137). -/
theorem rootOk_empty {ft : FreqTable} {t : Tree} (h : RootOk ft t) (he : t.nonempty = false) :
    t.root = 0#9 ∧ t.nint = 0#8 := by
  unfold RootOk at h
  split at h
  · exact ⟨h.2.2, h.2.1⟩
  · exact flag_absurd (he.symm.trans h.1)

/-- A tree with an internal node is not empty. -/
theorem rootOk_nonempty {ft : FreqTable} {t : Tree} (h : RootOk ft t) {k : Byte} (hk : k < t.nint) :
    t.nonempty = true := by
  by_contra he
  rw [(rootOk_empty h (Bool.eq_false_iff.2 he)).2] at hk
  exact BitVec.not_lt_zero hk

/-- TBLD leaves its tree valid, so CGEN, issued next, ends with the codes of that tree (R137, R152). -/
theorem exec_cgen_after_tbld {s : State} (h : Ready s) {ct : CodeTable}
    (hct : codesOf (buildTree s.table s.tree) = some ct) :
    ∃ t u, exec .tbld s = .next t ∧ exec .cgen t = .next u ∧ t.tree = buildTree s.table s.tree ∧ u.code = ct := by
  obtain ⟨t, htbld, htree, hready, hvalid⟩ : ∃ t, exec .tbld s = .next t ∧ t.tree = buildTree s.table s.tree ∧
      Ready t ∧ t.status.treeValid = true := ⟨_, exec_tbld_done h, rfl, ⟨rfl, h.2⟩, rfl⟩
  exact ⟨t, _, htbld, exec_cgen_done hready hvalid (htree ▸ hct), htree, rfl⟩

/-! ### Weights -/

/-- Every internal node made is a node of the one tree under ROOT (R138). -/
theorem buildTree_node_rep {ft : FreqTable} (hft : TableOk ft) (t : Tree) {k : Byte} (hk : k < (buildTree ft t).nint) :
    ∃ U, Rep (buildTree ft t) (nodeHandle k) U ∧ U.depth < 256 := by
  obtain ⟨-, hroot, htree⟩ := buildTree_spec hft t
  obtain ⟨T, hT, hleaves, hnodes⟩ := htree (rootOk_nonempty hroot hk)
  have hmem : k ∈ T.nodes := hnodes.symm.subset
    (List.mem_map.2 ⟨k.toNat, List.mem_range.2 (BitVec.lt_def.1 hk), by simp⟩)
  obtain ⟨U, hU, hd⟩ := hT.of_node hmem
  exact ⟨U, hU, hd.trans_lt (Rep.depth_lt hleaves)⟩

/-- The weight of an internal node is the sum of the counts of the leaves under it (R139). -/
theorem buildTree_weight {ft : FreqTable} (hft : TableOk ft) (t : Tree) {k : Byte} (hk : k < (buildTree ft t).nint) :
    ((buildTree ft t).entry k).weight.toNat =
      ((leavesUnder (buildTree ft t) 256 (nodeHandle k)).map fun sym => (ft.count sym).toNat).sum := by
  obtain ⟨U, hU, hd⟩ := buildTree_node_rep hft t hk
  rw [hU.leavesUnder_eq hd, ← HTree.weight_eq, ← hU.nodeWeight_eq (buildTree_ok hft t).entries, nodeWeight_nodeHandle]

/-- The weight of ROOT is TOTAL, the sum over the present symbols (R139). -/
theorem buildTree_root_weight {ft : FreqTable} (hft : TableOk ft) (t : Tree) (hne : (buildTree ft t).nonempty = true) :
    nodeWeight ft (buildTree ft t) (buildTree ft t).root = ft.total := by
  have hok := buildTree_ok hft t
  obtain ⟨T, hT, hleaves⟩ := treeOk_rep hok hne
  apply BitVec.eq_of_toNat_eq
  calc (nodeWeight ft (buildTree ft t) (buildTree ft t).root).toNat
      _ = T.weight ft := hT.nodeWeight_eq hok.entries
      _ = (T.leaves.map fun sym => (ft.count sym).toNat).sum := T.weight_eq ft
      _ = ((presentSymbols ft).map fun sym => (ft.count sym).toNat).sum := (hleaves.map _).sum_eq
      _ = ft.total.toNat := by rw [hft.1, freq_sum_present]

/-! ### The statements about every table -/

/-- Settles O16: the tree under ROOT has the shape, and the weights add up along it. -/
theorem tbldResult : Obligations.TbldResult := fun s hr hft =>
  ⟨_, exec_tbld_done hr, buildTree_ok hft s.tree, fun _ => buildTree_weight hft s.tree,
    buildTree_root_weight hft s.tree, rfl⟩

/-- Settles O17: the merge loop removes the two lowest keys of LIVE at each pass and ends with ROOT. -/
theorem tbldMergesTheTwoLowest : Obligations.TbldMergesTheTwoLowest := by
  refine ⟨decode_of_encode_eq rfl rfl, fun s hr hft => ?_⟩
  obtain ⟨hmerges, hlive⟩ := buildTree_greedy hft s.tree
  have hok := buildTree_ok hft s.tree
  refine ⟨_, exec_tbld_done hr, fun k hk => ?_, hlive, rootOk_empty hok.root, rfl⟩
  obtain ⟨-, -, hne, hweight, hlsym⟩ := hok.entries k hk
  refine ⟨hmerges k hk, hne, BitVec.eq_of_toNat_eq ?_, hlsym⟩
  rw [BitVec.toNat_add, ← hweight, Nat.mod_eq_of_lt (BitVec.isLt _)]

/-- Settles O18: TBLD reads FREQ alone and nothing of the old tree, and CGEN reads what TBLD made. -/
theorem tbldFunctionOfFreq : Obligations.TbldFunctionOfFreq := by
  intro s u hs hu hft hfreq
  have htree : buildTree u.table u.tree = buildTree s.table u.tree := (buildTree_congr hfreq u.tree).symm
  obtain ⟨hagree, hne, hroot⟩ := buildTree_agree hft s.tree u.tree
  obtain ⟨ct, hct⟩ := treeOk_codesOf_isSome (buildTree_ok hft s.tree)
  have hct' : codesOf (buildTree u.table u.tree) = some ct := by
    rw [htree, codesOf_buildTree hft s.tree, hct]
  obtain ⟨t, t', htbld, hcgen, ht, hcode⟩ := exec_cgen_after_tbld hs hct
  obtain ⟨v, v', htbld', hcgen', hv, hcode'⟩ := exec_cgen_after_tbld hu hct'
  refine ⟨t, v, htbld, htbld', ?_, ?_, ?_, ?_, t', v', hcgen, hcgen', hcode.trans hcode'.symm⟩ <;> rw [ht, hv, htree]
  · exact hagree.nint.symm
  · exact hne.symm
  · exact hroot.symm
  · exact fun k hk => (hagree.entries k hk).symm

/-! ### The worked tie-break -/

/-- One pass of the merge loop (R137). -/
theorem mergeLoop_pass {ft : FreqTable} {t : Tree} {live live₁ live₂ : List Handle} {a b : Handle}
    (ha : takeMin ft t live = some (a, live₁)) (hb : takeMin ft t live₁ = some (b, live₂)) (n : Nat) :
    mergeLoop ft (n + 1) live t = mergeLoop ft n (nodeHandle t.nint :: live₂) (t.merge ft a b) := by
  simp only [mergeLoop, ha, hb]

theorem takeMin_singleton (ft : FreqTable) (t : Tree) (a : Handle) : takeMin ft t [a] = some (a, []) := by
  simp [takeMin, minFrom]

/-- The loop stops at one member (R137). -/
theorem mergeLoop_singleton (ft : FreqTable) (t : Tree) (a : Handle) (n : Nat) : mergeLoop ft n [a] t = ([a], t) := by
  cases n with
  | zero => rfl
  | succ n => rw [mergeLoop, takeMin_singleton]; rfl

/-- R141's frequencies: 0x09 once, 0x05 twice, 0x07 three times. -/
def TieCounts (ft : FreqTable) : Prop :=
  ∀ sym, ft.count sym =
    if sym = 0x09#8 then 1#32 else if sym = 0x05#8 then 2#32 else if sym = 0x07#8 then 3#32 else 0#32

/-- R141's first merge, over an empty node store. -/
def tieFirst (ft : FreqTable) (t : Tree) : Tree :=
  { t with nint := 0#8 }.merge ft (leafHandle 0x09#8) (leafHandle 0x05#8)

/-- R141's second merge. -/
def tieSecond (ft : FreqTable) (t : Tree) : Tree := (tieFirst ft t).merge ft (leafHandle 0x07#8) (nodeHandle 0#8)

/-- The tree R141 lists: leaf 0x07 on the left of the root, 0x09 and 0x05 under node 0 on its right. -/
def tieShape : HTree := .node 1#8 (.leaf 0x07#8) (.node 0#8 (.leaf 0x09#8) (.leaf 0x05#8))

section

variable {ft : FreqTable} (h : TieCounts ft) (t : Tree)

include h

theorem tie_liveLeaves : liveLeaves ft = [leafHandle 0x05#8, leafHandle 0x07#8, leafHandle 0x09#8] := by
  have hpresent : presentSymbols ft = [0x05#8, 0x07#8, 0x09#8] := by
    rw [presentSymbols_eq, show ft.count = _ from funext h]
    decide
  rw [liveLeaves, entries_eq_present, hpresent]
  rfl

/-- The first pass removes 0x09 and then 0x05, the two lowest weights. -/
theorem tie_first_removals :
    takeMin ft t [leafHandle 0x05#8, leafHandle 0x07#8, leafHandle 0x09#8] =
        some (leafHandle 0x09#8, [leafHandle 0x05#8, leafHandle 0x07#8]) ∧
      takeMin ft t [leafHandle 0x05#8, leafHandle 0x07#8] = some (leafHandle 0x05#8, [leafHandle 0x07#8]) := by
  have hleft : minFrom ft t (leafHandle 0x05#8) [leafHandle 0x07#8, leafHandle 0x09#8] = leafHandle 0x09#8 := by
    simp [minFrom, keyBelow, h _]
  have hright : minFrom ft t (leafHandle 0x05#8) [leafHandle 0x07#8] = leafHandle 0x05#8 := by
    simp [minFrom, keyBelow, h _]
  rw [takeMin, takeMin, hleft, hright]
  exact ⟨rfl, rfl⟩

/-- Node 0 weighs what its two leaves do and takes the symbol of its left one. -/
theorem tieFirst_entry : (tieFirst ft t).entry 0#8 = ⟨3#32, leafHandle 0x09#8, leafHandle 0x05#8, 0x09#8⟩ := by
  have he := merge_entry_new (ft := ft) (t := { t with nint := 0#8 }) (leafHandle 0x09#8) (leafHandle 0x05#8)
    (show 0 < 255 by decide)
  rw [nodeWeight_leafHandle, nodeWeight_leafHandle, nodeLsym_leafHandle, h, h] at he
  exact he

/-- Node 0 and leaf 0x07 tie at weight 3, and the symbols of the left-most leaves decide: 0x07 is below 0x09. -/
theorem tie_second_removal :
    takeMin ft (tieFirst ft t) [nodeHandle 0#8, leafHandle 0x07#8] = some (leafHandle 0x07#8, [nodeHandle 0#8]) := by
  have hweight : nodeWeight ft (tieFirst ft t) (nodeHandle 0#8) = nodeWeight ft (tieFirst ft t) (leafHandle 0x07#8) := by
    rw [nodeWeight_nodeHandle, nodeWeight_leafHandle, tieFirst_entry h, h]
    rfl
  have hlsym : nodeLsym (tieFirst ft t) (nodeHandle 0#8) = 0x09#8 := by
    rw [nodeLsym_nodeHandle, tieFirst_entry h]
  have hmin : minFrom ft (tieFirst ft t) (nodeHandle 0#8) [leafHandle 0x07#8] = leafHandle 0x07#8 := by
    simp [minFrom, keyBelow, -nodeWeight_nodeHandle, -nodeLsym_nodeHandle, hweight, hlsym]
  rw [takeMin, hmin]
  rfl

/-- TBLD makes R141's two merges and ends at node 1. -/
theorem tie_buildTree : buildTree ft t = (tieSecond ft t).setRoot [nodeHandle 1#8] := by
  obtain ⟨ha, hb⟩ := tie_first_removals h { t with nint := 0#8 }
  have hloop : mergeLoop ft 3 (liveLeaves ft) { t with nint := 0#8 } = ([nodeHandle 1#8], tieSecond ft t) := by
    calc mergeLoop ft 3 (liveLeaves ft) { t with nint := 0#8 }
        _ = mergeLoop ft 2 [nodeHandle 0#8, leafHandle 0x07#8] (tieFirst ft t) := by
          rw [tie_liveLeaves h]; exact mergeLoop_pass ha hb 2
        _ = mergeLoop ft 1 [nodeHandle 1#8] (tieSecond ft t) :=
          mergeLoop_pass (tie_second_removal h t) (takeMin_singleton ..) 1
        _ = ([nodeHandle 1#8], tieSecond ft t) := mergeLoop_singleton ..
  have hlen : (liveLeaves ft).length = 3 := by rw [tie_liveLeaves h]; rfl
  simp only [buildTree, hlen, hloop]

/-- Node 0 is the first merge, and the root, node 1, has leaf 0x07 on its left and node 0 on its right. -/
theorem tie_entries :
    (buildTree ft t).entry 0#8 = ⟨3#32, leafHandle 0x09#8, leafHandle 0x05#8, 0x09#8⟩ ∧
      ((buildTree ft t).entry 1#8).left = leafHandle 0x07#8 ∧ ((buildTree ft t).entry 1#8).right = nodeHandle 0#8 := by
  have hold : (tieSecond ft t).entry 0#8 = (tieFirst ft t).entry 0#8 := merge_entry_old _ _ (show 0#8 < 1#8 by decide)
  have hnew : (tieSecond ft t).entry 1#8 = _ :=
    merge_entry_new (t := tieFirst ft t) (leafHandle 0x07#8) (nodeHandle 0#8) (show 1 < 255 by decide)
  rw [tie_buildTree h, setRoot_entry, setRoot_entry, hold, hnew]
  exact ⟨tieFirst_entry h t, rfl, rfl⟩

/-- ROOT stands for leaf 0x07 beside node 0, which has 0x09 and 0x05. -/
theorem tie_rep : Rep (buildTree ft t) (buildTree ft t).root tieShape := by
  obtain ⟨hzero, hleft, hright⟩ := tie_entries h t
  have hnint : (buildTree ft t).nint = 2#8 := by rw [tie_buildTree h]; rfl
  have hroot : (buildTree ft t).root = nodeHandle 1#8 := by rw [tie_buildTree h]; rfl
  have hsub : Rep (buildTree ft t) (nodeHandle 0#8) (.node 0#8 (.leaf 0x09#8) (.leaf 0x05#8)) :=
    .node _ _ _ (by rw [hnint]; decide) (by rw [hzero]; exact .leaf _) (by rw [hzero]; exact .leaf _)
  rw [hroot]
  exact .node _ _ _ (by rw [hnint]; decide) (by rw [hleft]; exact .leaf _) (by rw [hright]; exact hsub)

end

/-- Settles O19: the tie puts 0x07 on the left of the root, and the codes are the paths of that tree. -/
theorem tieBreakExample : Obligations.TieBreakExample := by
  intro s hr h
  have hne : (buildTree s.table s.tree).nonempty = true := by rw [tie_buildTree h]; rfl
  obtain ⟨ct, hct, hcodes⟩ := (tie_rep h s.tree).codesOf_eq hne (by decide) (by decide)
  obtain ⟨t, u, htbld, hcgen, htree, hcode⟩ := exec_cgen_after_tbld hr hct
  obtain ⟨hzero, hleft, hright⟩ := tie_entries h s.tree
  refine ⟨t, u, htbld, hcgen, ?_⟩
  rw [htree, hcode, hzero, hleft, hright]
  exact ⟨rfl, rfl, rfl, hcodes.code (0x07#8, [false]) (by decide), hcodes.code (0x09#8, [true, false]) (by decide),
    hcodes.code (0x05#8, [true, true]) (by decide)⟩

end Sys2Proof.Machine
end

section
/-! The code table: what CGEN leaves, that none of its codes begins another, and its Kraft sum (42_codebook.md:
R150 to R154). -/

namespace Sys2Proof.Machine

open Sys2Proof Sys2Proof.Safety

/-! ### CGEN without a tree -/

/-- CGEN on a ready machine without a valid tree raises after it has cleared CODE_VALID (R152, R259). -/
theorem exec_cgen_notree {s : State} (h : Ready s) (hv : s.status.treeValid = false) :
    exec .cgen s =
      .next (failed { s with status := { s.status with codeValid := false } } 0x0104#32 0#32) := by
  have hbody : bodyCgen (accept s) = .raised ⟨.seqNotree, 0#32⟩ (clearCodeValid (accept s)) := by
    rw [bodyCgen, needTree_fail (by exact hv), Ran.andThen_raised]
  rw [exec_raised (i := .cgen) nofun nofun h hbody, ← ErrorKind.code_seqNotree]
  rfl

/-! ### One leaf or more -/

theorem HTree.eq_leaf_of_one {T : HTree} (h : T.leaves.length = 1) : ∃ b, T = .leaf b := by
  cases T with
  | leaf b => exact ⟨b, rfl⟩
  | node k l r =>
    have hleft := l.leaves_length_pos
    have hright := r.leaves_length_pos
    rw [leaves, List.length_append] at h
    omega

/-- Only the code of a single leaf is not its path (R152). -/
theorem HTree.codes_eq_paths {T : HTree} (h : 2 ≤ T.leaves.length) : T.codes = T.paths := by
  cases T with
  | leaf b => exact absurd h (by simp [leaves])
  | node k l r => rfl

/-! ### The codes of a represented tree -/

section

variable {ct : CodeTable} {T : HTree} (hc : CodesTree ct T)

include hc

/-- The symbols with a code are those of the leaves (R153 (a)). -/
theorem CodesTree.len_ne_zero_iff (sym : Byte) : ct.len sym ≠ 0#8 ↔ sym ∈ T.leaves := by
  constructor
  · intro hlen
    by_contra habsent
    exact hlen (hc.absent sym habsent).1
  · intro hleaf hlen
    have hmem := hc.mem_codes hleaf
    have hzero : (codeBits ct sym).length = 0 := by rw [codeBits_length, hlen]; rfl
    exact HTree.codes_ne_nil hmem (List.eq_nil_of_length_eq_zero hzero)

/-- No code is the beginning of another symbol's (R153 (b), (d)). -/
theorem CodesTree.eq_of_prefix {a b : Byte} (ha : ct.len a ≠ 0#8) (hb : ct.len b ≠ 0#8)
    (hp : codeBits ct a <+: codeBits ct b) : a = b := by
  have hmem {c : Byte} (h : ct.len c ≠ 0#8) := hc.mem_codes ((hc.len_ne_zero_iff c).1 h)
  exact congrArg Prod.fst (HTree.codes_prefix (hmem ha) (hmem hb) hp)

/-- The only leaf has the code "0" (R152, R153 (c)). -/
theorem CodesTree.codeBits_of_one_leaf (hone : T.leaves.length = 1) {a : Byte} (ha : ct.len a ≠ 0#8) :
    codeBits ct a = [false] := by
  obtain ⟨b, rfl⟩ := HTree.eq_leaf_of_one hone
  have hmem := hc.mem_codes ((hc.len_ne_zero_iff a).1 ha)
  exact congrArg Prod.snd (List.mem_singleton.1 hmem)

/-- The Kraft sum of the table is that of the tree's codes (R154). -/
theorem CodesTree.kraft_eq :
    (T.leaves.map fun sym => (1 / 2 : ℚ) ^ (ct.len sym).toNat).sum =
      (T.codes.map fun e => (1 / 2 : ℚ) ^ e.2.length).sum := by
  rw [← T.codes_fst, List.map_map]
  exact congrArg List.sum (List.map_congr_left fun e he => congrArg ((1 / 2 : ℚ) ^ ·) (hc.len e he))

/-- A bit string no shorter than the tree is deep begins with exactly one code (R154): it runs into a leaf, and of two
codes it begins with, the shorter one begins the other. -/
theorem CodesTree.existsUnique_prefix (htwo : 2 ≤ T.leaves.length) {bits : List Bool} (hlong : T.depth ≤ bits.length) :
    ∃! sym, ct.len sym ≠ 0#8 ∧ codeBits ct sym <+: bits := by
  obtain ⟨e, he, hp⟩ := T.paths_cover bits hlong
  have hleaf : e.1 ∈ T.leaves := T.paths_fst ▸ List.mem_map_of_mem he
  have hlen : ct.len e.1 ≠ 0#8 := (hc.len_ne_zero_iff e.1).2 hleaf
  rw [← hc.code e (HTree.codes_eq_paths htwo ▸ he)] at hp
  refine ⟨e.1, ⟨hlen, hp⟩, fun sym ⟨hlen', hp'⟩ => ?_⟩
  obtain h | h := List.prefix_or_prefix_of_prefix hp' hp
  · exact hc.eq_of_prefix hlen' hlen h
  · exact (hc.eq_of_prefix hlen hlen' h).symm

end

/-! ### The codes of a tree as TBLD leaves it -/

section

variable {ft : FreqTable} {t : Tree} (h : TreeOk ft t) {ct : CodeTable} (hct : codesOf t = some ct)

include h hct

/-- With a symbol present there is a tree under ROOT, and the table holds its codes. -/
theorem treeOk_codesTree (hp : presentSymbols ft ≠ []) : ∃ T, T.leaves.Perm (presentSymbols ft) ∧ CodesTree ct T := by
  obtain ⟨T, -, hl, hc⟩ | ⟨hnone, -⟩ := treeOk_codes_cases h hct
  · exact ⟨T, hl, hc⟩
  · exact absurd hnone hp

/-- Exactly the present symbols have a code (R153 (a)). -/
theorem treeOk_len_ne_zero_iff (sym : Byte) : ct.len sym ≠ 0#8 ↔ ft.count sym ≠ 0#32 := by
  rw [← mem_presentSymbols]
  obtain ⟨T, -, hl, hc⟩ | ⟨hnone, rfl⟩ := treeOk_codes_cases h hct
  · rw [hc.len_ne_zero_iff, hl.mem_iff]
  · rw [hnone, zero_len]
    exact iff_of_false (fun hlen => hlen rfl) List.not_mem_nil

/-- A symbol with a code is a leaf of a tree whose codes the table holds. -/
theorem treeOk_codesTree_of_len {sym : Byte} (hlen : ct.len sym ≠ 0#8) :
    ∃ T, T.leaves.Perm (presentSymbols ft) ∧ CodesTree ct T :=
  treeOk_codesTree h hct (List.ne_nil_of_mem (mem_presentSymbols.2 ((treeOk_len_ne_zero_iff h hct sym).1 hlen)))

/-- A table with `n` symbols, `n` not 0, has a tree of `n` leaves (R22, R138), with the Kraft sum of its codes. -/
theorem treeOk_codesTree_of_nsym (hft : TableOk ft) (hn : ft.nsym.toNat ≠ 0) :
    ∃ T, T.leaves.length = ft.nsym.toNat ∧ T.depth < 256 ∧ CodesTree ct T ∧
      ((presentSymbols ft).map fun sym => (1 / 2 : ℚ) ^ (ct.len sym).toNat).sum =
        (T.codes.map fun e => (1 / 2 : ℚ) ^ e.2.length).sum := by
  have hlength := nsym_of_tableOk hft
  have hp : presentSymbols ft ≠ [] := List.ne_nil_of_length_pos (hlength ▸ Nat.pos_of_ne_zero hn)
  obtain ⟨T, hl, hc⟩ := treeOk_codesTree h hct hp
  exact ⟨T, hl.length_eq.trans hlength.symm, Rep.depth_lt hl, hc, (hl.map _).sum_eq.symm.trans hc.kraft_eq⟩

end

/-! ### The statements -/

/-- Settles O20: the walk on a tree TBLD left records its paths, and without a tree CGEN raises before the walk. -/
theorem cgenResult : Obligations.CgenResult := by
  refine ⟨decode_of_encode_eq rfl rfl, fun s hr => ⟨fun hv htree => ?_, exec_cgen_notree hr⟩⟩
  obtain ⟨ct, hct, hcodes⟩ := treeOk_codesOk htree
  exact ⟨_, exec_cgen_done hr hv hct, hcodes, rfl⟩

/-- Settles O21: the codes are the paths to the leaves of one tree, whose leaves are the present symbols. -/
theorem codesPrefixFree : Obligations.CodesPrefixFree := by
  intro s hr hft hv htree
  obtain ⟨ct, hct⟩ := treeOk_codesOf_isSome htree
  refine ⟨_, exec_cgen_done hr hv hct, treeOk_len_ne_zero_iff htree hct, fun a b ha hb hp => ?_, fun a hone ha => ?_,
    fun bs hbs => payloadBits_length hbs ct⟩
  · obtain ⟨T, -, hc⟩ := treeOk_codesTree_of_len htree hct ha
    exact hc.eq_of_prefix ha hb hp
  · obtain ⟨T, hleaves, -, hc, -⟩ := treeOk_codesTree_of_nsym htree hct hft (by rw [hone]; decide)
    exact hc.codeBits_of_one_leaf (hleaves.trans (congrArg BitVec.toNat hone)) ha

/-- Settles O22: with two or more leaves the codes are the paths of a strict binary tree, and a single leaf has the code "0". -/
theorem kraftSum : Obligations.KraftSum := by
  intro s hr hft hv htree
  obtain ⟨ct, hct⟩ := treeOk_codesOf_isSome htree
  refine ⟨_, exec_cgen_done hr hv hct, fun htwo => ?_, fun hone => ?_⟩
  · obtain ⟨T, hleaves, hdepth, hc, hsum⟩ := treeOk_codesTree_of_nsym htree hct hft (by omega)
    have htwo' : 2 ≤ T.leaves.length := hleaves ▸ htwo
    refine ⟨?_, fun bits hlong => hc.existsUnique_prefix htwo' (by omega)⟩
    rw [hsum, HTree.codes_eq_paths htwo', T.kraft]
  · obtain ⟨T, hleaves, -, hc, hsum⟩ := treeOk_codesTree_of_nsym htree hct hft (by rw [hone]; decide)
    have hone' : T.leaves.length = 1 := hleaves.trans (congrArg BitVec.toNat hone)
    refine ⟨?_, fun bits sym hlen => ?_⟩
    · obtain ⟨b, rfl⟩ := HTree.eq_leaf_of_one hone'
      rw [hsum]
      simp [HTree.codes]
    · rw [hc.codeBits_of_one_leaf hone' hlen, List.cons_prefix_cons]
      exact fun ⟨hbit, _⟩ => Bool.false_ne_true hbit

end Sys2Proof.Machine
end

section
/-! The bit-serial packer: what PINIT, PBIT, PSYM, PACK and PFLUSH leave, and the byte-count law (43_bitwriter.md: R165 to
R173). -/

namespace Sys2Proof.Machine

open Sys2Proof Sys2Proof.Safety

/-! ### The words -/

/-- A command word as the rules write it: OP, and IMM shifted above it (R85). -/
theorem encode_eq_or (i : Instr) : encode i = (opcode i).setWidth 32 ||| ((operand i).setWidth 32 <<< 8) := by
  rw [encode]
  simp only [BitVec.append_def, BitVec.shiftLeftZeroExtend_eq, BitVec.setWidth'_eq]
  simp [BitVec.or_comm]

theorem bitByte_eq (b : Bool) : bitByte b = if b then 1#8 else 0#8 := by cases b <;> rfl

theorem immBit_bitByte (b : Bool) : immBit (bitByte b) = b := by cases b <;> rfl

/-! ### A byte written, the packer emptied -/

section

variable {i : Instr} (hi : i ≠ .eclr) (hi' : i ≠ .srst) {s : State} (h : Ready s) {v : Byte}
  (hb : bodyOf i (accept s) = (outByte v (accept s)).andThen fun u => .done (emptyPacker u))

include hi hi' h hb

/-- A command that puts one byte out with room for it and empties the packer (R71, R167, R172). -/
theorem exec_emptied (hroom : s.outLen < s.params.obufSize) :
    ∃ t, exec i s = .next t ∧ t.obufByte s.outLen.toNat = v ∧
      (∀ a, a ≠ s.outLen.toNat → t.obufByte a = s.obufByte a) ∧
      t = { s with
        status := ended s.status, packer := ⟨0#8, 0#3⟩, outLen := s.outLen + 1#32, obuf := t.obuf } := by
  rw [outByte_room (s := accept s) hroom, Ran.andThen_done] at hb
  exact ⟨_, exec_done hi hi' h hb, appendByte_obufByte_same v (accept s),
    fun _ ha => appendByte_obufByte_other v (accept s) ha, rfl⟩

/-- The same command where OBUF is full: the packer stays (R71, R260). -/
theorem exec_emptied_full (hfull : s.params.obufSize ≤ s.outLen) :
    exec i s = .next (failed s 0x0205#32 s.outLen) := by
  rw [outByte_full (s := accept s) hfull, Ran.andThen_raised] at hb
  exact exec_failed hi hi' h ErrorKind.code_capObuf hb

end

/-! ### The tests of PSYM and PACK -/

/-- PSYM past its tests (R170). -/
theorem bodyPsym_ready {s : State} {sym : Byte} (hv : s.status.codeValid = true) (hc : s.code.len sym ≠ 0#8) :
    bodyPsym sym s = pushBits (codeBits s.code sym) s := by
  rw [bodyPsym, needCode_pass hv, Ran.andThen_done, pushCode_eq hc]

theorem exec_psym_noCodeTable {s : State} (h : Ready s) (hv : s.status.codeValid = false) (sym : Byte) :
    exec (.psym sym) s = .next (failed s 0x0204#32 0#32) := by
  have hbody : bodyPsym sym (accept s) = .raised ⟨.seqNocodetable, 0#32⟩ (accept s) := by
    rw [bodyPsym, needCode_fail (s := accept s) hv, Ran.andThen_raised]
  exact exec_failed (i := .psym sym) nofun nofun h ErrorKind.code_seqNocodetable hbody

theorem exec_psym_noCode {s : State} (h : Ready s) (hv : s.status.codeValid = true) (sym : Byte)
    (hc : s.code.len sym = 0#8) : exec (.psym sym) s = .next (failed s 0x0006#32 (sym.setWidth 32)) := by
  have hbody : bodyPsym sym (accept s) = .raised ⟨.noCode, sym.setWidth 32⟩ (accept s) := by
    rw [bodyPsym, needCode_pass (s := accept s) hv, Ran.andThen_done, pushCode_noCode (s := accept s) hc]
  exact exec_failed (i := .psym sym) nofun nofun h ErrorKind.code_noCode hbody

theorem exec_pack_noCodeTable {s : State} (h : Ready s) (hin : s.inLen ≤ s.params.ibufSize)
    (hv : s.status.codeValid = false) : exec .pack s = .next (failed s 0x0204#32 0#32) := by
  have hbody : bodyPack (accept s) = .raised ⟨.seqNocodetable, 0#32⟩ (accept s) := by
    rw [bodyPack, checkIn_pass (s := accept s) hin, Ran.andThen_done, needCode_fail (s := accept s) hv,
      Ran.andThen_raised]
  exact exec_failed (i := .pack) nofun nofun h ErrorKind.code_seqNocodetable hbody

/-! ### Bits appended to the output -/

/-- The stream from OUT_LEN on is what is pending (R51, R173). -/
theorem streamFrom_outLen (s : State) : streamFrom s.outLen.toNat s = pendingBits s.packer := by
  rw [streamFrom, obufSlice_self, List.flatMap_nil, List.nil_append]

/-- The normal end of a command whose body appended bits to the output and left IN_PTR at `p` (R230). -/
theorem exec_appended {i : Instr} (hi : i ≠ .eclr) (hi' : i ≠ .srst) {s u : State} (h : Ready s) {p : Word}
    {bits : List Bool} (hb : bodyOf i (accept s) = .done u) (happ : Appended ((accept s).setInPtr p) u)
    (hstream : ∀ a, a ≤ s.outLen.toNat → streamFrom a u = streamFrom a s ++ bits) :
    exec i s = .next (finishDone u) ∧ streamFrom s.outLen.toNat (finishDone u) = pendingBits s.packer ++ bits ∧
      OnlyAppended s (finishDone u) ∧
      finishDone u = { s with
        status := ended s.status, inPtr := p, packer := u.packer, outLen := u.outLen, obuf := u.obuf } :=
  ⟨exec_done hi hi' h hb, streamFrom_outLen s ▸ hstream _ le_rfl, ⟨happ.grows, happ.outside⟩,
    congrArg finishDone happ.only⟩

/-- The end of a command whose body raises: the error, with the packer and IN_PTR as the raise left them (R262). -/
theorem exec_errorEnd {i : Instr} (hi : i ≠ .eclr) (hi' : i ≠ .srst) {s u : State} (h : Ready s) {k : ErrorKind}
    {code info : Word} (hk : k.code = code) (hb : bodyOf i (accept s) = .raised ⟨k, info⟩ u) :
    ∃ t, exec i s = .next t ∧ ErrorEnd t code info ∧ t.packer = u.packer ∧ t.inPtr = u.inPtr :=
  ⟨_, exec_raised hi hi' h hb, hk ▸ errorEnd_of_raised hi hi' hb, rfl, rfl⟩

/-- PACK reads from the front of the input (R171). -/
theorem packStart_inPtr_add (s : State) (m : Nat) : ((accept s).setInPtr 0#32).inPtr.toNat + m = m := Nat.zero_add m

/-! ### The byte-count law -/

/-- Bit `j` of the bytes of OBUF from address `p` on (R64, R96). -/
theorem obufSlice_getElem? (s : State) {p q j : Nat} (hj : j < 8 * (q - p)) :
    ((obufSlice s p q).flatMap byteBits)[j]? = some ((s.obufByte (p + j / 8)).getLsbD (7 - j % 8)) := by
  rw [obufSlice, flatMap_range_bytes s.obufByte, List.getElem?_map, List.getElem?_range hj, Option.map_some]

/-- Zero padding reads as what is beyond the end of a stream. -/
theorem getElem?_padded_getD (bits : List Bool) (pad j : Nat) :
    ((bits ++ List.replicate pad false)[j]?).getD false = (bits[j]?).getD false := by
  by_cases hj : j < bits.length
  · rw [List.getElem?_append_left hj]
  · rw [List.getElem?_append_right (Nat.not_lt.1 hj), List.getElem?_eq_none (Nat.not_lt.1 hj), List.getElem?_replicate]
    split <;> rfl

/-- PFLUSH with room pads the stream with zeros to whole bytes (R172). -/
theorem exec_pflush_pads {s : State} (h : Ready s) (hp : PackerOk s.packer)
    (hroom : s.packer.nb = 0#3 ∨ s.outLen < s.params.obufSize) :
    ∃ t, exec .pflush s = .next t ∧ t.status.done = true ∧ OnlyAppended s t ∧
      t.outLen.toNat = (8 * s.outLen.toNat + s.packer.nb.toNat + 7) / 8 ∧
      ∀ p, p ≤ s.outLen.toNat → ∃ pad,
        (obufSlice t p t.outLen.toNat).flatMap byteBits = streamFrom p s ++ List.replicate pad false := by
  obtain ⟨u, hflush, happ, -, hlen, hpad⟩ := bodyPflush_spec (s := accept s) hp hroom
  refine ⟨_, exec_done (i := .pflush) nofun nofun h hflush, rfl, ⟨happ.grows, happ.outside⟩, hlen,
    fun p hpp => ?_⟩
  obtain ⟨pad, -, hbits⟩ := hpad p hpp
  exact ⟨pad, hbits⟩

/-! ### The statements -/

/-- Settles O25: past its tests PSYM pushes the bits of one code, with or without room for them. -/
theorem psymResult : Obligations.PsymResult := by
  intro s sym hr
  have hbody (hv : s.status.codeValid = true) (hc : s.code.len sym ≠ 0#8) :
      bodyOf (.psym sym) (accept s) = pushBits (codeBits s.code sym) (accept s) :=
    bodyPsym_ready (s := accept s) hv hc
  rw [← codeBits_length]
  refine ⟨decode_of_encode_eq rfl (encode_eq_or (.psym sym)), fun hv => exec_psym_noCodeTable hr hv sym,
    fun hv => exec_psym_noCode hr hv sym, fun hv hc hp hroom => ?_, fun hv hc hp hroom => ?_⟩
  · obtain ⟨u, hpush, happ, hpu, hsize, hstream⟩ := pushBits_spec (codeBits s.code sym) (s := accept s) hp hroom
    obtain ⟨hexec, hbits, honly, hrec⟩ :=
      exec_appended (i := .psym sym) nofun nofun hr (p := s.inPtr) ((hbody hv hc).trans hpush) happ hstream
    exact ⟨_, hexec, hpu, hsize, hbits, honly, hrec⟩
  · obtain ⟨u, hpush, -, hnb, hpending⟩ := pushBits_full (codeBits s.code sym) (s := accept s) hp hroom
    obtain ⟨t, hexec, hend, hpacker, -⟩ :=
      exec_errorEnd (i := .psym sym) nofun nofun hr ErrorKind.code_capObuf ((hbody hv hc).trans hpush)
    exact ⟨t, hexec, hend, hpacker ▸ hnb, hpacker ▸ hpending⟩

/-- Settles O26: past its tests PACK pushes the codes of the input bytes, up to their end, to a byte without a code or to
a full OBUF. -/
theorem packResult : Obligations.PackResult := by
  refine ⟨decode_of_encode_eq rfl rfl, fun s hr => ⟨fun hin => (inlenErrors s hr hin).1 .pack (by decide),
    exec_pack_noCodeTable hr, fun hin hv hp => ?_⟩⟩
  have hbody : bodyOf .pack (accept s) = packBytes s.inLen.toNat ((accept s).setInPtr 0#32) :=
    bodyPack_ready (s := accept s) hin hv
  have hstart := packStart_inPtr_add s
  have hlt (m : Nat) (hm : m ≤ s.inLen.toNat) : ((accept s).setInPtr 0#32).inPtr.toNat + m < 2 ^ 32 :=
    (hstart m).trans_lt (lt_of_le_of_lt hm s.inLen.isLt)
  refine ⟨fun hc hroom => ?_, fun m hm hc hroom h0 => ?_, fun m hm hc hroom => ?_⟩
  · obtain ⟨u, hpack, happ, hpu, hsize, hstream⟩ := packBytes_spec s.inLen.toNat (s := (accept s).setInPtr 0#32) hp
      (hlt _ le_rfl) (by rw [hstart]; exact hc) (by rw [hstart]; exact hroom)
    rw [hstart] at happ hsize hstream
    rw [BitVec.ofNat_toNat, BitVec.setWidth_eq] at happ
    obtain ⟨hexec, hbits, honly, hrec⟩ :=
      exec_appended (i := .pack) nofun nofun hr (hbody.trans hpack) happ hstream
    exact ⟨_, hexec, hpu, hsize, hbits, honly, hrec⟩
  · obtain ⟨u, hpack, hptr⟩ := packBytes_noCode hm (s := (accept s).setInPtr 0#32) hp (hlt _ le_rfl)
      (by rw [hstart]; exact hc) (by rw [hstart]; exact h0) (by rw [hstart]; exact hroom)
    rw [hstart] at hpack hptr
    obtain ⟨t, hexec, hend, -, hptr'⟩ :=
      exec_errorEnd (i := .pack) nofun nofun hr ErrorKind.code_noCode (hbody.trans hpack)
    have hm' : m + 1 < 2 ^ 32 := lt_of_le_of_lt hm s.inLen.isLt
    refine ⟨t, hexec, hend, ?_⟩
    rw [hptr', hptr, BitVec.toNat_ofNat, Nat.mod_eq_of_lt hm']
  · obtain ⟨u, hpack⟩ := packBytes_full m (s := (accept s).setInPtr 0#32) hp (hlt _ hm)
      (by rw [hstart]; exact hc) (by rw [hstart]; exact hroom)
    have hraise : bodyOf .pack (accept s) = .raised ⟨.capObuf, fullAt s⟩ u := by
      rw [hbody, ← Nat.add_sub_of_le hm, packBytes_append, hpack, Ran.andThen_raised]
      rfl
    obtain ⟨t, hexec, hend, -, -⟩ := exec_errorEnd (i := .pack) nofun nofun hr ErrorKind.code_capObuf hraise
    exact ⟨t, hexec, hend⟩

/-- Settles O28: the commands append their bits to an empty stream, and PFLUSH pads it to whole bytes. -/
theorem byteCountLaw : Obligations.ByteCountLaw := by
  intro s is hr hempty hc hroom
  have hnb : s.packer.nb.toNat = 0 := by rw [hempty]; rfl
  have hstart : streamFrom s.outLen.toNat s = [] := by rw [streamFrom_outLen, hempty]; rfl
  obtain ⟨t, hall, hsame, hpacked⟩ := execAll_packs is hr ⟨rfl, rfl, rfl, rfl, rfl⟩ hc (hempty ▸ packerOk_empty)
    (fun _ => by omega)
  have hsize := hpacked.size
  have hgrows := hpacked.grows
  have hroom' : t.packer.nb = 0#3 ∨ t.outLen < t.params.obufSize := by
    rw [BitVec.lt_def, hsame.params, ← BitVec.toNat_inj, BitVec.toNat_ofNat]
    omega
  obtain ⟨v, hflush, hdone, hflushed, hlen, hpad⟩ := exec_pflush_pads hpacked.ready hpacked.packerOk hroom'
  obtain ⟨pad, hbits⟩ := hpad _ hgrows
  have hflushGrows := hflushed.1
  refine ⟨v, ?_, hdone, by omega, fun j hj => ?_, fun a ha => ?_⟩
  · rw [execAll_append is _ hall]
    simp only [execAll, hflush]
  · have hj' := obufSlice_getElem? v hj
    rw [hbits, hpacked.stream _ le_rfl, hstart, List.nil_append] at hj'
    rw [← getElem?_padded_getD _ pad, hj', Option.getD_some]
  · rw [hflushed.2 a (by omega), hpacked.outside a (by omega)]

/-- Settles O23: PINIT's body is the empty packer. -/
theorem pinitResult : Obligations.PinitResult :=
  ⟨decode_of_encode_eq rfl rfl, fun _ hr => exec_done (i := .pinit) nofun nofun hr rfl⟩

/-- Settles O24: the bit stays pending, or it is the eighth and completes a byte. -/
theorem pbitResult : Obligations.PbitResult := by
  intro s b hr
  have word : decode (if b then 0x00000107#32 else 0x00000007#32) = .ok (.pbit (bitByte b)) := by cases b <;> rfl
  simp only [← bitByte_eq]
  have hbody : bodyOf (.pbit (bitByte b)) (accept s) = pushBit b (accept s) :=
    congrArg (pushBit · (accept s)) (immBit_bitByte b)
  have hpending (hnb : s.packer.nb ≠ 7#3) := hbody.trans (if_neg hnb)
  have hlast (hnb : s.packer.nb = 7#3) := hbody.trans (if_pos hnb)
  exact ⟨word, fun hnb => exec_done (i := .pbit (bitByte b)) nofun nofun hr (hpending hnb),
    fun hnb => exec_emptied (i := .pbit (bitByte b)) nofun nofun hr (hlast hnb),
    fun hnb => exec_emptied_full (i := .pbit (bitByte b)) nofun nofun hr (hlast hnb)⟩

/-- Settles O27: with bits pending PFLUSH puts ACC out and empties the packer. -/
theorem pflushResult : Obligations.PflushResult := by
  refine ⟨decode_of_encode_eq rfl rfl, fun s hr => ?_⟩
  have hnone (hnb : s.packer.nb = 0#3) : bodyOf .pflush (accept s) = .done (accept s) := if_pos hnb
  have hsome (hnb : s.packer.nb ≠ 0#3) : bodyOf .pflush (accept s) =
      (outByte s.packer.acc (accept s)).andThen fun u => .done (emptyPacker u) := if_neg hnb
  exact ⟨fun hnb => exec_done (i := .pflush) (u := accept s) nofun nofun hr (hnone hnb),
    fun hnb => exec_emptied (i := .pflush) nofun nofun hr (hsome hnb),
    fun hnb => exec_emptied_full (i := .pflush) nofun nofun hr (hsome hnb)⟩

end Sys2Proof.Machine
end

section
/-! The bit-serial unpacker: what UINIT, USYM and UNPK leave, and DECOMP of a payload cut short (44_bitreader.md: R185
to R194). -/

namespace Sys2Proof.Machine

open Sys2Proof Sys2Proof.Safety

/-! ### The cursor after an end -/

/-- Past the bits that stand at the cursor it has moved by their number (R187). -/
theorem cursorPos_moved_append {s : State} {p q : List Bool} (h : cursorBits s = p ++ q) :
    cursorPos (moved p.length s) = cursorPos s + p.length := by
  by_cases hp : p = []
  · rw [hp, List.length_nil, moved_zero, Nat.add_zero]
  · exact cursorPos_moved (cursorPos_le h hp)

/-- Lowered by at most itself a register does not wrap: REM and the symbols produced make up what was due (R191). -/
theorem word_sub_ofNat_toNat {x : Word} {n : Nat} (h : n ≤ x.toNat) : (x - BitVec.ofNat 32 n).toNat + n = x.toNat := by
  have hx := x.isLt
  rw [BitVec.toNat_sub, BitVec.toNat_ofNat]
  omega

/-- The end of a command whose body raises: the error, with IN_PTR and the unpacker as the raise left them (R262,
R263). -/
theorem exec_raised_cursor {i : Instr} (hi : i ≠ .eclr) (hi' : i ≠ .srst) {s u : State} (h : Ready s) {k : ErrorKind}
    {code info : Word} (hk : k.code = code) (hb : bodyOf i (accept s) = .raised ⟨k, info⟩ u) :
    ∃ t, exec i s = .next t ∧ ErrorEnd t code info ∧ t.inPtr = u.inPtr ∧ t.unpacker = u.unpacker :=
  ⟨_, exec_raised hi hi' h hb, hk ▸ errorEnd_of_raised hi hi' hb, rfl, rfl⟩

/-! ### One symbol -/

section

variable {s : State} {sym : Byte} {n : Nat} (h : walkSymbol s = .done (setCur (leafHandle sym) (moved n s)))

include h

/-- A symbol whose walk ended at its leaf, with room for it (R190). -/
theorem walkSymbol_emitted (hroom : s.outLen < s.params.obufSize) :
    (walkSymbol s).andThen emitSymbol = .done (decoded sym n s) := by
  have hsym : lowByte (setCur (leafHandle sym) (moved n s)).unpacker.cur = sym := lowByte_leafHandle sym
  rw [h, Ran.andThen_done, emitSymbol, outByte_room (by exact hroom), Ran.andThen_done, hsym]
  rfl

/-- The same symbol where OBUF is full: its bits stay read (R264). -/
theorem walkSymbol_full (hfull : s.params.obufSize ≤ s.outLen) :
    (walkSymbol s).andThen emitSymbol = .raised ⟨.capObuf, s.outLen⟩ (setCur (leafHandle sym) (moved n s)) := by
  rw [h, Ran.andThen_done, emitSymbol, outByte_full (by exact hfull), Ran.andThen_raised]
  rfl

end

/-! ### The tree of a table with a symbol -/

/-- A tree TBLD left for a table with a symbol has a root, the codes of its leaves are those CGEN makes, and every
present symbol is one of its leaves (R138, R152). -/
theorem treeOk_present_codes {ft : FreqTable} {t : Tree} (h : TreeOk ft t) {ct : CodeTable} (hct : codesOf t = some ct)
    {b : Byte} (hb : ft.count b ≠ 0#32) :
    ∃ T, t.nonempty = true ∧ Rep t t.root T ∧ CodesTree ct T ∧ ∀ x, ft.count x ≠ 0#32 → x ∈ T.leaves := by
  have hpresent : presentSymbols ft ≠ [] := List.ne_nil_of_mem (mem_presentSymbols.2 hb)
  have hroot := h.root
  rw [RootOk, if_neg hpresent] at hroot
  obtain ⟨T, ct', hT, hleaves, hct', hcodes⟩ := treeOk_codesOf h hroot.1
  obtain rfl := Option.some.inj (hct.symm.trans hct')
  exact ⟨T, hroot.1, hT, hcodes, fun x hx => hleaves.symm.subset (mem_presentSymbols.2 hx)⟩

/-! ### UNPK past its tests -/

section

variable {s : State} (hin : s.inLen ≤ s.params.ibufSize) (hv : s.status.treeValid = true)

include hin hv

/-- UNPK's loop runs REM times (R191). -/
theorem bodyOf_unpk_accept {n : Nat} (hn : s.unpacker.rem.toNat = n) :
    bodyOf .unpk (accept s) = decodeMany n (accept s) := hn ▸ bodyUnpk_ready (s := accept s) hin hv

/-- With no symbol due UNPK does nothing (R191, log 21). -/
theorem exec_unpk_remZero (h : Ready s) (hrem : s.unpacker.rem = 0#32) :
    exec .unpk s = .next { s with status := ended s.status } :=
  exec_done (i := .unpk) nofun nofun h (u := accept s) (bodyOf_unpk_accept hin hv (n := 0) (by rw [hrem]; rfl))

/-- UNPK where its loop stops with REM in ERRINFO, `m` symbols produced before (R191, R257). -/
theorem exec_unpk_corrupt (h : Ready s) {k : ErrorKind} {code : Word} (hk : k.code = code) {m n : Nat} {u : State}
    (hn : s.unpacker.rem.toNat = m + n + 1)
    (hloop : decodeMany (m + (n + 1)) (accept s) = .raised ⟨k, s.unpacker.rem - BitVec.ofNat 32 m⟩ u)
    (hrem : u.unpacker.rem = s.unpacker.rem - BitVec.ofNat 32 m) :
    ∃ t, exec .unpk s = .next t ∧ ErrorEnd t code t.unpacker.rem ∧
      t.unpacker.rem.toNat + m = s.unpacker.rem.toNat ∧ t.inPtr = u.inPtr ∧ t.unpacker = u.unpacker := by
  obtain ⟨t, hexec, hend, hptr, hunp⟩ :=
    exec_raised_cursor (i := .unpk) nofun nofun h hk ((bodyOf_unpk_accept hin hv hn).trans hloop)
  have hdue : t.unpacker.rem = s.unpacker.rem - BitVec.ofNat 32 m := by rw [hunp, hrem]
  exact ⟨t, hexec, hdue ▸ hend, by rw [hdue, word_sub_ofNat_toNat (by omega)], hptr, hunp⟩

end

/-! ### The statements -/

/-- Settles O32: the walk follows the path to its leaf, and the symbol there is put out where there is room. -/
theorem usymResult : Obligations.UsymResult := by
  intro s sym bits rest hr hin hv hrem hne hc hpath
  have hwalk : walkSymbol (accept s) = .done (setCur (leafHandle sym) (moved bits.length (accept s))) :=
    walkSymbol_path hc hpath
  have hbody : bodyOf .usym (accept s) = (walkSymbol (accept s)).andThen emitSymbol :=
    bodyUsym_ready (s := accept s) hin hv hrem hne
  have hpos : cursorPos (moved bits.length (accept s)) = cursorPos s + bits.length := cursorPos_moved_append hc
  refine ⟨fun hroom => ?_, fun hfull => ?_⟩
  · exact ⟨_, exec_done (i := .usym) nofun nofun hr (hbody.trans (walkSymbol_emitted hwalk hroom)),
      appendByte_obufByte_same sym (moved bits.length (accept s)),
      fun _ ha => appendByte_obufByte_other sym (moved bits.length (accept s)) ha, hpos, rfl, rfl, rfl⟩
  · obtain ⟨t, hexec, hend, hptr, hunp⟩ := exec_raised_cursor (i := .usym) nofun nofun hr ErrorKind.code_capObuf
      (hbody.trans (walkSymbol_full hwalk hfull))
    exact ⟨t, hexec, hend, by rw [cursorPos, hptr, hunp]; exact hpos, by rw [hunp]; rfl⟩

/-- Settles O34: UNPK is USYM and UNPK again; past the tests its loop runs REM times, to the end of the codes, to a bad
bit, to a full OBUF or to the end of the bits. -/
theorem unpkResult : Obligations.UnpkResult := by
  refine ⟨decode_of_encode_eq rfl rfl, fun s hr => ⟨fun hrem t => exec_unpk_usym hr hrem, fun hin hv =>
    ⟨exec_unpk_remZero hin hv hr, fun hne hl m rest hm hc hroom => ?_, fun ct bs _ htree hct hbs =>
      ⟨fun rest hrem hc hroom => ?_, fun rest hrem hc hne hfull => ?_, fun b p hb hlt hc hp hpne hroom => ?_⟩⟩⟩⟩
  · obtain ⟨n, hn⟩ := Nat.exists_eq_add_of_lt hm
    obtain ⟨u, hloop, hrem, hcur, hpos⟩ :=
      decodeMany_badbit m n (s := accept s) (leafHandle_lowByte hl).symm hne hc hroom
    obtain ⟨t, hexec, hend, hdue, hptr, hunp⟩ :=
      exec_unpk_corrupt hin hv hr ErrorKind.code_corruptBadbit hn hloop hrem
    exact ⟨t, hexec, hend, hdue, by rw [hunp]; exact hcur, by rw [cursorPos, hptr, hunp]; exact hpos⟩
  · obtain rfl | hne := eq_or_ne bs []
    · have h0 : s.unpacker.rem = 0#32 := BitVec.eq_of_toNat_eq hrem
      exact ⟨_, exec_unpk_remZero hin hv hr h0, rfl, obufSlice_self _ _, ⟨le_rfl, fun _ _ => rfl⟩, rfl, h0, rfl, rfl⟩
    · obtain ⟨b, hb⟩ := List.exists_mem_of_ne_nil bs hne
      obtain ⟨T, hnonempty, hT, hcodes, hleaves⟩ := treeOk_present_codes htree hct (hbs b hb)
      obtain ⟨u, hloop, hrec, hlen, hout, hslice⟩ := Rep.decodeMany_payload hcodes bs (s := accept s) hT hnonempty
        (fun x hx => hleaves x (hbs x hx)) hc hroom
      have hexec := exec_done (i := .unpk) nofun nofun hr ((bodyOf_unpk_accept hin hv hrem).trans hloop)
      have happended : obufSlice u s.outLen.toNat u.outLen.toNat = bs :=
        (hslice _ le_rfl).trans (by rw [obufSlice_self, List.nil_append])
      have hgrows : s.outLen.toNat ≤ u.outLen.toNat := hlen ▸ Nat.le_add_right ..
      have hnone : s.unpacker.rem - BitVec.ofNat 32 bs.length = 0#32 := by
        rw [← hrem, BitVec.ofNat_toNat, BitVec.setWidth_eq, BitVec.sub_self]
      obtain ⟨o, l, rfl⟩ : ∃ o l,
          u = (((moved (payloadBits ct bs).length (accept s)).setObuf o).setOutLen l).setUnpacker
          ⟨(moved (payloadBits ct bs).length (accept s)).unpacker.bidx,
            if bs = [] then s.unpacker.cur else s.tree.root, s.unpacker.rem - BitVec.ofNat 32 bs.length⟩ :=
        ⟨_, _, hrec⟩
      exact ⟨_, hexec, hlen, happended, ⟨hgrows, hout⟩, cursorPos_moved_append (s := accept s) hc, hnone, rfl, rfl⟩
  · obtain ⟨b, hb⟩ := List.exists_mem_of_ne_nil bs hne
    obtain ⟨T, hnonempty, hT, hcodes, hleaves⟩ := treeOk_present_codes htree hct (hbs b hb)
    obtain ⟨u, hloop⟩ := Rep.decodeMany_noRoom hcodes bs (s := accept s) hT hnonempty
      (fun x hx => hleaves x (hbs x hx)) hc hne hfull (s.unpacker.rem.toNat - bs.length)
    obtain ⟨t, hexec, hend, -, -⟩ := exec_raised_cursor (i := .unpk) nofun nofun hr ErrorKind.code_capObuf
      ((bodyOf_unpk_accept hin hv (Nat.add_sub_of_le hrem).symm).trans hloop)
    exact ⟨t, hexec, hend⟩
  · obtain ⟨n, hn⟩ := Nat.exists_eq_add_of_lt hlt
    obtain ⟨T, hnonempty, hT, hcodes, hleaves⟩ := treeOk_present_codes htree hct hb
    have hshort : p.length < (codeBits ct b).length := lt_of_le_of_ne hp.length_le fun e => hpne (hp.eq_of_length e)
    obtain ⟨u, hloop, hptr, hrem⟩ := Rep.decodeMany_cut hcodes bs (s := accept s) hT hnonempty
      (fun x hx => hleaves x (hbs x hx)) (hleaves b hb) hc hp hshort hroom n
    obtain ⟨t, hexec, hend, hdue, hptr', -⟩ :=
      exec_unpk_corrupt hin hv hr ErrorKind.code_corruptExhausted hn hloop hrem
    exact ⟨t, hexec, hend, hdue, (hptr'.trans hptr).trans (moved_end_inPtr (accept s))⟩

/-- Settles O45: DECOMP's loop runs out of bits before the last symbol. -/
theorem truncatedArtifact : Obligations.TruncatedArtifact := by
  intro s bs out hr hin hmax hart hpre hlt hheader hroom
  obtain ⟨u, k, hraise, hk, hptr, hrem⟩ :=
    bodyDecomp_truncated (s := accept s) hin hmax hart hpre hlt hheader hroom
  obtain ⟨t, hexec, hend, hptr', hunp⟩ :=
    exec_raised_cursor (i := .decomp) nofun nofun hr ErrorKind.code_corruptExhausted hraise
  have hdue : t.unpacker.rem.toNat = bs.length - k := by
    rw [hunp, hrem, BitVec.toNat_ofNat, Nat.mod_eq_of_lt (by omega)]
  exact ⟨t, hexec, by rw [hunp, hrem]; exact hend, by omega, by omega, hptr'.trans hptr⟩

/-- Settles O31: past the test of the tree UINIT writes the unpacker and nothing else. -/
theorem uinitResult : Obligations.UinitResult := by
  refine ⟨decode_of_encode_eq rfl rfl, fun s hr => ⟨fun hv => ?_, fun hv => ?_⟩⟩
  · have hbody : bodyOf .uinit (accept s) =
        .done ((accept s).setUnpacker ⟨0#3, s.tree.root, s.table.total⟩) := by
      show bodyUinit (accept s) = _
      rw [bodyUinit, needTree_pass (s := accept s) hv, Ran.andThen_done]
      rfl
    exact exec_done (i := .uinit) nofun nofun hr hbody
  · have hbody : bodyOf .uinit (accept s) = .raised ⟨.seqNotree, 0#32⟩ (accept s) := by
      show bodyUinit (accept s) = _
      rw [bodyUinit, needTree_fail (s := accept s) hv, Ran.andThen_raised]
    exact exec_failed (i := .uinit) nofun nofun hr ErrorKind.code_seqNotree hbody

end Sys2Proof.Machine
end

section
/-! The container header: what HPUT writes, what HGET loads and on which inputs it succeeds (45_container.md: R205 to
R215). -/

namespace Sys2Proof.Machine

open Sys2Proof Sys2Proof.Safety

/-! ### HPUT -/

/-- The header field by field, over the present symbols (R92, R94, R95). -/
theorem headerBytes_eq_present (ft : FreqTable) :
    headerBytes ft = [0x48#8, 0x55#8, 0x46#8, 0x31#8] ++ bigEndian 4 ft.total ++ bigEndian 2 ft.nsym ++
      (presentSymbols ft).flatMap fun sym => sym :: bigEndian 4 (ft.count sym) := by
  rw [headerBytes, entries_eq_present, List.flatMap_map]
  rfl

/-- HPUT with room: the header and nothing else, the packer emptied (R210). -/
theorem exec_hput_header {s : State} (h : Ready s)
    (hroom : headerLen (presentSymbols s.table).length ≤ s.params.obufSize.toNat) :
    ∃ t, exec .hput s = .next t ∧ t.outLen.toNat = headerLen (presentSymbols s.table).length ∧
      outputBytes t = headerBytes s.table ∧ (∀ a, t.outLen.toNat ≤ a → t.obufByte a = s.obufByte a) ∧
      t = { s with status := ended s.status, packer := ⟨0#8, 0#3⟩, outLen := t.outLen, obuf := t.obuf } := by
  rw [presentSymbols_length] at hroom ⊢
  obtain ⟨u, hput, happ, hpacker, hlen, hout⟩ := bodyHput_spec (s := accept s) hroom
  have hrec := congrArg finishDone happ.only
  rw [hpacker] at hrec
  exact ⟨_, exec_done (i := .hput) nofun nofun h hput, hlen, hout, fun a ha => happ.outside a (.inr ha), hrec⟩

/-! ### HGET -/

/-- The end of an HGET whose body loaded a table: the table, the valid flags clear, the cursor at bit 0 of the byte after
the header (R212). -/
theorem exec_hget_loaded {s : State} (h : Ready s) {a : Nat} {ft : FreqTable}
    (hb : bodyHget (accept s) = .done ((readAt a (startHeader (accept s))).setTable ft)) :
    exec .hget s = .next { s with
      status := { ended s.status with treeValid := false, codeValid := false }, inPtr := BitVec.ofNat 32 a, table := ft,
      unpacker := { s.unpacker with bidx := 0#3 } } :=
  exec_done (i := .hget) nofun nofun h hb

/-- A command whose body raises sets ERR (R262). -/
theorem err_of_raised {i : Instr} (hi : i ≠ .eclr) (hi' : i ≠ .srst) {s t u : State} (h : Ready s) {e : Raise}
    (hb : bodyOf i (accept s) = .raised e u) (he : exec i s = .next t) : t.status.err = true :=
  Host.Outcome.next.inj (he.symm.trans (exec_raised hi hi' h hb)) ▸ rfl

/-- The table of a header has as many symbols as the header has entries (R92, R212). -/
theorem headerTable_presentSymbols_length {s : State} {n : Nat} (hg : ∀ j, j < n → EntryGood s j) :
    (presentSymbols (headerTable s n)).length = n := by
  rw [presentSymbols_length, headerTable_entries hg, headerEntries, List.length_map, List.length_range]

/-! ### The statements -/

/-- Settles O35: with room the output is the header, without room OutByte raises at the end of OBUF. -/
theorem hputResult : Obligations.HputResult := by
  refine ⟨decode_of_encode_eq rfl rfl, fun s hr => ⟨fun hroom => ?_, fun hfull => ?_⟩⟩
  · rw [← headerBytes_eq_present]
    exact exec_hput_header hr hroom
  · rw [presentSymbols_length] at hfull
    obtain ⟨u, hraise⟩ := bodyHput_full (s := accept s) hfull
    obtain ⟨t, hexec, hend, -, -⟩ := exec_errorEnd (i := .hput) nofun nofun hr ErrorKind.code_capObuf hraise
    exact ⟨t, hexec, hend⟩

/-- Settles O36: every test passes, so HGET commits the table of the header. -/
theorem hgetResult : Obligations.HgetResult := by
  rintro s n hr hin rfl hn hl hm hg hsum
  obtain ⟨hcount, habsent⟩ := headerTable_count (s := accept s) hg
  have hnsym : (BitVec.ofNat 32 (headerCount s).toNat).toNat = (headerCount s).toNat := by
    rw [BitVec.toNat_ofNat, Nat.mod_eq_of_lt (by omega)]
  exact ⟨_, exec_hget_loaded hr (bodyHget_ok (s := accept s) hin hm hn hl hg hsum), hcount,
    fun sym hne => habsent sym fun i hi => (hne i hi).symm, rfl, hnsym, rfl⟩

/-- Settles O38: HGET ends without an error only where every test passed, and the table it then commits has the bytes it
was read from. -/
theorem hgetAcceptsOnlyHeaders : Obligations.HgetAcceptsOnlyHeaders := by
  intro s t hr he herr
  have hno {e : Raise} {u : State} (hraise : bodyHget (accept s) = .raised e u) : False :=
    Bool.false_ne_true (herr.symm.trans (err_of_raised (i := .hget) nofun nofun hr hraise he))
  obtain hraise | ⟨e, a, hraise, -⟩ | ⟨hin, hm, hn, hl, hg, hsum, hdone⟩ := bodyHget_cases (accept s)
  · exact (hno hraise).elim
  · exact (hno hraise).elim
  · obtain rfl := Host.Outcome.next.inj ((exec_hget_loaded hr hdone).symm.trans he)
    have hbytes := headerBytes_headerTable hm hg
    refine ⟨hin, headerTable_ok hn hg hsum, ?_⟩
    rw [headerTable_presentSymbols_length hg]
    exact ⟨hl, hbytes.symm⟩

/-- Settles O39: the bytes HPUT wrote are the header of its table, and HGET reads that table back from them. -/
theorem headerRoundTrip : Obligations.HeaderRoundTrip := by
  intro s u hr hu hft hroom
  obtain ⟨t, hput, hlen, hout, -, hrec⟩ := exec_hput_header hr hroom
  refine ⟨t, hput, by rw [hrec]; rfl, fun hin hle hbytes => ?_⟩
  rw [presentSymbols_length] at hlen
  rw [BitVec.le_def, hlen] at hle
  rw [hlen, hout] at hbytes
  exact ⟨_, exec_hget_loaded hu (bodyHget_header (s := accept u) hft hin hle hbytes), rfl, rfl⟩

end Sys2Proof.Machine
end

section
/-! The sequencer commands COMP and DECOMP, the artifact between them, and the system commands NOP, ECLR and SRST
(46_orchestration.md: R230 to R242). -/

namespace Sys2Proof.Machine

open Sys2Proof Sys2Proof.Safety

/-! ### The artifact -/

/-- The length of an artifact, from the table and the codes of its bytes (R93, R96). -/
theorem isArtifact_length {bs out : List Byte} (hmax : bs.length ≤ Config.maxLen) (h : IsArtifact bs out) :
    ∃ ft ct, Counts ft bs ∧ codesOf (buildTree ft Tree.zero) = some ct ∧
      out.length = 10 + 5 * bs.dedup.length + ((payloadBits ct bs).length + 7) / 8 := by
  obtain ⟨ft, ct, payload, hcnt, hct, hpay, rfl⟩ := h
  have hentries : ft.entries.length = bs.dedup.length := (counts_tableOk hcnt hmax).2.symm.trans hcnt.2.2
  exact ⟨ft, ct, hcnt, hct, by rw [List.length_append, headerBytes_length, hentries, packsTo_length hpay, headerLen]⟩

theorem headerBytes_zero :
    headerBytes FreqTable.zero = [0x48#8, 0x55#8, 0x46#8, 0x31#8, 0#8, 0#8, 0#8, 0#8, 0#8, 0#8] := by decide

/-- Settles O40: a sequence has one artifact, whose length is that of its header and its payload, and the artifact of no
bytes is the header of the clear table. -/
theorem artifactOfBytes : Obligations.ArtifactOfBytes := by
  refine ⟨fun bs hmax => ?_, ?_⟩
  · obtain ⟨out, hart⟩ := artifact_exists hmax
    exact ⟨out, hart, fun _ hart' => isArtifact_unique hart' hart, isArtifact_length hmax hart⟩
  · exact headerBytes_zero ▸ isArtifact_nil (addAll_zero_counts (bs := []) (Nat.zero_le _))

/-! ### COMP and DECOMP -/

/-- A command whose body raises ends in error entry, whatever its writes before the raise (R262). -/
theorem exec_ends_error {i : Instr} (hi : i ≠ .eclr) (hi' : i ≠ .srst) {s u : State} (h : Ready s) {k : ErrorKind}
    {code info : Word} (hk : k.code = code) (hb : bodyOf i (accept s) = .raised ⟨k, info⟩ u) :
    ∃ t, exec i s = .next t ∧ ErrorEnd t code info := by
  obtain ⟨t, hexec, hend, -, -⟩ := exec_errorEnd hi hi' h hk hb
  exact ⟨t, hexec, hend⟩

/-- The code table of a tree holds its codes (R152). -/
theorem treeOk_codesOk_of_codesOf {ft : FreqTable} {t : Tree} (h : TreeOk ft t) {ct : CodeTable}
    (hct : codesOf t = some ct) : CodesOk ft t ct := by
  obtain ⟨ct', hct', hcodes⟩ := treeOk_codesOk h
  exact Option.some.inj (hct'.symm.trans hct) ▸ hcodes

/-- Settles O41: COMP's body puts out the artifact of the input where there is room for it. -/
theorem compResult : Obligations.CompResult := by
  refine ⟨decode_of_encode_eq rfl rfl, fun s hr =>
    ⟨fun hin => (inlenErrors s hr hin).1 .comp (by decide), fun hin => ?_⟩⟩
  obtain ⟨out, hart, hfits, hfull⟩ := bodyComp_spec (s := accept s) hin
  refine ⟨out, hart, fun hroom => ?_, fun hroom => ?_⟩
  · obtain ⟨u, hdone, hout, hlen, hcnt, hrec, hempty, hbuilt, hbeyond⟩ := hfits hroom
    refine ⟨_, exec_done (i := .comp) nofun nofun hr hdone, hout, hlen, hcnt, fun hne => ?_, hempty, hbeyond,
      congrArg finishDone hrec⟩
    obtain ⟨htree, hcode⟩ := hbuilt hne
    have hok : TreeOk u.table u.tree := htree ▸ buildTree_ok (counts_tableOk hcnt (inputBytes_length_le s)) s.tree
    exact ⟨hok, treeOk_codesOk_of_codesOf hok hcode⟩
  · obtain ⟨u, hraise⟩ := hfull hroom
    exact exec_ends_error (i := .comp) nofun nofun hr ErrorKind.code_capObuf hraise

/-- An input that HGET turns away ends DECOMP with the same code and info (R233). -/
theorem exec_decomp_hget_error {s t : State} (h : Ready s) (he : exec .hget s = .next t) (herr : t.status.err = true) :
    ∃ u, exec .decomp s = .next u ∧ ErrorEnd u t.errCode t.errInfo := by
  obtain ⟨hdropped, -⟩ | ⟨-, ⟨v, hb, rfl⟩ | ⟨e, v, hb, rfl⟩⟩ := runCommand_cases (body := bodyHget) he
  · simp [h.1, h.2] at hdropped
  · exact absurd herr (by rw [(ready_after (i := .hget) nofun nofun h hb).2]; exact Bool.false_ne_true)
  · exact exec_ends_error (i := .decomp) nofun nofun h rfl (bodyDecomp_raised hb)

/-- Settles O42: on an artifact DECOMP's body puts out the bytes where there is room, on the header of one symbol it stops
at a 1, and where HGET's body raises so does DECOMP's. -/
theorem decompResult : Obligations.DecompResult := by
  intro s hr hin
  refine ⟨fun bs out rest hmax hart hinput => ?_, fun ft payload m rest hft hone hinput hm hbits hroom => ?_,
    fun t => exec_decomp_hget_error hr⟩
  · obtain ⟨hfits, hfull⟩ := bodyDecomp_artifact (s := accept s) hin hmax hart hinput
    refine ⟨fun hroom => ?_, fun hroom => ?_⟩
    · obtain ⟨u, hdone, hout, hlen, hcnt, hrem, hrec, hempty, hbuilt, hbeyond⟩ := hfits hroom
      exact ⟨_, exec_done (i := .decomp) nofun nofun hr hdone, hout, hlen, hcnt, hrem, hempty,
        fun hne => hbuilt hne ▸ buildTree_ok (counts_tableOk hcnt hmax) s.tree, hbeyond, congrArg finishDone hrec⟩
    · obtain ⟨u, hraise⟩ := hfull hroom
      exact exec_ends_error (i := .decomp) nofun nofun hr ErrorKind.code_capObuf hraise
  · obtain ⟨u, hraise, hrem⟩ := bodyDecomp_badbit (s := accept s) hin hft hone hinput hm hbits hroom
    obtain ⟨t, hexec, hend, -, hunp⟩ :=
      exec_raised_cursor (i := .decomp) nofun nofun hr ErrorKind.code_corruptBadbit hraise
    have hdue : t.unpacker.rem = ft.total - BitVec.ofNat 32 m := by rw [hunp, hrem]
    exact ⟨t, hexec, hdue ▸ hend, by rw [hdue, word_sub_ofNat_toNat hm.le]⟩

/-- Settles O44: what COMP left is the artifact of its input, and DECOMP of an artifact gives its bytes. -/
theorem roundTrip : Obligations.RoundTrip := by
  intro s u hr hu hin hfits
  obtain ⟨out, hart, hcomp, -⟩ := (compResult.2 s hr).2 hin
  obtain ⟨t, hexec, hout, -, -, -, -, -, hrec⟩ := hcomp (hfits out hart)
  refine ⟨t, hexec, congrArg (·.status.done) hrec, fun _ hcopy hin' hroom => ?_⟩
  have hcopied : inputBytes u = out ++ [] := by rw [hcopy, hout, List.append_nil]
  obtain ⟨hdecomp, -⟩ := (decompResult u hu hin').1 _ _ _ (inputBytes_length_le s) hart hcopied
  obtain ⟨v, hexec', hout', -, -, -, -, -, -, hrec'⟩ := hdecomp (by rw [inputBytes_length]; exact hroom)
  exact ⟨v, hexec', congrArg (·.status.done) hrec', hout'⟩

/-! ### The bodies one by one -/

/-- The bodies of a list of commands, each from where the one before it ended (R230). -/
def bodiesOf : List Instr → State → Ran
  | [] => .done
  | i :: is => fun s => (bodyOf i s).andThen (bodiesOf is)

theorem bodiesOf_cons (i : Instr) (is : List Instr) (s : State) :
    bodiesOf (i :: is) s = (bodyOf i s).andThen (bodiesOf is) := rfl

theorem Ran.andThen_pure (r : Ran) : r.andThen .done = r := by cases r <;> rfl

/-- A sequence of commands that ends without an error ran its bodies, and the last command set DONE (R230). -/
theorem execAll_bodies (is : List Instr) (hi : ∀ i ∈ is, i ≠ .eclr ∧ i ≠ .srst) {s t : State} (hs : Ready s)
    (h : execAll is s = .next t) (ht : t.status.err = false) :
    bodiesOf is (accept s) = .done (accept t) ∧ (is ≠ [] → finishDone (accept t) = t) := by
  induction is generalizing s with
  | nil =>
    obtain rfl := Host.Outcome.next.inj h
    exact ⟨rfl, fun hne => absurd rfl hne⟩
  | cons i is ih =>
    obtain ⟨u, hb, hrest, hu, haccept⟩ := execAll_step hi hs h ht
    obtain ⟨hbodies, hdone⟩ := ih (fun j hj => hi j (List.mem_cons_of_mem _ hj)) hu hrest
    rw [haccept] at hbodies
    refine ⟨by rw [bodiesOf_cons, hb, Ran.andThen_done, hbodies], fun _ => ?_⟩
    by_cases hnil : is = []
    · subst hnil
      obtain rfl := Host.Outcome.next.inj hrest
      rw [haccept]
    · exact hdone hnil

/-- The commands whose bodies COMP runs after FCLR and FACC (R231). -/
def compTail (s : State) : List Instr :=
  if s.inLen = 0#32 then [.hput] else [.tbld, .cgen, .hput, .pack, .pflush]

/-- FACC on the table FCLR cleared counts the input, so TOTAL is IN_LEN after it (R116, R118). -/
theorem bodyFacc_cleared {s : State} (hin : s.inLen ≤ s.params.ibufSize) :
    ∃ u, bodyFacc (clearValid (s.setTable FreqTable.zero)) = .done u ∧ u.table.total = s.inLen := by
  have hmax : FreqTable.zero.total.toNat + s.inLen.toNat ≤ Config.maxLen :=
    (Nat.zero_add _).trans_le (inputBytes_length s ▸ inputBytes_length_le s)
  exact ⟨_, bodyFacc_done hin hmax, BitVec.eq_of_toNat_eq
    ((addAll_zero_counts (inputBytes_length_le s)).2.1.trans (inputBytes_length s))⟩

theorem bodiesOf_fclr (is : List Instr) (s : State) :
    bodiesOf (.fclr :: is) s = bodiesOf is (clearValid (s.setTable FreqTable.zero)) := rfl

/-- COMP's test of TOTAL after FACC is a test of IN_LEN (R231). -/
theorem bodyComp_eq_bodiesOf {s : State} (hin : s.inLen ≤ s.params.ibufSize) :
    bodyComp s = bodiesOf (.fclr :: .facc :: compTail s) s := by
  obtain ⟨u, hfacc, htotal⟩ := bodyFacc_cleared hin
  have hcomp : bodyComp s = if u.table.total = 0#32 then bodyHput u else compressCounted u := by
    rw [bodyComp, checkIn_pass hin, Ran.andThen_done, bodyFclr, Ran.andThen_done, hfacc, Ran.andThen_done]
  have hbodies : bodiesOf (.fclr :: .facc :: compTail s) s = bodiesOf (compTail s) u := by
    rw [bodiesOf_fclr, bodiesOf_cons, bodyOf, hfacc, Ran.andThen_done]
  rw [hcomp, hbodies, htotal, compTail]
  split
  · exact (Ran.andThen_pure _).symm
  · simp only [compressCounted, bodiesOf, bodyOf, Ran.andThen_pure]

/-- Past IBUF_SIZE FACC raises (R69), so a list that starts by counting comes to no normal end. -/
theorem inLen_le_of_bodiesOf {is : List Instr} {s t : State} (h : bodiesOf (.fclr :: .facc :: is) s = .done t) :
    s.inLen ≤ s.params.ibufSize := by
  by_contra hin
  rw [bodiesOf_fclr, bodiesOf_cons, bodyOf, bodyFacc,
    checkIn_fail (s := clearValid (s.setTable FreqTable.zero)) (BitVec.not_le.1 hin)] at h
  exact nomatch h

/-- COMP ends as its commands do when issued one by one (R231). -/
theorem exec_comp_of_execAll {s t : State} (h : Ready s) (hx : execAll (.fclr :: .facc :: compTail s) s = .next t)
    (ht : t.status.err = false) : exec .comp s = .next t := by
  have hi : ∀ i ∈ Instr.fclr :: .facc :: compTail s, i ≠ .eclr ∧ i ≠ .srst := by
    unfold compTail
    split <;> decide
  obtain ⟨hbodies, hend⟩ := execAll_bodies _ hi h hx ht
  have hbody : bodyComp (accept s) = .done (accept t) :=
    (bodyComp_eq_bodiesOf (inLen_le_of_bodiesOf hbodies)).trans hbodies
  rw [exec_done (i := .comp) nofun nofun h hbody, hend (List.cons_ne_nil _ _)]

/-- A sequence that ends in a next state has one after its first command. -/
theorem execAll_cons_next {i : Instr} {is : List Instr} {s t : State} (h : execAll (i :: is) s = .next t) :
    ∃ u, exec i s = .next u ∧ execAll is u = .next t := by
  rw [execAll] at h
  cases he : exec i s with
  | next u => exact ⟨u, rfl, by rw [he] at h; exact h⟩
  | fault f => rw [he] at h; exact nomatch h
  | refused r => rw [he] at h; exact nomatch h

theorem execAll_append_next (is js : List Instr) {s t : State} (h : execAll (is ++ js) s = .next t) :
    ∃ u, execAll is s = .next u ∧ execAll js u = .next t := by
  induction is generalizing s with
  | nil => exact ⟨s, rfl, h⟩
  | cons i is ih =>
    obtain ⟨v, hfirst, hrest⟩ := execAll_cons_next h
    obtain ⟨u, his, hjs⟩ := ih hrest
    exact ⟨u, by rw [execAll, hfirst]; exact his, hjs⟩

/-- DECOMP of a non-empty artifact ends as its four commands do (R233): UNPK leaves TOTAL and the error as they were. -/
theorem exec_decomp_of_execAll {s t : State} (h : Ready s) (ht : t.status.err = false) (hn : t.table.total ≠ 0#32)
    (hx : execAll [.hget, .tbld, .uinit, .unpk] { s with outLen := 0#32 } = .next t) : exec .decomp s = .next t := by
  obtain ⟨u, hheader, hunpk⟩ := execAll_append_next [.hget, .tbld, .uinit] [.unpk] hx
  have hexec : exec .unpk u = .next t := by
    obtain ⟨v, hexec, hend⟩ := execAll_cons_next hunpk
    exact Host.Outcome.next.inj hend ▸ hexec
  have htable : t.table = u.table := (frameModel .unpk u t hexec).1 rfl
  have herr : u.status.err = false := Bool.eq_false_iff.2 fun herr =>
    Bool.false_ne_true (ht.symm.trans (execAll_err [.unpk] (by decide) herr hunpk))
  exact (exec_decomp_unpk h hheader herr (htable ▸ hn)).trans hexec

/-- DECOMP of an empty artifact ends as HGET does, with REM cleared (R233). -/
theorem exec_decomp_of_hget {s t : State} (h : Ready s) (ht : t.status.err = false) (hn : t.table.total = 0#32)
    (hx : execAll [.hget] { s with outLen := 0#32 } = .next t) :
    exec .decomp s = .next { t with unpacker := { t.unpacker with rem := 0#32 } } := by
  obtain ⟨u, hb, hx, -, -⟩ := execAll_step (by decide) (s := { s with outLen := 0#32 }) h hx ht
  obtain rfl := Host.Outcome.next.inj hx
  have hhget : bodyHget ((accept s).setOutLen 0#32) = .done u := hb
  have hbody : bodyDecomp (accept s) = .done (u.setUnpacker { u.unpacker with rem := 0#32 }) := by
    rw [bodyDecomp, hhget, Ran.andThen_done]
    exact if_pos hn
  exact exec_done (i := .decomp) nofun nofun h hbody

/-- Settles O43: COMP and DECOMP run the bodies of their commands, so they end where these do. -/
theorem macrosRunTheirBodies : Obligations.MacrosRunTheirBodies := by
  intro s t hr ht
  refine ⟨fun h0 hx => ?_, fun h0 hx => ?_, exec_decomp_of_execAll hr ht,
    fun hn hx => exec_decomp_unpk hr hx ht hn, exec_decomp_of_hget hr ht⟩
  · exact exec_comp_of_execAll hr (by rw [compTail, if_neg h0]; exact hx) ht
  · exact exec_comp_of_execAll hr (by rw [compTail, if_pos h0]; exact hx) ht

/-! ### NOP, ECLR and SRST -/

/-- Settles O9: NOP's body is empty, so what is left is the envelope. -/
theorem nopResult : Obligations.NopResult :=
  ⟨decode_of_encode_eq rfl rfl, fun s => ⟨fun hr => exec_done (i := .nop) (u := accept s) nofun nofun hr rfl,
    fun herr => runCommand_dropped (.inr herr) bodyNop⟩⟩

/-- Settles O10: an idle block accepts ECLR, and its body is the return from an error. -/
theorem eclrResult : Obligations.EclrResult :=
  ⟨decode_of_encode_eq rfl rfl, fun _ hidle => runAlways_idle hidle bodyEclr finishDone⟩

/-- Settles O11: an idle block accepts SRST, and its body is the reset table. -/
theorem srstResult : Obligations.SrstResult :=
  ⟨decode_of_encode_eq rfl rfl, fun _ hidle => ⟨_, exec_srst_idle hidle, resetTable_atReset _ _ _, rfl, rfl⟩⟩

end Sys2Proof.Machine
end

section
/-! The exceptions and the end of every command: the errors of USYM, HGET and the precondition tests, what error entry
leaves, what an error drops, the interrupt line, and that no step faults (60_exceptions.md: R255 to R271,
70_reset_and_hazards.md: R311). -/

namespace Sys2Proof.Machine

open Sys2Proof Sys2Proof.Safety

/-! ### Words while ERR is 1, and illegal words -/

/-- A word is its three fields (R85). -/
theorem fields_append (c : Word) : (zeroField c ++ immField c) ++ opField c = c := by
  have high : zeroField c ++ immField c = c.extractLsb' 8 24 :=
    BitVec.extractLsb'_append_extractLsb'_eq_extractLsb' (start₁ := 8) rfl
  have whole : c.extractLsb' 8 24 ++ opField c = c.extractLsb' 0 32 :=
    BitVec.extractLsb'_append_extractLsb'_eq_extractLsb' (start₁ := 0) rfl
  rw [high, whole, BitVec.extractLsb'_eq_self]

/-- A legal word is the encoding of the command it decodes to. -/
theorem encode_of_decode {c : Word} {i : Instr} (h : decode c = .ok i) : encode i = c := by
  obtain ⟨hzero, hfields⟩ := decode_eq_ok_iff.1 h
  obtain ⟨hop, himm, -⟩ := fields_of_decodeFields hfields
  rw [encode, hop, himm, ← hzero, fields_append]

/-- While ERR is 1 every word but those of ECLR and SRST is dropped, illegal ones too (R266). -/
theorem issueWord_err {s : State} (he : s.status.err = true) {c : Word} (h : c ≠ encode .eclr) (h' : c ≠ encode .srst) :
    issueWord c s = .next (markDrop s) := by
  cases hd : decode c with
  | error e =>
    simp only [issueWord, hd]
    exact runCommand_dropped (.inr he) _
  | ok i =>
    have hc := encode_of_decode hd
    have hi : i ≠ .eclr := fun e => h (e ▸ hc.symm)
    have hi' : i ≠ .srst := fun e => h' (e ▸ hc.symm)
    rw [issueWord_of_decode hd, exec_bodyOf hi hi', runCommand_dropped (.inr he)]

/-- Settles O7: ECLR and SRST are accepted by any idle block, every other word is dropped. -/
theorem errorDropsCommands : Obligations.ErrorDropsCommands := by
  refine fun s he => ⟨fun c h h' => issueWord_err he h h', fun hb => ⟨?_, ?_⟩⟩
  · exact ⟨_, (issueWord_of_decode eclrResult.1 s).trans (eclrResult.2 s hb), rfl, rfl⟩
  · exact ⟨_, (issueWord_of_decode srstResult.1 s).trans (exec_srst_idle hb), rfl, rfl⟩

/-- Settles O5: an illegal word runs the body that raises at once. -/
theorem illegalCommandResult : Obligations.IllegalCommandResult := by
  intro s c e hr hd
  simp only [issueWord, hd]
  rw [execIllegal, runCommand_failed hr rfl, ErrorKind.code_illegalCommand]

/-! ### The precondition tests -/

section

variable {s : State} (hin : s.inLen ≤ s.params.ibufSize)

include hin

/-- The two tests USYM and UNPK begin with, where there is no valid tree (R69, R259). -/
theorem checkIn_needTree_fail (hv : s.status.treeValid = false) (body : State → Ran) :
    ((checkIn s).andThen fun s => (needTree s).andThen body) = .raised ⟨.seqNotree, 0#32⟩ s := by
  rw [checkIn_pass hin, Ran.andThen_done, needTree_fail hv, Ran.andThen_raised]

theorem checkIn_needTree_pass (hv : s.status.treeValid = true) (body : State → Ran) :
    ((checkIn s).andThen fun s => (needTree s).andThen body) = body s := by
  rw [checkIn_pass hin, Ran.andThen_done, needTree_pass hv, Ran.andThen_done]

theorem bodyUsym_remZero (hv : s.status.treeValid = true) (hrem : s.unpacker.rem = 0#32) :
    bodyUsym s = .raised ⟨.seqRemzero, 0#32⟩ s := by
  rw [bodyUsym, checkIn_needTree_pass hin hv, guardRaise_fail (beq_iff_eq.2 hrem), Ran.andThen_raised]

theorem bodyUsym_emptyTree (hv : s.status.treeValid = true) (hrem : s.unpacker.rem ≠ 0#32)
    (hne : s.tree.nonempty = false) : bodyUsym s = .raised ⟨.seqEmptytree, s.unpacker.rem⟩ s := by
  rw [bodyUsym, checkIn_needTree_pass hin hv, guardRaise_pass (beq_eq_false_iff_ne.2 hrem), Ran.andThen_done, decodeOne,
    guardRaise_fail (congrArg (! ·) hne), Ran.andThen_raised]

end

/-- With a symbol due, an error of USYM is UNPK's too (R191). -/
theorem exec_unpk_of_usym_failed {s : State} (h : Ready s) (hrem : s.unpacker.rem ≠ 0#32) {code info : Word}
    (he : exec .usym s = .next (failed s code info)) : exec .unpk s = .next (failed s code info) :=
  exec_unpk_usym h hrem he

/-- Settles O30: each test raises before any other write, CGEN's apart, which comes after CODE_VALID is cleared. -/
theorem preconditionErrors : Obligations.PreconditionErrors := by
  refine fun s hr => ⟨fun hv => ⟨exec_cgen_notree hr hv, (uinitResult.2 s hr).2 hv, fun hin => ⟨?_, ?_⟩⟩,
    fun hv => ⟨exec_psym_noCodeTable hr hv, fun hin => exec_pack_noCodeTable hr hin hv⟩,
    fun hin hv => ⟨fun hrem => ?_, fun hrem hne => ?_⟩⟩
  · exact exec_failed (i := .usym) nofun nofun hr ErrorKind.code_seqNotree
      (checkIn_needTree_fail (s := accept s) hin hv _)
  · exact exec_failed (i := .unpk) nofun nofun hr ErrorKind.code_seqNotree
      (checkIn_needTree_fail (s := accept s) hin hv _)
  · exact exec_failed (i := .usym) nofun nofun hr ErrorKind.code_seqRemzero
      (bodyUsym_remZero (s := accept s) hin hv hrem)
  · have husym : exec .usym s = .next (failed s 0x0304#32 s.unpacker.rem) :=
      exec_failed (i := .usym) nofun nofun hr ErrorKind.code_seqEmptytree
        (bodyUsym_emptyTree (s := accept s) hin hv hrem hne)
    exact ⟨husym, exec_unpk_of_usym_failed hr hrem husym⟩

/-! ### The errors of USYM -/

/-- A 1 at a single-leaf tree, with the cursor past it (R189). -/
theorem walkSymbol_badbit {s : State} (hl : isLeaf s.tree.root = true) {rest : List Bool}
    (hc : cursorBits s = true :: rest) :
    walkSymbol s = .raised ⟨.corruptBadbit, s.unpacker.rem⟩ (setCur s.tree.root (moved 1 s)) := by
  rw [walkSymbol, if_pos hl, singleLeafBit, getBit_cons ((cursorBits_setCur ..).trans hc), guardRaise_fail rfl,
    moved_setCur]
  rfl

/-- USYM past its tests ends as its walk does where that raises (R190, R262). -/
theorem exec_usym_walk_raised {s u : State} (h : Ready s) (hin : s.inLen ≤ s.params.ibufSize)
    (hv : s.status.treeValid = true) (hrem : s.unpacker.rem ≠ 0#32) (hne : s.tree.nonempty = true) {k : ErrorKind}
    {code info : Word} (hk : k.code = code) (hw : walkSymbol (accept s) = .raised ⟨k, info⟩ u) :
    ∃ t, exec .usym s = .next t ∧ ErrorEnd t code info ∧ t.inPtr = u.inPtr ∧ t.unpacker = u.unpacker := by
  have hbody : bodyOf .usym (accept s) = (walkSymbol (accept s)).andThen emitSymbol :=
    bodyUsym_ready (s := accept s) hin hv hrem hne
  rw [hw, Ran.andThen_raised] at hbody
  exact exec_raised_cursor (i := .usym) nofun nofun h hk hbody

/-- Settles O33: the walk stops at the end of the bits, or at the first bit of a single-leaf tree. -/
theorem usymErrors : Obligations.UsymErrors := by
  intro s hr hin hv hrem hne
  refine ⟨fun hn => ?_, fun hl rest hc => ?_⟩
  · obtain ⟨t, hexec, hend, hptr, hunp⟩ := exec_usym_walk_raised hr hin hv hrem hne ErrorKind.code_corruptExhausted
      (walkSymbol_runsOut (s := accept s) hn)
    exact ⟨t, hexec, hend, by rw [hunp]; rfl, by rw [hunp]; rfl, hptr.trans (moved_end_inPtr (accept s))⟩
  · obtain ⟨t, hexec, hend, hptr, hunp⟩ := exec_usym_walk_raised hr hin hv hrem hne ErrorKind.code_corruptBadbit
      (walkSymbol_badbit (s := accept s) hl hc)
    have hpos : cursorPos (moved 1 (accept s)) = cursorPos s + 1 := cursorPos_moved_append (p := [true]) hc
    exact ⟨t, hexec, hend, by rw [hunp]; rfl, by rw [hunp]; rfl, by rw [cursorPos, hptr, hunp]; exact hpos⟩

/-! ### The errors of HGET -/

/-- A format test that fails with IN_PTR at `stop` ends HGET over the clear table (R212, R262). -/
theorem exec_hget_headerFailed {s : State} (h : Ready s) {k : ErrorKind} {code info : Word} (hk : k.code = code)
    {stop : Nat} (hb : bodyHget (accept s) = .raised ⟨k, info⟩ (readAt stop (startHeader (accept s)))) :
    exec .hget s = .next (headerFailed s code info stop) := by
  rw [exec_raised (i := .hget) nofun nofun h hb, ← hk]
  rfl

/-- Settles O37: the tests come in R212's order, each at its place in the header. -/
theorem hgetErrors : Obligations.HgetErrors := by
  intro s hr hin
  have key {k : ErrorKind} := @exec_hget_headerFailed s hr k
  refine ⟨fun h => ?_, fun j h4 hj hbefore hat => ?_, fun h4 hm h => ?_, fun h10 hm =>
    ⟨fun h => ?_, fun hn h => ?_, fun hn hl =>
      ⟨fun i j hi hg hj h => ?_, fun i hi hg ho h => ?_, fun hg h => ?_⟩⟩⟩
  · exact key ErrorKind.code_formatShort (bodyHget_short (s := accept s) hin h)
  · exact key ErrorKind.code_formatMagic (bodyHget_magic (s := accept s) hin h4 hj hbefore hat)
  · exact key ErrorKind.code_formatShort (bodyHget_short10 (s := accept s) hin h4 hm h)
  · rw [← BitVec.ofNat_toNat]
    exact key ErrorKind.code_formatSymcount (bodyHget_symcount (s := accept s) hin h10 hm h)
  · exact key ErrorKind.code_formatShort (bodyHget_shortEntries (s := accept s) hin h10 hm hn h)
  · exact key ErrorKind.code_formatOrder (bodyHget_order (s := accept s) hin hm hn hl hi hg hj h)
  · exact key ErrorKind.code_formatZerocount (bodyHget_zerocount (s := accept s) hin hm hn hl hi hg ho h)
  · exact key ErrorKind.code_formatSum (bodyHget_sum (s := accept s) hin hm hn hl hg h)

/-! ### How an accepted command ends -/

/-- The two ends of an accepted command other than ECLR and SRST: DONE with the error registers as they were, or error
entry with one of the command's errors (R230, R262). -/
theorem exec_ends {i : Instr} (hi : i ≠ .eclr) (hi' : i ≠ .srst) {s t : State} (h : Ready s) (he : exec i s = .next t) :
    (t.status.busy = false ∧ t.status.done = true ∧ t.status.err = false ∧ t.errCode = s.errCode ∧
        t.errInfo = s.errInfo) ∨
      ∃ code info, ErrorEnd t code info ∧ code ∈ errorsOf i := by
  have hw := bodyOf_writes hi hi' (accept s)
  cases hb : bodyOf i (accept s) with
  | done u =>
    rw [hb] at hw
    obtain rfl := Host.Outcome.next.inj ((exec_done hi hi' h hb).symm.trans he)
    exact .inl ⟨rfl, rfl, (ready_after hi hi' h hb).2, hw.runs.errCode, hw.runs.errInfo⟩
  | raised e u =>
    obtain rfl := Host.Outcome.next.inj ((exec_raised hi hi' h hb).symm.trans he)
    exact .inr ⟨_, _, errorEnd_of_raised hi hi' hb, bodyOf_raises hb⟩
  | stuck f =>
    rw [exec_bodyOf hi hi', runCommand_ready h, hb] at he
    exact nomatch he

/-- Settles O47: ECLR always ends with DONE, the other commands in one of their two ways. -/
theorem errorEntryWrites : Obligations.ErrorEntryWrites := by
  intro i s t hr hi' he
  by_cases hi : i = .eclr
  · subst hi
    obtain rfl := Host.Outcome.next.inj ((eclrResult.2 s hr.1).symm.trans he)
    exact ⟨rfl, iff_of_true rfl rfl, nofun, fun _ hne => absurd rfl hne⟩
  · obtain ⟨hbusy, hdone, herr, hregs⟩ | ⟨code, info, hend, hmem⟩ := exec_ends hi hi' hr he
    · exact ⟨hbusy, iff_of_true hdone herr, fun h => flag_absurd (herr.symm.trans h), fun _ _ => hregs⟩
    · exact ⟨hend.busy, by simp [hend.done, hend.err], fun _ => ⟨hend.errCode ▸ hmem, hend.outLen⟩,
        fun h => flag_absurd (hend.done.symm.trans h)⟩

/-! ### The interrupt line -/

/-- DONE and ERR are never both set by one command (R271): SRST sets neither. -/
theorem exec_not_done_and_err {i : Instr} {s t : State} (h : Ready s) (he : exec i s = .next t) :
    ¬(t.status.done = true ∧ t.status.err = true) := by
  rintro ⟨hdone, herr⟩
  by_cases hi : i = .srst
  · subst hi
    obtain rfl := Host.Outcome.next.inj ((exec_srst_idle h.1).symm.trans he)
    exact nomatch hdone
  · obtain ⟨-, hiff, -⟩ := errorEntryWrites i s t h hi he
    exact flag_absurd ((hiff.1 hdone).symm.trans herr)

/-- Settles O48: the line is the two flags under their enables, and no command sets both flags. -/
theorem irqLine : Obligations.IrqLine :=
  ⟨fun s => by simp only [State.irq, Bool.or_eq_true, Bool.and_eq_true], rfl, fun _ _ _ => exec_not_done_and_err⟩

/-! ### Every step ends -/

/-- A step from the invariant ends in a next state or is a host access outside the interface (R65, R73, R311). -/
theorem step_ends {s : State} (h : Inv s) : (∃ t, step s = .next t) ∨ step s = .refused .hostAccessOutside := by
  cases hi : s.inbox with
  | nil => exact .inl ⟨s, step_of_inbox_nil hi⟩
  | cons m rest =>
    rw [step_of_inbox_cons hi]
    exact (hostMove_inv m (setInbox_inv rest h)).imp_left fun ⟨t, ht, _⟩ => ⟨t, ht⟩

/-- Settles O56: no body gets stuck under the invariant, so a step ends or its move is turned away. -/
theorem everyCommandEnds : Obligations.EveryCommandEnds := by
  intro s h
  refine ⟨fun i => (exec_inv i h).imp fun _ => And.left, fun f hf => ?_, fun r hr => ?_⟩
  · obtain ⟨t, ht⟩ | href := step_ends h
    · exact nomatch ht.symm.trans hf
    · exact nomatch href.symm.trans hf
  · obtain ⟨t, ht⟩ | href := step_ends h
    · exact nomatch ht.symm.trans hr
    · exact Host.Outcome.refused.inj (hr.symm.trans href)

end Sys2Proof.Machine
end
